-- ==== Sys2Proof/Word.lean ====
section
/-! DEFINITION. The words, addresses and numbers of the Fenbrace QL-16 (00 *Conventions*). -/

namespace Sys2Proof

/-- A word is 4 bytes (00 *Numbers, sizes and addresses*). -/
abbrev Word := BitVec 32

/-- Addresses are 36-bit byte addresses (00 *Numbers, sizes and addresses*). -/
abbrev Addr := BitVec 36

/-- Requesters are numbered 0 to 7 (00 *Names*). -/
abbrev Requester := Fin 8

/-- Lanes are numbered 0 to 15 (00 *Names*). -/
abbrev LaneId := Fin 16

/-- Frame records are numbered 0 to 4095 (R1). -/
abbrev RecordId := Fin 4096

/-- The all-ones word a refused read carries (00 *Transactions and responses*). -/
def allOnes : Word := 0xFFFFFFFF#32

end Sys2Proof
end

