-- ==== Sys2Proof/Syntax.lean ====
section
/-! DEFINITION. The commands of the block: one constructor for each row of spec/opcode_table.json. -/

namespace Sys2Proof

/-- The direction of an access (R140). -/
inductive Dir where
  | read
  | write
  deriving DecidableEq, Repr

/-- One word of a write with its byte enables (00 *Transactions and responses*). -/
structure BusWord where
  data : Word
  enables : BitVec 4
  deriving DecidableEq, Repr

/-- What a transaction asks for: a read of a number of words, or a write of the words listed. -/
inductive TxnBody where
  | read (length : Nat)
  | write (words : List BusWord)
  deriving DecidableEq, Repr

/-- A U-port transaction (00 *Transactions and responses*): kind, length, byte enables and data in `body`. -/
structure Txn where
  requester : Requester
  addr : Addr
  body : TxnBody
  deriving DecidableEq, Repr

namespace Txn

/-- The transaction's length in words. -/
def length (t : Txn) : Nat :=
  match t.body with
  | .read n => n
  | .write ws => ws.length

/-- The transaction's kind, READ or WRITE. -/
def dir (t : Txn) : Dir :=
  match t.body with
  | .read _ => .read
  | .write _ => .write

/-- The words a read answers with; a write answers with none. -/
def readLength (t : Txn) : Nat :=
  match t.body with
  | .read n => n
  | .write _ => 0

/-- The data a fault report carries for a requester's transaction: the first word of the write data, or all ones
for a read (R110, R140). -/
def reportData (t : Txn) : Word :=
  match t.body with
  | .read _ => allOnes
  | .write [] => allOnes
  | .write (w :: _) => w.data

end Txn

/-- The memory controller's response to one access: OKAY with what it returns, or an error (R174). -/
inductive DResp (α : Type) where
  | okay (data : α)
  | error
  deriving DecidableEq, Repr

/-- The commands of the block, one for each row of the table. -/
inductive Instr where
  /-- RST_N goes low (R178). -/
  | pinReset
  /-- RST_N is released with BYP low; `cbase` is on the CBASE pins (R176). -/
  | resetReleaseLoading (cbase : BitVec 20)
  /-- RST_N is released with BYP high; `cbase` is on the CBASE pins (R177). -/
  | resetReleaseBypass (cbase : BitVec 20)
  /-- The tick divider reaches the tick period (R126, R128). -/
  | leaseTick
  /-- A tick's claim on one frame of a lane whose lease remaining is 1 (R131). -/
  | leaseExpiry (l : LaneId) (frame : Fin 1024)
  /-- The timer of the engine access at this place of the in-flight list reaches its value (R150). -/
  | engineAccessTimeout (place : Fin 32)
  /-- A PLAIN transaction, a CONTROL read or a RING read arrives (R108). -/
  | passthroughTransaction (t : Txn)
  /-- A write to the Control Block arrives (R105). -/
  | controlWrite (t : Txn)
  /-- A write to a ring region arrives (R107). -/
  | ringRegionWrite (t : Txn)
  /-- A direct frame-region access arrives (R117). -/
  | frameAccess (t : Txn)
  /-- An aperture access arrives (R113). -/
  | apertureAccess (t : Txn)
  /-- A one-word read of the ACQUIRE word of the port region at `base` (R57). -/
  | acquire (r : Requester) (base : Addr)
  /-- A full one-word write of the POST word of the port region at `base` (R60). -/
  | post (r : Requester) (base : Addr) (data : Word)
  /-- A full one-word write of the POST_URGENT word (R61). -/
  | postUrgent (r : Requester) (base : Addr) (data : Word)
  /-- A full one-word write of the RELEASE word (R64). -/
  | release (r : Requester) (base : Addr) (data : Word)
  /-- A one-word read of the TAKE word (R65). -/
  | take (r : Requester) (base : Addr)
  /-- A one-word read of the PEEK word (R66). -/
  | peek (r : Requester) (base : Addr)
  /-- A one-word read of the COUNT word (R67). -/
  | count (r : Requester) (base : Addr)
  /-- An ACQUIRE's RING_READ completes (R58, R59). -/
  | acquireCommit (resp : DResp Word)
  /-- A TAKE's RING_READ completes (R65). -/
  | takeCommit (resp : DResp Word)
  /-- A PEEK's RING_READ completes (R66). -/
  | peekCompletion (resp : DResp Word)
  /-- The RING_WRITE of a POST, POST_URGENT or RELEASE completes (R62). -/
  | slotWriteCompletion (resp : DResp Unit)
  /-- The reclaim service of the lane starts a reclaim write (R43). -/
  | reclaimWriteStart (l : LaneId)
  /-- A reclaim write completes (R44). -/
  | reclaimWriteCompletion (resp : DResp Unit)
  /-- The priming walk of the lane starts a priming write (R83). -/
  | primeWriteStart (l : LaneId)
  /-- A PRIME_WRITE completes (R84). -/
  | primeWriteCompletion (resp : DResp Unit)
  /-- The D-port completes a pass-through access (R174). -/
  | passthroughCompletion (resp : DResp (List Word))
  /-- A slot that came free goes to the first waiting claimant that can use it (R172). -/
  | slotClaimPlace
  /-- The D-port can take an access and the arbiter grants one (R173). -/
  | arbiterGrant
  /-- The late response of a timed-out access arrives (R151). -/
  | lateResponseDiscard
  /-- A response owed from before pin reset arrives (R178). -/
  | owedResponseDiscard
  /-- The oldest transaction of the requester is answered (R109). -/
  | responseDelivery (r : Requester)
  /-- The Command Unit carries out OPEN_LANE (R75). -/
  | openLane
  /-- A DESC_READ completes (R76). -/
  | descReadCompletion (resp : DResp (Vector Word 16))
  /-- The Command Unit carries out CLOSE_LANE (R91). -/
  | closeLane
  /-- The Command Unit carries out FORCE_CLOSE (R94). -/
  | forceClose
  /-- The Command Unit carries out PAUSE_LANE (R81). -/
  | pauseLane
  /-- The Command Unit carries out RESUME_LANE (R90). -/
  | resumeLane
  /-- The Command Unit carries out STEP_LANE (R81). -/
  | stepLane
  /-- The Command Unit carries out HALT_LANE (R88). -/
  | haltLane
  /-- The Command Unit carries out CLEAR_TRAP (R144). -/
  | clearTrap
  /-- The Command Unit carries out ACK_IRQ (R160). -/
  | ackIrq
  /-- The Command Unit carries out SNAPSHOT (R161). -/
  | snapshot
  /-- The Command Unit carries out RELOAD_GLOBALS (R162). -/
  | reloadGlobals
  /-- The GLOBAL_READ of RELOAD_GLOBALS completes (R162). -/
  | reloadGlobalsReadCompletion (resp : DResp (Vector Word 16))
  /-- The Command Unit carries out RESET_ALL (R163). -/
  | resetAll
  /-- The clearing of RESET_ALL (R163). -/
  | resetAllClearing
  /-- The Command Unit refuses a command whose opcode names none (R157). -/
  | badOpcodeCommand
  /-- A RESULT_WRITE completes (R158). -/
  | resultWriteCompletion (resp : DResp Unit)
  /-- The start-up GLOBAL_READ completes (R176). -/
  | globalReadCompletion (resp : DResp (Vector Word 16))
  /-- The Status Record writer places a STATUS_WRITE (R164). -/
  | statusWritePlace
  /-- A STATUS_WRITE completes (R164). -/
  | statusWriteCompletion (resp : DResp Unit)
  /-- A Lane Status Record write called for is placed (R166). -/
  | laneStatusWritePlace (l : LaneId)
  /-- A LANE_STATUS_WRITE completes (R166). -/
  | laneStatusWriteCompletion (resp : DResp Unit)
  /-- A CLOSING lane whose drain condition holds reaches OFF (R93). -/
  | laneDrainComplete (l : LaneId)
  /-- A FLUSHING lane with no ring access left reaches OFF (R96). -/
  | laneTeardown (l : LaneId)
  /-- An access the port-word area does not serve arrives (R48). -/
  | portUndefinedAccess (t : Txn)
  deriving DecidableEq, Repr

end Sys2Proof
end

