-- ==== Sys2Proof/Decode.lean ====
section
/-! DEFINITION. The commands a word spells by the bits of spec/opcode_table.json. The table gives none of its 57 rows
bits (no row has "fixed" bits or fields), so no word spells a command (log 12). -/

namespace Sys2Proof

/-- The command a word spells by the table's bits: none, for the table gives no row bits (log 12). -/
def decodeTableWord (_nbits _w : Nat) : Option Instr := none

end Sys2Proof
end

