-- ==== Sys2Proof/Config.lean ====
section
/-! DEFINITION. What silicon revision B fixes, and the one free value of the model. -/

namespace Sys2Proof.Config

/-- The pass-through queue holds at most 32 transactions (R108, R170). -/
def passDepth : Nat := 32

/-- The engine queue holds at most 16 requests (R171). -/
def engineDepth : Nat := 16

/-- The in-flight list holds at most 32 accesses (R174). -/
def inflightDepth : Nat := 32

/-- A requester's response list holds at most 32 transactions (R109). -/
def responseDepth : Nat := 32

/-- The signature word of a valid Global Record (R155). -/
def signature : Word := 0x514C3136#32

/-- FREE VALUE, DESIGN CHOICE (log 6). Where the manual says that events which come together take either order
(R143, R150, R172), the order is drawn from this constant, which has no body: the n-th draw is `tieOrder n`. -/
opaque tieOrder : Nat → Nat

end Sys2Proof.Config
end

