-- ==== Sys2Proof/Machine/State.lean ====
section
/-! DEFINITION. The state of the QL-16 as plain data, with the values pin reset gives it (R178). -/

namespace Sys2Proof.Machine

/-! ### Frame Table (chapter 1) -/

/-- The state of a frame record with the fields present in it (R4): holder and lease remaining belong to HELD and
TAKEN alone, and lease remaining only where the lane's lease ticks are not 0. -/
inductive Standing where
  | idle
  | free
  | held (holder : Requester) (lease : Option Nat)
  | queued
  | taken (holder : Requester) (lease : Option Nat)
  | reclaim
  deriving DecidableEq, Repr

/-- A frame record: its standing and its generation, counted modulo 16 (R4, R15). -/
structure FrameRec where
  standing : Standing
  gen : BitVec 4
  deriving DecidableEq, Repr

/-- The record pin reset leaves: IDLE, generation 0 (R5). -/
def FrameRec.reset : FrameRec := { standing := .idle, gen := 0#4 }

/-! ### Ring Controller (chapter 2) -/

/-- A lane's two rings (R25). -/
inductive RingKind where
  | free
  | work
  deriving DecidableEq, Repr

/-- Whether a slot access of a ring is claimed (R33). -/
inductive Access where
  | idle
  | reading
  | writing
  deriving DecidableEq, Repr

/-- Base and size of a ring, copied at OPEN_LANE (R26). -/
structure RingGeom where
  base : Addr
  size : Nat
  deriving DecidableEq, Repr

/-- The slot write of an accepted POST, POST_URGENT or RELEASE while it waits for its fence or for an engine queue
slot (R62, R68): the requester, the slot address, the entry word to write, the requester's own write data and the
fence count. -/
structure SlotWrite where
  requester : Requester
  addr : Addr
  entry : Word
  opData : Word
  fence : Nat
  deriving DecidableEq, Repr

/-- The values the Ring Controller holds for one ring (R26); `geom` is none while no base and size are in force. -/
structure Ring where
  geom : Option RingGeom
  head : Nat
  tail : Nat
  count : Nat
  access : Access
  fenced : Option SlotWrite
  deriving DecidableEq, Repr

/-- A ring as pin reset leaves it (R26). -/
def Ring.reset : Ring :=
  { geom := none, head := 0, tail := 0, count := 0, access := .idle, fenced := none }

/-! ### Lane Engine (chapter 4) -/

/-- The eight lane states (R74, R80). -/
inductive LaneState where
  | off
  | priming
  | opened
  | paused
  | step
  | halted
  | closing
  | flushing
  deriving DecidableEq, Repr

/-- Why a lane is HALTED (R74, R88). -/
inductive HaltReason where
  | none
  | command
  | policy
  | corrupt
  | memory
  deriving DecidableEq, Repr

/-- The guard levels (R117). -/
inductive Guard where
  | none
  | write
  | full
  deriving DecidableEq, Repr

/-- The copied lane descriptor (R73). `haltSet` holds bit k for fault kind code k. -/
structure Descriptor where
  portBase : Addr
  frameBase : Addr
  frameSize : Nat
  frameCount : Nat
  firstRecord : Nat
  freeBase : Addr
  freeSize : Nat
  workBase : Addr
  workSize : Nat
  producers : BitVec 8
  consumers : BitVec 8
  limit : Nat
  leaseTicks : Nat
  renew : Bool
  guard : Guard
  haltSet : BitVec 11
  watermark : Nat
  enables : BitVec 6
  deriving DecidableEq, Repr

/-- The eight lane statistics (R55). -/
structure Stats where
  acquires : Nat
  posts : Nat
  takes : Nat
  releases : Nat
  retries : Nat
  empties : Nat
  faults : Nat
  expiries : Nat
  deriving DecidableEq, Repr

/-- All eight statistics at 0 (R55). -/
def Stats.zero : Stats :=
  { acquires := 0, posts := 0, takes := 0, releases := 0, retries := 0, empties := 0, faults := 0, expiries := 0 }

/-- An entry of a lane's reclaim list: the lane frame index and the former holder (R133). -/
structure ReclaimEntry where
  frame : Nat
  former : Requester
  deriving DecidableEq, Repr

/-- What the blocks hold for one lane. Checkout counts and bindings are indexed by requester; a binding names a
record number or is empty (R21, R23). -/
structure Lane where
  state : LaneState
  haltReason : HaltReason
  desc : Option Descriptor
  enables : BitVec 6
  causes : BitVec 6
  stats : Stats
  primePos : Nat
  freeRing : Ring
  workRing : Ring
  checkout : Vector Nat 8
  prodBind : Vector (Option RecordId) 8
  consBind : Vector (Option RecordId) 8
  reclaim : List ReclaimEntry
  lsrWaiting : Bool
  deriving DecidableEq, Repr

/-- A lane as pin reset leaves it: the reset column of R74, with its part of the other blocks (R178). -/
def Lane.reset : Lane :=
  { state := .off, haltReason := .none, desc := none, enables := 0#6, causes := 0#6, stats := Stats.zero, primePos := 0,
    freeRing := Ring.reset, workRing := Ring.reset, checkout := Vector.replicate 8 0,
    prodBind := Vector.replicate 8 none, consBind := Vector.replicate 8 none, reclaim := [], lsrWaiting := false }

/-! ### U-port (chapter 5) -/

/-- The responses of the U-port (00 *Transactions and responses*); a refused read carries all-ones data. -/
inductive Response where
  | okay (data : List Word)
  | retry
  | fault (data : List Word)
  deriving DecidableEq, Repr

/-- What an unanswered transaction waits for: its pass-through access, or the slot access of a ring. -/
inductive Await where
  | pass
  | ring (l : LaneId) (k : RingKind)
  deriving DecidableEq, Repr

/-- Whether the response of a transaction has been decided (R109). -/
inductive Standby where
  | waiting (on : Await)
  | decided (resp : Response)
  deriving DecidableEq, Repr

/-- A transaction on a requester's list: the words a read of it carries, and its response so far (R109). -/
structure Unanswered where
  readLength : Nat
  standby : Standby
  deriving DecidableEq, Repr

/-- What the U-port keeps for one requester (R68, R109). -/
structure UPort where
  list : List Unanswered
  forwarded : Nat
  deriving DecidableEq, Repr

/-- A U-port as pin reset leaves it (R178). -/
def UPort.reset : UPort := { list := [], forwarded := 0 }

/-- A response on the U-port, with the requester it goes to (R109). -/
structure Delivered where
  requester : Requester
  resp : Response
  deriving DecidableEq, Repr

/-! ### Fault Unit (chapter 8) -/

/-- The fourteen fault kinds (R140). -/
inductive FaultKind where
  | portUndefined
  | role
  | badHandle
  | stale
  | notHolder
  | badLength
  | noBinding
  | apertureRange
  | guarded
  | split
  | laneHalted
  | laneClosing
  | ringCorrupt
  | memoryError
  deriving DecidableEq, Repr

/-- A fault report (R140); NONE is none. -/
structure Report where
  kind : FaultKind
  lane : Option LaneId
  requester : Option Requester
  addr : Addr
  dir : Dir
  data : Word
  deriving DecidableEq, Repr

/-- The trap record (R142): occupied when `stored` holds a report. -/
structure Trap where
  stored : Option Report
  overflow : Nat
  deriving DecidableEq, Repr

/-- The trap not occupied (R142). -/
def Trap.empty : Trap := { stored := none, overflow := 0 }

/-! ### D-port and Memory Arbiter (chapter 10) -/

/-- An entry of the pass-through queue (R170): the transaction with its address as forwarded, the lane in whose region
it was classified, and a mark on the accepted write of the CMD word (R106). -/
structure PassEntry where
  txn : Txn
  lane : Option LaneId
  cmd : Bool
  deriving DecidableEq, Repr

/-- The port operations that read a ring slot. -/
inductive ReadOp where
  | acquire
  | take
  | peek
  deriving DecidableEq, Repr

/-- The ring a read-side operation reads (R33). -/
def ReadOp.ring : ReadOp → RingKind
  | .acquire => .free
  | .take => .work
  | .peek => .work

/-- The engine requests (R171). A RING_WRITE is a port operation's slot write or a reclaim write. -/
inductive EngineReq where
  | ringRead (l : LaneId) (op : ReadOp) (r : Requester) (addr : Addr)
  | ringWrite (l : LaneId) (k : RingKind) (w : SlotWrite)
  | reclaimWrite (l : LaneId) (addr : Addr) (entry : Word)
  | primeWrite (l : LaneId) (addr : Addr) (entry : Word)
  | descRead (l : LaneId)
  | globalRead
  | statusWrite
  | laneStatusWrite (l : LaneId) (words : List Word)
  | resultWrite (word : Word) (final : Bool)
  deriving DecidableEq, Repr

/-- An access the D-port has issued, by its source. -/
inductive Issued where
  | pass (e : PassEntry)
  | engine (q : EngineReq)
  deriving DecidableEq, Repr

/-- An engine access timer: the value it runs to and its count of whole REFCLK periods (R150). -/
structure Timer where
  limit : Nat
  elapsed : Nat
  deriving DecidableEq, Repr

/-- An access on the in-flight list (R174): the words an engine write carries as issued, its timer where it has one,
and whether it has timed out and only keeps its place (R151). -/
structure InFlight where
  access : Issued
  words : List Word
  timer : Option Timer
  late : Bool
  deriving DecidableEq, Repr

/-- The two sources of the arbiter (R173). -/
inductive Source where
  | passThrough
  | engine
  deriving DecidableEq, Repr

/-- The claimants waiting for an engine queue slot, other than the Command Unit's (R172). -/
inductive Claimant where
  | status
  | fenced (l : LaneId) (k : RingKind)
  | prime (l : LaneId)
  | reclaim (l : LaneId)
  | laneStatus (l : LaneId)
  deriving DecidableEq, Repr

/-- The requests the Command Unit calls for (R156, R172). -/
inductive CuCall where
  | result (word : Word) (final : Bool)
  | descRead (l : LaneId)
  | globalRead
  | snapshot (l : LaneId)
  deriving DecidableEq, Repr

/-! ### Command Unit (chapter 9) -/

/-- The part states (R175). -/
inductive PartState where
  | heldInReset
  | loading
  | active
  | pass
  | bypass
  deriving DecidableEq, Repr

/-- The settings of the Global Record (R155). -/
structure Globals where
  tickPeriod : BitVec 16
  memoryTimeout : BitVec 16
  enableTrap : Bool
  enableMemory : Bool
  deriving DecidableEq, Repr

/-- How far the current command has come (R156 to R158): its CMD write is still to complete; it is to be carried out;
it waits for its DESC_READ; it waits for its GLOBAL_READ; RESET_ALL waits for its clearing; its final RESULT_WRITE has
been called for. -/
inductive CmdPhase where
  | accepted
  | ready
  | readingDescriptor
  | readingGlobals
  | resetting
  | finishing
  deriving DecidableEq, Repr

/-- The current command (R156). -/
structure Running where
  word : Word
  phase : CmdPhase
  deriving DecidableEq, Repr

/-- Where the Status Record writer's write stands before its issue (R164). -/
inductive WriteStage where
  | waiting
  | queued
  | issued
  deriving DecidableEq, Repr

/-- The Status Record writer (R164). -/
inductive Writer where
  | idle
  | writing (stage : WriteStage)
  | dirty
  deriving DecidableEq, Repr

/-- No command of the block stops the part with a fault: its faults are answers, trap entries and lane halts, which are
effects on the state (chapter 8). The type has no constructor. -/
inductive Fault where
  deriving DecidableEq, Repr

/-- Why a command is given no meaning. -/
inductive Refusal where
  /-- Raised by `exec` alone, for a command the model gives no meaning yet. Safe: nothing is claimed of it. -/
  | notModelled (mnemonic : String)
  /-- Raised by the arrivals whose operand is no U-port transaction, or no write where the row is a write (00
  *Transactions and responses*; log 10). Safe: the spec gives such an operand no effect, and the model none. -/
  | notATransaction
  deriving DecidableEq, Repr

/-- The state of the part, with the queue of the commands that wait. -/
structure State where
  part : PartState
  cbase : BitVec 20
  globals : Option Globals
  trapPending : Bool
  memoryPending : Bool
  cmd : Option Running
  cuCalls : List CuCall
  writer : Writer
  qirq : Bool
  lanes : Vector Lane 16
  frames : Vector FrameRec 4096
  divider : Nat
  trap : Trap
  uports : Vector UPort 8
  delivered : Option Delivered
  passQ : List PassEntry
  engQ : List EngineReq
  waiting : List Claimant
  lastGrant : Source
  inflight : List InFlight
  owed : Nat
  draws : Nat
  pending : List Instr
  deriving DecidableEq, Repr

/-- The part held in reset with every value as pin reset leaves it (R178), nothing owed by the memory controller and no
CBASE sampled yet (log 7). -/
def State.reset : State :=
  { part := .heldInReset, cbase := 0#20, globals := none, trapPending := false, memoryPending := false, cmd := none,
    cuCalls := [], writer := .idle, qirq := false, lanes := Vector.replicate 16 Lane.reset,
    frames := Vector.replicate 4096 FrameRec.reset, divider := 0, trap := Trap.empty,
    uports := Vector.replicate 8 UPort.reset, delivered := none, passQ := [], engQ := [], waiting := [],
    lastGrant := .engine, inflight := [], owed := 0, draws := 0, pending := [] }

end Sys2Proof.Machine
end

