-- ==== Sys2Proof/Machine/Operands.lean ====
section
/-! DEFINITION. The formats of every word and record that software sees (R169): the operands the part reads out of
words, and the words it writes or returns. -/

namespace Sys2Proof.Machine

/-- The number in the `n` bits of a word from bit `lo` up. -/
def field (w : Word) (lo n : Nat) : Nat := (w.extractLsb' lo n).toNat

/-! ### Codes -/

/-- Lane state codes (R169). -/
def LaneState.code : LaneState → BitVec 3
  | .off => 0#3
  | .priming => 1#3
  | .opened => 2#3
  | .paused => 3#3
  | .step => 4#3
  | .halted => 5#3
  | .closing => 6#3
  | .flushing => 7#3

/-- Halt reason codes (R169). -/
def HaltReason.code : HaltReason → BitVec 3
  | .none => 0#3
  | .command => 1#3
  | .policy => 2#3
  | .corrupt => 3#3
  | .memory => 4#3

/-- Part state codes (R169); the part writes no record while held in reset. -/
def PartState.code : PartState → BitVec 2
  | .heldInReset => 0#2
  | .loading => 0#2
  | .active => 1#2
  | .pass => 2#2
  | .bypass => 3#2

/-- Fault kind codes (R169). -/
def FaultKind.code : FaultKind → Nat
  | .portUndefined => 1
  | .role => 2
  | .badHandle => 3
  | .stale => 4
  | .notHolder => 5
  | .badLength => 6
  | .noBinding => 7
  | .apertureRange => 8
  | .guarded => 9
  | .split => 10
  | .laneHalted => 11
  | .laneClosing => 12
  | .ringCorrupt => 13
  | .memoryError => 14

/-- The twelve commands (R157). -/
inductive Opcode where
  | openLane
  | closeLane
  | forceClose
  | pauseLane
  | resumeLane
  | stepLane
  | haltLane
  | clearTrap
  | ackIrq
  | snapshot
  | reloadGlobals
  | resetAll
  deriving DecidableEq, Repr

/-- The command an opcode names; 0 and 13-15 name none (R169). -/
def Opcode.ofCode : Nat → Option Opcode
  | 1 => some .openLane
  | 2 => some .closeLane
  | 3 => some .forceClose
  | 4 => some .pauseLane
  | 5 => some .resumeLane
  | 6 => some .stepLane
  | 7 => some .haltLane
  | 8 => some .clearTrap
  | 9 => some .ackIrq
  | 10 => some .snapshot
  | 11 => some .reloadGlobals
  | 12 => some .resetAll
  | _ => none

/-- The reasons of the RESULT word (R169). -/
inductive Reason where
  | none
  | notOff
  | badState
  | badOpcode
  | notActive
  | badGlobals
  | memory
  | badField
  | misaligned
  | freeRingSmall
  | noRole
  | sliceOverlap
  | regionOverlap
  deriving DecidableEq, Repr

/-- Reason codes (R169). -/
def Reason.code : Reason → BitVec 8
  | .none => 0#8
  | .notOff => 1#8
  | .badState => 2#8
  | .badOpcode => 3#8
  | .notActive => 4#8
  | .badGlobals => 5#8
  | .memory => 6#8
  | .badField => 7#8
  | .misaligned => 8#8
  | .freeRingSmall => 9#8
  | .noRole => 10#8
  | .sliceOverlap => 11#8
  | .regionOverlap => 12#8

/-! ### Entry, handle, tokens -/

/-- The kinds of an entry word (R35). -/
inductive EntryKind where
  | primed
  | returned
  | reclaimed
  | posted
  deriving DecidableEq, Repr

/-- Entry kind codes (R169). -/
def EntryKind.code : EntryKind → BitVec 2
  | .primed => 0#2
  | .returned => 1#2
  | .reclaimed => 2#2
  | .posted => 3#2

/-- The entry kind a code names (R169). -/
def EntryKind.ofCode (c : BitVec 2) : EntryKind :=
  if c = 0#2 then .primed else if c = 1#2 then .returned else if c = 2#2 then .reclaimed else .posted

/-- The fields of an entry word other than its parity and bit 31 (R35). -/
structure Entry where
  index : BitVec 10
  gen : BitVec 4
  length : BitVec 10
  origin : BitVec 3
  kind : EntryKind
  urgent : Bool
  deriving DecidableEq, Repr

/-- The number of ones in the low `n` bits of a word. -/
def onesBelow (n : Nat) (w : Word) : Nat := (List.range n).countP fun i => w.getLsbD i

/-- Bits 0-29 of an entry word (R169). -/
def Entry.body (e : Entry) : BitVec 30 :=
  BitVec.ofBool e.urgent ++ e.kind.code ++ e.origin ++ e.length ++ e.gen ++ e.index

/-- The parity bit of an entry: set exactly when bits 0-29 hold an odd number of ones (R36). -/
def entryParity (body : BitVec 30) : Bool := onesBelow 30 (0#2 ++ body) % 2 == 1

/-- The entry word of the fields: parity in bit 30, bit 31 clear (R35, R36, R169). -/
def Entry.word (e : Entry) : Word := 0#1 ++ BitVec.ofBool (entryParity e.body) ++ e.body

/-- The fields of a word read from a ring slot (R169). -/
def Entry.ofWord (w : Word) : Entry :=
  { index := w.extractLsb' 0 10
    gen := w.extractLsb' 10 4
    length := w.extractLsb' 14 10
    origin := w.extractLsb' 24 3
    kind := EntryKind.ofCode (w.extractLsb' 27 2)
    urgent := w.getLsbD 29 }

/-- The handle word ACQUIRE returns: index and generation, every other bit zero (R58, R169). -/
def handleWord (index : BitVec 10) (gen : BitVec 4) : Word := 0#18 ++ gen ++ index

/-- The EMPTY token (R169). -/
def emptyToken : Word := 0xFFFFFFFF#32

/-- The LIMIT token (R169). -/
def limitToken : Word := 0xFFFFFFFE#32

/-- The frame index quoted by POST, POST_URGENT or RELEASE data (R52). -/
def quotedIndex (w : Word) : Nat := field w 0 10

/-- The generation quoted (R52). -/
def quotedGen (w : Word) : BitVec 4 := w.extractLsb' 10 4

/-- The length field of POST data (R52). -/
def quotedLength (w : Word) : BitVec 10 := w.extractLsb' 14 10

/-- Bit 31 of the data; set is BAD_HANDLE (R18). -/
def quotedTop (w : Word) : Bool := w.getLsbD 31

/-- The COUNT word (R67, R169). -/
def countWord (free work : Nat) (st : LaneState) (checkout : Nat) : Word :=
  0#1 ++ BitVec.ofNat 4 checkout ++ st.code ++ 0#1 ++ BitVec.ofNat 11 work ++ 0#1 ++ BitVec.ofNat 11 free

/-! ### CMD word, RESULT word, Global Record -/

/-- The opcode field of a CMD word (R169). -/
def cmdOpcode (w : Word) : Nat := field w 0 4

/-- The lane field of a CMD word (R169). -/
def cmdLane (w : Word) : LaneId := Fin.ofNat 16 (field w 4 4)

/-- The tag of a CMD word (R169). -/
def cmdTag (w : Word) : BitVec 8 := w.extractLsb' 8 8

/-- The argument of a CMD word (R169). -/
def cmdArgument (w : Word) : BitVec 16 := w.extractLsb' 16 16

/-- The RESULT word of a command: tag and opcode echoed, outcome REFUSED for a reason other than NONE, busy, reason
(R156, R158, R169). -/
def resultWord (cmd : Word) (reason : Reason) (busy : Bool) : Word :=
  0#8 ++ reason.code ++ (cmd.extractLsb' 0 4 : BitVec 4) ++ 0#2 ++ BitVec.ofBool busy
    ++ BitVec.ofBool (decide (reason ≠ .none)) ++ cmdTag cmd

/-- The settings of a Global Record read (R155, R169). -/
def globalsOf (ws : Vector Word 16) : Globals :=
  { tickPeriod := ws[1].extractLsb' 0 16
    memoryTimeout := ws[2].extractLsb' 0 16
    enableTrap := ws[3].getLsbD 8
    enableMemory := ws[3].getLsbD 9 }

/-- The settings a GLOBAL_READ brings into force: those of a valid read, one that completes without error with the
signature (R155). -/
def validGlobals : DResp (Vector Word 16) → Option Globals
  | .error => none
  | .okay ws => if ws[0] = Config.signature then some (globalsOf ws) else none

/-! ### Lane descriptor -/

/-- The frame size of a code; 6 and 7 name none (R169). -/
def frameSizeOf : Nat → Option Nat
  | 0 => some 64
  | 1 => some 128
  | 2 => some 256
  | 3 => some 512
  | 4 => some 1024
  | 5 => some 2048
  | _ => none

/-- The ring size of a code; 7 names none (R169). -/
def ringSizeOf : Nat → Option Nat
  | 0 => some 16
  | 1 => some 32
  | 2 => some 64
  | 3 => some 128
  | 4 => some 256
  | 5 => some 512
  | 6 => some 1024
  | _ => none

/-- The guard level of a code; 3 names none (R169). -/
def guardOf : Nat → Option Guard
  | 0 => some .none
  | 1 => some .write
  | 2 => some .full
  | _ => none

/-- A base address from its two words: bits 31-0, and bits 35-32 in the second word's bits 0-3 (R169). -/
def baseOf (lo hi : Word) : Addr := (hi.extractLsb' 0 4 : BitVec 4) ++ lo

/-- Bits 1-10 of a halt-on-fault word: LANE_HALTED, LANE_CLOSING and all other bits are not copied (R73, R169). -/
def haltSetOf (w : Word) : BitVec 11 := (w.extractLsb' 1 10 : BitVec 10) ++ 0#1

/-- The lane descriptor as read, none where a code names nothing (R77, R169). -/
def descriptorOf (ws : Vector Word 16) : Option Descriptor := do
  let frameSize ← frameSizeOf (field ws[8] 12 3)
  let freeSize ← ringSizeOf (field ws[9] 0 3)
  let workSize ← ringSizeOf (field ws[9] 4 3)
  let guard ← guardOf (field ws[9] 28 2)
  return {
    portBase := baseOf ws[0] ws[1]
    frameBase := baseOf ws[2] ws[3]
    frameSize := frameSize
    frameCount := field ws[8] 0 11
    firstRecord := field ws[8] 16 12
    freeBase := baseOf ws[4] ws[5]
    freeSize := freeSize
    workBase := baseOf ws[6] ws[7]
    workSize := workSize
    producers := ws[10].extractLsb' 0 8
    consumers := ws[10].extractLsb' 8 8
    limit := field ws[9] 8 4
    leaseTicks := field ws[9] 16 8
    renew := ws[9].getLsbD 24
    guard := guard
    haltSet := haltSetOf ws[11]
    watermark := field ws[10] 16 10
    enables := ws[12].extractLsb' 0 6 }

/-! ### The Control Block and its records -/

/-- The Control Block base: CBASE gives bits 35-16, bits 15-0 are zero (R154). -/
def State.controlBase (s : State) : Nat := s.cbase.toNat * 65536

/-- The address at an offset of the Control Block. -/
def State.controlAddr (s : State) (offset : Nat) : Addr := BitVec.ofNat 36 (s.controlBase + offset)

/-- The address of the RESULT word (R154). -/
def State.resultAddr (s : State) : Addr := s.controlAddr 0x044

/-- The address of the Status Record (R169). -/
def State.statusAddr (s : State) : Addr := s.controlAddr 0x080

/-- The address of a Lane Status Record (R169). -/
def State.laneStatusAddr (s : State) (l : LaneId) : Addr := s.controlAddr (0x100 + 64 * l.val)

/-- The address of a lane descriptor (R169). -/
def State.descAddr (s : State) (l : LaneId) : Addr := s.controlAddr (0x800 + 64 * l.val)

/-- The lane summary word of the Status Record (R165, R169). -/
def summaryWord (st : LaneState) (reason : HaltReason) (causes : BitVec 6) : Word :=
  0#17 ++ reason.code ++ 0#1 ++ st.code ++ 0#2 ++ causes

/-- Word 0 of the Status Record (R169). -/
def statusHead (part : PartState) (trapPending memoryPending : Bool) : Word :=
  0#22 ++ BitVec.ofBool memoryPending ++ BitVec.ofBool trapPending ++ 0#6 ++ part.code

/-- Words 1 to 4 of the Status Record; the stored fields are 0 while the trap is not occupied (R165, R169). -/
def trapWords (t : Trap) : List Word :=
  let overflow := BitVec.ofNat 8 t.overflow
  match t.stored with
  | none => [overflow ++ 0#24, 0#32, 0#32, 0#32]
  | some f =>
    let lane : BitVec 5 := match f.lane with
      | none => 31#5
      | some l => BitVec.ofNat 5 l.val
    let req : BitVec 4 := match f.requester with
      | none => 15#4
      | some r => BitVec.ofNat 4 r.val
    [overflow ++ 0#4 ++ req ++ 0#3 ++ lane ++ 0#2 ++ BitVec.ofBool (decide (f.dir = .write))
        ++ BitVec.ofNat 4 f.kind.code ++ 1#1,
      f.addr.extractLsb' 0 32, 0#28 ++ (f.addr.extractLsb' 32 4 : BitVec 4), f.data]

/-- The words of a Lane Status Record (R166, R169). -/
def Lane.statusRecord (ln : Lane) : List Word :=
  [BitVec.ofNat 32 ln.stats.acquires, BitVec.ofNat 32 ln.stats.posts, BitVec.ofNat 32 ln.stats.takes,
    BitVec.ofNat 32 ln.stats.releases, BitVec.ofNat 32 ln.stats.retries, BitVec.ofNat 32 ln.stats.empties,
    BitVec.ofNat 32 ln.stats.faults, BitVec.ofNat 32 ln.stats.expiries,
    0#5 ++ BitVec.ofNat 11 ln.workRing.count ++ 0#5 ++ BitVec.ofNat 11 ln.freeRing.count,
    0#13 ++ ln.haltReason.code ++ 0#5 ++ BitVec.ofNat 11 ln.reclaim.length] ++ List.replicate 6 0#32

/-- What the Status Record shows (R164): a change is an event that alters one of these values. -/
structure StatusContents where
  part : PartState
  trapPending : Bool
  memoryPending : Bool
  trap : Trap
  lanes : List (LaneState × HaltReason × BitVec 6)
  deriving DecidableEq, Repr

/-- The contents as they stand (R164). -/
def State.statusContents (s : State) : StatusContents :=
  { part := s.part, trapPending := s.trapPending, memoryPending := s.memoryPending, trap := s.trap,
    lanes := s.lanes.toList.map fun ln => (ln.state, ln.haltReason, ln.causes) }

/-- The 32 words of the Status Record (R164, R165, R169). -/
def StatusContents.words (c : StatusContents) : List Word :=
  statusHead c.part c.trapPending c.memoryPending :: trapWords c.trap ++ List.replicate 11 0#32
    ++ c.lanes.map fun x => summaryWord x.1 x.2.1 x.2.2

end Sys2Proof.Machine
end

