-- ==== Sys2Proof/Machine/Flags.lean ====
section
/-! DEFINITION. The flags of the part: lane causes and global causes, QIRQ, the statistics and the trap record. -/

namespace Sys2Proof.Machine

/-! ### Lane causes (R56, R167, R169) -/

/-- The six lane causes (chapter 9). -/
inductive LaneCause where
  | workReady
  | freeLow
  | laneReady
  | laneOff
  | halted
  | expired
  deriving DecidableEq, Repr

/-- The lane cause with its bit (R169) as a set of causes. -/
def LaneCause.mask : LaneCause → BitVec 6
  | .workReady => 0b000001#6
  | .freeLow => 0b000010#6
  | .laneReady => 0b000100#6
  | .laneOff => 0b001000#6
  | .halted => 0b010000#6
  | .expired => 0b100000#6

/-- A cause raised is pending; one already pending stays pending (R56). -/
def Lane.raise (ln : Lane) (c : LaneCause) : Lane := { ln with causes := ln.causes ||| c.mask }

/-- Whether a cause is pending. -/
def Lane.isPending (ln : Lane) (c : LaneCause) : Bool := decide (ln.causes &&& c.mask ≠ 0#6)

/-- A cause raised where a condition holds. -/
def Lane.raiseIf (ln : Lane) (p : Bool) (c : LaneCause) : Lane := if p then ln.raise c else ln

/-! ### QIRQ (R168) -/

/-- Whether an enabled cause is pending (R168). -/
def State.causeEnabled (s : State) : Bool :=
  s.lanes.toList.any (fun ln => decide (ln.causes &&& ln.enables ≠ 0#6))
    || (match s.globals with
        | none => false
        | some g => (g.enableTrap && s.trapPending) || (g.enableMemory && s.memoryPending))

/-- QIRQ is high exactly when at least one pending cause is enabled (R168). -/
def State.refreshQirq (s : State) : State := { s with qirq := s.causeEnabled }

/-! ### Statistics (R55) -/

/-- A statistic counts up to 2^32 - 1 and stops there (R55). -/
def bump (n : Nat) : Nat := min (n + 1) 0xFFFFFFFF

/-- ACQUIRES, at each ACQUIRE commit (R55). -/
def Lane.countAcquire (ln : Lane) : Lane := { ln with stats := { ln.stats with acquires := bump ln.stats.acquires } }

/-- POSTS, at each POST or POST_URGENT acceptance (R55). -/
def Lane.countPost (ln : Lane) : Lane := { ln with stats := { ln.stats with posts := bump ln.stats.posts } }

/-- TAKES, at each TAKE commit (R55). -/
def Lane.countTake (ln : Lane) : Lane := { ln with stats := { ln.stats with takes := bump ln.stats.takes } }

/-- RELEASES, at each RELEASE acceptance (R55). -/
def Lane.countRelease (ln : Lane) : Lane := { ln with stats := { ln.stats with releases := bump ln.stats.releases } }

/-- RETRIES, at each RETRY answered to a port word of the lane (R55). -/
def Lane.countRetry (ln : Lane) : Lane := { ln with stats := { ln.stats with retries := bump ln.stats.retries } }

/-- EMPTIES, at each EMPTY token (R55). -/
def Lane.countEmpty (ln : Lane) : Lane := { ln with stats := { ln.stats with empties := bump ln.stats.empties } }

/-- FAULTS, at each fault attributable to the lane (R55, R145). -/
def Lane.countFault (ln : Lane) : Lane := { ln with stats := { ln.stats with faults := bump ln.stats.faults } }

/-- EXPIRIES, at each lease expiry in the lane (R55). -/
def Lane.countExpiry (ln : Lane) : Lane := { ln with stats := { ln.stats with expiries := bump ln.stats.expiries } }

/-! ### The trap record (R142, R143) -/

/-- The trap takes a report: an empty trap stores it, an occupied one raises its overflow count up to 255 (R143). -/
def Trap.take (t : Trap) (f : Report) : Trap :=
  match t.stored with
  | none => { stored := some f, overflow := 0 }
  | some g => { stored := some g, overflow := min (t.overflow + 1) 255 }

/-- The trap side of a report: TRAP is raised when the report fills an empty trap (R143). -/
def State.trapReport (s : State) (f : Report) : State :=
  { s with trap := s.trap.take f, trapPending := s.trapPending || s.trap.stored.isNone }

/-- Whether a fault kind is in a halt-on-fault set (R146). -/
def inHaltSet (set : BitVec 11) (k : FaultKind) : Bool := set.getLsbD k.code

end Sys2Proof.Machine
end

