-- ==== Sys2Proof/Machine/Ops.lean ====
section
/-! DEFINITION. The named operations over the state: lanes, frame records, U-port lists, rings, and the taking of a
fault report with the halts it brings. -/

namespace Sys2Proof.Machine

/-- The lanes in ascending order. -/
def allLanes : List LaneId := [0, 1, 2, 3, 4, 5, 6, 7, 8, 9, 10, 11, 12, 13, 14, 15]

/-! ### Lanes -/

/-- What the part holds for a lane. -/
def State.lane (s : State) (l : LaneId) : Lane := s.lanes[l]

/-- The state with a lane's values replaced. -/
def State.setLane (s : State) (l : LaneId) (ln : Lane) : State := { s with lanes := s.lanes.set l ln }

/-- The state with a lane's values changed. -/
def State.updLane (s : State) (l : LaneId) (f : Lane → Lane) : State := s.setLane l (f (s.lane l))

/-- The descriptor of a lane with no copy in force: no frames, no masks. Nothing consults it, since a lane without a
copy is OFF and has no regions (R73, R97). -/
def Descriptor.absent : Descriptor :=
  { portBase := 0#36, frameBase := 0#36, frameSize := 0, frameCount := 0, firstRecord := 0, freeBase := 0#36,
    freeSize := 0, workBase := 0#36, workSize := 0, producers := 0#8, consumers := 0#8, limit := 0, leaseTicks := 0,
    renew := false, guard := .none, haltSet := 0#11, watermark := 0, enables := 0#6 }

/-- The descriptor copy that governs a lane (R73). -/
def Lane.descriptor (ln : Lane) : Descriptor := ln.desc.getD Descriptor.absent

/-- The descriptor copy that governs a lane (R73). -/
def State.descriptor (s : State) (l : LaneId) : Descriptor := (s.lane l).descriptor

/-- The lane states in which leases count down and the reclaim list is serviced (R43, R128). -/
def LaneState.counting : LaneState → Bool
  | .off => false
  | .priming => false
  | .opened => true
  | .paused => true
  | .step => true
  | .halted => false
  | .closing => true
  | .flushing => false

/-! ### Frame records -/

/-- A frame record (R4). -/
def State.record (s : State) (n : RecordId) : FrameRec := s.frames[n]

/-- The state with a frame record replaced. -/
def State.setRecord (s : State) (n : RecordId) (r : FrameRec) : State := { s with frames := s.frames.set n r }

/-- The record a lane frame index names: first frame record + index (R1). -/
def Descriptor.recordOf (d : Descriptor) (i : Nat) : RecordId := Fin.ofNat 4096 (d.firstRecord + i)

/-- The record of a lane's frame. -/
def State.frame (s : State) (l : LaneId) (i : Nat) : FrameRec := s.record ((s.descriptor l).recordOf i)

/-- The lane frame index of a record: the record minus the first frame record (R3). -/
def Descriptor.indexOf (d : Descriptor) (n : RecordId) : Nat := n.val - d.firstRecord

/-- The holder of a frame: present in HELD and TAKEN alone (R4). -/
def Standing.holder : Standing → Option Requester
  | .idle => none
  | .free => none
  | .held r _ => some r
  | .queued => none
  | .taken r _ => some r
  | .reclaim => none

/-- Lease remaining (R4). -/
def Standing.lease : Standing → Option Nat
  | .idle => none
  | .free => none
  | .held _ n => n
  | .queued => none
  | .taken _ n => n
  | .reclaim => none

/-- A standing with its lease remaining replaced where it has one (R121, R128). -/
def Standing.withLease (st : Standing) (n : Nat) : Standing :=
  match st with
  | .idle => .idle
  | .free => .free
  | .held r (some _) => .held r (some n)
  | .held r none => .held r none
  | .queued => .queued
  | .taken r (some _) => .taken r (some n)
  | .taken r none => .taken r none
  | .reclaim => .reclaim

/-- The frame is HELD. -/
def Standing.isHeld : Standing → Bool
  | .held _ _ => true
  | _ => false

/-- The lease a commit gives: the lane's lease ticks, or none where they are 0 (R7, R9, R16). -/
def Descriptor.lease (d : Descriptor) : Option Nat := if d.leaseTicks = 0 then none else some d.leaseTicks

/-- Requester `r` holds frame `i` of lane `l` (R19). -/
def State.holds (s : State) (l : LaneId) (r : Requester) (i : Nat) : Bool :=
  decide ((s.frame l i).standing.holder = some r)

/-! ### Checkouts and bindings (R21, R23, R24) -/

/-- A requester's checkout count in the lane. -/
def Lane.checkedOut (ln : Lane) (r : Requester) : Nat := ln.checkout[r]

/-- The count rises by one at a commit (R21). -/
def Lane.checkOut (ln : Lane) (r : Requester) : Lane :=
  { ln with checkout := ln.checkout.set r (ln.checkedOut r + 1) }

/-- The count falls by one when a checkout ends (R21). -/
def Lane.checkIn (ln : Lane) (r : Requester) : Lane :=
  { ln with checkout := ln.checkout.set r (ln.checkedOut r - 1) }

/-- A requester's producer binding in the lane (R23). -/
def Lane.producerBinding (ln : Lane) (r : Requester) : Option RecordId := ln.prodBind[r]

/-- A requester's consumer binding in the lane (R23). -/
def Lane.consumerBinding (ln : Lane) (r : Requester) : Option RecordId := ln.consBind[r]

/-- ACQUIRE commit sets the producer binding (R23). -/
def Lane.bindProducer (ln : Lane) (r : Requester) (n : RecordId) : Lane :=
  { ln with prodBind := ln.prodBind.set r (some n) }

/-- TAKE commit sets the consumer binding (R23). -/
def Lane.bindConsumer (ln : Lane) (r : Requester) (n : RecordId) : Lane :=
  { ln with consBind := ln.consBind.set r (some n) }

/-- The producer binding is emptied if it names the record (R24). -/
def Lane.unbindProducer (ln : Lane) (r : Requester) (n : RecordId) : Lane :=
  if ln.producerBinding r = some n then { ln with prodBind := ln.prodBind.set r none } else ln

/-- The consumer binding is emptied if it names the record (R24). -/
def Lane.unbindConsumer (ln : Lane) (r : Requester) (n : RecordId) : Lane :=
  if ln.consumerBinding r = some n then { ln with consBind := ln.consBind.set r none } else ln

/-- The binding of the role the standing stands for is emptied if it names the record (R24). -/
def Lane.unbind (ln : Lane) (st : Standing) (r : Requester) (n : RecordId) : Lane :=
  if st.isHeld then ln.unbindProducer r n else ln.unbindConsumer r n

/-! ### Rings (chapter 2) -/

/-- A lane's ring. -/
def Lane.ring (ln : Lane) : RingKind → Ring
  | .free => ln.freeRing
  | .work => ln.workRing

/-- The lane with a ring replaced. -/
def Lane.setRing (ln : Lane) (k : RingKind) (g : Ring) : Lane :=
  match k with
  | .free => { ln with freeRing := g }
  | .work => { ln with workRing := g }

/-- A ring's size in entries. -/
def Ring.size (g : Ring) : Nat := (g.geom.map RingGeom.size).getD 0

/-- The address of slot k: ring base + 4 × k (R25). -/
def Ring.slotAddr (g : Ring) (k : Nat) : Addr :=
  ((g.geom.map RingGeom.base).getD 0#36) + BitVec.ofNat 36 (4 * k)

/-- A ring in force and empty, as OPEN_LANE sets it (R26). -/
def Ring.fresh (base : Addr) (size : Nat) : Ring := { Ring.reset with geom := some { base := base, size := size } }

/-- The access state of a ring changed (R33). -/
def Ring.withAccess (g : Ring) (a : Access) : Ring := { g with access := a }

/-- The claim on a ring ends: it returns to IDLE and nothing waits to be written (R33). -/
def Ring.release (g : Ring) : Ring := { g with access := .idle, fenced := none }

/-- An entry joins at the tail: tail and count advance (R28, R30). -/
def Ring.append (g : Ring) : Ring := { g with tail := (g.tail + 1) % g.size, count := g.count + 1 }

/-- The slot before the head (R31). -/
def Ring.slotBefore (g : Ring) : Nat := if g.head = 0 then g.size - 1 else g.head - 1

/-- An entry is inserted before the head: head moves back, count rises (R31). -/
def Ring.insert (g : Ring) : Ring := { g with head := g.slotBefore, count := g.count + 1 }

/-- The entry at the head leaves: head advances, count falls (R29, R32). -/
def Ring.remove (g : Ring) : Ring := { g with head := (g.head + 1) % g.size, count := g.count - 1 }

/-- The claim on a lane's ring ends (R33). -/
def State.releaseRing (s : State) (l : LaneId) (k : RingKind) : State :=
  s.updLane l fun ln => ln.setRing k (ln.ring k).release

/-- What an entry in the ring may be (R37): its kinds and the standing of its frame. -/
def slotKindOk : RingKind → EntryKind → Bool
  | .free, .primed => true
  | .free, .returned => true
  | .free, .reclaimed => true
  | .free, .posted => false
  | .work, .primed => false
  | .work, .returned => false
  | .work, .reclaimed => false
  | .work, .posted => true

/-- The standing a frame has while its entry stands in the ring (R27, R37). -/
def RingKind.standing : RingKind → Standing
  | .free => .free
  | .work => .queued

/-- The six checks of a word read from a slot (R37): parity, bit 31, kind, frame index, generation, record state. -/
def State.slotCheck (s : State) (l : LaneId) (k : RingKind) (w : Word) : Bool :=
  let e := Entry.ofWord w
  decide (onesBelow 31 w % 2 = 0) && !w.getLsbD 31 && slotKindOk k e.kind
    && decide (e.index.toNat < (s.descriptor l).frameCount)
    && decide ((s.frame l e.index.toNat).gen = e.gen)
    && decide ((s.frame l e.index.toNat).standing = k.standing)

/-! ### U-port lists (R109) -/

/-- What the U-port keeps for a requester. -/
def State.uport (s : State) (r : Requester) : UPort := s.uports[r]

/-- The state with a requester's U-port values replaced. -/
def State.setUport (s : State) (r : Requester) (u : UPort) : State := { s with uports := s.uports.set r u }

/-- A transaction joins its requester's list at its arrival (R109). -/
def State.join (s : State) (t : Txn) (b : Standby) : State :=
  let u := s.uport t.requester
  s.setUport t.requester { u with list := u.list ++ [{ readLength := t.readLength, standby := b }] }

/-- A transaction answered at its arrival. -/
def State.answer (s : State) (t : Txn) (resp : Response) : State := s.join t (.decided resp)

/-- A transaction whose answer waits. -/
def State.await (s : State) (t : Txn) (a : Await) : State := s.join t (.waiting a)

/-- FAULT for a transaction that reads `n` words: all-ones data in every word (00 *Transactions and responses*). -/
def faultResponse (n : Nat) : Response := .fault (List.replicate n allOnes)

/-- The first transaction of a list that waits for `a` gets its response, made from the words it reads (log 11). -/
def decideFirst (a : Await) (mk : Nat → Response) : List Unanswered → List Unanswered
  | [] => []
  | u :: us =>
    if u.standby = .waiting a then { u with standby := .decided (mk u.readLength) } :: us
    else u :: decideFirst a mk us

/-- The response of the requester's transaction that waits for `a` is decided (R109). -/
def State.decideResponse (s : State) (r : Requester) (a : Await) (mk : Nat → Response) : State :=
  let u := s.uport r
  s.setUport r { u with list := decideFirst a mk u.list }

/-! ### Halts and fault reports (chapters 4 and 8) -/

/-- A lane enters HALTED: the reason is set, HALTED is raised and the Lane Status Record write is called for (R88). -/
def Lane.halt (ln : Lane) (reason : HaltReason) : Lane :=
  { ln.raise .halted with state := .halted, haltReason := reason, lsrWaiting := true }

/-- What RING_CORRUPT or MEMORY_ERROR on a ring access of the lane does to it (R39). -/
def Lane.ringFault (ln : Lane) (reason : HaltReason) : Lane :=
  match ln.state with
  | .off => ln
  | .priming => ln.halt reason
  | .opened => ln.halt reason
  | .paused => ln.halt reason
  | .step => ln.halt reason
  | .closing => ln.halt reason
  | .halted =>
    match ln.haltReason with
    | .none => { ln with haltReason := reason }
    | .command => { ln with haltReason := reason }
    | .policy => { ln with haltReason := reason }
    | .corrupt => ln
    | .memory => ln
  | .flushing => ln

/-- The requester-caused kinds (R140). -/
def FaultKind.requesterCaused : FaultKind → Bool
  | .portUndefined => true
  | .role => true
  | .badHandle => true
  | .stale => true
  | .notHolder => true
  | .badLength => true
  | .noBinding => true
  | .apertureRange => true
  | .guarded => true
  | .split => true
  | .laneHalted => true
  | .laneClosing => true
  | .ringCorrupt => false
  | .memoryError => false

/-- Whether a fault of the kind halts the lane for POLICY (R146). -/
def Lane.policyHalts (ln : Lane) (k : FaultKind) : Bool :=
  ln.state.counting && k.requesterCaused && inHaltSet ln.descriptor.haltSet k

/-- What a report does to the lane it names: FAULTS counts it while the lane is not OFF, and the lane's policy may halt
it (R145, R146). -/
def Lane.takeFault (ln : Lane) (k : FaultKind) : Lane :=
  let counted := if ln.state = .off then ln else ln.countFault
  if ln.policyHalts k then counted.halt .policy else counted

/-- The Fault Unit takes a report (R143, R145, R146). -/
def State.report (s : State) (f : Report) : State :=
  match f.lane with
  | none => s.trapReport f
  | some l => (s.trapReport f).updLane l fun ln => ln.takeFault f.kind

/-- A transaction refused at its arrival: answered FAULT and reported (R54, R110, R119, R141). -/
def State.refuse (s : State) (k : FaultKind) (l : Option LaneId) (t : Txn) : State :=
  (s.answer t (faultResponse t.readLength)).report
    { kind := k, lane := l, requester := some t.requester, addr := t.addr, dir := t.dir, data := t.reportData }

/-- A MEMORY_ERROR of one of the part's own accesses (R140, R149). -/
def memoryErrorReport (l : Option LaneId) (r : Option Requester) (addr : Addr) (dir : Dir) (data : Word) : Report :=
  { kind := .memoryError, lane := l, requester := r, addr := addr, dir := dir, data := data }

/-! ### Free orders -/

/-- The order number `n` of a list: every order of the list is one of them. -/
def shuffle {α : Type} : Nat → List α → List α
  | _, [] => []
  | _, [x] => [x]
  | n, x :: y :: xs => (shuffle (n / (xs.length + 2)) (y :: xs)).insertIdx (n % (xs.length + 2)) x

/-- FREE VALUE (log 6): the events of a list that come together are taken in an order drawn from `Config.tieOrder`; the
counter of draws advances when there is more than one. -/
def State.drawOrder {α : Type} (s : State) (xs : List α) : List α × State :=
  if xs.length < 2 then (xs, s)
  else (shuffle (Config.tieOrder s.draws) xs, { s with draws := s.draws + 1 })

/-! ### Engine queue -/

/-- A request joins the engine queue at the tail (R171). -/
def State.place (s : State) (q : EngineReq) : State := { s with engQ := s.engQ ++ [q] }

/-- A free slot other than the reserved one: the queue holds 14 requests or fewer (R172). -/
def State.laneSlotFree (s : State) : Bool := decide (s.engQ.length + 1 < Config.engineDepth)

/-- A free slot, the reserved one included: the queue holds 15 or fewer (R172). -/
def State.anySlotFree (s : State) : Bool := decide (s.engQ.length < Config.engineDepth)

/-- The lane and ring a request is a ring request of: RING_READ, RING_WRITE and PRIME_WRITE (R171). -/
def EngineReq.ringOf : EngineReq → Option (LaneId × RingKind)
  | .ringRead l op _ _ => some (l, op.ring)
  | .ringWrite l k _ => some (l, k)
  | .reclaimWrite l _ _ => some (l, .free)
  | .primeWrite l _ _ => some (l, .free)
  | .descRead _ => none
  | .globalRead => none
  | .statusWrite => none
  | .laneStatusWrite _ _ => none
  | .resultWrite _ _ => none

/-- The request is a ring request of the lane. -/
def EngineReq.isRingOf (q : EngineReq) (l : LaneId) : Bool := decide (q.ringOf.map Prod.fst = some l)

/-- The access is a ring access of the lane that has not timed out (R96, R151). -/
def InFlight.isRingOf (a : InFlight) (l : LaneId) : Bool :=
  match a.access with
  | .pass _ => false
  | .engine q => q.isRingOf l && !a.late

end Sys2Proof.Machine
end

