-- ==== Sys2Proof/Machine/LaneLife.lean ====
section
/-! DEFINITION. The lane life cycle (chapter 4): validation at OPEN_LANE, entry into FLUSHING, arrival at OFF. -/

namespace Sys2Proof.Machine

/-! ### Validation of a descriptor (R76 to R78) -/

/-- An address range by its first and last byte. -/
structure Range where
  first : Nat
  last : Nat
  deriving DecidableEq, Repr

/-- The range of `size` bytes from `base` up. -/
def Range.ofSize (base size : Nat) : Range := { first := base, last := base + size - 1 }

/-- The ranges share a byte. -/
def Range.overlaps (a b : Range) : Bool := decide (a.first ≤ b.last) && decide (b.first ≤ a.last)

/-- The address lies in the range. -/
def Range.holds (a : Range) (n : Nat) : Bool := decide (a.first ≤ n) && decide (n ≤ a.last)

/-- The lane's port region (R47). -/
def Descriptor.portRegion (d : Descriptor) : Range := Range.ofSize d.portBase.toNat 8192

/-- The lane's frame region (R3). -/
def Descriptor.frameRegion (d : Descriptor) : Range := Range.ofSize d.frameBase.toNat (d.frameCount * d.frameSize)

/-- The lane's ring regions (R25). -/
def Descriptor.ringRegion (d : Descriptor) : RingKind → Range
  | .free => Range.ofSize d.freeBase.toNat (4 * d.freeSize)
  | .work => Range.ofSize d.workBase.toNat (4 * d.workSize)

/-- The lane's four regions (R78, R100). -/
def Descriptor.regions (d : Descriptor) : List Range :=
  [d.portRegion, d.frameRegion, d.ringRegion .free, d.ringRegion .work]

/-- The Control Block's 4 KiB (R100, R154). -/
def State.controlRegion (s : State) : Range := Range.ofSize s.controlBase 4096

/-- The descriptors of the lanes not in OFF (R78). -/
def State.openDescriptors (s : State) : List Descriptor :=
  allLanes.filterMap fun l => if (s.lane l).state = .off then none else (s.lane l).desc

/-- The range tests of step 2 that concern values and not codes (R77). -/
def Descriptor.fieldsOk (d : Descriptor) : Bool :=
  decide (1 ≤ d.frameCount) && decide (d.frameCount ≤ 1024) && decide (1 ≤ d.limit)
    && decide (d.frameBase.toNat + d.frameCount * d.frameSize ≤ 2 ^ 36)

/-- Step 3: the alignment of the four bases (R77). -/
def Descriptor.aligned (d : Descriptor) : Bool :=
  decide (d.portBase.toNat % 8192 = 0) && decide (d.frameBase.toNat % d.frameSize = 0)
    && decide (d.freeBase.toNat % (4 * d.freeSize) = 0) && decide (d.workBase.toNat % (4 * d.workSize) = 0)

/-- Two slices share a record (R78). -/
def Descriptor.sliceOverlaps (d e : Descriptor) : Bool :=
  decide (d.firstRecord < e.firstRecord + e.frameCount) && decide (e.firstRecord < d.firstRecord + d.frameCount)

/-- Step 6 fails: the slice runs past record 4095 or into the slice of a lane not in OFF (R78). -/
def State.sliceTaken (s : State) (d : Descriptor) : Bool :=
  decide (4096 < d.firstRecord + d.frameCount) || s.openDescriptors.any d.sliceOverlaps

/-- No two ranges of the list share a byte. -/
def rangesApart : List Range → Bool
  | [] => true
  | a :: as => !(as.any a.overlaps) && rangesApart as

/-- Step 7 fails: two of the lane's regions overlap, or one overlaps the Control Block or a region of a lane not in
OFF (R78). -/
def State.regionTaken (s : State) (d : Descriptor) : Bool :=
  !rangesApart d.regions
    || d.regions.any fun a => a.overlaps s.controlRegion || s.openDescriptors.any fun e => e.regions.any a.overlaps

/-- The validation of a DESC_READ: the first test that fails gives the refusal code (R76). -/
def State.validate (s : State) (resp : DResp (Vector Word 16)) : Except Reason Descriptor :=
  match resp with
  | .error => .error .memory
  | .okay ws =>
    match descriptorOf ws with
    | none => .error .badField
    | some d =>
      if !d.fieldsOk then .error .badField
      else if !d.aligned then .error .misaligned
      else if d.freeSize < d.frameCount then .error .freeRingSmall
      else if d.producers = 0#8 ∧ d.consumers = 0#8 then .error .noRole
      else if s.sliceTaken d then .error .sliceOverlap
      else if s.regionTaken d then .error .regionOverlap
      else .ok d

/-- OPEN_LANE takes effect at validation (R79). -/
def Lane.opening (ln : Lane) (d : Descriptor) : Lane :=
  { ln with state := .priming, haltReason := .none, desc := some d, enables := d.enables, stats := Stats.zero,
            primePos := 0, freeRing := Ring.fresh d.freeBase d.freeSize, workRing := Ring.fresh d.workBase d.workSize }

/-! ### Arrival at OFF (R93, R96 to R98) -/

/-- The lane frame indices of a descriptor. -/
def Descriptor.frameIndices (d : Descriptor) : List Nat := List.range d.frameCount

/-- A frame the drain waits for: HELD, QUEUED, TAKEN or RECLAIM (R93). -/
def Standing.out : Standing → Bool
  | .idle => false
  | .free => false
  | .held _ _ => true
  | .queued => true
  | .taken _ _ => true
  | .reclaim => true

/-- The drain condition of a CLOSING lane (R93). -/
def State.drained (s : State) (l : LaneId) : Bool :=
  let ln := s.lane l
  decide (ln.state = .closing) && ln.reclaim.isEmpty && decide (ln.freeRing.access = .idle)
    && decide (ln.workRing.access = .idle)
    && ln.descriptor.frameIndices.all fun i => !(s.frame l i).standing.out

/-- A FLUSHING lane with no ring access or ring request left (R96). -/
def State.flushed (s : State) (l : LaneId) : Bool :=
  let ln := s.lane l
  decide (ln.state = .flushing) && decide (ln.freeRing.access = .idle) && decide (ln.workRing.access = .idle)
    && ln.freeRing.fenced.isNone && ln.workRing.fenced.isNone
    && s.engQ.all (fun q => !q.isRingOf l) && s.inflight.all fun a => !a.isRingOf l

/-- A record at a graceful close: FREE becomes IDLE, the generation is kept (R14). -/
def FrameRec.drain (r : FrameRec) : FrameRec := if r.standing = .free then { r with standing := .idle } else r

/-- A record at teardown: what is not IDLE becomes IDLE with its generation advanced (R13). -/
def FrameRec.tearDown (r : FrameRec) : FrameRec :=
  if r.standing = .idle then r else { standing := .idle, gen := r.gen + 1#4 }

/-- Every record of the listed frames of a lane changed by `f`, in the order of the list. -/
def State.mapFrames (s : State) (d : Descriptor) (f : FrameRec → FrameRec) (is : List Nat) : State :=
  is.foldl (fun s i => s.setRecord (d.recordOf i) (f (s.record (d.recordOf i)))) s

/-- The lane's own values at OFF: no copy but its cause enables, position 0, bindings empty, counts 0, rings and reclaim
list empty, LANE_OFF raised, its Lane Status Record called for; statistics and halt reason kept (R46, R97, R98). -/
def Lane.toOff (ln : Lane) : Lane :=
  { ln.raise .laneOff with
      state := .off, desc := none, primePos := 0, freeRing := Ring.reset, workRing := Ring.reset,
      checkout := Vector.replicate 8 0, prodBind := Vector.replicate 8 none, consBind := Vector.replicate 8 none,
      reclaim := [], lsrWaiting := true }

/-- A CLOSING lane reaches OFF (R14, R93, R97). -/
def State.drainOff (s : State) (l : LaneId) : State :=
  let d := s.descriptor l
  (s.mapFrames d FrameRec.drain d.frameIndices).updLane l Lane.toOff

/-- A FLUSHING lane reaches OFF by teardown (R13, R96, R97). -/
def State.teardown (s : State) (l : LaneId) : State :=
  let d := s.descriptor l
  (s.mapFrames d FrameRec.tearDown d.frameIndices).updLane l Lane.toOff

/-- The lane reaches OFF if its drain condition or its teardown condition holds (R93, R96). -/
def State.arriveOff (s : State) (l : LaneId) : State :=
  if s.drained l then s.drainOff l else if s.flushed l then s.teardown l else s

/-! ### Entry into FLUSHING (R45, R94) -/

/-- A port operation whose ring request is discarded: its requester, the ring it claimed and its report (R45, R54). -/
structure Discard where
  requester : Requester
  lane : LaneId
  ring : RingKind
  report : Report
  deriving DecidableEq, Repr

/-- The report of a discarded operation: LANE_CLOSING with the slot address and the operation's data (R54, R140). -/
def discardOf (l : LaneId) (k : RingKind) (r : Requester) (addr : Addr) (dir : Dir) (data : Word) : Discard :=
  { requester := r, lane := l, ring := k,
    report := { kind := .laneClosing, lane := some l, requester := some r, addr := addr, dir := dir, data := data } }

/-- The operation an engine request carries out for a requester, if it does. -/
def EngineReq.discard : EngineReq → Option Discard
  | .ringRead l op r addr => some (discardOf l op.ring r addr .read allOnes)
  | .ringWrite l k w => some (discardOf l k w.requester w.addr .write w.opData)
  | .reclaimWrite _ _ _ => none
  | .primeWrite _ _ _ => none
  | .descRead _ => none
  | .globalRead => none
  | .statusWrite => none
  | .laneStatusWrite _ _ => none
  | .resultWrite _ _ => none

/-- The operation whose slot write still waits for its fence or a slot. -/
def Lane.fencedDiscard (ln : Lane) (l : LaneId) (k : RingKind) : Option Discard :=
  (ln.ring k).fenced.map fun w => discardOf l k w.requester w.addr .write w.opData

/-- The port operations of the lane that FORCE_CLOSE cuts off (R45, R94). -/
def State.discards (s : State) (l : LaneId) : List Discard :=
  (s.engQ.filter fun q => q.isRingOf l).filterMap EngineReq.discard
    ++ ((s.lane l).fencedDiscard l .free).toList ++ ((s.lane l).fencedDiscard l .work).toList

/-- Whether a request of the lane's ring that has not been granted is discarded. -/
def State.ungranted (s : State) (l : LaneId) (k : RingKind) : Bool :=
  s.engQ.any (fun q => decide (q.ringOf = some (l, k))) || ((s.lane l).ring k).fenced.isSome

/-- A ring whose request is discarded returns to IDLE (R45). -/
def State.cutRing (s : State) (l : LaneId) (k : RingKind) (g : Ring) : Ring :=
  if s.ungranted l k then g.release else g

/-- The lane enters FLUSHING: its ungranted ring requests leave, their rings return to IDLE, the halt reason stays
(R94). -/
def State.enterFlushing (s : State) (l : LaneId) : State :=
  let t := s.updLane l fun ln =>
    { ln with state := .flushing, freeRing := s.cutRing l .free ln.freeRing, workRing := s.cutRing l .work ln.workRing }
  { t with engQ := s.engQ.filter fun q => !q.isRingOf l }

/-- A cut-off operation is answered FAULT LANE_CLOSING and reported (R45). -/
def State.cutOff (s : State) (x : Discard) : State :=
  (s.decideResponse x.requester (.ring x.lane x.ring) faultResponse).report x.report

/-- The lanes listed that are neither OFF nor already FLUSHING. -/
def State.toFlush (s : State) (ls : List LaneId) : List LaneId :=
  ls.filter fun l => decide ((s.lane l).state ≠ .off) && decide ((s.lane l).state ≠ .flushing)

/-- FORCE_CLOSE of a lane, or RESET_ALL of all: the lanes enter FLUSHING, the operations cut off are answered and
reported in a free order (R143), and each lane with nothing in flight reaches OFF at once (R94, R96). -/
def State.flushLanes (s : State) (ls : List LaneId) : State :=
  let ls := s.toFlush ls
  let (cut, s1) := s.drawOrder (ls.flatMap s.discards)
  let s2 := ls.foldl State.enterFlushing s1
  let s3 := cut.foldl State.cutOff s2
  ls.foldl State.arriveOff s3

end Sys2Proof.Machine
end

