-- ==== Sys2Proof/Machine/Engine.lean ====
section
/-! DEFINITION. The engine queue's waiting claimants (R172), the Status Record writer (R164), the clearing of RESET_ALL
(R163), the arbiter (R173), and `settle`: what the rules put at the same moment as the event of a step (log 2). -/

namespace Sys2Proof.Machine

/-! ### The Status Record writer takes a change (R164) -/

/-- What a change does to the writer (R164). -/
def Writer.change : Writer → Writer
  | .idle => .writing .waiting
  | .writing .waiting => .writing .waiting
  | .writing .queued => .writing .queued
  | .writing .issued => .dirty
  | .dirty => .dirty

/-- What the completion of its write does to the writer (R164). -/
def Writer.completed : Writer → Writer
  | .idle => .idle
  | .writing _ => .idle
  | .dirty => .writing .waiting

/-- The part states in which the writer takes changes: not in LOADING, BYPASS or reset (R164, R176, R177). -/
def PartState.recorded : PartState → Bool
  | .heldInReset => false
  | .loading => false
  | .active => true
  | .pass => true
  | .bypass => false

/-- The writer takes a change if the step from `s0` altered the Status Record's contents (R164). -/
def State.noteChange (s0 s : State) : State :=
  if s.part.recorded ∧ s0.statusContents ≠ s.statusContents then { s with writer := s.writer.change } else s

/-! ### Claimants (R172) -/

/-- Everything the claimant's own rule requires holds except the slot (R172). -/
def State.claims (s : State) : Claimant → Bool
  | .status => decide (s.writer = .writing .waiting)
  | .fenced l k =>
    match ((s.lane l).ring k).fenced with
    | none => false
    | some w => decide (w.fence = 0)
  | .prime l =>
    decide ((s.lane l).state = .priming) && decide ((s.lane l).primePos < (s.descriptor l).frameCount)
      && decide ((s.lane l).freeRing.access = .idle)
  | .reclaim l =>
    (s.lane l).state.counting && !(s.lane l).reclaim.isEmpty && decide ((s.lane l).freeRing.access = .idle)
  | .laneStatus l => (s.lane l).lsrWaiting

/-- The claimants of one lane. -/
def laneClaimants (l : LaneId) : List Claimant :=
  [.fenced l .free, .fenced l .work, .prime l, .reclaim l, .laneStatus l]

/-- Every claimant but the Command Unit. -/
def allClaimants : List Claimant := .status :: allLanes.flatMap laneClaimants

/-- Claimants whose conditions have ceased leave the list; those whose conditions have come to hold join it at the end,
in a free order where several begin together (R172, log 6). -/
def State.refreshWaiting (s : State) : State :=
  let kept := s.waiting.filter s.claims
  let (new, t) := s.drawOrder (allClaimants.filter fun c => s.claims c && decide (c ∉ kept))
  { t with waiting := kept ++ new }

/-! ### Placing requests -/

/-- The entry a priming write carries (R35, R83). -/
def primedEntry (i : Nat) (gen : BitVec 4) : Entry :=
  { index := BitVec.ofNat 10 i, gen := gen, length := 0#10, origin := 0#3, kind := .primed, urgent := false }

/-- The entry a reclaim write carries (R35, R134). -/
def reclaimedEntry (e : ReclaimEntry) (gen : BitVec 4) : Entry :=
  { index := BitVec.ofNat 10 e.frame, gen := gen, length := 0#10, origin := BitVec.ofNat 3 e.former.val,
    kind := .reclaimed, urgent := false }

/-- A priming write starts: the free ring is claimed WRITING, the slot at tail chosen, the PRIME_WRITE placed (R83). -/
def State.placePrime (s : State) (l : LaneId) : State :=
  let ln := s.lane l
  let entry := (primedEntry ln.primePos (s.frame l ln.primePos).gen).word
  (s.updLane l fun ln => { ln with freeRing := ln.freeRing.withAccess .writing }).place
    (.primeWrite l (ln.freeRing.slotAddr ln.freeRing.tail) entry)

/-- A reclaim write starts: the free ring is claimed WRITING, the tail slot chosen, the RING_WRITE of the list's head
entry placed (R43, R134). -/
def State.placeReclaim (s : State) (l : LaneId) : State :=
  let ln := s.lane l
  match ln.reclaim with
  | [] => s
  | e :: _ =>
    let entry := (reclaimedEntry e (s.frame l e.frame).gen).word
    (s.updLane l fun ln => { ln with freeRing := ln.freeRing.withAccess .writing }).place
      (.reclaimWrite l (ln.freeRing.slotAddr ln.freeRing.tail) entry)

/-- A Lane Status Record write is placed with its content as it stands (R166). -/
def State.placeLaneStatus (s : State) (l : LaneId) : State :=
  (s.updLane l fun ln => { ln with lsrWaiting := false }).place (.laneStatusWrite l (s.lane l).statusRecord)

/-- A fenced slot write is placed (R62). -/
def State.placeFenced (s : State) (l : LaneId) (k : RingKind) : State :=
  match ((s.lane l).ring k).fenced with
  | none => s
  | some w => (s.updLane l fun ln => ln.setRing k { ln.ring k with fenced := none }).place (.ringWrite l k w)

/-- A claimant places its request (R172). -/
def State.placeClaim (s : State) : Claimant → State
  | .status => ({ s with writer := .writing .queued } : State).place .statusWrite
  | .fenced l k => s.placeFenced l k
  | .prime l => s.placePrime l
  | .reclaim l => s.placeReclaim l
  | .laneStatus l => s.placeLaneStatus l

/-- A Command Unit request is placed; a waiting Lane Status Record write of the lane is merged into that of SNAPSHOT
(R156, R166). -/
def State.placeCall (s : State) : CuCall → State
  | .result w final => s.place (.resultWrite w final)
  | .descRead l => s.place (.descRead l)
  | .globalRead => s.place .globalRead
  | .snapshot l => s.placeLaneStatus l

/-- The Command Unit does not call for a DESC_READ while a Lane Status Record write of the lane waits (R75). -/
def State.callHeld (s : State) : CuCall → Bool
  | .result _ _ => false
  | .descRead l => (s.lane l).lsrWaiting
  | .globalRead => false
  | .snapshot _ => false

/-- The Command Unit's calls are placed in order while there is a slot (R172). -/
def State.serveCalls : List CuCall → State → State
  | [], s => { s with cuCalls := [] }
  | c :: cs, s =>
    if s.anySlotFree ∧ ¬ s.callHeld c then State.serveCalls cs (s.placeCall c) else { s with cuCalls := c :: cs }

/-- The waiting claimants place their requests in order while there is a slot other than the reserved one (R172). -/
def State.serveClaims : List Claimant → State → State
  | [], s => { s with waiting := [] }
  | c :: cs, s =>
    if s.claims c then
      if s.laneSlotFree then State.serveClaims cs (s.placeClaim c)
      else { s with waiting := (c :: cs).filter s.claims }
    else State.serveClaims cs s

/-- Free slots go to those that wait: the Command Unit first, then the list; a DESC_READ that was held for a Lane Status
Record write follows it (R75, R172). -/
def State.serve (s : State) : State :=
  let s := State.serveCalls s.cuCalls s
  let s := State.serveClaims s.waiting s
  State.serveCalls s.cuCalls s

/-! ### The clearing of RESET_ALL (R163) -/

/-- RESET_ALL is carried out and waits for its clearing. -/
def State.resetting (s : State) : Bool :=
  match s.cmd with
  | none => false
  | some c => decide (c.phase = .resetting)

/-- The clearing is to be made: every lane is OFF and no Lane Status Record write waits (R163). -/
def State.clearingDue (s : State) : Bool :=
  s.resetting && allLanes.all fun l => decide ((s.lane l).state = .off) && !(s.lane l).lsrWaiting

/-- The current command is done or refused: its final RESULT_WRITE is called for (R158). -/
def State.endCommand (s : State) (reason : Reason) : State :=
  match s.cmd with
  | none => s
  | some c => { s with cmd := some { c with phase := .finishing },
                       cuCalls := s.cuCalls ++ [.result (resultWord c.word reason false) true] }

/-- The clearing: lanes, frame records, bindings, counts, rings, reclaim lists, trap and global causes at their reset
values, then the final RESULT (R163). -/
def State.clearing (s : State) : State :=
  ({ s with lanes := Vector.replicate 16 Lane.reset, frames := Vector.replicate 4096 FrameRec.reset,
            trap := Trap.empty, trapPending := false, memoryPending := false } : State).endCommand .none

/-! ### Settling -/

/-- The change the step made is noted, the list of claimants brought up to date and the free slots given out. -/
def State.serveStep (s0 s : State) : State := (s0.noteChange s).refreshWaiting.serve

/-- The clearing of RESET_ALL is made when it is due, a change like any other (R163, R164). -/
def State.clearIfDue (s : State) : State := if s.clearingDue then s.serveStep s.clearing else s

/-- What comes at the same moment as the event that led from `s0` to `s` (log 2): the Status Record writer takes the
change, slots go to the claimants that wait, RESET_ALL makes its clearing when it is due, and QIRQ follows. DESIGN CHOICE
(log 14): the reclaim write of a frame expired at a tick just before its lane halts starts in the tick's step where the
ring is IDLE and a slot is free (R43, R44, R131), though the last paragraph of R129 has it wait for the lane to leave
HALTED. -/
def State.settle (s0 s : State) : State := (s0.serveStep s).clearIfDue.refreshQirq

/-! ### The arbiter (R173, R174) -/

/-- The timer of an engine access issued now: none while the memory timeout in force is 0 or none is in force (R150). -/
def State.newTimer (s : State) : Option Timer :=
  match s.globals with
  | none => none
  | some g => if g.memoryTimeout = 0#16 then none else some { limit := g.memoryTimeout.toNat, elapsed := 0 }

/-- The words an engine write carries at its issue; the Status Record's content is taken then (R164). -/
def State.issueWords (s : State) : EngineReq → List Word
  | .ringRead _ _ _ _ => []
  | .ringWrite _ _ w => [w.entry]
  | .reclaimWrite _ _ e => [e]
  | .primeWrite _ _ e => [e]
  | .descRead _ => []
  | .globalRead => []
  | .statusWrite => s.statusContents.words
  | .laneStatusWrite _ ws => ws
  | .resultWrite w _ => [w]

/-- The issue of a reclaim write: the frame goes from RECLAIM to FREE, the entry leaves the list, tail and count advance
(R12, R43). -/
def State.reclaimIssue (s : State) (l : LaneId) : State :=
  match (s.lane l).reclaim with
  | [] => s
  | e :: es =>
    let n := (s.descriptor l).recordOf e.frame
    (s.setRecord n { s.record n with standing := .free }).updLane l fun ln =>
      { ln with reclaim := es, freeRing := ln.freeRing.append }

/-- The changes tied to the issue of an engine request (R173). -/
def State.atIssue (s : State) : EngineReq → State
  | .ringRead _ _ _ _ => s
  | .ringWrite _ _ _ => s
  | .reclaimWrite l _ _ => s.reclaimIssue l
  | .primeWrite _ _ _ => s
  | .descRead _ => s
  | .globalRead => s
  | .statusWrite => { s with writer := .writing .issued }
  | .laneStatusWrite _ _ => s
  | .resultWrite _ _ => s

/-- The pass-through head is granted and issued. -/
def State.grantPass (s : State) (e : PassEntry) (rest : List PassEntry) : State :=
  { s with passQ := rest, lastGrant := .passThrough,
           inflight := s.inflight ++ [{ access := .pass e, words := [], timer := none, late := false }] }

/-- The engine head is granted and issued (R150, R173). -/
def State.grantEngine (s : State) (q : EngineReq) (rest : List EngineReq) : State :=
  ({ s with engQ := rest, lastGrant := .engine,
            inflight := s.inflight ++ [{ access := .engine q, words := s.issueWords q, timer := s.newTimer,
                                         late := false }] } : State).atIssue q

/-- The arbiter's choice between the two heads (R173). -/
def State.grant (s : State) : State :=
  match s.passQ, s.engQ with
  | [], [] => s
  | e :: ps, [] => s.grantPass e ps
  | [], q :: qs => s.grantEngine q qs
  | e :: ps, q :: qs =>
    match s.lastGrant with
    | .engine => s.grantPass e ps
    | .passThrough => s.grantEngine q qs

/-- The D-port can take an access as far as the part is concerned: its list holds fewer than 32 and the part is not held
in reset (R174, R178). -/
def State.canGrant (s : State) : Bool :=
  decide (s.inflight.length < Config.inflightDepth) && decide (s.part ≠ .heldInReset)

/-- ARBITER_GRANT: the memory controller signals that it is ready and the arbiter grants (R173, R174). -/
def execArbiterGrant (s : State) : Host.Outcome State Fault Refusal :=
  .next (if s.canGrant then s.settle s.grant else s)

/-! ### Starting what waits -/

/-- A claimant whose conditions hold takes a free slot (R172). -/
def State.placeNow (s : State) (c : Claimant) : State :=
  if s.claims c ∧ s.laneSlotFree then s.settle (s.placeClaim c) else s

/-- The head of the list of waiting claimants places its request if it can (R172). -/
def State.serveHead (s : State) : State :=
  match s.waiting with
  | [] => s
  | c :: cs => if s.claims c ∧ s.laneSlotFree then ({ s with waiting := cs } : State).placeClaim c else s

/-- The first that waits and can use a free slot places its request: the Command Unit's call, or the head of the list
(R172). -/
def State.serveFirst (s : State) : State :=
  match s.cuCalls with
  | [] => s.serveHead
  | c :: cs => if s.anySlotFree ∧ ¬ s.callHeld c then ({ s with cuCalls := cs } : State).placeCall c else s.serveHead

/-- SLOT_CLAIM_PLACE (R172). -/
def execSlotClaimPlace (s : State) : Host.Outcome State Fault Refusal := .next (s.settle s.serveFirst)

/-- RECLAIM_WRITE_START (R43). -/
def execReclaimWriteStart (l : LaneId) (s : State) : Host.Outcome State Fault Refusal := .next (s.placeNow (.reclaim l))

/-- PRIME_WRITE_START (R83). -/
def execPrimeWriteStart (l : LaneId) (s : State) : Host.Outcome State Fault Refusal := .next (s.placeNow (.prime l))

/-- STATUS_WRITE_PLACE (R164). -/
def execStatusWritePlace (s : State) : Host.Outcome State Fault Refusal := .next (s.placeNow .status)

/-- LANE_STATUS_WRITE_PLACE (R166). -/
def execLaneStatusWritePlace (l : LaneId) (s : State) : Host.Outcome State Fault Refusal :=
  .next (s.placeNow (.laneStatus l))

/-- LANE_DRAIN_COMPLETE (R93). -/
def execLaneDrainComplete (l : LaneId) (s : State) : Host.Outcome State Fault Refusal :=
  .next (if s.drained l then s.settle (s.drainOff l) else s)

/-- LANE_TEARDOWN (R96). -/
def execLaneTeardown (l : LaneId) (s : State) : Host.Outcome State Fault Refusal :=
  .next (if s.flushed l then s.settle (s.teardown l) else s)

/-- RESET_ALL_CLEARING (R163). -/
def execResetAllClearing (s : State) : Host.Outcome State Fault Refusal :=
  .next (if s.clearingDue then s.settle s.clearing else s)

end Sys2Proof.Machine
end

