-- ==== Sys2Proof/Machine/Window.lean ====
section
/-! DEFINITION. The Window Map (chapters 5 and 6): classification, the Control Block, ring regions, frame guarding,
apertures and pass-through admission. -/

namespace Sys2Proof

/-- A transaction's first byte. -/
def Txn.firstByte (t : Txn) : Nat := t.addr.toNat

/-- A transaction's last byte: address + 4 × length - 1 (R102). -/
def Txn.lastByte (t : Txn) : Nat := t.addr.toNat + 4 * t.length - 1

/-- A single-word write with every byte enabled (R48, R106). -/
def Txn.fullWord (t : Txn) : Option Word :=
  match t.body with
  | .write [w] => if w.enables = 0b1111#4 then some w.data else none
  | .write _ => none
  | .read _ => none

end Sys2Proof

namespace Sys2Proof.Machine

/-! ### Classification (R100 to R103) -/

/-- The kinds of a region (R100). -/
inductive RegionKind where
  | control
  | port (l : LaneId)
  | frame (l : LaneId)
  | ring (l : LaneId) (k : RingKind)
  deriving DecidableEq, Repr

/-- A region of the Window Map (R100). -/
structure Region where
  kind : RegionKind
  range : Range
  deriving DecidableEq, Repr

/-- The lane a region belongs to (R100). -/
def RegionKind.lane : RegionKind → Option LaneId
  | .control => none
  | .port l => some l
  | .frame l => some l
  | .ring l _ => some l

/-- The four regions of a lane whose descriptor is in force (R100). -/
def laneRegions (l : LaneId) (d : Descriptor) : List Region :=
  [{ kind := .port l, range := d.portRegion }, { kind := .frame l, range := d.frameRegion },
    { kind := .ring l .free, range := d.ringRegion .free }, { kind := .ring l .work, range := d.ringRegion .work }]

/-- The regions of a lane: none while it is OFF (R97, R100). -/
def State.regionsOf (s : State) (l : LaneId) : List Region :=
  if (s.lane l).state = .off then []
  else match (s.lane l).desc with
    | none => []
    | some d => laneRegions l d

/-- The region set the part state uses (R100, R101). -/
def State.regions (s : State) : List Region :=
  match s.part with
  | .heldInReset => []
  | .loading => []
  | .bypass => []
  | .pass => [{ kind := .control, range := s.controlRegion }]
  | .active => { kind := .control, range := s.controlRegion } :: allLanes.flatMap s.regionsOf

/-- The region an address lies in; regions are pairwise disjoint (R100). -/
def State.regionAt (s : State) (n : Nat) : Option Region := s.regions.find? fun g => g.range.holds n

/-- What a transaction is classified as (chapter 5); a port-word transaction comes with its offset in the port region,
an aperture access with its offset in its half. -/
inductive Class where
  | plain
  | control
  | portWord (l : LaneId) (offset : Nat)
  | producer (l : LaneId) (offset : Nat)
  | consumer (l : LaneId) (offset : Nat)
  | frame (l : LaneId)
  | ring (l : LaneId) (k : RingKind)
  | split (l : Option LaneId)
  deriving DecidableEq, Repr

/-- The frame an address of the frame region lies in (R3). -/
def Descriptor.frameAt (d : Descriptor) (n : Nat) : Nat := (n - d.frameBase.toNat) / d.frameSize

/-- The shape test and kind of a transaction whose ends lie in a lane's port region (R47, R103). -/
def classifyPort (l : LaneId) (first last : Nat) : Class :=
  if first < 0x800 then (if last < 0x800 then .producer l first else .split (some l))
  else if first < 0x1000 then (if last < 0x1000 then .consumer l (first - 0x800) else .split (some l))
  else .portWord l first

/-- The shape test of the frame region: under guard WRITE or FULL both ends lie in one frame (R103). -/
def classifyFrame (d : Descriptor) (l : LaneId) (t : Txn) : Class :=
  match d.guard with
  | .none => .frame l
  | .write => if d.frameAt t.firstByte = d.frameAt t.lastByte then .frame l else .split (some l)
  | .full => if d.frameAt t.firstByte = d.frameAt t.lastByte then .frame l else .split (some l)

/-- The kind of a transaction whose two ends lie in one region (R102 step 4, R103). -/
def State.classifyIn (s : State) (t : Txn) (g : Region) : Class :=
  match g.kind with
  | .control => .control
  | .port l => classifyPort l (t.firstByte - g.range.first) (t.lastByte - g.range.first)
  | .frame l => classifyFrame (s.descriptor l) l t
  | .ring l k => .ring l k

/-- The lane a SPLIT is attributed to: that of the first byte's region, or else that of the last byte's (R102). -/
def State.splitLane (s : State) (t : Txn) : Option LaneId :=
  match (s.regionAt t.firstByte).bind fun g => g.kind.lane with
  | some l => some l
  | none => (s.regionAt t.lastByte).bind fun g => g.kind.lane

/-- Classification at arrival (R102). -/
def State.classify (s : State) (t : Txn) : Class :=
  if 2 ^ 36 ≤ t.lastByte then .split (s.splitLane t)
  else
    match s.regionAt t.firstByte with
    | none => if (s.regionAt t.lastByte).isNone then .plain else .split (s.splitLane t)
    | some g => if g.range.holds t.lastByte then s.classifyIn t g else .split (s.splitLane t)

/-! ### Admission (R68, R108) -/

/-- The pass-through queue holds fewer than 32 transactions (R108). -/
def State.passFree (s : State) : Bool := decide (s.passQ.length < Config.passDepth)

/-- A transaction enters the pass-through queue; a write is counted as forwarded (R68, R108). -/
def State.enterPass (s : State) (e : PassEntry) (t : Txn) : State :=
  let s1 := { s with passQ := s.passQ ++ [e] }.await t .pass
  match t.body with
  | .read _ => s1
  | .write _ =>
    let u := s1.uport t.requester
    s1.setUport t.requester { u with forwarded := u.forwarded + 1 }

/-- Pass-through admission of a transaction as it arrived: it enters the queue, or is answered RETRY (R108). -/
def State.passOn (s : State) (l : Option LaneId) (t : Txn) : State :=
  if s.passFree then s.enterPass { txn := t, lane := l, cmd := false } t else s.answer t .retry

/-! ### The Control Block (R105, R106) -/

/-- The offset in the Control Block of a transaction's first byte. -/
def State.controlOffset (s : State) (t : Txn) : Nat := t.firstByte - s.controlBase

/-- The offset in the Control Block of a transaction's last byte. -/
def State.controlLast (s : State) (t : Txn) : Nat := t.lastByte - s.controlBase

/-- The transaction touches a word of the given offsets, whatever its byte enables (R105). -/
def State.touches (s : State) (t : Txn) (first last : Nat) : Bool :=
  decide (s.controlOffset t ≤ last) && decide (first ≤ s.controlLast t)

/-- The part-owned words: RESULT at 0x044, the Status Record and the Lane Status Records at 0x080-0x4FF (R105). -/
def State.touchesOwned (s : State) (t : Txn) : Bool := s.touches t 0x044 0x047 || s.touches t 0x080 0x4FF

/-- The CMD word at 0x040 (R105). -/
def State.touchesCmd (s : State) (t : Txn) : Bool := s.touches t 0x040 0x043

/-- The Command Unit accepts the word: it becomes RUNNING and calls for the busy RESULT_WRITE (R156). -/
def State.acceptCommand (s : State) (w : Word) : State :=
  { s with cmd := some { word := w, phase := .accepted },
           cuCalls := s.cuCalls ++ [.result (resultWord w .none true) false] }

/-- A write that touches the CMD word and no owned word (R106). -/
def State.cmdWrite (s : State) (t : Txn) : State :=
  match t.fullWord with
  | none => s.refuse .portUndefined none t
  | some w =>
    if s.cmd.isSome then s.answer t .retry
    else if s.passFree then (s.enterPass { txn := t, lane := none, cmd := true } t).acceptCommand w
    else s.answer t .retry

/-- A transaction classified CONTROL (R105). -/
def State.serveControl (s : State) (t : Txn) : State :=
  match t.dir with
  | .read => s.passOn none t
  | .write =>
    if s.touchesOwned t then s.refuse .guarded none t
    else if s.touchesCmd t then s.cmdWrite t
    else s.passOn none t

/-- A transaction classified RING (R107). -/
def State.serveRing (s : State) (l : LaneId) (t : Txn) : State :=
  match t.dir with
  | .read => s.passOn (some l) t
  | .write => s.refuse .guarded (some l) t

/-! ### Frame region (R117 to R122) -/

/-- The lane states in which frame accesses are guarded and renew leases: all but OFF, PRIMING and FLUSHING (R86, R95,
R117, R121). -/
def LaneState.guards : LaneState → Bool
  | .off => false
  | .priming => false
  | .opened => true
  | .paused => true
  | .step => true
  | .halted => true
  | .closing => true
  | .flushing => false

/-- Whether the guard passes a direct access (R117, R118). -/
def State.guardPasses (s : State) (l : LaneId) (t : Txn) : Bool :=
  let d := s.descriptor l
  let holder := s.holds l t.requester (d.frameAt t.firstByte)
  if (s.lane l).state.guards then
    match d.guard, t.dir with
    | .none, _ => true
    | .write, .read => true
    | .write, .write => holder
    | .full, _ => holder
  else true

/-- The frame's lease set back to the lane's lease ticks where the requester holds it and it has one (R121, R122). -/
def State.renewFrame (s : State) (l : LaneId) (r : Requester) (i : Nat) : State :=
  let d := s.descriptor l
  let rec0 := s.frame l i
  if s.holds l r i then s.setRecord (d.recordOf i) { rec0 with standing := rec0.standing.withLease d.leaseTicks } else s

/-- An access admitted in the lane renews leases (R121). -/
def State.renews (s : State) (l : LaneId) : Bool :=
  let d := s.descriptor l
  d.renew && decide (d.leaseTicks ≠ 0) && (s.lane l).state.guards

/-- The frames of the lane a direct access's span touches (R121). -/
def Descriptor.framesTouched (d : Descriptor) (t : Txn) : List Nat :=
  let i := d.frameAt t.firstByte
  (List.range (d.frameAt t.lastByte + 1 - i)).map fun k => i + k

/-- Lease renewal at the admission of a direct access (R121). -/
def State.renewTouched (s : State) (l : LaneId) (t : Txn) : State :=
  if s.renews l then ((s.descriptor l).framesTouched t).foldl (fun s i => s.renewFrame l t.requester i) s else s

/-- A transaction classified FRAME: guard test, admission, renewal (R117, R121). -/
def State.serveFrame (s : State) (l : LaneId) (t : Txn) : State :=
  if s.guardPasses l t then
    if s.passFree then (s.passOn (some l) t).renewTouched l t else s.answer t .retry
  else s.refuse .guarded (some l) t

/-! ### Apertures (R113 to R116) -/

/-- The rewritten address: the bound frame's address plus the aperture offset (R115). -/
def Descriptor.rewrite (d : Descriptor) (n : RecordId) (offset : Nat) : Addr :=
  BitVec.ofNat 36 (d.frameBase.toNat + d.indexOf n * d.frameSize + offset)

/-- Lease renewal of the bound frame at the admission of an aperture access (R121). -/
def State.renewBound (s : State) (l : LaneId) (r : Requester) (n : RecordId) : State :=
  if s.renews l then s.renewFrame l r ((s.descriptor l).indexOf n) else s

/-- An aperture access with the binding of its role (R113): lane state, binding, range, rewrite and admission. -/
def State.serveAperture (s : State) (l : LaneId) (offset : Nat) (binding : Option RecordId) (t : Txn) : State :=
  if (s.lane l).state = .flushing then s.refuse .laneClosing (some l) t
  else
    match binding with
    | none => s.refuse .noBinding (some l) t
    | some n =>
      let d := s.descriptor l
      if d.frameSize < offset + 4 * t.length then s.refuse .apertureRange (some l) t
      else if s.passFree then
        (s.enterPass { txn := { t with addr := d.rewrite n offset }, lane := some l, cmd := false } t).renewBound l
          t.requester n
      else s.answer t .retry

end Sys2Proof.Machine
end

