-- ==== Sys2Proof/WellFormed.lean ====
section
/-! DEFINITION. Which operands spell a command of the spec. -/

namespace Sys2Proof

/-- A U-port transaction is 1 to 16 words at a word-aligned byte address (00 *Transactions and responses*). -/
def Txn.wf (t : Txn) : Bool :=
  decide (1 ≤ t.length) && decide (t.length ≤ 16) && decide (t.addr.toNat % 4 = 0)

/-- A port base is aligned to 8 KiB (R47, R73). -/
def portBaseOk (base : Addr) : Bool :=
  decide (base.toNat % 8192 = 0)

/-- The transaction is a write. -/
def Txn.isWrite (t : Txn) : Bool :=
  decide (t.dir = .write)

/-- The commands whose operands the spec allows. -/
def Instr.wf : Instr → Bool
  | .pinReset => true
  | .resetReleaseLoading _ => true
  | .resetReleaseBypass _ => true
  | .leaseTick => true
  | .leaseExpiry _ _ => true
  | .engineAccessTimeout _ => true
  | .passthroughTransaction t => t.wf
  | .controlWrite t => t.wf && t.isWrite
  | .ringRegionWrite t => t.wf && t.isWrite
  | .frameAccess t => t.wf
  | .apertureAccess t => t.wf
  | .acquire _ base => portBaseOk base
  | .post _ base _ => portBaseOk base
  | .postUrgent _ base _ => portBaseOk base
  | .release _ base _ => portBaseOk base
  | .take _ base => portBaseOk base
  | .peek _ base => portBaseOk base
  | .count _ base => portBaseOk base
  | .acquireCommit _ => true
  | .takeCommit _ => true
  | .peekCompletion _ => true
  | .slotWriteCompletion _ => true
  | .reclaimWriteStart _ => true
  | .reclaimWriteCompletion _ => true
  | .primeWriteStart _ => true
  | .primeWriteCompletion _ => true
  | .passthroughCompletion _ => true
  | .slotClaimPlace => true
  | .arbiterGrant => true
  | .lateResponseDiscard => true
  | .owedResponseDiscard => true
  | .responseDelivery _ => true
  | .openLane => true
  | .descReadCompletion _ => true
  | .closeLane => true
  | .forceClose => true
  | .pauseLane => true
  | .resumeLane => true
  | .stepLane => true
  | .haltLane => true
  | .clearTrap => true
  | .ackIrq => true
  | .snapshot => true
  | .reloadGlobals => true
  | .reloadGlobalsReadCompletion _ => true
  | .resetAll => true
  | .resetAllClearing => true
  | .badOpcodeCommand => true
  | .resultWriteCompletion _ => true
  | .globalReadCompletion _ => true
  | .statusWritePlace => true
  | .statusWriteCompletion _ => true
  | .laneStatusWritePlace _ => true
  | .laneStatusWriteCompletion _ => true
  | .laneDrainComplete _ => true
  | .laneTeardown _ => true
  | .portUndefinedAccess t => t.wf

end Sys2Proof
end

