-- ==== Sys2Proof/Machine/Port.lean ====
section
/-! DEFINITION. The port operations (chapter 3): the port words, the check order, acceptance; and the arrival of a
transaction at the U-port, with the commands that are arrivals. -/

namespace Sys2Proof.Machine

/-! ### Port words and the first three checks (R47 to R51) -/

/-- The seven port operations, the write-side ones with their write data (R47). -/
inductive PortOp where
  | acquire
  | post (data : Word)
  | postUrgent (data : Word)
  | release (data : Word)
  | take
  | peek
  | count
  deriving DecidableEq, Repr

/-- The read-side port word at an offset (R47). -/
def portReadAt (offset : Nat) : Option PortOp :=
  if offset = 0x1000 then some .acquire
  else if offset = 0x1010 then some .take
  else if offset = 0x1014 then some .peek
  else if offset = 0x1018 then some .count
  else none

/-- The write-side port word at an offset (R47). -/
def portWriteAt (offset : Nat) (w : Word) : Option PortOp :=
  if offset = 0x1004 then some (.post w)
  else if offset = 0x1008 then some (.postUrgent w)
  else if offset = 0x100C then some (.release w)
  else none

/-- The first check: word, size and direction (R48). -/
def portOpOf (offset : Nat) (t : Txn) : Option PortOp :=
  match t.body with
  | .read n => if n = 1 then portReadAt offset else none
  | .write _ => t.fullWord.bind (portWriteAt offset)

/-- What the lane-state check decides (R50). -/
inductive Verdict where
  | pass
  | retry
  | fault (k : FaultKind)
  deriving DecidableEq, Repr

/-- The second check: lane state (R50). -/
def laneVerdict : LaneState → PortOp → Verdict
  | .off, _ => .pass
  | .priming, _ => .retry
  | .opened, _ => .pass
  | .step, _ => .pass
  | .paused, .acquire => .retry
  | .paused, .post _ => .retry
  | .paused, .postUrgent _ => .retry
  | .paused, .release _ => .pass
  | .paused, .take => .pass
  | .paused, .peek => .pass
  | .paused, .count => .pass
  | .halted, .acquire => .fault .laneHalted
  | .halted, .post _ => .fault .laneHalted
  | .halted, .postUrgent _ => .fault .laneHalted
  | .halted, .release _ => .fault .laneHalted
  | .halted, .take => .fault .laneHalted
  | .halted, .peek => .fault .laneHalted
  | .halted, .count => .pass
  | .closing, .acquire => .fault .laneClosing
  | .closing, .post _ => .pass
  | .closing, .postUrgent _ => .pass
  | .closing, .release _ => .pass
  | .closing, .take => .pass
  | .closing, .peek => .pass
  | .closing, .count => .pass
  | .flushing, _ => .fault .laneClosing

/-- The third check: role (R51). -/
def Descriptor.roleOk (d : Descriptor) (r : Requester) : PortOp → Bool
  | .acquire => d.producers.getLsbD r.val
  | .post _ => d.producers.getLsbD r.val
  | .postUrgent _ => d.producers.getLsbD r.val
  | .release _ => d.producers.getLsbD r.val || d.consumers.getLsbD r.val
  | .take => d.consumers.getLsbD r.val
  | .peek => d.consumers.getLsbD r.val
  | .count => true

/-! ### The handle check (R18, R52) -/

/-- The frame is HELD by the requester. -/
def Standing.heldBy (st : Standing) (r : Requester) : Bool :=
  match st with
  | .held h _ => decide (h = r)
  | _ => false

/-- The Frame Table's answer to a quoted handle: none for "found" (R18). `need` is the state and holder the operation
requires. -/
def State.handleFault (s : State) (l : LaneId) (w : Word) (need : Standing → Bool) : Option FaultKind :=
  if quotedTop w ∨ (s.descriptor l).frameCount ≤ quotedIndex w then some .badHandle
  else if quotedGen w ≠ (s.frame l (quotedIndex w)).gen then some .stale
  else if need (s.frame l (quotedIndex w)).standing then none
  else some .notHolder

/-- The fourth check of POST and POST_URGENT: the handle, then the length against the frame's words (R52). -/
def State.postFault (s : State) (l : LaneId) (r : Requester) (w : Word) : Option FaultKind :=
  match s.handleFault l w (fun st => st.heldBy r) with
  | some k => some k
  | none => if (s.descriptor l).frameSize / 4 < (quotedLength w).toNat then some .badLength else none

/-- The fourth check of RELEASE (R52). -/
def State.releaseFault (s : State) (l : LaneId) (r : Requester) (w : Word) : Option FaultKind :=
  s.handleFault l w fun st => decide (st.holder = some r)

/-! ### Answers at the resource check (R53, R55) -/

/-- RETRY answered to a port word of the lane (R55). -/
def State.portRetry (s : State) (l : LaneId) (t : Txn) : State := (s.answer t .retry).updLane l Lane.countRetry

/-- The EMPTY token (R53, R55). -/
def State.portEmpty (s : State) (l : LaneId) (t : Txn) : State :=
  (s.answer t (.okay [emptyToken])).updLane l Lane.countEmpty

/-- The LIMIT token (R53). -/
def State.portLimit (s : State) (t : Txn) : State := s.answer t (.okay [limitToken])

/-- The requester's checkout count has reached the lane's limit (R22). -/
def State.atLimit (s : State) (l : LaneId) (r : Requester) : Bool :=
  decide ((s.descriptor l).limit ≤ (s.lane l).checkedOut r)

/-- The ring's access state is IDLE (R34). -/
def State.ringIdle (s : State) (l : LaneId) (k : RingKind) : Bool := decide (((s.lane l).ring k).access = .idle)

/-! ### Acceptance -/

/-- A read-side operation is accepted: it claims its ring READING and places a RING_READ of the head slot (R57, R65,
R66). -/
def State.acceptRead (s : State) (l : LaneId) (op : ReadOp) (t : Txn) : State :=
  let g := (s.lane l).ring op.ring
  ((s.await t (.ring l op.ring)).updLane l fun ln => ln.setRing op.ring ((ln.ring op.ring).withAccess .reading)).place
    (.ringRead l op t.requester (g.slotAddr g.head))

/-- The resource checks a read-side operation meets after the limit test (R53). -/
def State.readResources (s : State) (l : LaneId) (op : ReadOp) (t : Txn) : State :=
  if !s.ringIdle l op.ring then s.portRetry l t
  else if !s.laneSlotFree then s.portRetry l t
  else if ((s.lane l).ring op.ring).count = 0 then s.portEmpty l t
  else s.acceptRead l op t

/-- The resource check of ACQUIRE and TAKE: the limit first (R22, R53). -/
def State.limitedRead (s : State) (l : LaneId) (op : ReadOp) (t : Txn) : State :=
  if s.atLimit l t.requester then s.portLimit t else s.readResources l op t

/-- The POSTED entry of a POST or POST_URGENT (R35, R60, R61). -/
def postedEntry (w : Word) (gen : BitVec 4) (r : Requester) (urgent : Bool) : Entry :=
  { index := w.extractLsb' 0 10, gen := gen, length := quotedLength w, origin := BitVec.ofNat 3 r.val,
    kind := .posted, urgent := urgent }

/-- The RETURNED entry of a RELEASE (R35, R64). -/
def returnedEntry (w : Word) (gen : BitVec 4) (r : Requester) : Entry :=
  { index := w.extractLsb' 0 10, gen := gen, length := 0#10, origin := BitVec.ofNat 3 r.val, kind := .returned,
    urgent := false }

/-- A ring takes a new entry and waits, WRITING, to write it into the chosen slot (R30, R31, R62). -/
def Ring.claimWrite (g : Ring) (w : SlotWrite) : Ring := { g with access := .writing, fenced := some w }

/-- STEP lets one POST through (R63). -/
def Lane.afterPost (ln : Lane) : Lane := if ln.state = .step then { ln with state := .paused } else ln

/-- A POST or POST_URGENT is accepted (R8, R60, R61, R63). -/
def State.acceptPost (s : State) (l : LaneId) (t : Txn) (w : Word) (urgent : Bool) : State :=
  let r := t.requester
  let n := (s.descriptor l).recordOf (quotedIndex w)
  let g := (s.lane l).workRing
  let slot := if urgent then g.slotBefore else g.tail
  let write : SlotWrite :=
    { requester := r, addr := g.slotAddr slot, entry := (postedEntry w (s.record n).gen r urgent).word, opData := w,
      fence := (s.uport r).forwarded }
  ((s.await t (.ring l .work)).setRecord n { s.record n with standing := .queued }).updLane l fun ln =>
    { ((((ln.unbindProducer r n).checkIn r).countPost).raiseIf (decide (g.count = 0)) .workReady).afterPost with
      workRing := (if urgent then g.insert else g.append).claimWrite write }

/-- The fourth and fifth checks of POST and POST_URGENT, and acceptance (R52, R53). -/
def State.servePost (s : State) (l : LaneId) (t : Txn) (w : Word) (urgent : Bool) : State :=
  match s.postFault l t.requester w with
  | some k => s.refuse k (some l) t
  | none =>
    if !s.ringIdle l .work then s.portRetry l t
    else if !s.laneSlotFree then s.portRetry l t
    else if (s.lane l).workRing.count = (s.lane l).workRing.size then s.portRetry l t
    else s.acceptPost l t w urgent

/-- A RELEASE is accepted (R10, R64). -/
def State.acceptRelease (s : State) (l : LaneId) (t : Txn) (w : Word) : State :=
  let r := t.requester
  let n := (s.descriptor l).recordOf (quotedIndex w)
  let old := s.record n
  let g := (s.lane l).freeRing
  let write : SlotWrite :=
    { requester := r, addr := g.slotAddr g.tail, entry := (returnedEntry w (old.gen + 1#4) r).word, opData := w,
      fence := (s.uport r).forwarded }
  ((s.await t (.ring l .free)).setRecord n { standing := .free, gen := old.gen + 1#4 }).updLane l fun ln =>
    { ((ln.unbind old.standing r n).checkIn r).countRelease with freeRing := g.append.claimWrite write }

/-- The fourth and fifth checks of RELEASE, and acceptance (R52, R53). -/
def State.serveRelease (s : State) (l : LaneId) (t : Txn) (w : Word) : State :=
  match s.releaseFault l t.requester w with
  | some k => s.refuse k (some l) t
  | none =>
    if !s.ringIdle l .free then s.portRetry l t
    else if !s.laneSlotFree then s.portRetry l t
    else s.acceptRelease l t w

/-- The COUNT word of a lane for a requester (R67). -/
def Lane.countWordFor (ln : Lane) (r : Requester) : Word :=
  countWord ln.freeRing.count ln.workRing.count ln.state (ln.checkedOut r)

/-- A port operation that has passed the lane-state and role checks (R52, R53, R67). -/
def State.servePortOp (s : State) (l : LaneId) (t : Txn) : PortOp → State
  | .acquire => s.limitedRead l .acquire t
  | .post w => s.servePost l t w false
  | .postUrgent w => s.servePost l t w true
  | .release w => s.serveRelease l t w
  | .take => s.limitedRead l .take t
  | .peek => s.readResources l .peek t
  | .count => s.answer t (.okay [(s.lane l).countWordFor t.requester])

/-- A transaction in the port-word area of a lane: the five checks in order (R49). -/
def State.servePortWord (s : State) (l : LaneId) (offset : Nat) (t : Txn) : State :=
  match portOpOf offset t with
  | none => s.refuse .portUndefined (some l) t
  | some op =>
    match laneVerdict (s.lane l).state op with
    | .retry => s.portRetry l t
    | .fault k => s.refuse k (some l) t
    | .pass =>
      if (s.descriptor l).roleOk t.requester op then s.servePortOp l t op else s.refuse .role (some l) t

/-! ### Arrival at the U-port (R101, R104, R109) -/

/-- A classified transaction goes to the block that serves its kind (R104). -/
def State.serveClass (s : State) (t : Txn) : Class → State
  | .plain => s.passOn none t
  | .control => s.serveControl t
  | .portWord l offset => s.servePortWord l offset t
  | .producer l offset => s.serveAperture l offset ((s.lane l).producerBinding t.requester) t
  | .consumer l offset => s.serveAperture l offset ((s.lane l).consumerBinding t.requester) t
  | .frame l => s.serveFrame l t
  | .ring l _ => s.serveRing l t
  | .split l => s.refuse .split l t

/-- What an arrival meets in each part state (R101, R178). -/
def State.meet (s : State) (t : Txn) : State :=
  match s.part with
  | .heldInReset => s
  | .loading => s.answer t .retry
  | .active => s.serveClass t (s.classify t)
  | .pass => s.serveClass t (s.classify t)
  | .bypass => s.passOn none t

/-- The U-port takes a transaction of the requester: not in reset, and not while the list holds 32 (R109, R178). -/
def State.takes (s : State) (r : Requester) : Bool :=
  decide (s.part ≠ .heldInReset) && decide ((s.uport r).list.length < Config.responseDepth)

/-- A transaction arrives; one the U-port does not take has not arrived (R109). -/
def State.arrive (s : State) (t : Txn) : State := if s.takes t.requester then s.settle (s.meet t) else s

/-- The arrival of an operand, refused where it is no U-port transaction (log 10). -/
def State.arrival (s : State) (t : Txn) : Host.Outcome State Fault Refusal :=
  if t.wf then .next (s.arrive t) else .refused .notATransaction

/-- The arrival of a write, refused where the operand is none (log 10). -/
def State.writeArrival (s : State) (t : Txn) : Host.Outcome State Fault Refusal :=
  if t.isWrite then s.arrival t else .refused .notATransaction

/-- PASSTHROUGH_TRANSACTION (R108). -/
def execPassthroughTransaction (t : Txn) (s : State) : Host.Outcome State Fault Refusal := s.arrival t

/-- CONTROL_WRITE (R105). -/
def execControlWrite (t : Txn) (s : State) : Host.Outcome State Fault Refusal := s.writeArrival t

/-- RING_REGION_WRITE (R107). -/
def execRingRegionWrite (t : Txn) (s : State) : Host.Outcome State Fault Refusal := s.writeArrival t

/-- FRAME_ACCESS (R117). -/
def execFrameAccess (t : Txn) (s : State) : Host.Outcome State Fault Refusal := s.arrival t

/-- APERTURE_ACCESS (R113). -/
def execApertureAccess (t : Txn) (s : State) : Host.Outcome State Fault Refusal := s.arrival t

/-- PORT_UNDEFINED_ACCESS (R48). -/
def execPortUndefinedAccess (t : Txn) (s : State) : Host.Outcome State Fault Refusal := s.arrival t

/-- A one-word read of the port word at an offset of the port region at `base` (R47). -/
def portRead (r : Requester) (base : Addr) (offset : Nat) : Txn :=
  { requester := r, addr := base + BitVec.ofNat 36 offset, body := .read 1 }

/-- A full one-word write of the port word at an offset of the port region at `base` (R47). -/
def portWrite (r : Requester) (base : Addr) (offset : Nat) (w : Word) : Txn :=
  { requester := r, addr := base + BitVec.ofNat 36 offset, body := .write [{ data := w, enables := 0b1111#4 }] }

/-- ACQUIRE (R57). -/
def execAcquire (r : Requester) (base : Addr) (s : State) : Host.Outcome State Fault Refusal :=
  s.arrival (portRead r base 0x1000)

/-- POST (R60). -/
def execPost (r : Requester) (base : Addr) (data : Word) (s : State) : Host.Outcome State Fault Refusal :=
  s.arrival (portWrite r base 0x1004 data)

/-- POST_URGENT (R61). -/
def execPostUrgent (r : Requester) (base : Addr) (data : Word) (s : State) : Host.Outcome State Fault Refusal :=
  s.arrival (portWrite r base 0x1008 data)

/-- RELEASE (R64). -/
def execRelease (r : Requester) (base : Addr) (data : Word) (s : State) : Host.Outcome State Fault Refusal :=
  s.arrival (portWrite r base 0x100C data)

/-- TAKE (R65). -/
def execTake (r : Requester) (base : Addr) (s : State) : Host.Outcome State Fault Refusal :=
  s.arrival (portRead r base 0x1010)

/-- PEEK (R66). -/
def execPeek (r : Requester) (base : Addr) (s : State) : Host.Outcome State Fault Refusal :=
  s.arrival (portRead r base 0x1014)

/-- COUNT (R67). -/
def execCount (r : Requester) (base : Addr) (s : State) : Host.Outcome State Fault Refusal :=
  s.arrival (portRead r base 0x1018)

/-- RESPONSE_DELIVERY: the oldest transaction of the requester is answered if its response is decided (R109). -/
def execResponseDelivery (r : Requester) (s : State) : Host.Outcome State Fault Refusal :=
  match (s.uport r).list with
  | [] => .next s
  | u :: us =>
    match u.standby with
    | .waiting _ => .next s
    | .decided resp =>
      .next { s.setUport r { s.uport r with list := us } with delivered := some { requester := r, resp := resp } }

end Sys2Proof.Machine
end

