-- ==== Sys2Proof/Machine/Completion.lean ====
section
/-! DEFINITION. What the D-port returns (R174): the ends of ring reads and writes (chapters 2 and 3), of reclaim and
priming writes, of the Command Unit's accesses and of pass-through accesses, and the engine access timeout (R150). -/

namespace Sys2Proof.Machine

/-! ### The oldest access -/

/-- The oldest access on the in-flight list, to which the next response is matched while none is owed (R174, R178). -/
def State.oldest (s : State) : Option InFlight := if s.owed = 0 then s.inflight.head? else none

/-- The engine request the next response completes: none where the oldest access has timed out (R151). -/
def State.completing (s : State) : Option EngineReq :=
  match s.oldest with
  | none => none
  | some a =>
    match a.access with
    | .pass _ => none
    | .engine q => if a.late then none else some q

/-- The words the oldest access carried as issued. -/
def State.oldestWords (s : State) : List Word := (s.oldest.map InFlight.words).getD []

/-- The oldest access leaves the in-flight list (R174). -/
def State.popOldest (s : State) : State := { s with inflight := s.inflight.tail }

/-! ### Ring reads (R37, R38, R40, R58, R59, R65, R66) -/

/-- A ring read that fails: FAULT to its requester, the ring IDLE, the report, the halt (R38, R40). -/
def State.failRead (s : State) (l : LaneId) (op : ReadOp) (r : Requester) (addr : Addr) (k : FaultKind) (data : Word)
    (reason : HaltReason) : State :=
  (((s.decideResponse r (.ring l op.ring) faultResponse).releaseRing l op.ring).report
    { kind := k, lane := some l, requester := some r, addr := addr, dir := .read, data := data }).updLane l
      fun ln => ln.ringFault reason

/-- A read discarded for the limit: the LIMIT token, the ring IDLE, nothing else (R22, R59). -/
def State.limitRead (s : State) (l : LaneId) (k : RingKind) (r : Requester) : State :=
  (s.decideResponse r (.ring l k) fun _ => .okay [limitToken]).releaseRing l k

/-- An ACQUIRE commits (R7, R58). -/
def State.commitAcquire (s : State) (l : LaneId) (r : Requester) (e : Entry) : State :=
  let d := s.descriptor l
  let n := d.recordOf e.index.toNat
  let g := (s.lane l).freeRing
  ((s.decideResponse r (.ring l .free) fun _ => .okay [handleWord e.index e.gen]).setRecord n
    { s.record n with standing := .held r d.lease }).updLane l fun ln =>
      { (((ln.bindProducer r n).checkOut r).countAcquire).raiseIf
          (decide (d.watermark ≤ g.count) && decide (g.count - 1 < d.watermark)) .freeLow with
        freeRing := g.remove.release }

/-- A TAKE commits (R9, R65). -/
def State.commitTake (s : State) (l : LaneId) (r : Requester) (w : Word) : State :=
  let d := s.descriptor l
  let n := d.recordOf (Entry.ofWord w).index.toNat
  ((s.decideResponse r (.ring l .work) fun _ => .okay [w]).setRecord n
    { s.record n with standing := .taken r d.lease }).updLane l fun ln =>
      { ((ln.bindConsumer r n).checkOut r).countTake with workRing := (s.lane l).workRing.remove.release }

/-- A PEEK completes: the entry word is returned, the ring goes IDLE (R66). -/
def State.finishPeek (s : State) (l : LaneId) (r : Requester) (w : Word) : State :=
  (s.decideResponse r (.ring l .work) fun _ => .okay [w]).releaseRing l .work

/-- A read whose word passed the six checks (R59). -/
def State.passedRead (s : State) (l : LaneId) (op : ReadOp) (r : Requester) (w : Word) : State :=
  match op with
  | .acquire => if s.atLimit l r then s.limitRead l .free r else s.commitAcquire l r (Entry.ofWord w)
  | .take => if s.atLimit l r then s.limitRead l .work r else s.commitTake l r w
  | .peek => s.finishPeek l r w

/-- The end of a RING_READ (R59), before the lane's arrival at OFF is tested. -/
def State.readOutcome (s : State) (l : LaneId) (op : ReadOp) (r : Requester) (addr : Addr) (resp : DResp Word) : State :=
  match resp with
  | .error => s.failRead l op r addr .memoryError allOnes .memory
  | .okay w =>
    if s.slotCheck l op.ring w then s.passedRead l op r w else s.failRead l op r addr .ringCorrupt w .corrupt

/-- The end of a RING_READ (R59, R93, R96). -/
def State.endRead (s : State) (l : LaneId) (op : ReadOp) (r : Requester) (addr : Addr) (resp : DResp Word) : State :=
  (s.readOutcome l op r addr resp).arriveOff l

/-! ### Ring writes (R41, R42, R44, R62, R84, R85) -/

/-- A write of the lane's ring that fails: the report and the halt (R41, R42, R85). -/
def State.failWrite (s : State) (l : LaneId) (r : Option Requester) (addr : Addr) (entry : Word) : State :=
  (s.report (memoryErrorReport (some l) r addr .write entry)).updLane l fun ln => ln.ringFault .memory

/-- The end of the RING_WRITE of a POST, POST_URGENT or RELEASE (R41, R62), before the test for OFF. -/
def State.slotWriteOutcome (s : State) (l : LaneId) (k : RingKind) (w : SlotWrite) (resp : DResp Unit) : State :=
  match resp with
  | .okay _ => (s.decideResponse w.requester (.ring l k) fun _ => .okay []).releaseRing l k
  | .error =>
    ((s.decideResponse w.requester (.ring l k) faultResponse).releaseRing l k).failWrite l (some w.requester) w.addr
      w.entry

/-- The end of the RING_WRITE of a port operation (R62, R93, R96). -/
def State.endSlotWrite (s : State) (l : LaneId) (k : RingKind) (w : SlotWrite) (resp : DResp Unit) : State :=
  (s.slotWriteOutcome l k w resp).arriveOff l

/-- The end of a reclaim write (R42, R44). -/
def State.endReclaim (s : State) (l : LaneId) (addr : Addr) (entry : Word) (resp : DResp Unit) : State :=
  match resp with
  | .okay _ => (s.releaseRing l .free).arriveOff l
  | .error => ((s.releaseRing l .free).failWrite l none addr entry).arriveOff l

/-- A priming write completes: tail, count and position advance, the ring goes IDLE, and the lane still PRIMING after
its last write enters OPEN with LANE_READY (R84). -/
def Lane.primed (ln : Lane) : Lane :=
  let next := { ln with freeRing := ln.freeRing.append.release, primePos := ln.primePos + 1 }
  if ln.state = .priming ∧ ln.primePos + 1 = ln.descriptor.frameCount then
    { next.raise .laneReady with state := .opened }
  else next

/-- A PRIME_WRITE that completes without error makes its frame FREE (R6, R84). -/
def State.primeDone (s : State) (l : LaneId) : State :=
  let n := (s.descriptor l).recordOf (s.lane l).primePos
  (s.setRecord n { s.record n with standing := .free }).updLane l Lane.primed

/-- The end of a PRIME_WRITE (R84, R85). -/
def State.endPrime (s : State) (l : LaneId) (addr : Addr) (entry : Word) (resp : DResp Unit) : State :=
  match resp with
  | .okay _ => (s.primeDone l).arriveOff l
  | .error => ((s.releaseRing l .free).failWrite l none addr entry).arriveOff l

/-! ### The Command Unit's accesses (R76, R149, R158, R162, R164, R166, R176) -/

/-- An error of one of the part's reads is reported (R140, R149). -/
def State.reportReadError {α : Type} (s : State) (l : Option LaneId) (addr : Addr) (resp : DResp α) : State :=
  match resp with
  | .okay _ => s
  | .error => s.report (memoryErrorReport l none addr .read allOnes)

/-- The end of a DESC_READ: the descriptor is validated, and the lane opens or the command is refused (R76, R79). -/
def State.endDesc (s : State) (l : LaneId) (resp : DResp (Vector Word 16)) : State :=
  let t := s.reportReadError (some l) (s.descAddr l) resp
  match s.validate resp with
  | .error reason => t.endCommand reason
  | .ok d => (t.updLane l fun ln => ln.opening d).endCommand .none

/-- Settings come into force: the divider restarts from 0 and the part is ACTIVE (R127, R155, R162, R176). -/
def State.activate (s : State) (g : Globals) : State := { s with part := .active, globals := some g, divider := 0 }

/-- The end of the start-up GLOBAL_READ (R176). -/
def State.endStartUp (s : State) (resp : DResp (Vector Word 16)) : State :=
  let t := s.reportReadError none (s.controlAddr 0) resp
  match validGlobals resp with
  | some g => t.activate g
  | none => { t with part := .pass }

/-- The end of the GLOBAL_READ of RELOAD_GLOBALS (R162). -/
def State.endReload (s : State) (resp : DResp (Vector Word 16)) : State :=
  let t := s.reportReadError none (s.controlAddr 0) resp
  match validGlobals resp with
  | some g => (t.activate g).endCommand .none
  | none => t.endCommand .badGlobals

/-- A STATUS_WRITE, LANE_STATUS_WRITE or RESULT_WRITE that fails is reported and raises MEMORY (R149). -/
def State.recordFailed (s : State) (l : Option LaneId) (addr : Addr) (data : Word) (resp : DResp Unit) : State :=
  match resp with
  | .okay _ => s
  | .error => { s.report (memoryErrorReport l none addr .write data) with memoryPending := true }

/-- The end of a STATUS_WRITE: the completion is taken first, then the changes a failure makes (R164). -/
def State.endStatus (s : State) (words : List Word) (resp : DResp Unit) : State :=
  ({ s with writer := s.writer.completed } : State).recordFailed none s.statusAddr (words.headD 0#32) resp

/-- The end of a LANE_STATUS_WRITE (R166). -/
def State.endLaneStatus (s : State) (l : LaneId) (words : List Word) (resp : DResp Unit) : State :=
  s.recordFailed (some l) (s.laneStatusAddr l) (words.headD 0#32) resp

/-- The end of a RESULT_WRITE: the final one ends the command (R158). -/
def State.endResult (s : State) (word : Word) (final : Bool) (resp : DResp Unit) : State :=
  let t := s.recordFailed none s.resultAddr word resp
  if final then { t with cmd := none } else t

/-! ### Engine access timeouts (R150, R151) -/

/-- The start-up GLOBAL_READ runs in LOADING; any other is RELOAD_GLOBALS's (R162, R176). -/
def State.endGlobal (s : State) (resp : DResp (Vector Word 16)) : State :=
  if s.part = .loading then s.endStartUp resp else s.endReload resp

/-- An engine access is treated as completed with error (R150). -/
def State.endWithError (s : State) (words : List Word) : EngineReq → State
  | .ringRead l op r addr => s.endRead l op r addr .error
  | .ringWrite l k w => s.endSlotWrite l k w .error
  | .reclaimWrite l addr e => s.endReclaim l addr e .error
  | .primeWrite l addr e => s.endPrime l addr e .error
  | .descRead l => s.endDesc l .error
  | .globalRead => s.endGlobal .error
  | .statusWrite => s.endStatus words .error
  | .laneStatusWrite l ws => s.endLaneStatus l ws .error
  | .resultWrite w final => s.endResult w final .error

/-- The engine request at a place of the in-flight list whose timer runs. -/
def State.timed (s : State) (place : Nat) : Option (EngineReq × InFlight) :=
  match s.inflight[place]? with
  | none => none
  | some a =>
    match a.access with
    | .pass _ => none
    | .engine q => if a.timer.isSome ∧ a.late = false then some (q, a) else none

/-- The timer at a place expires: the access ends as an error and keeps its place as a placeholder (R150, R151). -/
def State.timeout (s : State) (place : Nat) : State :=
  match s.timed place with
  | none => s
  | some (q, a) =>
    s.settle (({ s with inflight := s.inflight.set place { a with timer := none, late := true } } : State).endWithError
      a.words q)

/-- ENGINE_ACCESS_TIMEOUT (R150). -/
def execEngineAccessTimeout (place : Fin 32) (s : State) : Host.Outcome State Fault Refusal := .next (s.timeout place)

/-! ### Pass-through completion (R68, R148, R174) -/

/-- A completed write of the requester lowers a waiting slot write's fence count (R68). -/
def SlotWrite.lowerFence (w : SlotWrite) (r : Requester) : SlotWrite :=
  if w.requester = r then { w with fence := w.fence - 1 } else w

/-- The fence counts of a ring lowered (R68). -/
def Ring.lowerFence (g : Ring) (r : Requester) : Ring := { g with fenced := g.fenced.map fun w => w.lowerFence r }

/-- The fence counts of a lane lowered (R68). -/
def Lane.lowerFence (ln : Lane) (r : Requester) : Lane :=
  { ln with freeRing := ln.freeRing.lowerFence r, workRing := ln.workRing.lowerFence r }

/-- A forwarded write of the requester has completed, with or without error: its U-port count and the fence counts it
belongs to fall by one (R68, R69). -/
def State.writeCompleted (s : State) (r : Requester) : State :=
  let u := s.uport r
  allLanes.foldl (fun s l => s.updLane l fun ln => ln.lowerFence r) (s.setUport r { u with forwarded := u.forwarded - 1 })

/-- The response of a pass-through access (R148, R174). -/
def passResponse (t : Txn) (resp : DResp (List Word)) (n : Nat) : Response :=
  match resp with
  | .error => faultResponse n
  | .okay ws =>
    match t.body with
    | .read _ => .okay ws
    | .write _ => .okay []

/-- The accepted CMD write has completed: the command can be carried out (R156). -/
def State.cmdWritten (s : State) : State :=
  match s.cmd with
  | none => s
  | some c => if c.phase = .accepted then { s with cmd := some { c with phase := .ready } } else s

/-- The error of a pass-through access is reported, except in BYPASS (R148, R177). -/
def State.passError (s : State) (e : PassEntry) (resp : DResp (List Word)) : State :=
  match resp with
  | .okay _ => s
  | .error =>
    if s.part = .bypass then s
    else s.report (memoryErrorReport e.lane (some e.txn.requester) e.txn.addr e.txn.dir e.txn.reportData)

/-- A forwarded access of the requester has completed: a write lowers its count and its fences (R68). -/
def State.accessCompleted (s : State) (r : Requester) : Dir → State
  | .read => s
  | .write => s.writeCompleted r

/-- The end of a pass-through access (R148, R174). -/
def State.endPass (s : State) (e : PassEntry) (resp : DResp (List Word)) : State :=
  let t := s.decideResponse e.txn.requester .pass (passResponse e.txn resp)
  let t := (t.accessCompleted e.txn.requester e.txn.dir).passError e resp
  if e.cmd then t.cmdWritten else t

/-- The pass-through access the next response completes. -/
def State.completingPass (s : State) : Option PassEntry :=
  match s.oldest with
  | none => none
  | some a =>
    match a.access with
    | .pass e => some e
    | .engine _ => none

/-- PASSTHROUGH_COMPLETION (R174). -/
def execPassthroughCompletion (resp : DResp (List Word)) (s : State) : Host.Outcome State Fault Refusal :=
  match s.completingPass with
  | none => .next s
  | some e => .next (s.settle (s.popOldest.endPass e resp))

/-! ### Completions of engine accesses -/

/-- ACQUIRE_COMMIT: an ACQUIRE's RING_READ completes (R58, R59). -/
def execAcquireCommit (resp : DResp Word) (s : State) : Host.Outcome State Fault Refusal :=
  match s.completing with
  | some (.ringRead l .acquire r addr) => .next (s.settle (s.popOldest.endRead l .acquire r addr resp))
  | _ => .next s

/-- TAKE_COMMIT: a TAKE's RING_READ completes (R65). -/
def execTakeCommit (resp : DResp Word) (s : State) : Host.Outcome State Fault Refusal :=
  match s.completing with
  | some (.ringRead l .take r addr) => .next (s.settle (s.popOldest.endRead l .take r addr resp))
  | _ => .next s

/-- PEEK_COMPLETION (R66). -/
def execPeekCompletion (resp : DResp Word) (s : State) : Host.Outcome State Fault Refusal :=
  match s.completing with
  | some (.ringRead l .peek r addr) => .next (s.settle (s.popOldest.endRead l .peek r addr resp))
  | _ => .next s

/-- SLOT_WRITE_COMPLETION (R62). -/
def execSlotWriteCompletion (resp : DResp Unit) (s : State) : Host.Outcome State Fault Refusal :=
  match s.completing with
  | some (.ringWrite l k w) => .next (s.settle (s.popOldest.endSlotWrite l k w resp))
  | _ => .next s

/-- RECLAIM_WRITE_COMPLETION (R44). -/
def execReclaimWriteCompletion (resp : DResp Unit) (s : State) : Host.Outcome State Fault Refusal :=
  match s.completing with
  | some (.reclaimWrite l addr e) => .next (s.settle (s.popOldest.endReclaim l addr e resp))
  | _ => .next s

/-- PRIME_WRITE_COMPLETION (R84). -/
def execPrimeWriteCompletion (resp : DResp Unit) (s : State) : Host.Outcome State Fault Refusal :=
  match s.completing with
  | some (.primeWrite l addr e) => .next (s.settle (s.popOldest.endPrime l addr e resp))
  | _ => .next s

/-- DESC_READ_COMPLETION (R76). -/
def execDescReadCompletion (resp : DResp (Vector Word 16)) (s : State) : Host.Outcome State Fault Refusal :=
  match s.completing with
  | some (.descRead l) => .next (s.settle (s.popOldest.endDesc l resp))
  | _ => .next s

/-- GLOBAL_READ_COMPLETION: the start-up read (R176). -/
def execGlobalReadCompletion (resp : DResp (Vector Word 16)) (s : State) : Host.Outcome State Fault Refusal :=
  match s.completing with
  | some .globalRead => .next (if s.part = .loading then s.settle (s.popOldest.endStartUp resp) else s)
  | _ => .next s

/-- RELOAD_GLOBALS_READ_COMPLETION (R162). -/
def execReloadGlobalsReadCompletion (resp : DResp (Vector Word 16)) (s : State) : Host.Outcome State Fault Refusal :=
  match s.completing with
  | some .globalRead => .next (if s.part = .loading then s else s.settle (s.popOldest.endReload resp))
  | _ => .next s

/-- RESULT_WRITE_COMPLETION (R158). -/
def execResultWriteCompletion (resp : DResp Unit) (s : State) : Host.Outcome State Fault Refusal :=
  match s.completing with
  | some (.resultWrite w final) => .next (s.settle (s.popOldest.endResult w final resp))
  | _ => .next s

/-- STATUS_WRITE_COMPLETION (R164). -/
def execStatusWriteCompletion (resp : DResp Unit) (s : State) : Host.Outcome State Fault Refusal :=
  match s.completing with
  | some .statusWrite => .next (s.settle (s.popOldest.endStatus s.oldestWords resp))
  | _ => .next s

/-- LANE_STATUS_WRITE_COMPLETION (R166). -/
def execLaneStatusWriteCompletion (resp : DResp Unit) (s : State) : Host.Outcome State Fault Refusal :=
  match s.completing with
  | some (.laneStatusWrite l ws) => .next (s.settle (s.popOldest.endLaneStatus l ws resp))
  | _ => .next s

/-- LATE_RESPONSE_DISCARD: the response of a timed-out access is discarded and its placeholder goes (R151). -/
def execLateResponseDiscard (s : State) : Host.Outcome State Fault Refusal :=
  match s.oldest with
  | none => .next s
  | some a => .next (if a.late then s.popOldest else s)

/-- OWED_RESPONSE_DISCARD: a response owed from before pin reset is discarded (R178). -/
def execOwedResponseDiscard (s : State) : Host.Outcome State Fault Refusal := .next { s with owed := s.owed - 1 }

end Sys2Proof.Machine
end

