-- ==== Sys2Proof/Machine/Lease.lean ====
section
/-! DEFINITION. The Lease Timer (chapter 7): ticks, expiries, and one REFCLK period. -/

namespace Sys2Proof.Machine

/-- The tick period in force, none where no tick is produced: outside ACTIVE, with no settings in force, or with a
period of 0 (R126). -/
def State.ticking (s : State) : Option Nat :=
  match s.part, s.globals with
  | .active, some g => if g.tickPeriod = 0#16 then none else some g.tickPeriod.toNat
  | _, _ => none

/-- A record whose lease remaining is greater than 1 has it lowered by one (R128). -/
def FrameRec.lowerLease (r : FrameRec) : FrameRec :=
  match r.standing.lease with
  | none => r
  | some n => if 1 < n then { r with standing := r.standing.withLease (n - 1) } else r

/-- The frame expires at this tick: its lease remaining is 1 (R128, R131). -/
def State.expires (s : State) (l : LaneId) (i : Nat) : Bool := decide ((s.frame l i).standing.lease = some 1)

/-- What an expiry does to its lane: the binding emptied, the count lowered, the frame appended to the reclaim list,
EXPIRIES counted, EXPIRED raised (R131). -/
def Lane.expire (ln : Lane) (st : Standing) (r : Requester) (n : RecordId) (i : Nat) : Lane :=
  let t := (((ln.unbind st r n).checkIn r).countExpiry).raise .expired
  { t with reclaim := t.reclaim ++ [{ frame := i, former := r }] }

/-- A frame expires: RECLAIM with its generation advanced, and the lane's side of it (R11, R131). -/
def State.expire (s : State) (l : LaneId) (i : Nat) : State :=
  let n := (s.descriptor l).recordOf i
  let old := s.record n
  match old.standing.holder with
  | none => s
  | some r =>
    (s.setRecord n { standing := .reclaim, gen := old.gen + 1#4 }).updLane l fun ln => ln.expire old.standing r n i

/-- A tick in one lane: the frames whose lease remaining is 1 expire in ascending index, the others are lowered (R128,
R132). -/
def State.tickLane (s : State) (l : LaneId) : State :=
  if (s.lane l).state.counting then
    let d := s.descriptor l
    let due := d.frameIndices.filter fun i => s.expires l i
    due.foldl (fun s i => s.expire l i) (s.mapFrames d FrameRec.lowerLease d.frameIndices)
  else s

/-- A tick: the divider returns to 0 and every lane is reached (R126, R128). -/
def State.tick (s : State) : State := allLanes.foldl State.tickLane { s with divider := 0 }

/-- The tick as a step, where ticks are produced at all (R126, log 5); a reclaim write that can start does so in it, also
where the lane halts next (log 14). -/
def State.tickStep (s : State) : State := if s.ticking.isSome then s.settle s.tick else s

/-- LEASE_TICK (R128). -/
def execLeaseTick (s : State) : Host.Outcome State Fault Refusal := .next s.tickStep

/-- LEASE_EXPIRY: a tick's claim on one frame of a counting lane, whose lease remaining is 1 (R128, R131, log 5). -/
def execLeaseExpiry (l : LaneId) (frame : Fin 1024) (s : State) : Host.Outcome State Fault Refusal :=
  if s.ticking.isSome ∧ (s.lane l).state.counting ∧ frame.val < (s.descriptor l).frameCount ∧ s.expires l frame.val then
    .next (s.settle (s.expire l frame.val))
  else .next s

/-! ### One REFCLK period (R126, R150; log 4) -/

/-- A running timer counts a REFCLK period (R150). -/
def InFlight.advance (a : InFlight) : InFlight :=
  { a with timer := a.timer.map fun t => { t with elapsed := t.elapsed + 1 } }

/-- The access's timer has reached its value (R150). -/
def InFlight.expired (a : InFlight) : Bool :=
  match a.timer with
  | none => false
  | some t => decide (t.limit ≤ t.elapsed)

/-- What may come due in a REFCLK period. -/
inductive ClockEvent where
  | tick
  | timeout (place : Nat)
  deriving DecidableEq, Repr

/-- An event of the clock taken as a step of its own. -/
def State.clockEvent (s : State) : ClockEvent → State
  | .tick => s.tickStep
  | .timeout place => s.timeout place

/-- The places of the timers that have reached their values. -/
def State.expiredPlaces (s : State) : List Nat :=
  (List.range s.inflight.length).filter fun i => (s.inflight[i]?.map InFlight.expired).getD false

/-- The tick is due in this REFCLK period: the divider would reach the tick period (R126). -/
def State.tickDue (s : State) : Bool :=
  match s.ticking with
  | none => false
  | some p => decide (p ≤ s.divider + 1)

/-- The divider count of a period in which no tick is due (R126). -/
def State.countDivider (s : State) : State :=
  if s.ticking.isSome ∧ ¬ s.tickDue then { s with divider := s.divider + 1 } else s

/-- One REFCLK period: divider and timers count, and what comes due is taken in a free order (R126, R150; log 4,
log 6). -/
def State.refclk (s : State) : State :=
  let counted := ({ s with inflight := s.inflight.map InFlight.advance } : State).countDivider
  let events := (if s.tickDue then [ClockEvent.tick] else []) ++ counted.expiredPlaces.map ClockEvent.timeout
  let (events, t) := counted.drawOrder events
  events.foldl State.clockEvent t

end Sys2Proof.Machine
end

