-- ==== Sys2Proof/Machine/Command.lean ====
section
/-! DEFINITION. The Command Unit carries out the current command (chapters 4 and 9). Opcode, lane, tag and argument are
read from the current command word. -/

namespace Sys2Proof.Machine

/-- The commands that run in PASS (R157). -/
def Opcode.runsInPass : Opcode → Bool
  | .openLane => false
  | .closeLane => false
  | .forceClose => false
  | .pauseLane => false
  | .resumeLane => false
  | .stepLane => false
  | .haltLane => false
  | .clearTrap => false
  | .ackIrq => false
  | .snapshot => false
  | .reloadGlobals => true
  | .resetAll => true

/-- The word of the current command, once its CMD write has completed and until it is carried out (R156). -/
def State.toCarryOut (s : State) : Option Word :=
  match s.cmd with
  | none => none
  | some c => if c.phase = .ready then some c.word else none

/-- The current command is carried out if it is the one named; in PASS it is refused NOT_ACTIVE unless it runs there
(R156, R157; log 9). -/
def State.carryOut (s : State) (op : Opcode) (act : State → Word → State) : State :=
  match s.toCarryOut with
  | none => s
  | some w =>
    if Opcode.ofCode (cmdOpcode w) = some op then
      s.settle (if s.part = .pass ∧ !op.runsInPass then s.endCommand .notActive else act s w)
    else s

/-- The current command moves on to a phase in which it waits. -/
def State.cmdPhase (s : State) (p : CmdPhase) : State :=
  match s.cmd with
  | none => s
  | some c => { s with cmd := some { c with phase := p } }

/-- The Command Unit calls for a request (R172). -/
def State.call (s : State) (c : CuCall) : State := { s with cuCalls := s.cuCalls ++ [c] }

/-- A halt that RESUME_LANE and CLOSE_LANE lift (R90). -/
def HaltReason.lifts : HaltReason → Bool
  | .none => false
  | .command => true
  | .policy => true
  | .corrupt => false
  | .memory => false

/-- The lane as CLOSE_LANE leaves it, where it does not refuse (R81, R90, R91). -/
def Lane.closed (ln : Lane) : Option Lane :=
  match ln.state with
  | .off => none
  | .priming => none
  | .opened => some { ln with state := .closing }
  | .paused => some { ln with state := .closing }
  | .step => some { ln with state := .closing }
  | .halted => if ln.haltReason.lifts then some { ln with state := .closing, haltReason := .none } else none
  | .closing => none
  | .flushing => none

/-- The lane as PAUSE_LANE leaves it (R81). -/
def Lane.pausedBy (ln : Lane) : Option Lane :=
  match ln.state with
  | .off => none
  | .priming => none
  | .opened => some { ln with state := .paused }
  | .paused => none
  | .step => some { ln with state := .paused }
  | .halted => none
  | .closing => none
  | .flushing => none

/-- The lane as RESUME_LANE leaves it (R81, R90). -/
def Lane.resumed (ln : Lane) : Option Lane :=
  match ln.state with
  | .off => none
  | .priming => none
  | .opened => none
  | .paused => some { ln with state := .opened }
  | .step => some { ln with state := .opened }
  | .halted => if ln.haltReason.lifts then some { ln with state := .opened, haltReason := .none } else none
  | .closing => none
  | .flushing => none

/-- The lane as STEP_LANE leaves it (R81). -/
def Lane.stepped (ln : Lane) : Option Lane :=
  match ln.state with
  | .off => none
  | .priming => none
  | .opened => some { ln with state := .step }
  | .paused => some { ln with state := .step }
  | .step => none
  | .halted => none
  | .closing => none
  | .flushing => none

/-- The lane as HALT_LANE leaves it (R81, R88). -/
def Lane.haltedBy (ln : Lane) : Option Lane :=
  match ln.state with
  | .off => none
  | .priming => none
  | .opened => some (ln.halt .command)
  | .paused => some (ln.halt .command)
  | .step => some (ln.halt .command)
  | .halted => none
  | .closing => some (ln.halt .command)
  | .flushing => none

/-- A lane-state command done or refused BAD_STATE by the lane's state (R81, R158). -/
def State.laneCommand (s : State) (w : Word) (change : Lane → Option Lane) : State :=
  match change (s.lane (cmdLane w)) with
  | none => s.endCommand .badState
  | some ln => (s.setLane (cmdLane w) ln).endCommand .none

/-- OPEN_LANE: NOT_OFF at once, or a DESC_READ (R75). -/
def State.openLane (s : State) (w : Word) : State :=
  if (s.lane (cmdLane w)).state = .off then (s.cmdPhase .readingDescriptor).call (.descRead (cmdLane w))
  else s.endCommand .notOff

/-- CLOSE_LANE: into CLOSING, where the drain condition is tested at entry (R91, R93). -/
def State.closeLane (s : State) (w : Word) : State :=
  match (s.lane (cmdLane w)).closed with
  | none => s.endCommand .badState
  | some ln => ((s.setLane (cmdLane w) ln).endCommand .none).arriveOff (cmdLane w)

/-- FORCE_CLOSE: BAD_STATE for a lane in OFF, DONE with no change for one already FLUSHING, and FLUSHING otherwise (R81,
R94). -/
def State.forceClose (s : State) (w : Word) : State :=
  if (s.lane (cmdLane w)).state = .off then s.endCommand .badState
  else (s.flushLanes [cmdLane w]).endCommand .none

/-- CLEAR_TRAP (R144). -/
def State.clearTrap (s : State) (_ : Word) : State :=
  ({ s with trap := Trap.empty, trapPending := false } : State).endCommand .none

/-- ACK_IRQ: argument bits 0-5 name lane causes of the lane, bits 8 and 9 TRAP and MEMORY (R160). -/
def State.ackIrq (s : State) (w : Word) : State :=
  let a := cmdArgument w
  let t := s.updLane (cmdLane w) fun ln => { ln with causes := ln.causes &&& ~~~(a.extractLsb' 0 6) }
  ({ t with trapPending := t.trapPending && !a.getLsbD 8, memoryPending := t.memoryPending && !a.getLsbD 9 }
    : State).endCommand .none

/-- SNAPSHOT: the lane's Lane Status Record write is called for, and the final RESULT after it (R161). -/
def State.snapshot (s : State) (w : Word) : State := (s.call (.snapshot (cmdLane w))).endCommand .none

/-- RELOAD_GLOBALS: a GLOBAL_READ is called for (R162). -/
def State.reloadGlobals (s : State) (_ : Word) : State := (s.cmdPhase .readingGlobals).call .globalRead

/-- RESET_ALL: every lane not in OFF enters FLUSHING; the clearing follows when it is due (R163). -/
def State.resetAll (s : State) (_ : Word) : State := (s.flushLanes allLanes).cmdPhase .resetting

/-- OPEN_LANE (R75). -/
def execOpenLane (s : State) : Host.Outcome State Fault Refusal := .next (s.carryOut .openLane State.openLane)

/-- CLOSE_LANE (R91). -/
def execCloseLane (s : State) : Host.Outcome State Fault Refusal := .next (s.carryOut .closeLane State.closeLane)

/-- FORCE_CLOSE (R94). -/
def execForceClose (s : State) : Host.Outcome State Fault Refusal := .next (s.carryOut .forceClose State.forceClose)

/-- PAUSE_LANE (R81). -/
def execPauseLane (s : State) : Host.Outcome State Fault Refusal :=
  .next (s.carryOut .pauseLane fun s w => s.laneCommand w Lane.pausedBy)

/-- RESUME_LANE (R90). -/
def execResumeLane (s : State) : Host.Outcome State Fault Refusal :=
  .next (s.carryOut .resumeLane fun s w => s.laneCommand w Lane.resumed)

/-- STEP_LANE (R81). -/
def execStepLane (s : State) : Host.Outcome State Fault Refusal :=
  .next (s.carryOut .stepLane fun s w => s.laneCommand w Lane.stepped)

/-- HALT_LANE (R88). -/
def execHaltLane (s : State) : Host.Outcome State Fault Refusal :=
  .next (s.carryOut .haltLane fun s w => s.laneCommand w Lane.haltedBy)

/-- CLEAR_TRAP (R144). -/
def execClearTrap (s : State) : Host.Outcome State Fault Refusal := .next (s.carryOut .clearTrap State.clearTrap)

/-- ACK_IRQ (R160). -/
def execAckIrq (s : State) : Host.Outcome State Fault Refusal := .next (s.carryOut .ackIrq State.ackIrq)

/-- SNAPSHOT (R161). -/
def execSnapshot (s : State) : Host.Outcome State Fault Refusal := .next (s.carryOut .snapshot State.snapshot)

/-- RELOAD_GLOBALS (R162). -/
def execReloadGlobals (s : State) : Host.Outcome State Fault Refusal :=
  .next (s.carryOut .reloadGlobals State.reloadGlobals)

/-- RESET_ALL (R163). -/
def execResetAll (s : State) : Host.Outcome State Fault Refusal := .next (s.carryOut .resetAll State.resetAll)

/-- BAD_OPCODE_COMMAND: an opcode that names none of the twelve commands is refused BAD_OPCODE (R157). -/
def execBadOpcodeCommand (s : State) : Host.Outcome State Fault Refusal :=
  match s.toCarryOut with
  | none => .next s
  | some w => .next (if Opcode.ofCode (cmdOpcode w) = none then s.settle (s.endCommand .badOpcode) else s)

end Sys2Proof.Machine
end

