-- ==== Sys2Proof/Machine/Reset.lean ====
section
/-! DEFINITION. Pin reset and the release of RST_N (R175 to R178). -/

namespace Sys2Proof.Machine

/-- RST_N goes low: all work in flight is dropped without responses, every block takes its pin-reset values, and the
owed count rises by the accesses on the in-flight list, placeholders included (R178). CBASE is sampled at the release
alone (R176); the queue of commands and the model's counter of draws are no part of the hardware. -/
def State.pinReset (s : State) : State :=
  { State.reset with cbase := s.cbase, owed := s.owed + s.inflight.length, draws := s.draws, pending := s.pending }

/-- PIN_RESET (R178). -/
def execPinReset (s : State) : Host.Outcome State Fault Refusal := .next s.pinReset

/-- RESET_RELEASE_LOADING: CBASE is sampled, the part enters LOADING and the start-up GLOBAL_READ is placed (R176). -/
def execResetReleaseLoading (cbase : BitVec 20) (s : State) : Host.Outcome State Fault Refusal :=
  .next (if s.part = .heldInReset then
    s.settle (({ s with part := .loading, cbase := cbase } : State).call .globalRead)
  else s)

/-- RESET_RELEASE_BYPASS: CBASE is sampled and the part enters BYPASS (R176, R177). -/
def execResetReleaseBypass (cbase : BitVec 20) (s : State) : Host.Outcome State Fault Refusal :=
  .next (if s.part = .heldInReset then { s with part := .bypass, cbase := cbase } else s)

end Sys2Proof.Machine
end

