-- ==== Sys2Proof/Machine/Dispatch.lean ====
section
/-! DEFINITION. One arm per command: each calls its meaning. -/

namespace Sys2Proof.Machine

/-- The effect of a command on everything but the queue. -/
def exec (i : Instr) (s : State) : Host.Outcome State Fault Refusal :=
  match i with
  | .pinReset => Sys2Proof.Machine.execPinReset s
  | .resetReleaseLoading cbase => Sys2Proof.Machine.execResetReleaseLoading cbase s
  | .resetReleaseBypass cbase => Sys2Proof.Machine.execResetReleaseBypass cbase s
  | .leaseTick => Sys2Proof.Machine.execLeaseTick s
  | .leaseExpiry l frame => Sys2Proof.Machine.execLeaseExpiry l frame s
  | .engineAccessTimeout place => Sys2Proof.Machine.execEngineAccessTimeout place s
  | .passthroughTransaction t => Sys2Proof.Machine.execPassthroughTransaction t s
  | .controlWrite t => Sys2Proof.Machine.execControlWrite t s
  | .ringRegionWrite t => Sys2Proof.Machine.execRingRegionWrite t s
  | .frameAccess t => Sys2Proof.Machine.execFrameAccess t s
  | .apertureAccess t => Sys2Proof.Machine.execApertureAccess t s
  | .acquire r base => Sys2Proof.Machine.execAcquire r base s
  | .post r base data => Sys2Proof.Machine.execPost r base data s
  | .postUrgent r base data => Sys2Proof.Machine.execPostUrgent r base data s
  | .release r base data => Sys2Proof.Machine.execRelease r base data s
  | .take r base => Sys2Proof.Machine.execTake r base s
  | .peek r base => Sys2Proof.Machine.execPeek r base s
  | .count r base => Sys2Proof.Machine.execCount r base s
  | .acquireCommit resp => Sys2Proof.Machine.execAcquireCommit resp s
  | .takeCommit resp => Sys2Proof.Machine.execTakeCommit resp s
  | .peekCompletion resp => Sys2Proof.Machine.execPeekCompletion resp s
  | .slotWriteCompletion resp => Sys2Proof.Machine.execSlotWriteCompletion resp s
  | .reclaimWriteStart l => Sys2Proof.Machine.execReclaimWriteStart l s
  | .reclaimWriteCompletion resp => Sys2Proof.Machine.execReclaimWriteCompletion resp s
  | .primeWriteStart l => Sys2Proof.Machine.execPrimeWriteStart l s
  | .primeWriteCompletion resp => Sys2Proof.Machine.execPrimeWriteCompletion resp s
  | .passthroughCompletion resp => Sys2Proof.Machine.execPassthroughCompletion resp s
  | .slotClaimPlace => Sys2Proof.Machine.execSlotClaimPlace s
  | .arbiterGrant => Sys2Proof.Machine.execArbiterGrant s
  | .lateResponseDiscard => Sys2Proof.Machine.execLateResponseDiscard s
  | .owedResponseDiscard => Sys2Proof.Machine.execOwedResponseDiscard s
  | .responseDelivery r => Sys2Proof.Machine.execResponseDelivery r s
  | .openLane => Sys2Proof.Machine.execOpenLane s
  | .descReadCompletion resp => Sys2Proof.Machine.execDescReadCompletion resp s
  | .closeLane => Sys2Proof.Machine.execCloseLane s
  | .forceClose => Sys2Proof.Machine.execForceClose s
  | .pauseLane => Sys2Proof.Machine.execPauseLane s
  | .resumeLane => Sys2Proof.Machine.execResumeLane s
  | .stepLane => Sys2Proof.Machine.execStepLane s
  | .haltLane => Sys2Proof.Machine.execHaltLane s
  | .clearTrap => Sys2Proof.Machine.execClearTrap s
  | .ackIrq => Sys2Proof.Machine.execAckIrq s
  | .snapshot => Sys2Proof.Machine.execSnapshot s
  | .reloadGlobals => Sys2Proof.Machine.execReloadGlobals s
  | .reloadGlobalsReadCompletion resp => Sys2Proof.Machine.execReloadGlobalsReadCompletion resp s
  | .resetAll => Sys2Proof.Machine.execResetAll s
  | .resetAllClearing => Sys2Proof.Machine.execResetAllClearing s
  | .badOpcodeCommand => Sys2Proof.Machine.execBadOpcodeCommand s
  | .resultWriteCompletion resp => Sys2Proof.Machine.execResultWriteCompletion resp s
  | .globalReadCompletion resp => Sys2Proof.Machine.execGlobalReadCompletion resp s
  | .statusWritePlace => Sys2Proof.Machine.execStatusWritePlace s
  | .statusWriteCompletion resp => Sys2Proof.Machine.execStatusWriteCompletion resp s
  | .laneStatusWritePlace l => Sys2Proof.Machine.execLaneStatusWritePlace l s
  | .laneStatusWriteCompletion resp => Sys2Proof.Machine.execLaneStatusWriteCompletion resp s
  | .laneDrainComplete l => Sys2Proof.Machine.execLaneDrainComplete l s
  | .laneTeardown l => Sys2Proof.Machine.execLaneTeardown l s
  | .portUndefinedAccess t => Sys2Proof.Machine.execPortUndefinedAccess t s

end Sys2Proof.Machine
end

