-- ==== Sys2Proof/Safety.lean ====
section
/-! DEFINITION. The invariants and the frame conditions that the statements use. -/

namespace Sys2Proof.Machine

/-! ### What a step leaves alone -/

/-- The U-port takes a transaction of the requester (R109, R178). -/
structure Listens (s : State) (r : Requester) : Prop where
  up : s.part ≠ .heldInReset
  room : (s.uport r).list.length < 32

/-- The command is the arrival of the transaction (log 3). -/
def Arrives (c : Instr) (t : Txn) : Prop :=
  c = .passthroughTransaction t ∨ c = .frameAccess t ∨ c = .apertureAccess t ∨ c = .portUndefinedAccess t
    ∨ (t.dir = .write ∧ (c = .controlWrite t ∨ c = .ringRegionWrite t))
    ∨ ∃ r base, (c = .acquire r base ∧ t = portRead r base 0x1000) ∨ (c = .take r base ∧ t = portRead r base 0x1010)
        ∨ (c = .peek r base ∧ t = portRead r base 0x1014) ∨ (c = .count r base ∧ t = portRead r base 0x1018)
        ∨ ∃ w, (c = .post r base w ∧ t = portWrite r base 0x1004 w)
            ∨ (c = .postUrgent r base w ∧ t = portWrite r base 0x1008 w)
            ∨ (c = .release r base w ∧ t = portWrite r base 0x100C w)

/-- The Window Map serves transactions by their class: the part is ACTIVE or PASS (R101). -/
def Classifies (s : State) : Prop := s.part = .active ∨ s.part = .pass

/-- The range of `size` bytes from a base up. -/
def span (base size : Nat) : Range := { first := base, last := base + size - 1 }

/-- The four regions of a lane by its copy: 8 KiB from the port base, the frames, and the two rings (R100). -/
def regionsFor (l : LaneId) (d : Descriptor) : List Region :=
  [{ kind := .port l, range := span d.portBase.toNat 8192 },
    { kind := .frame l, range := span d.frameBase.toNat (d.frameCount * d.frameSize) },
    { kind := .ring l .free, range := span d.freeBase.toNat (4 * d.freeSize) },
    { kind := .ring l .work, range := span d.workBase.toNat (4 * d.workSize) }]

/-- The region is in force: the 4 KiB Control Block in ACTIVE and PASS; the four regions of each lane not in OFF in
ACTIVE; none in LOADING, in BYPASS and in reset (R100, R101). -/
def InForce (s : State) (g : Region) : Prop :=
  (Classifies s ∧ g = { kind := .control, range := span (s.cbase.toNat * 65536) 4096 }) ∨
    (s.part = .active ∧ ∃ l d, (s.lane l).state ≠ .off ∧ (s.lane l).desc = some d ∧ g ∈ regionsFor l d)

/-- The byte lies in the region. -/
def Lies (n : Nat) (g : Region) : Prop := g.range.first ≤ n ∧ n ≤ g.range.last

/-- The span of a transaction in the Control Block touches a byte of the offsets given (R105). -/
def Touches (s : State) (t : Txn) (first last : Nat) : Prop :=
  t.firstByte - s.controlBase ≤ last ∧ first ≤ t.lastByte - s.controlBase

/-- The part-owned words: RESULT, the Status Record and the Lane Status Records (R105). -/
def TouchesOwned (s : State) (t : Txn) : Prop := Touches s t 0x044 0x047 ∨ Touches s t 0x080 0x4FF

/-- A direct access passes the guard (R117, R118): in PRIMING and FLUSHING always; under NONE always; under WRITE a read,
or by the holder; under FULL by the holder. -/
def GuardAllows (s : State) (l : LaneId) (t : Txn) : Prop :=
  (s.lane l).state = .priming ∨ (s.lane l).state = .flushing ∨ (s.lane l).state = .off
    ∨ (s.descriptor l).guard = .none ∨ ((s.descriptor l).guard = .write ∧ t.dir = .read)
    ∨ (s.frame l ((s.descriptor l).frameAt t.firstByte)).standing.holder = some t.requester

/-- Renew-on-access applies in the lane: set, with lease ticks, in a state that renews (R121). -/
def Renewing (s : State) (l : LaneId) : Prop :=
  (s.descriptor l).renew = true ∧ (s.descriptor l).leaseTicks ≠ 0
    ∧ ((s.lane l).state = .opened ∨ (s.lane l).state = .paused ∨ (s.lane l).state = .step
        ∨ (s.lane l).state = .halted ∨ (s.lane l).state = .closing)

/-- A port word of the lane, in ACTIVE. -/
structure AtPort (s : State) (l : LaneId) (offset : Nat) (t : Txn) : Prop where
  part : s.part = .active
  wf : t.wf = true
  word : s.classify t = .portWord l offset

/-! ### The state a step leaves -/

/-- The writer of `x` has taken the change that the step from `s` made, if it made one in a part state in which the
writer takes changes (R164, R176, R177). -/
def writerTakes (s x : State) : Writer :=
  if (x.part = .active ∨ x.part = .pass) ∧ s.statusContents ≠ x.statusContents then x.writer.change else x.writer

/-- The state with its writer as the step's change leaves it: the one in which slots are given out. -/
def noted (s x : State) : State := { x with writer := writerTakes s x }

/-- The address of a slot in a ring at the given base: ring base + 4 × slot (R25). -/
def slotAt (geom : RingGeom) (slot : Nat) : Addr := geom.base + BitVec.ofNat 36 (4 * slot)

/-- The address of the slot at tail; of a base 0 where no geometry is in force, as in no state of a run. -/
def tailSlot (g : Ring) : Addr := slotAt (g.geom.getD { base := 0#36, size := 0 }) g.tail

/-- Everything the claimant's own rule requires holds except the slot (R43, R62, R83, R164, R166, R172). -/
def wants (y : State) : Claimant → Bool
  | .status => decide (y.writer = .writing .waiting)
  | .fenced l k => ((y.lane l).ring k).fenced.any fun w => decide (w.fence = 0)
  | .prime l => decide ((y.lane l).state = .priming ∧ (y.lane l).primePos < (y.descriptor l).frameCount
      ∧ (y.lane l).freeRing.access = .idle)
  | .reclaim l => decide ((y.lane l).state ∈ [LaneState.opened, .paused, .step, .closing] ∧ (y.lane l).reclaim ≠ []
      ∧ (y.lane l).freeRing.access = .idle)
  | .laneStatus l => (y.lane l).lsrWaiting

/-- The request a claimant that wants a slot places, with its address and content (R43, R62, R83, R134, R164, R166). -/
def claimRequest (y : State) : Claimant → Option EngineReq
  | .status => some .statusWrite
  | .fenced l k => ((y.lane l).ring k).fenced.map fun w => .ringWrite l k w
  | .prime l => some (.primeWrite l (tailSlot (y.lane l).freeRing)
      (Entry.word { index := BitVec.ofNat 10 (y.lane l).primePos, gen := (y.frame l (y.lane l).primePos).gen,
                    length := 0#10, origin := 0#3, kind := .primed, urgent := false }))
  | .reclaim l => (y.lane l).reclaim.head?.map fun e => .reclaimWrite l (tailSlot (y.lane l).freeRing)
      (Entry.word { index := BitVec.ofNat 10 e.frame, gen := (y.frame l e.frame).gen, length := 0#10,
                    origin := BitVec.ofNat 3 e.former.val, kind := .reclaimed, urgent := false })
  | .laneStatus l => some (.laneStatusWrite l (y.lane l).statusRecord)

/-- The request the Command Unit's call places (R156, R161, R166). -/
def callRequest (y : State) : CuCall → EngineReq
  | .result w final => .resultWrite w final
  | .descRead l => .descRead l
  | .globalRead => .globalRead
  | .snapshot l => .laneStatusWrite l (y.lane l).statusRecord

/-- What the placing of the claims and calls does to lane `l`: a priming or reclaim write claims the free ring WRITING,
a slot write and a Lane Status Record write wait no longer (R43, R62, R83, R166). -/
def laneGiven (claims : List Claimant) (calls : List CuCall) (l : LaneId) (ln : Lane) : Lane :=
  { ln with
      freeRing := { ln.freeRing with
        access := if .prime l ∈ claims ∨ .reclaim l ∈ claims then .writing else ln.freeRing.access
        fenced := if .fenced l .free ∈ claims then none else ln.freeRing.fenced }
      workRing := { ln.workRing with fenced := if .fenced l .work ∈ claims then none else ln.workRing.fenced }
      lsrWaiting := if .laneStatus l ∈ claims ∨ .snapshot l ∈ calls then false else ln.lsrWaiting }

/-- The Command Unit's calls `first`, then the claims, then its calls `last` have placed their requests, in this
order. -/
def given (y : State) (first : List CuCall) (claims : List Claimant) (last : List CuCall) : State :=
  { y with
      engQ := y.engQ ++ first.map (callRequest y) ++ claims.filterMap (claimRequest y) ++ last.map (callRequest y)
      writer := if .status ∈ claims then .writing .queued else y.writer
      lanes := Vector.ofFn fun l => laneGiven claims (first ++ last) l (y.lane l) }

/-- A Lane Status Record write that waits for the lane of a SNAPSHOT among the calls is merged into it (R166). -/
def mergedInto (calls : List CuCall) : Claimant → Bool
  | .laneStatus l => decide (.snapshot l ∈ calls)
  | _ => false

/-- The list of waiting claimants after the calls `first`: those that waited and still want a slot, in their order,
and behind them those that have begun to wait (R172). -/
def waits (y : State) (began : List Claimant) (first : List CuCall) : List Claimant :=
  (y.waiting.filter (wants y) ++ began).filter fun c => !mergedInto first c

/-- Free slots have gone to what waits in `y`, and `t` is left (R75, R172): to the Command Unit's calls `first`, then
to `claims`, then to the calls `last`. -/
structure GivenTo (y t : State) (began : List Claimant) (first : List CuCall) (claims : List Claimant)
    (last : List CuCall) : Prop where
  /-- These requests have joined the engine queue with what their placing does; QIRQ follows the causes (R168), and
  but for the lists of what waits and the counter of free draws (log 6) nothing else has changed. -/
  state : t = { given y first claims last with
    cuCalls := t.cuCalls, waiting := t.waiting, qirq := t.causeEnabled, draws := t.draws }
  /-- The Command Unit's calls are placed in the order it makes them, each once. -/
  calls : y.cuCalls = first ++ last ++ t.cuCalls
  /-- The claimants that begin to wait: all that want a slot and were not on the list, in a free order (log 6). -/
  begins : began.Nodup ∧ ∀ c, c ∈ began ↔ wants y c = true ∧ c ∉ y.waiting
  /-- The claims are taken from the front of the list, and what is left of it, in its order, waits on. -/
  order : (claims ++ t.waiting).Sublist (waits y began first)
  /-- No claimant is forgotten. -/
  all : ∀ c ∈ waits y began first, c ∈ claims ∨ c ∈ t.waiting
  /-- A claim is placed once and waits no longer. -/
  once : claims.Nodup ∧ ∀ c ∈ claims, c ∉ t.waiting
  /-- A call takes any slot of the 16, a claim one other than the reserved one. -/
  room : (first ≠ [] → y.engQ.length + first.length ≤ 16) ∧
    (claims ≠ [] → y.engQ.length + first.length + claims.length ≤ 15) ∧
    (last ≠ [] → y.engQ.length + first.length + claims.length + last.length ≤ 16)
  /-- Claimants wait on for want of a slot alone. -/
  full : t.waiting ≠ [] → 15 ≤ y.engQ.length + first.length + claims.length
  /-- A call waits on for want of a slot, or as a DESC_READ while a Lane Status Record write of its lane waits. -/
  stops : ∀ c cs, t.cuCalls = c :: cs → 16 ≤ t.engQ.length ∨ ∃ l, c = .descRead l ∧ (t.lane l).lsrWaiting = true
  /-- A DESC_READ is placed where no Lane Status Record write of its lane waits, or behind that write. -/
  behind : ∀ before l after, first ++ last = before ++ .descRead l :: after → (y.lane l).lsrWaiting = false ∨
    .snapshot l ∈ before ∨ (.laneStatus l ∈ claims ∧ first.length ≤ before.length)
  /-- The Command Unit goes ahead: claims are placed past its next call only where that is a DESC_READ held so. -/
  ahead : claims ≠ [] → ∀ c cs, last ++ t.cuCalls = c :: cs →
    ∃ l, c = .descRead l ∧ (y.lane l).lsrWaiting = true ∧ .snapshot l ∉ first
  /-- The calls placed last start with a DESC_READ that was held for a write among the claims. -/
  follows : ∀ c cs, last = c :: cs → ∃ l, c = .descRead l ∧ .laneStatus l ∈ claims

/-- Free slots have gone to what waits in `y`. -/
def Given (y t : State) : Prop := ∃ began first claims last, GivenTo y t began first claims last

/-- The clearing of RESET_ALL is due: the command, whose word is `w`, waits for it, every lane is OFF and no Lane Status
Record write waits (R163). -/
structure ClearingDue (s : State) (w : Word) : Prop where
  cmd : s.cmd = some { word := w, phase := .resetting }
  lanes : ∀ l, (s.lane l).state = .off ∧ (s.lane l).lsrWaiting = false

/-- The command is done or refused: its final RESULT is called for (R158). -/
def ended (s : State) (w : Word) (reason : Reason) : State :=
  { s with cmd := some { word := w, phase := .finishing },
           cuCalls := s.cuCalls ++ [.result (resultWord w reason false) true] }

/-- The state as the clearing of RESET_ALL leaves it, with its final RESULT called for (R163). -/
def cleared (s : State) (w : Word) : State :=
  ended { s with lanes := Vector.replicate 16 Lane.reset, frames := Vector.replicate 4096 FrameRec.reset,
                 trap := { stored := none, overflow := 0 }, trapPending := false, memoryPending := false } w .none

/-- The step's own effect leads from `s` to `x`; `t` is `x` once the Status Record writer has taken the change (R164),
free slots have gone to what waits (R172) and QIRQ follows the causes (R168); and, where the clearing of RESET_ALL is
due then, once it has been made and slots have been given out after it (R163). Nothing else differs (log 2). -/
def Placed (s x t : State) : Prop :=
  ∃ v, Given (noted s x) v ∧
    (((∀ w, ¬ ClearingDue v w) ∧ t = v) ∨ ∃ w, ClearingDue v w ∧ Given (noted v (cleared v w)) t)

/-! ### The outcomes of an arrival -/

/-- A statistic one higher, stopping at 2^32 - 1 (R55). -/
def oneMore (n : Nat) : Nat := min (n + 1) 0xFFFFFFFF

/-- FAULT with all-ones data in every word of a read (00 *Transactions and responses*). -/
def faultOf (n : Nat) : Response := .fault (List.replicate n 0xFFFFFFFF#32)

/-- A fault that names the lane: FAULTS counts it while the lane is not OFF (R145, R147). -/
def counted (ln : Lane) : Lane :=
  if ln.state = .off then ln else { ln with stats := { ln.stats with faults := oneMore ln.stats.faults } }

/-- What a requester-caused fault does to the lane it names: FAULTS counts it while the lane is not OFF, and a lane in
OPEN, PAUSED, STEP or CLOSING whose halt-on-fault set holds the kind, one of the first ten, halts with reason POLICY
(R88, R145, R146). -/
def faulted (k : FaultKind) (ln : Lane) : Lane :=
  if (ln.state = .opened ∨ ln.state = .paused ∨ ln.state = .step ∨ ln.state = .closing) ∧ k.code ≤ 10
      ∧ ln.descriptor.haltSet.getLsbD k.code = true then
    { counted ln with state := .halted, haltReason := .policy, causes := ln.causes ||| 0b010000#6, lsrWaiting := true }
  else counted ln

/-- The transaction is answered at its arrival: its response, decided, joins the end of its requester's list, and
nothing else changes (R109). -/
def Answered (t : Txn) (resp : Response) (s u : State) : Prop := Placed s (s.join t (.decided resp)) u

/-- RETRY at arrival to a transaction that is no port operation: no statistic and no fault (R108). -/
def Retried (t : Txn) (s u : State) : Prop := Answered t .retry s u

/-- A port operation answered RETRY: RETRIES counts it and nothing else changes (R49, R55). -/
def PortRetried (l : LaneId) (t : Txn) (s u : State) : Prop :=
  Placed s ((s.join t (.decided .retry)).setLane l
    { s.lane l with stats := { (s.lane l).stats with retries := oneMore (s.lane l).stats.retries } }) u

/-- The report of a transaction refused at its arrival (R54, R110, R119). -/
def refusalReport (k : FaultKind) (lane : Option LaneId) (t : Txn) : Report :=
  { kind := k, lane := lane, requester := some t.requester, addr := t.addr, dir := t.dir, data := t.reportData }

/-- The transaction is answered FAULT with all-ones data and reported, and the lane named takes the fault (R141, R143,
R145, R146). -/
def refused (k : FaultKind) (lane : Option LaneId) (t : Txn) (s : State) : State :=
  let x := (s.join t (.decided (faultOf t.readLength))).trapReport (refusalReport k lane t)
  match lane with
  | none => x
  | some l => x.setLane l (faulted k (s.lane l))

/-- FAULT at arrival, and nothing else changes. -/
def Refused (k : FaultKind) (lane : Option LaneId) (t : Txn) (s u : State) : Prop := Placed s (refused k lane t s) u

/-- Pass-through admission with the entry given: the entry joins the queue's tail, the transaction's answer waits for
it, and a write is counted as forwarded (R68, R108). -/
def admitted (t : Txn) (e : PassEntry) (s : State) : State :=
  { s with
      passQ := s.passQ ++ [e]
      uports := s.uports.set t.requester
        { list := (s.uport t.requester).list ++ [{ readLength := t.readLength, standby := .waiting .pass }]
          forwarded := (s.uport t.requester).forwarded + (if t.dir = .write then 1 else 0) } }

/-- Admission at arrival, and nothing else changes. -/
def Admitted (t : Txn) (e : PassEntry) (s u : State) : Prop := Placed s (admitted t e s) u

/-- The frame records after the renewal of the listed ones of lane `l`: the lease of each that the requester holds is
set back where renewal applies in the lane and the record has a lease, and every other record stays (R121, R122). -/
structure Renewed (s : State) (l : LaneId) (r : Requester) (ns : List RecordId) (frames : Vector FrameRec 4096) :
    Prop where
  renewed : ∀ n ∈ ns, Renewing s l → (s.record n).standing.holder = some r → frames[n] =
    { s.record n with standing := (s.record n).standing.withLease (s.descriptor l).leaseTicks }
  kept : ∀ n, n ∉ ns ∨ ¬ Renewing s l ∨ (s.record n).standing.holder ≠ some r → frames[n] = s.record n

/-! ### Port operations -/

/-- The transaction is the port word's operation (R47, R48). -/
def PortWord (offset : Nat) (t : Txn) (op : PortOp) : Prop :=
  (op = .acquire ∧ offset = 0x1000 ∧ t.body = .read 1) ∨ (op = .take ∧ offset = 0x1010 ∧ t.body = .read 1)
    ∨ (op = .peek ∧ offset = 0x1014 ∧ t.body = .read 1) ∨ (op = .count ∧ offset = 0x1018 ∧ t.body = .read 1)
    ∨ ∃ w, t.body = .write [{ data := w, enables := 0b1111#4 }] ∧
        ((op = .post w ∧ offset = 0x1004) ∨ (op = .postUrgent w ∧ offset = 0x1008) ∨ (op = .release w ∧ offset = 0x100C))

/-- ACQUIRE, POST and POST_URGENT: what a PAUSED lane holds off (R50). -/
def Producing (op : PortOp) : Prop := op = .acquire ∨ (∃ w, op = .post w) ∨ ∃ w, op = .postUrgent w

/-- The lane state passes the operation (R50). -/
def LanePasses (st : LaneState) (op : PortOp) : Prop :=
  st = .opened ∨ st = .step ∨ (st = .paused ∧ ¬ Producing op) ∨ (st = .halted ∧ op = .count)
    ∨ (st = .closing ∧ op ≠ .acquire)

/-- The role masks pass the requester (R51). -/
def RoleAllows (d : Descriptor) (r : Requester) : PortOp → Prop
  | .acquire => d.producers.getLsbD r.val = true
  | .post _ => d.producers.getLsbD r.val = true
  | .postUrgent _ => d.producers.getLsbD r.val = true
  | .release _ => d.producers.getLsbD r.val = true ∨ d.consumers.getLsbD r.val = true
  | .take => d.consumers.getLsbD r.val = true
  | .peek => d.consumers.getLsbD r.val = true
  | .count => True

/-- A port operation that has passed the word, lane-state and role checks (R49). -/
structure Reaches (s : State) (c : Instr) (t : Txn) (l : LaneId) (op : PortOp) : Prop where
  arrives : Arrives c t
  listens : Listens s t.requester
  atPort : ∃ offset, AtPort s l offset t ∧ PortWord offset t op
  lane : LanePasses (s.lane l).state op
  role : RoleAllows (s.descriptor l) t.requester op

/-- The quoted index (R52, R169). -/
def handleIndex (w : Word) : Nat := (w.extractLsb' 0 10).toNat

/-- The frame record a quoted handle names (R1, R18). -/
def handleRecord (s : State) (l : LaneId) (w : Word) : RecordId := (s.descriptor l).recordOf (handleIndex w)

/-- The handle is found: bit 31 clear, the index in the lane's frames, the generation the record's (R18). -/
structure HandleFound (s : State) (l : LaneId) (w : Word) : Prop where
  top : w.getLsbD 31 = false
  index : handleIndex w < (s.descriptor l).frameCount
  gen : w.extractLsb' 10 4 = (s.record (handleRecord s l w)).gen

/-- The port word of a read-side operation (R47). -/
def readWord : ReadOp → PortOp
  | .acquire => .acquire
  | .take => .take
  | .peek => .peek

/-- The length field fits the frame: at most its size in words (R52). -/
def LengthFits (s : State) (l : LaneId) (w : Word) : Prop :=
  (w.extractLsb' 14 10).toNat ≤ (s.descriptor l).frameSize / 4

/-- The slot before the head, where POST_URGENT inserts (R31). -/
def slotBeforeHead (g : Ring) (size : Nat) : Nat := if g.head = 0 then size - 1 else g.head - 1

/-! ### Ring accesses that end, and the arrival at OFF -/

/-- The drain condition (R93): the lane is CLOSING, its reclaim list is empty, both rings are IDLE and no frame is HELD,
QUEUED, TAKEN or RECLAIM. -/
structure Drains (s : State) (l : LaneId) : Prop where
  state : (s.lane l).state = .closing
  reclaim : (s.lane l).reclaim = []
  free : (s.lane l).freeRing.access = .idle
  work : (s.lane l).workRing.access = .idle
  frames : ∀ i < (s.descriptor l).frameCount, (s.frame l i).standing = .idle ∨ (s.frame l i).standing = .free

/-- A FLUSHING lane with no ring access or ring request left (R96). -/
structure TornDown (s : State) (l : LaneId) : Prop where
  state : (s.lane l).state = .flushing
  free : (s.lane l).freeRing.access = .idle
  work : (s.lane l).workRing.access = .idle
  fenced : ∀ k, ((s.lane l).ring k).fenced = none
  queue : ∀ q ∈ s.engQ, q.isRingOf l = false
  inflight : ∀ a ∈ s.inflight, a.isRingOf l = false

/-- The lane's own values at OFF: no copy in force but the cause enables, position 0, rings, bindings, counts and
reclaim list as after pin reset, LANE_OFF raised, its Lane Status Record called for; halt reason and statistics kept (R46,
R97, R98). -/
def offLane (ln : Lane) : Lane :=
  { Lane.reset with haltReason := ln.haltReason, enables := ln.enables, causes := ln.causes ||| 0b001000#6,
                    stats := ln.stats, lsrWaiting := true }

/-- Lane `l` of `x` has reached OFF in `y`, each record of its slice changed as given and nothing else changed. -/
structure OffFrom (l : LaneId) (change : FrameRec → FrameRec) (x y : State) : Prop where
  rest : y = { x with lanes := y.lanes, frames := y.frames }
  lane : y.lane l = offLane (x.lane l)
  others : ∀ m, m ≠ l → y.lane m = x.lane m
  slice : ∀ i < (x.descriptor l).frameCount, y.record ((x.descriptor l).recordOf i) = change (x.frame l i)
  records : ∀ n, (∀ i < (x.descriptor l).frameCount, (x.descriptor l).recordOf i ≠ n) → y.record n = x.record n

/-- A record at a graceful close goes IDLE with its generation kept (R14). -/
def closedRecord (r : FrameRec) : FrameRec := { standing := .idle, gen := r.gen }

/-- A record at teardown goes IDLE, its generation advanced unless it was IDLE (R13). -/
def tornRecord (r : FrameRec) : FrameRec :=
  { standing := .idle, gen := if r.standing = .idle then r.gen else r.gen + 1#4 }

/-- The step's own effect leads from `s` to `x`, where lane `l` reaches OFF if its drain or teardown condition holds
(R93, R96); then slots are given out. -/
structure OffTested (l : LaneId) (s x t : State) : Prop where
  stays : ¬ Drains x l → ¬ TornDown x l → Placed s x t
  drains : Drains x l → ∃ y, OffFrom l closedRecord x y ∧ Placed s y t
  tornDown : TornDown x l → ∃ y, OffFrom l tornRecord x y ∧ Placed s y t

/-- The next response from the memory controller completes this engine access, which carried these words; `rest` stands
behind it (R174, R178). -/
structure NextEnds (s : State) (q : EngineReq) (words : List Word) (rest : List InFlight) : Prop where
  owed : s.owed = 0
  oldest : ∃ timer, s.inflight = { access := .engine q, words := words, timer := timer, late := false } :: rest

/-- The requester's list with the response decided of the first transaction that waits for `a` (R109). -/
def Decides (a : Await) (mk : Nat → Response) (before after : List Unanswered) : Prop :=
  (∃ xs u ys, before = xs ++ u :: ys ∧ (∀ v ∈ xs, v.standby ≠ .waiting a) ∧ u.standby = .waiting a ∧
      after = xs ++ { u with standby := .decided (mk u.readLength) } :: ys)
    ∨ ((∀ v ∈ before, v.standby ≠ .waiting a) ∧ after = before)

/-- The six checks of a word read from a slot, all passed (R37). -/
structure SlotOk (s : State) (l : LaneId) (k : RingKind) (w : Word) : Prop where
  parity : onesBelow 31 w % 2 = 0
  top : w.getLsbD 31 = false
  kind : (Entry.ofWord w).kind = .posted ↔ k = .work
  index : handleIndex w < (s.descriptor l).frameCount
  gen : (s.record (handleRecord s l w)).gen = w.extractLsb' 10 4
  standing : (s.record (handleRecord s l w)).standing = if k = .work then .queued else .free

/-- The lease a commit gives (R7, R9, R16). -/
def leaseOf (d : Descriptor) : Option Nat := if d.leaseTicks = 0 then none else some d.leaseTicks

/-- What RING_CORRUPT or MEMORY_ERROR on a ring access of the lane does to it: FAULTS counts it while the lane is not
OFF; a lane in PRIMING, OPEN, PAUSED, STEP or CLOSING halts with the reason; one HALTED for NONE, COMMAND or POLICY takes
the reason; one HALTED for CORRUPT or MEMORY, in FLUSHING or OFF stays (R39, R145, R147). -/
def ringFaulted (reason : HaltReason) (ln : Lane) : Lane :=
  if ln.state = .off then ln
  else
    let counted := { ln with stats := { ln.stats with faults := oneMore ln.stats.faults } }
    if ln.state = .flushing ∨ (ln.state = .halted ∧ (ln.haltReason = .corrupt ∨ ln.haltReason = .memory)) then counted
    else if ln.state = .halted then { counted with haltReason := reason }
    else { counted with state := .halted, haltReason := reason, causes := ln.causes ||| 0b010000#6, lsrWaiting := true }

/-- The command by which the memory controller answers an engine access with an error. -/
def errorCommand (s : State) : EngineReq → Instr
  | .ringRead _ .acquire _ _ => .acquireCommit .error
  | .ringRead _ .take _ _ => .takeCommit .error
  | .ringRead _ .peek _ _ => .peekCompletion .error
  | .ringWrite _ _ _ => .slotWriteCompletion .error
  | .reclaimWrite _ _ _ => .reclaimWriteCompletion .error
  | .primeWrite _ _ _ => .primeWriteCompletion .error
  | .descRead _ => .descReadCompletion .error
  | .globalRead => if s.part = .loading then .globalReadCompletion .error else .reloadGlobalsReadCompletion .error
  | .statusWrite => .statusWriteCompletion .error
  | .laneStatusWrite _ _ => .laneStatusWriteCompletion .error
  | .resultWrite _ _ => .resultWriteCompletion .error

/-- The command ends the engine access with an error: by the memory controller's response, or by its timeout, after which
the access keeps its place as a placeholder (R150, R151). `after` is the in-flight list then. -/
def FailsWith (s : State) (c : Instr) (q : EngineReq) (words : List Word) (after : List InFlight) : Prop :=
  (c = errorCommand s q ∧ NextEnds s q words after) ∨
    ∃ (place : Fin 32) (timer : Timer), c = .engineAccessTimeout place ∧
      s.inflight[place.val]? = some { access := .engine q, words := words, timer := some timer, late := false } ∧
      after = s.inflight.set place.val { access := .engine q, words := words, timer := none, late := true }

/-- The command by which the memory controller answers a ring read. -/
def readCommand (read : ReadOp) (resp : DResp Word) : Instr :=
  match read with
  | .acquire => .acquireCommit resp
  | .take => .takeCommit resp
  | .peek => .peekCompletion resp

/-- The command is the arrival of a response of the memory controller, whatever the response. -/
def isCompletion : Instr → Bool
  | .acquireCommit _ => true
  | .takeCommit _ => true
  | .peekCompletion _ => true
  | .slotWriteCompletion _ => true
  | .reclaimWriteCompletion _ => true
  | .primeWriteCompletion _ => true
  | .descReadCompletion _ => true
  | .globalReadCompletion _ => true
  | .reloadGlobalsReadCompletion _ => true
  | .statusWriteCompletion _ => true
  | .laneStatusWriteCompletion _ => true
  | .resultWriteCompletion _ => true
  | .passthroughCompletion _ => true
  | _ => false

/-- The oldest access in flight is a placeholder: an engine access that has timed out (R151). -/
def LateFirst (s : State) : Prop :=
  ∃ q words timer rest, s.inflight = { access := .engine q, words := words, timer := timer, late := true } :: rest

/-- The next response completes this pass-through access; `rest` stands behind it (R174, R178). -/
structure NextEndsPass (s : State) (e : PassEntry) (rest : List InFlight) : Prop where
  owed : s.owed = 0
  oldest : ∃ words timer late, s.inflight = { access := .pass e, words := words, timer := timer, late := late } :: rest

/-- The response of a pass-through access (R148, R174). -/
def passAnswer (d : Dir) (resp : DResp (List Word)) (n : Nat) : Response :=
  match resp, d with
  | .error, _ => faultOf n
  | .okay data, .read => .okay data
  | .okay _, .write => .okay []

/-- The fence counts of the requester's waiting slot write, one lower (R68). -/
def fenceLower (r : Requester) (g : Ring) : Ring :=
  { g with fenced := g.fenced.map fun w => if w.requester = r then { w with fence := w.fence - 1 } else w }

/-- A lane after a forwarded access of the requester has completed: a write lowers its fence counts (R68). -/
def fencesAfter (d : Dir) (r : Requester) (ln : Lane) : Lane :=
  match d with
  | .read => ln
  | .write => { ln with freeRing := fenceLower r ln.freeRing, workRing := fenceLower r ln.workRing }

/-- The failure of a pass-through access is reported: not in BYPASS (R148, R177). -/
def passFails (part : PartState) (resp : DResp (List Word)) : Bool :=
  match resp with
  | .okay _ => false
  | .error => decide (part ≠ .bypass)

/-- The command after a pass-through access has completed: an accepted one whose CMD write it was can be carried out
(R156). -/
def cmdAfter (mark : Bool) (c : Option Running) : Option Running :=
  match c with
  | none => none
  | some r => if mark = true ∧ r.phase = .accepted then some { word := r.word, phase := .ready } else some r

/-- What the completion of its write does to the writer (R164). -/
def writerDone : Writer → Writer
  | .idle => .idle
  | .writing _ => .idle
  | .dirty => .writing .waiting

/-- A MEMORY_ERROR of one of the Command Unit's accesses (R149). -/
def ownError (l : Option LaneId) (addr : Addr) (dir : Dir) (data : Word) : Report :=
  { kind := .memoryError, lane := l, requester := none, addr := addr, dir := dir, data := data }

/-- The address at an offset of the Control Block (R154). -/
def blockAddr (s : State) (offset : Nat) : Addr := BitVec.ofNat 36 (s.cbase.toNat * 65536 + offset)

/-- The settings of the words of a Global Record (R155, R169). -/
def settingsOf (ws : Vector Word 16) : Globals :=
  { tickPeriod := ws[1].extractLsb' 0 16, memoryTimeout := ws[2].extractLsb' 0 16, enableTrap := ws[3].getLsbD 8,
    enableMemory := ws[3].getLsbD 9 }

/-! ### Validation of a descriptor (R76 to R78) -/

/-- A code of the descriptor names nothing (R77, R169). -/
def BadCodes (ws : Vector Word 16) : Prop :=
  6 ≤ (ws[8].extractLsb' 12 3 : BitVec 3).toNat ∨ ws[9].extractLsb' 0 3 = 7#3 ∨ ws[9].extractLsb' 4 3 = 7#3
    ∨ ws[9].extractLsb' 28 2 = 3#2

/-- Guard level codes (R169). -/
def guardCode : Guard → BitVec 2
  | .none => 0#2
  | .write => 1#2
  | .full => 2#2

/-- The copy holds the values of the descriptor's words at their places (R73, R169). -/
structure CopiedFrom (ws : Vector Word 16) (d : Descriptor) : Prop where
  portBase : d.portBase.toNat = ws[0].toNat + 2 ^ 32 * (ws[1].extractLsb' 0 4).toNat
  frameBase : d.frameBase.toNat = ws[2].toNat + 2 ^ 32 * (ws[3].extractLsb' 0 4).toNat
  freeBase : d.freeBase.toNat = ws[4].toNat + 2 ^ 32 * (ws[5].extractLsb' 0 4).toNat
  workBase : d.workBase.toNat = ws[6].toNat + 2 ^ 32 * (ws[7].extractLsb' 0 4).toNat
  frameCount : d.frameCount = (ws[8].extractLsb' 0 11).toNat
  frameSize : d.frameSize = 64 * 2 ^ (ws[8].extractLsb' 12 3).toNat
  firstRecord : d.firstRecord = (ws[8].extractLsb' 16 12).toNat
  freeSize : d.freeSize = 16 * 2 ^ (ws[9].extractLsb' 0 3).toNat
  workSize : d.workSize = 16 * 2 ^ (ws[9].extractLsb' 4 3).toNat
  limit : d.limit = (ws[9].extractLsb' 8 4).toNat
  leaseTicks : d.leaseTicks = (ws[9].extractLsb' 16 8).toNat
  renew : d.renew = ws[9].getLsbD 24
  guard : guardCode d.guard = ws[9].extractLsb' 28 2
  producers : d.producers = ws[10].extractLsb' 0 8
  consumers : d.consumers = ws[10].extractLsb' 8 8
  watermark : d.watermark = (ws[10].extractLsb' 16 10).toNat
  haltSet : ∀ k, d.haltSet.getLsbD k = (decide (1 ≤ k ∧ k ≤ 10) && ws[11].getLsbD k)
  enables : d.enables = ws[12].extractLsb' 0 6

/-- The values are in their accepted ranges (R77). -/
structure FieldsInRange (d : Descriptor) : Prop where
  count : 1 ≤ d.frameCount ∧ d.frameCount ≤ 1024
  limit : 1 ≤ d.limit
  top : d.frameBase.toNat + d.frameCount * d.frameSize ≤ 2 ^ 36

/-- The four bases are aligned (R77). -/
structure BasesAligned (d : Descriptor) : Prop where
  port : d.portBase.toNat % 8192 = 0
  frame : d.frameBase.toNat % d.frameSize = 0
  free : d.freeBase.toNat % (4 * d.freeSize) = 0
  work : d.workBase.toNat % (4 * d.workSize) = 0

/-- Two slices share no record (R78). -/
def SlicesApart (d e : Descriptor) : Prop :=
  d.firstRecord + d.frameCount ≤ e.firstRecord ∨ e.firstRecord + e.frameCount ≤ d.firstRecord

/-- Two ranges share no byte (R78). -/
def RangesApart (a b : Range) : Prop := a.last < b.first ∨ b.last < a.first

/-- The slice lies within the records and apart from that of every lane not in OFF (R78). -/
structure SliceFree (s : State) (d : Descriptor) : Prop where
  fits : d.firstRecord + d.frameCount ≤ 4096
  apart : ∀ m e, (s.lane m).state ≠ .off → (s.lane m).desc = some e → SlicesApart d e

/-- The four regions are apart from one another, from the Control Block and from every region of a lane not in OFF
(R78). -/
structure RegionsFree (s : State) (d : Descriptor) : Prop where
  own : d.regions.Pairwise RangesApart
  block : ∀ a ∈ d.regions, RangesApart a (Range.ofSize (s.cbase.toNat * 65536) 4096)
  others : ∀ m e, (s.lane m).state ≠ .off → (s.lane m).desc = some e → ∀ a ∈ d.regions, ∀ b ∈ e.regions, RangesApart a b

/-- A ring as OPEN_LANE sets it (R26). -/
def freshRing (base : Addr) (size : Nat) : Ring :=
  { geom := some { base := base, size := size }, head := 0, tail := 0, count := 0, access := .idle, fenced := none }

/-- The lane as an OPEN_LANE that passes all tests leaves it (R79). -/
def openedLane (ln : Lane) (d : Descriptor) : Lane :=
  { ln with state := .priming, haltReason := .none, desc := some d, enables := d.enables, stats := Stats.zero,
            primePos := 0, freeRing := freshRing d.freeBase d.freeSize, workRing := freshRing d.workBase d.workSize }

/-! ### The arbiter (R173, R150) -/

/-- The timer of an engine access issued now: the memory timeout in force, none where it is 0 or none is (R150). -/
def timerNow (s : State) : Option Timer :=
  match s.globals with
  | none => none
  | some g => if g.memoryTimeout = 0#16 then none else some { limit := g.memoryTimeout.toNat, elapsed := 0 }

/-- The words an engine request carries at its issue; the Status Record's are those of that moment (R164). -/
def wordsNow (s : State) : EngineReq → List Word
  | .ringWrite _ _ w => [w.entry]
  | .reclaimWrite _ _ e => [e]
  | .primeWrite _ _ e => [e]
  | .statusWrite => s.statusContents.words
  | .laneStatusWrite _ ws => ws
  | .resultWrite w _ => [w]
  | _ => []

/-- The command has the claimant place its request: by its own row, or as the first of those that wait for a slot (R43,
R83, R164, R166, R172). -/
def Begins (s : State) (c : Instr) (claim : Claimant) : Prop :=
  (∃ l, claim = .reclaim l ∧ c = .reclaimWriteStart l) ∨ (∃ l, claim = .prime l ∧ c = .primeWriteStart l)
    ∨ (claim = .status ∧ c = .statusWritePlace) ∨ (∃ l, claim = .laneStatus l ∧ c = .laneStatusWritePlace l)
    ∨ (c = .slotClaimPlace ∧ s.cuCalls = [] ∧ ∃ cs, s.waiting = claim :: cs)

/-! ### Commands -/

/-- The command of the table that carries out an opcode (R157, R169). -/
def commandFor : Nat → Instr
  | 1 => .openLane
  | 2 => .closeLane
  | 3 => .forceClose
  | 4 => .pauseLane
  | 5 => .resumeLane
  | 6 => .stepLane
  | 7 => .haltLane
  | 8 => .clearTrap
  | 9 => .ackIrq
  | 10 => .snapshot
  | 11 => .reloadGlobals
  | 12 => .resetAll
  | _ => .badOpcodeCommand

/-- A command that has its CMD write behind it and is to be carried out now (R156). -/
structure Ready (s : State) (w : Word) (opcode : Nat) : Prop where
  cmd : s.cmd = some { word := w, phase := .ready }
  code : cmdOpcode w = opcode

/-- The lanes listed that are neither OFF nor FLUSHING, which FORCE_CLOSE and RESET_ALL take into FLUSHING (R94, R163). -/
def toFlush (s : State) (ls : List LaneId) : List LaneId :=
  ls.filter fun l => (s.lane l).state ≠ .off ∧ (s.lane l).state ≠ .flushing

/-- A ring at its lane's entry into FLUSHING: IDLE where a request for it has not been granted, as it was otherwise
(R45). -/
def flushedRing (s : State) (l : LaneId) (k : RingKind) : Ring :=
  let g := (s.lane l).ring k
  if (∃ q ∈ s.engQ, q.ringOf = some (l, k)) ∨ g.fenced ≠ none then { g with access := .idle, fenced := none } else g

/-- The listed lanes have entered FLUSHING, before the operations cut off are answered: their ungranted ring requests are
gone and their rings released (R45, R94). -/
def flushing (s : State) (ls : List LaneId) : State :=
  { s with
      engQ := s.engQ.filter fun q => ∀ l ∈ ls, q.isRingOf l = false
      lanes := Vector.ofFn fun m =>
        if m ∈ ls then { s.lane m with state := .flushing, freeRing := flushedRing s m .free,
                                       workRing := flushedRing s m .work }
        else s.lane m }

/-- The listed lanes, which have entered FLUSHING in `x`, have reached OFF in `y` where nothing of theirs is left (R96):
the records of their slices are torn down, and nothing else has changed. -/
structure FlushedOff (ls : List LaneId) (x y : State) : Prop where
  rest : y = { x with lanes := y.lanes, frames := y.frames }
  off : ∀ l ∈ ls, TornDown x l → y.lane l = offLane (x.lane l)
  stays : ∀ l, (l ∈ ls → ¬ TornDown x l) → y.lane l = x.lane l
  torn : ∀ l ∈ ls, TornDown x l → ∀ i < (x.descriptor l).frameCount,
    y.record ((x.descriptor l).recordOf i) = tornRecord (x.frame l i)
  records : ∀ n, (∀ l ∈ ls, TornDown x l → ∀ i < (x.descriptor l).frameCount, (x.descriptor l).recordOf i ≠ n) →
    y.record n = x.record n

/-! ### Formats (R169) -/

/-- The lane of a trap as a number, 31 for NONE (R169). -/
def laneNumber : Option LaneId → Nat
  | none => 31
  | some l => l.val

/-- The requester of a trap as a number, 15 for NONE (R169). -/
def requesterNumber : Option Requester → Nat
  | none => 15
  | some r => r.val

/-- The 32 words of the Status Record: part state and pending global causes; the trap, its stored values 0 while it is
not occupied; words 5 to 15 all 0; and each lane's pending causes, state and halt reason (R165, R169). -/
structure StatusWords (s : State) (ws : List Word) : Prop where
  length : ws.length = 32
  part : (ws.getD 0 0#32).extractLsb' 0 2 = s.part.code ∧ (ws.getD 0 0#32).extractLsb' 2 6 = 0#6
  causes : (ws.getD 0 0#32).getLsbD 8 = s.trapPending ∧ (ws.getD 0 0#32).getLsbD 9 = s.memoryPending
    ∧ (ws.getD 0 0#32).extractLsb' 10 22 = 0#22
  overflow : s.trap.overflow ≤ 255 → ((ws.getD 1 0#32).extractLsb' 24 8).toNat = s.trap.overflow
  empty : s.trap.stored = none → (ws.getD 1 0#32).extractLsb' 0 24 = 0#24 ∧ ws.getD 2 0#32 = 0#32
    ∧ ws.getD 3 0#32 = 0#32 ∧ ws.getD 4 0#32 = 0#32
  kind : ∀ f, s.trap.stored = some f → (ws.getD 1 0#32).getLsbD 0 = true
    ∧ ((ws.getD 1 0#32).extractLsb' 1 4).toNat = f.kind.code
    ∧ (ws.getD 1 0#32).getLsbD 5 = decide (f.dir = .write) ∧ (ws.getD 1 0#32).extractLsb' 6 2 = 0#2
  lane : ∀ f, s.trap.stored = some f →
    ((ws.getD 1 0#32).extractLsb' 8 5).toNat = laneNumber f.lane ∧ (ws.getD 1 0#32).extractLsb' 13 3 = 0#3
  requester : ∀ f, s.trap.stored = some f →
    ((ws.getD 1 0#32).extractLsb' 16 4).toNat = requesterNumber f.requester ∧ (ws.getD 1 0#32).extractLsb' 20 4 = 0#4
  address : ∀ f, s.trap.stored = some f → ws.getD 2 0#32 = f.addr.extractLsb' 0 32
    ∧ (ws.getD 3 0#32).extractLsb' 0 4 = f.addr.extractLsb' 32 4 ∧ (ws.getD 3 0#32).extractLsb' 4 28 = 0#28
    ∧ ws.getD 4 0#32 = f.data
  zero : ∀ i, 5 ≤ i → i ≤ 15 → ws.getD i 0#32 = 0#32
  summary : ∀ l : LaneId, (ws.getD (16 + l.val) 0#32).extractLsb' 0 6 = (s.lane l).causes
    ∧ (ws.getD (16 + l.val) 0#32).extractLsb' 6 2 = 0#2
    ∧ (ws.getD (16 + l.val) 0#32).extractLsb' 8 3 = (s.lane l).state.code
    ∧ (ws.getD (16 + l.val) 0#32).getLsbD 11 = false
    ∧ (ws.getD (16 + l.val) 0#32).extractLsb' 12 3 = (s.lane l).haltReason.code
    ∧ (ws.getD (16 + l.val) 0#32).extractLsb' 15 17 = 0#17

/-- The 16 words of a Lane Status Record: the eight statistics, the two ring counts, the length of the reclaim list
with the halt reason, and six words of 0 (R166, R169). A number too wide for its field is no number of the part. -/
structure LaneStatusWords (ln : Lane) (ws : List Word) : Prop where
  length : ws.length = 16
  acquires : ln.stats.acquires < 2 ^ 32 → (ws.getD 0 0#32).toNat = ln.stats.acquires
  posts : ln.stats.posts < 2 ^ 32 → (ws.getD 1 0#32).toNat = ln.stats.posts
  takes : ln.stats.takes < 2 ^ 32 → (ws.getD 2 0#32).toNat = ln.stats.takes
  releases : ln.stats.releases < 2 ^ 32 → (ws.getD 3 0#32).toNat = ln.stats.releases
  retries : ln.stats.retries < 2 ^ 32 → (ws.getD 4 0#32).toNat = ln.stats.retries
  empties : ln.stats.empties < 2 ^ 32 → (ws.getD 5 0#32).toNat = ln.stats.empties
  faults : ln.stats.faults < 2 ^ 32 → (ws.getD 6 0#32).toNat = ln.stats.faults
  expiries : ln.stats.expiries < 2 ^ 32 → (ws.getD 7 0#32).toNat = ln.stats.expiries
  free : ln.freeRing.count < 2048 → ((ws.getD 8 0#32).extractLsb' 0 11).toNat = ln.freeRing.count
  work : ln.workRing.count < 2048 → ((ws.getD 8 0#32).extractLsb' 16 11).toNat = ln.workRing.count
  reclaim : ln.reclaim.length < 2048 → ((ws.getD 9 0#32).extractLsb' 0 11).toNat = ln.reclaim.length
  reason : (ws.getD 9 0#32).extractLsb' 16 3 = ln.haltReason.code
  between : (ws.getD 8 0#32).extractLsb' 11 5 = 0#5 ∧ (ws.getD 8 0#32).extractLsb' 27 5 = 0#5
    ∧ (ws.getD 9 0#32).extractLsb' 11 5 = 0#5 ∧ (ws.getD 9 0#32).extractLsb' 19 13 = 0#13
  zero : ∀ i, 10 ≤ i → ws.getD i 0#32 = 0#32

/-- The codes of the formats, and the fields of a CMD word (R169). -/
structure CodesOfTheFormats : Prop where
  states : [LaneState.off, .priming, .opened, .paused, .step, .halted, .closing, .flushing].map LaneState.code =
    [0#3, 1#3, 2#3, 3#3, 4#3, 5#3, 6#3, 7#3]
  reasons : [HaltReason.none, .command, .policy, .corrupt, .memory].map HaltReason.code = [0#3, 1#3, 2#3, 3#3, 4#3]
  parts : [PartState.loading, .active, .pass, .bypass].map PartState.code = [0#2, 1#2, 2#2, 3#2]
  kinds : [EntryKind.primed, .returned, .reclaimed, .posted].map EntryKind.code = [0#2, 1#2, 2#2, 3#2]
  faults : [FaultKind.portUndefined, .role, .badHandle, .stale, .notHolder, .badLength, .noBinding, .apertureRange,
    .guarded, .split, .laneHalted, .laneClosing, .ringCorrupt, .memoryError].map FaultKind.code =
      [1, 2, 3, 4, 5, 6, 7, 8, 9, 10, 11, 12, 13, 14]
  refusals : [Reason.none, .notOff, .badState, .badOpcode, .notActive, .badGlobals, .memory, .badField, .misaligned,
    .freeRingSmall, .noRole, .sliceOverlap, .regionOverlap].map Reason.code =
      [0#8, 1#8, 2#8, 3#8, 4#8, 5#8, 6#8, 7#8, 8#8, 9#8, 10#8, 11#8, 12#8]
  command : ∀ w : Word, cmdOpcode w = (w.extractLsb' 0 4).toNat ∧ (cmdLane w).val = (w.extractLsb' 4 4).toNat

/-! ### Leases (chapter 7) -/

/-- Ticks are produced: the part is ACTIVE with a tick period other than 0 in force (R126). -/
def Ticks (s : State) : Prop := s.part = .active ∧ ∃ g, s.globals = some g ∧ g.tickPeriod ≠ 0#16

/-- The lane states in which leases count (R128). -/
def Counts (st : LaneState) : Prop := st = .opened ∨ st = .paused ∨ st = .step ∨ st = .closing

/-- A record that expires: RECLAIM, its generation advanced (R11, R131). -/
def expiredRecord (r : FrameRec) : FrameRec := { standing := .reclaim, gen := r.gen + 1#4 }

/-- A record of a counting lane after a tick (R128). -/
def tickedRecord (r : FrameRec) : FrameRec :=
  match r.standing.lease with
  | none => r
  | some n => if n = 1 then expiredRecord r else { standing := r.standing.withLease (n - 1), gen := r.gen }

/-- The frames of a lane that expire at a tick taken now, in ascending index (R128, R132). -/
def dueFrames (s : State) (l : LaneId) : List Nat :=
  (List.range (s.descriptor l).frameCount).filter fun i => (s.frame l i).standing.lease = some 1

/-- A counting lane after a tick (R131, R132): the frames that expired have joined the reclaim list in ascending index
with their former holders, EXPIRIES has counted each, EXPIRED is raised where there was one, and each former holder's
checkout count and bindings have lost the frames it held. -/
structure LaneTicked (s : State) (l : LaneId) (y : Lane) : Prop where
  rest : y = { s.lane l with causes := y.causes, stats := y.stats, reclaim := y.reclaim, checkout := y.checkout,
                             prodBind := y.prodBind, consBind := y.consBind }
  causes : y.causes = if dueFrames s l = [] then (s.lane l).causes else (s.lane l).causes ||| 0b100000#6
  stats : y.stats = { (s.lane l).stats with
    expiries := if dueFrames s l = [] then (s.lane l).stats.expiries
      else min ((s.lane l).stats.expiries + (dueFrames s l).length) 0xFFFFFFFF }
  reclaim : y.reclaim.map ReclaimEntry.frame = (s.lane l).reclaim.map ReclaimEntry.frame ++ dueFrames s l
  former : y.reclaim.map (fun e => some e.former) =
    (s.lane l).reclaim.map (fun e => some e.former) ++ (dueFrames s l).map fun i => (s.frame l i).standing.holder
  checkout : ∀ r, y.checkedOut r =
    (s.lane l).checkedOut r - (dueFrames s l).countP fun i => (s.frame l i).standing.holder = some r
  producer : ∀ r, y.producerBinding r =
    if ∃ i ∈ dueFrames s l, (s.frame l i).standing = .held r (some 1)
        ∧ (s.lane l).producerBinding r = some ((s.descriptor l).recordOf i) then none
    else (s.lane l).producerBinding r
  consumer : ∀ r, y.consumerBinding r =
    if ∃ i ∈ dueFrames s l, (s.frame l i).standing = .taken r (some 1)
        ∧ (s.lane l).consumerBinding r = some ((s.descriptor l).recordOf i) then none
    else (s.lane l).consumerBinding r

/-- A tick has reached every lane (R126, R128). -/
structure Ticked (s x : State) : Prop where
  rest : x = { s with divider := 0, lanes := x.lanes, frames := x.frames }
  lanes : ∀ l, Counts (s.lane l).state → LaneTicked s l (x.lane l)
  others : ∀ l, ¬ Counts (s.lane l).state → x.lane l = s.lane l
  slices : ∀ l, Counts (s.lane l).state → ∀ i < (s.descriptor l).frameCount,
    x.record ((s.descriptor l).recordOf i) = tickedRecord (s.frame l i)
  records : ∀ n, (∀ l, Counts (s.lane l).state → ∀ i < (s.descriptor l).frameCount, (s.descriptor l).recordOf i ≠ n) →
    x.record n = s.record n

/-- A REFCLK period counts in every engine access timer that runs (R150). -/
def counting (s : State) : List InFlight :=
  s.inflight.map fun a => { a with timer := a.timer.map fun t => { limit := t.limit, elapsed := t.elapsed + 1 } }

/-- A timer of the list has reached its value at the place (R150). -/
def RunsOut (as : List InFlight) (place : Nat) : Prop :=
  ∃ a t, as[place]? = some a ∧ a.timer = some t ∧ t.limit ≤ t.elapsed

/-! ### The trap (R143, R163) -/

/-- The trap still holds the report, and its overflow count has not fallen nor passed 255 (R143). -/
structure StillHeld (f : Report) (s t : State) : Prop where
  stored : t.trap.stored = some f
  rises : s.trap.overflow ≤ t.trap.overflow
  bound : t.trap.overflow ≤ 255

/-- The clearing of RESET_ALL has been made in the step: RESET_ALL, waiting for it or carried out in the step, has
gone on to its final RESULT, every lane is OFF and the trap is empty (R163). -/
def ClearedIn (s t : State) : Prop :=
  ∃ w, (s.cmd = some { word := w, phase := .resetting } ∨ (s.cmd = some { word := w, phase := .ready } ∧ cmdOpcode w = 12))
    ∧ t.cmd = some { word := w, phase := .finishing } ∧ (∀ l, (t.lane l).state = .off)
    ∧ t.trap = { stored := none, overflow := 0 }

/-! ### Invariants -/

/-- The bounds the manual puts on the queues and lists of the part (R108, R109, R170, R171, R174). -/
structure QueuesBounded (s : State) : Prop where
  passQ : s.passQ.length ≤ 32
  engQ : s.engQ.length ≤ 16
  inflight : s.inflight.length ≤ 32
  lists : ∀ r, (s.uport r).list.length ≤ 32

/-- QIRQ is high exactly when a pending cause is enabled (R168). -/
def QirqFollows (s : State) : Prop := s.qirq = s.causeEnabled

/-- A pending cause is enabled: a lane cause by the lane's enables, a global cause by the settings in force (R168). -/
def CauseEnabled (s : State) : Prop :=
  (∃ l, ∃ i < 6, (s.lane l).causes.getLsbD i = true ∧ (s.lane l).enables.getLsbD i = true) ∨
    ∃ g, s.globals = some g ∧
      ((g.enableTrap = true ∧ s.trapPending = true) ∨ (g.enableMemory = true ∧ s.memoryPending = true))

/-- The slices of the lanes lie within the records and apart from one another; a lane in OFF has no copy (R2, R73,
R78). -/
structure SlicesHeld (s : State) : Prop where
  off : ∀ l, (s.lane l).state = .off → (s.lane l).desc = none
  fits : ∀ l d, (s.lane l).desc = some d → d.firstRecord + d.frameCount ≤ 4096
  apart : ∀ l m d e, l ≠ m → (s.lane l).desc = some d → (s.lane m).desc = some e → SlicesApart d e

/-- The claimants that want a slot form one list, each on it once, and no request waits while it could be placed: a
claimant waits only while the engine queue holds 15 or more, the Command Unit only while it is full or its DESC_READ is
held for a Lane Status Record write of the lane (R75, R172). -/
structure NoneKeptWaiting (s : State) : Prop where
  once : s.waiting.Nodup
  list : ∀ c, c ∈ s.waiting ↔ wants s c = true
  claims : s.waiting ≠ [] → 15 ≤ s.engQ.length
  calls : ∀ c cs, s.cuCalls = c :: cs → 16 ≤ s.engQ.length ∨ ∃ l, c = .descRead l ∧ (s.lane l).lsrWaiting = true

end Sys2Proof.Machine
end

