-- ==== Sys2Proof/Certificates/Slice0/Obligations.lean ====
section
/-! DEFINITION. The statements for the provers. -/

open Sys2Proof Sys2Proof.Machine

/-- For every command c and state s, step of s with c at the front of its queue is exec c on s with the queue's rest.
The queue is the model's own (log 1). -/
def Obligations.StepRunsTheFrontCommand : Prop :=
  ∀ (c : Instr) (rest : List Instr) (s : State),
    step { s with pending := c :: rest } = exec c { s with pending := rest }

/-- With nothing in the queue every running engine access timer counts one period; the divider counts where ticks are
produced; where nothing comes due that is all; where the tick alone is due the step is LEASE_TICK on that state, where
one timer alone has run out it is the ENGINE_ACCESS_TIMEOUT of its place. What comes due together is taken in a free
order (log 6), of which nothing is stated. That an empty queue is a REFCLK period is the model's choice (log 4).
Rules: R126, R150. -/
def Obligations.EmptyQueueIsOneRefclkPeriod : Prop :=
  ∀ (s : State), s.pending = [] →
    (∀ p, s.ticking = some p → s.divider + 1 < p → (∀ i, ¬ RunsOut (counting s) i) →
      step s = .next { s with inflight := counting s, divider := s.divider + 1 }) ∧
    (s.ticking = none → (∀ i, ¬ RunsOut (counting s) i) → step s = .next { s with inflight := counting s }) ∧
    (∀ p, s.ticking = some p → p ≤ s.divider + 1 → (∀ i, ¬ RunsOut (counting s) i) →
      step s = exec .leaseTick { s with inflight := counting s }) ∧
    (∀ place : Fin 32, s.ticking = none → RunsOut (counting s) place.val →
      (∀ i, i ≠ place.val → ¬ RunsOut (counting s) i) →
      step s = exec (.engineAccessTimeout place) { s with inflight := counting s }) ∧
    (∀ (place : Fin 32) p, s.ticking = some p → s.divider + 1 < p → RunsOut (counting s) place.val →
      (∀ i, i ≠ place.val → ¬ RunsOut (counting s) i) →
      step s = exec (.engineAccessTimeout place) { s with inflight := counting s, divider := s.divider + 1 })

/-- Where exec of any command answers a next state, the queue of waiting commands is as it was. The queue is the
model's own (log 1). -/
def Obligations.CommandsKeepTheQueue : Prop :=
  ∀ (c : Instr) (s t : State), exec c s = .next t → t.pending = s.pending

/-- A well-formed command answers a next state whatever the state; the only refusal is notATransaction, given only to
a command that is not well-formed (log 10). -/
def Obligations.WellFormedCommandsComplete : Prop :=
  ∀ (c : Instr) (s : State),
    (c.wf = true → ∃ t, exec c s = .next t) ∧
    (∀ x, exec c s = .refused x → x = .notATransaction ∧ c.wf = false)

/-- The region of a byte is one in force that holds it, and none where none in force does: in ACTIVE the 4 KiB Control
Block and the four regions of each lane not in OFF, in PASS the Control Block alone, in LOADING and BYPASS none. A
last byte past the address space splits; a first byte in no region is PLAIN unless the last byte lies in one; a first
byte in a region whose last byte lies outside it splits; within a region the class is that of the region, with the
frame span test under a guard and the aperture bounds in a port region; a split is attributed to the lane of the first
byte's region, else of the last byte's. Rules: R100, R102, R103. -/
def Obligations.ClassificationFollowsTheRegions : Prop :=
  ∀ (s : State) (t : Txn),
    (∀ b g, s.regionAt b = some g → InForce s g ∧ Lies b g) ∧
    (∀ b, s.regionAt b = none → ∀ g, InForce s g → ¬ Lies b g) ∧
    (2 ^ 36 ≤ t.lastByte → s.classify t = .split (s.splitLane t)) ∧
    (t.lastByte < 2 ^ 36 → s.regionAt t.firstByte = none →
      (s.regionAt t.lastByte = none → s.classify t = .plain) ∧
      (s.regionAt t.lastByte ≠ none → s.classify t = .split (s.splitLane t))) ∧
    (∀ g, t.lastByte < 2 ^ 36 → s.regionAt t.firstByte = some g →
      (¬ Lies t.lastByte g → s.classify t = .split (s.splitLane t)) ∧
      (Lies t.lastByte g →
        (g.kind = .control → s.classify t = .control) ∧
        (∀ l k, g.kind = .ring l k → s.classify t = .ring l k) ∧
        (∀ l, g.kind = .frame l →
          ((s.descriptor l).guard = .none ∨
            (s.descriptor l).frameAt t.firstByte = (s.descriptor l).frameAt t.lastByte → s.classify t = .frame l) ∧
          ((s.descriptor l).guard ≠ .none →
            (s.descriptor l).frameAt t.firstByte ≠ (s.descriptor l).frameAt t.lastByte →
            s.classify t = .split (some l))) ∧
        (∀ l a b, g.kind = .port l → t.firstByte - g.range.first = a → t.lastByte - g.range.first = b →
          (a < 0x800 → b < 0x800 → s.classify t = .producer l a) ∧
          (0x800 ≤ a → a < 0x1000 → b < 0x1000 → s.classify t = .consumer l (a - 0x800)) ∧
          (a < 0x800 → 0x800 ≤ b → s.classify t = .split (some l)) ∧
          (0x800 ≤ a → a < 0x1000 → 0x1000 ≤ b → s.classify t = .split (some l)) ∧
          (0x1000 ≤ a → s.classify t = .portWord l a)))) ∧
    (∀ g l, s.regionAt t.firstByte = some g → g.kind.lane = some l → s.splitLane t = some l) ∧
    ((∀ g, s.regionAt t.firstByte = some g → g.kind.lane = none) →
      s.splitLane t = (s.regionAt t.lastByte).bind fun g => g.kind.lane)

/-- Whatever command brings a well-formed transaction to a part in LOADING, it is answered RETRY; nothing else changes
but what follows in the same step (log 2): free slots to what waits, the Status Record writer, a clearing that is due,
QIRQ. Rules: R101, R176. -/
def Obligations.LoadingAnswersEveryTransactionRetry : Prop :=
  ∀ (s : State) (c : Instr) (t : Txn), Arrives c t → t.wf = true → Listens s t.requester → s.part = .loading →
    ∃ u, exec c s = .next u ∧ Retried t s u

/-- In BYPASS every transaction, and in ACTIVE or PASS a PLAIN transaction, a CONTROL read and a RING read, enters the
pass-through queue at its tail while that holds fewer than 32, its write counted as forwarded, and is answered RETRY
otherwise. Nothing else changes but what follows in the same step (log 2): free slots to what waits, the Status Record
writer, a clearing that is due, QIRQ. Rules: R68, R104, R106, R108, R177. -/
def Obligations.UncheckedTransactionsAreAdmitted : Prop :=
  ∀ (s : State) (c : Instr) (t : Txn) (lane : Option LaneId), Arrives c t → t.wf = true → Listens s t.requester →
    ((s.part = .bypass ∧ lane = none) ∨ (Classifies s ∧ s.classify t = .plain ∧ lane = none)
      ∨ (Classifies s ∧ s.classify t = .control ∧ t.dir = .read ∧ lane = none)
      ∨ (∃ l k, Classifies s ∧ s.classify t = .ring l k ∧ t.dir = .read ∧ lane = some l)) →
    (s.passQ.length < 32 →
      ∃ u, exec c s = .next u ∧ Admitted t { txn := t, lane := lane, cmd := false } s u) ∧
    (32 ≤ s.passQ.length → ∃ u, exec c s = .next u ∧ Retried t s u)

/-- A transaction classified SPLIT is answered FAULT with all-ones data and reported with kind SPLIT and the lane the
classification gives; that lane alone counts it and may halt. Rules: R102, R110. -/
def Obligations.SplitTransactionsAreRefused : Prop :=
  ∀ (s : State) (c : Instr) (t : Txn) (lane : Option LaneId), Arrives c t → t.wf = true → Listens s t.requester →
    Classifies s → s.classify t = .split lane → ∃ u, exec c s = .next u ∧ Refused .split lane t s u

/-- A write touching a word the part owns is refused GUARD; one touching the CMD word that is no full one-word write
is refused PORT_UNDEFINED; one touching neither is admitted or answered RETRY. Rules: R105. -/
def Obligations.ControlWritesAreDecidedByTheWordsTouched : Prop :=
  ∀ (s : State) (c : Instr) (t : Txn), Arrives c t → t.wf = true → Listens s t.requester → Classifies s →
    s.classify t = .control → t.dir = .write →
    (TouchesOwned s t → ∃ u, exec c s = .next u ∧ Refused .guarded none t s u) ∧
    (¬ TouchesOwned s t → Touches s t 0x040 0x043 → t.fullWord = none →
      ∃ u, exec c s = .next u ∧ Refused .portUndefined none t s u) ∧
    (¬ TouchesOwned s t → ¬ Touches s t 0x040 0x043 →
      (s.passQ.length < 32 →
        ∃ u, exec c s = .next u ∧ Admitted t { txn := t, lane := none, cmd := false } s u) ∧
      (32 ≤ s.passQ.length → ∃ u, exec c s = .next u ∧ Retried t s u))

/-- A full one-word write of CMD is answered RETRY while a command runs or the pass-through queue is full; otherwise
it is admitted, the command is accepted, and the busy RESULT is placed or called for. Rules: R106, R156. -/
def Obligations.CommandWritesAreAcceptedWhileIdle : Prop :=
  ∀ (s : State) (c : Instr) (t : Txn) (w : Word), Arrives c t → t.wf = true → Listens s t.requester → Classifies s →
    s.classify t = .control → t.fullWord = some w → ¬ TouchesOwned s t → Touches s t 0x040 0x043 →
    (s.cmd ≠ none ∨ 32 ≤ s.passQ.length → ∃ u, exec c s = .next u ∧ Retried t s u) ∧
    (s.cmd = none → s.passQ.length < 32 →
      ∃ u, exec c s = .next u ∧
        Placed s { admitted t { txn := t, lane := none, cmd := true } s with
          cmd := some { word := w, phase := .accepted }
          cuCalls := s.cuCalls ++ [.result (resultWord w .none true) false] } u)

/-- Every write classified RING is answered FAULT and reported with kind GUARD and the lane of the ring, whatever the
lane's state and whoever the requester; that lane alone counts it and may halt; nothing is admitted, and nothing else
changes but what follows in the same step (log 2): free slots to what waits, the Status Record writer, a clearing that
is due, QIRQ. Rules: R107, R110, R141, R143, R145, R146. -/
def Obligations.RingRegionWritesAreRefused : Prop :=
  ∀ (s : State) (c : Instr) (t : Txn) (l : LaneId) (k : RingKind), Arrives c t → t.wf = true →
    Listens s t.requester → Classifies s → s.classify t = .ring l k → t.dir = .write →
    ∃ u, exec c s = .next u ∧ Refused .guarded (some l) t s u

/-- A FRAME access the guard does not pass is refused GUARD; one it passes is answered RETRY while the queue is full
and is admitted otherwise, with the lease of each frame touched that the requester holds set back where the lane
renews; no other record changes. Rules: R117, R118, R121. -/
def Obligations.FrameAccessesAreDecidedByTheGuard : Prop :=
  ∀ (s : State) (c : Instr) (t : Txn) (l : LaneId), Arrives c t → t.wf = true → Listens s t.requester → Classifies s →
    s.classify t = .frame l →
    (¬ GuardAllows s l t → ∃ u, exec c s = .next u ∧ Refused .guarded (some l) t s u) ∧
    (GuardAllows s l t → 32 ≤ s.passQ.length → ∃ u, exec c s = .next u ∧ Retried t s u) ∧
    (GuardAllows s l t → s.passQ.length < 32 →
      ∃ frames u, exec c s = .next u ∧
        Renewed s l t.requester (((s.descriptor l).framesTouched t).map (s.descriptor l).recordOf) frames ∧
        Placed s { admitted t { txn := t, lane := some l, cmd := false } s with frames := frames } u)

/-- In FLUSHING it is refused LANE_CLOSING, with no binding NO_BINDING, past the frame size APERTURE_RANGE; otherwise
it is answered RETRY while the queue is full, or admitted with its address rewritten to frame region base + index x
frame size + offset, renewing the bound frame's lease as a direct access does. Rules: R113, R115, R121. -/
def Obligations.ApertureAccessesReachTheBoundFrame : Prop :=
  ∀ (s : State) (c : Instr) (t : Txn) (l : LaneId) (offset : Nat) (binding : Option RecordId), Arrives c t →
    t.wf = true → Listens s t.requester → Classifies s →
    ((s.classify t = .producer l offset ∧ binding = (s.lane l).producerBinding t.requester) ∨
      (s.classify t = .consumer l offset ∧ binding = (s.lane l).consumerBinding t.requester)) →
    ((s.lane l).state = .flushing → ∃ u, exec c s = .next u ∧ Refused .laneClosing (some l) t s u) ∧
    ((s.lane l).state ≠ .flushing →
      (binding = none → ∃ u, exec c s = .next u ∧ Refused .noBinding (some l) t s u) ∧
      (∀ n, binding = some n →
        ((s.descriptor l).frameSize < offset + 4 * t.length →
          ∃ u, exec c s = .next u ∧ Refused .apertureRange (some l) t s u) ∧
        (offset + 4 * t.length ≤ (s.descriptor l).frameSize →
          (32 ≤ s.passQ.length → ∃ u, exec c s = .next u ∧ Retried t s u) ∧
          (s.passQ.length < 32 → (s.descriptor l).firstRecord ≤ n.val →
            ∃ frames u, exec c s = .next u ∧ Renewed s l t.requester [n] frames ∧
              Placed s { admitted t
                { txn := { t with addr := BitVec.ofNat 36 ((s.descriptor l).frameBase.toNat
                    + (n.val - (s.descriptor l).firstRecord) * (s.descriptor l).frameSize + offset) },
                  lane := some l, cmd := false } s with frames := frames } u))))

/-- In the port word area an access of several words, past the last port word, in the wrong direction, or a write with
a byte disabled is refused PORT_UNDEFINED before any other check. Rules: R48, R49. -/
def Obligations.MalformedPortAccessesAreUndefined : Prop :=
  ∀ (s : State) (c : Instr) (t : Txn) (l : LaneId) (offset : Nat), Arrives c t → Listens s t.requester →
    AtPort s l offset t → 0x1000 ≤ offset →
    (t.length ≠ 1 ∨ 0x101C ≤ offset ∨ (t.dir = .read ∧ offset ∈ [0x1004, 0x1008, 0x100C])
      ∨ (t.dir = .write ∧ (t.fullWord = none ∨ offset ∈ [0x1000, 0x1010, 0x1014, 0x1018]))) →
    ∃ u, exec c s = .next u ∧ Refused .portUndefined (some l) t s u


/-- PRIMING, and PAUSED for the producing operations, answer RETRY; HALTED refuses all but COUNT; FLUSHING, and
CLOSING for ACQUIRE, refuse LANE_CLOSING; an operation the state passes is refused ROLE where the masks do not allow
the requester. Rules: R50, R51. -/
def Obligations.LaneStateAndRoleDecidePortOperations : Prop :=
  ∀ (s : State) (c : Instr) (t : Txn) (l : LaneId) (offset : Nat) (op : PortOp), Arrives c t →
    Listens s t.requester → AtPort s l offset t → PortWord offset t op →
    ((s.lane l).state = .priming ∨ ((s.lane l).state = .paused ∧ Producing op) →
      ∃ u, exec c s = .next u ∧ PortRetried l t s u) ∧
    ((s.lane l).state = .halted → op ≠ .count → ∃ u, exec c s = .next u ∧ Refused .laneHalted (some l) t s u) ∧
    ((s.lane l).state = .flushing ∨ ((s.lane l).state = .closing ∧ op = .acquire) →
      ∃ u, exec c s = .next u ∧ Refused .laneClosing (some l) t s u) ∧
    (LanePasses (s.lane l).state op → ¬ RoleAllows (s.descriptor l) t.requester op →
      ∃ u, exec c s = .next u ∧ Refused .role (some l) t s u)

/-- Bit 31 set or an index past the frame count is BAD_HANDLE; another generation STALE; a release by another than the
holder, or a post of a frame the poster does not hold as producer, NOT_HOLDER; a length past the frame size
BAD_LENGTH. Rules: R18, R19, R52. -/
def Obligations.HandlesAreCheckedBeforeResources : Prop :=
  ∀ (s : State) (c : Instr) (t : Txn) (l : LaneId) (op : PortOp) (w : Word), Reaches s c t l op →
    (op = .post w ∨ op = .postUrgent w ∨ op = .release w) →
    (w.getLsbD 31 = true ∨ (s.descriptor l).frameCount ≤ handleIndex w →
      ∃ u, exec c s = .next u ∧ Refused .badHandle (some l) t s u) ∧
    (w.getLsbD 31 = false → handleIndex w < (s.descriptor l).frameCount →
      w.extractLsb' 10 4 ≠ (s.record (handleRecord s l w)).gen →
      ∃ u, exec c s = .next u ∧ Refused .stale (some l) t s u) ∧
    (HandleFound s l w → op = .release w → (s.record (handleRecord s l w)).standing.holder ≠ some t.requester →
      ∃ u, exec c s = .next u ∧ Refused .notHolder (some l) t s u) ∧
    (HandleFound s l w → op ≠ .release w →
      (¬ (∃ lease, (s.record (handleRecord s l w)).standing = .held t.requester lease) →
        ∃ u, exec c s = .next u ∧ Refused .notHolder (some l) t s u) ∧
      ((∃ lease, (s.record (handleRecord s l w)).standing = .held t.requester lease) → ¬ LengthFits s l w →
        ∃ u, exec c s = .next u ∧ Refused .badLength (some l) t s u))

/-- Past the limit an ACQUIRE or TAKE gets the LIMIT token; with the ring claimed or no slot free RETRY; with the ring
empty the EMPTY token, counted; otherwise the ring is claimed READING and the read of the head slot joins the engine
queue. Rules: R29, R32, R57, R65, R66. -/
def Obligations.ReadsClaimTheirRing : Prop :=
  ∀ (s : State) (c : Instr) (t : Txn) (l : LaneId) (read : ReadOp), Reaches s c t l (readWord read) →
    (read ≠ .peek → (s.descriptor l).limit ≤ (s.lane l).checkedOut t.requester →
      ∃ u, exec c s = .next u ∧ Answered t (.okay [0xFFFFFFFE#32]) s u) ∧
    (read = .peek ∨ (s.lane l).checkedOut t.requester < (s.descriptor l).limit →
      (((s.lane l).ring read.ring).access ≠ .idle ∨ 15 ≤ s.engQ.length →
        ∃ u, exec c s = .next u ∧ PortRetried l t s u) ∧
      (((s.lane l).ring read.ring).access = .idle → s.engQ.length < 15 → ((s.lane l).ring read.ring).count = 0 →
        ∃ u, exec c s = .next u ∧
          Placed s ((s.join t (.decided (.okay [0xFFFFFFFF#32]))).setLane l
            { s.lane l with stats := { (s.lane l).stats with empties := oneMore (s.lane l).stats.empties } }) u) ∧
      (∀ geom, ((s.lane l).ring read.ring).access = .idle → s.engQ.length < 15 →
        ((s.lane l).ring read.ring).count ≠ 0 → ((s.lane l).ring read.ring).geom = some geom →
        ∃ u, exec c s = .next u ∧
          Placed s { (s.join t (.waiting (.ring l read.ring))).setLane l
              ((s.lane l).setRing read.ring { (s.lane l).ring read.ring with access := .reading }) with
            engQ := s.engQ ++
              [.ringRead l read t.requester (slotAt geom ((s.lane l).ring read.ring).head)] } u))

/-- With the work ring claimed, full, or no slot free a post is answered RETRY; otherwise its frame becomes QUEUED,
the entry is added at the tail or before the head, checkout and binding end, POSTS counts, WORK_READY is raised from
empty, STEP becomes PAUSED, and the slot write waits for its fence. Rules: R30, R31, R60, R61, R62, R68. -/
def Obligations.PostsQueueTheirFrame : Prop :=
  ∀ (s : State) (c : Instr) (t : Txn) (l : LaneId) (w : Word) (urgent : Bool) (lease : Option Nat),
    Reaches s c t l (if urgent then .postUrgent w else .post w) → HandleFound s l w → LengthFits s l w →
    (s.record (handleRecord s l w)).standing = .held t.requester lease →
    ((s.lane l).workRing.access ≠ .idle ∨ 15 ≤ s.engQ.length ∨
        (∃ geom, (s.lane l).workRing.geom = some geom ∧ (s.lane l).workRing.count = geom.size) →
      ∃ u, exec c s = .next u ∧ PortRetried l t s u) ∧
    (∀ geom, (s.lane l).workRing.geom = some geom → (s.lane l).workRing.access = .idle → s.engQ.length < 15 →
      (s.lane l).workRing.count ≠ geom.size →
      let n := handleRecord s l w
      let ln := s.lane l
      let g := ln.workRing
      let slot := if urgent then slotBeforeHead g geom.size else g.tail
      let write : SlotWrite :=
        { requester := t.requester, addr := slotAt geom slot, opData := w, fence := (s.uport t.requester).forwarded,
          entry := Entry.word { index := w.extractLsb' 0 10, gen := (s.record n).gen, length := w.extractLsb' 14 10,
                                origin := BitVec.ofNat 3 t.requester.val, kind := .posted, urgent := urgent } }
      ∃ u, exec c s = .next u ∧
        Placed s (((s.join t (.waiting (.ring l .work))).setRecord n { standing := .queued, gen := (s.record n).gen }).setLane
          l { ln with
                state := if ln.state = .step then .paused else ln.state
                causes := if g.count = 0 then ln.causes ||| 0b000001#6 else ln.causes
                stats := { ln.stats with posts := oneMore ln.stats.posts }
                checkout := ln.checkout.set t.requester (ln.checkedOut t.requester - 1)
                prodBind := if ln.producerBinding t.requester = some n then ln.prodBind.set t.requester none
                  else ln.prodBind
                workRing := { g with head := if urgent then slot else g.head
                                     tail := if urgent then g.tail else (g.tail + 1) % geom.size
                                     count := g.count + 1
                                     access := .writing
                                     fenced := some write } }) u)

/-- With the free ring claimed or no slot free a release is answered RETRY; otherwise the frame becomes FREE with its
generation advanced, the entry is added at the tail of the free ring, checkout and binding end, RELEASES counts, and
the slot write waits for its fence. Rules: R10, R64, R68. -/
def Obligations.ReleasesFreeTheirFrame : Prop :=
  ∀ (s : State) (c : Instr) (t : Txn) (l : LaneId) (w : Word), Reaches s c t l (.release w) → HandleFound s l w →
    (s.record (handleRecord s l w)).standing.holder = some t.requester →
    ((s.lane l).freeRing.access ≠ .idle ∨ 15 ≤ s.engQ.length → ∃ u, exec c s = .next u ∧ PortRetried l t s u) ∧
    (∀ geom, (s.lane l).freeRing.geom = some geom → (s.lane l).freeRing.access = .idle → s.engQ.length < 15 →
      let n := handleRecord s l w
      let ln := s.lane l
      let g := ln.freeRing
      let gen := (s.record n).gen + 1#4
      let write : SlotWrite :=
        { requester := t.requester, addr := slotAt geom g.tail, opData := w, fence := (s.uport t.requester).forwarded,
          entry := Entry.word { index := w.extractLsb' 0 10, gen := gen, length := 0#10,
                                origin := BitVec.ofNat 3 t.requester.val, kind := .returned, urgent := false } }
      ∃ u, exec c s = .next u ∧
        Placed s (((s.join t (.waiting (.ring l .free))).setRecord n { standing := .free, gen := gen }).setLane l
          { ln with
              stats := { ln.stats with releases := oneMore ln.stats.releases }
              checkout := ln.checkout.set t.requester (ln.checkedOut t.requester - 1)
              prodBind := if (s.record n).standing.isHeld = true ∧ ln.producerBinding t.requester = some n then
                  ln.prodBind.set t.requester none else ln.prodBind
              consBind := if (s.record n).standing.isHeld = false ∧ ln.consumerBinding t.requester = some n then
                  ln.consBind.set t.requester none else ln.consBind
              freeRing := { g with tail := (g.tail + 1) % geom.size, count := g.count + 1, access := .writing,
                                   fenced := some write } }) u)

/-- COUNT is answered the word of the two ring counts, the lane state and the reader's checkout count; nothing else
changes but what follows in the same step (log 2): free slots to what waits, the Status Record writer, a clearing that
is due, QIRQ. Rules: R67. -/
def Obligations.CountAnswersTheLanesCounts : Prop :=
  ∀ (s : State) (c : Instr) (t : Txn) (l : LaneId), Reaches s c t l .count →
    ∃ u, exec c s = .next u ∧
      Answered t (.okay [countWord (s.lane l).freeRing.count (s.lane l).workRing.count (s.lane l).state
        ((s.lane l).checkedOut t.requester)]) s u

/-- The frame becomes HELD by the requester with the lane's lease, the free ring's head entry leaves, checkout and
producer binding are set, ACQUIRES counts, FREE_LOW is raised where the count falls below the watermark, the handle is
the answer, the ring is IDLE; then the lane's arrival at OFF is tested. Rules: R7, R29, R58. -/
def Obligations.AcquiresCommit : Prop :=
  ∀ (s : State) (l : LaneId) (r : Requester) (addr : Addr) (words : List Word) (rest : List InFlight) (w : Word)
    (geom : RingGeom) (list : List Unanswered), NextEnds s (.ringRead l .acquire r addr) words rest →
    SlotOk s l .free w → (s.lane l).checkedOut r < (s.descriptor l).limit → (s.lane l).freeRing.geom = some geom →
    Decides (.ring l .free) (fun _ => .okay [handleWord (w.extractLsb' 0 10) (w.extractLsb' 10 4)]) (s.uport r).list
      list →
    let n := handleRecord s l w
    let ln := s.lane l
    let g := ln.freeRing
    let mark := (s.descriptor l).watermark
    ∃ u, exec (.acquireCommit (.okay w)) s = .next u ∧
      OffTested l s (((({ s with inflight := rest } : State).setUport r { s.uport r with list := list }).setRecord n
        { standing := .held r (leaseOf (s.descriptor l)), gen := (s.record n).gen }).setLane l
          { ln with
              causes := if mark ≤ g.count ∧ g.count - 1 < mark then ln.causes ||| 0b000010#6 else ln.causes
              stats := { ln.stats with acquires := oneMore ln.stats.acquires }
              checkout := ln.checkout.set r (ln.checkedOut r + 1)
              prodBind := ln.prodBind.set r (some n)
              freeRing := { g with head := (g.head + 1) % geom.size, count := g.count - 1, access := .idle,
                                   fenced := none } }) u

/-- The frame becomes TAKEN by the requester with the lane's lease, the work ring's head entry leaves, checkout and
consumer binding are set, TAKES counts, the entry word is the answer, the ring is IDLE; then the lane's arrival at OFF
is tested. Rules: R9, R65. -/
def Obligations.TakesCommit : Prop :=
  ∀ (s : State) (l : LaneId) (r : Requester) (addr : Addr) (words : List Word) (rest : List InFlight) (w : Word)
    (geom : RingGeom) (list : List Unanswered), NextEnds s (.ringRead l .take r addr) words rest →
    SlotOk s l .work w → (s.lane l).checkedOut r < (s.descriptor l).limit → (s.lane l).workRing.geom = some geom →
    Decides (.ring l .work) (fun _ => .okay [w]) (s.uport r).list list →
    let n := handleRecord s l w
    let ln := s.lane l
    let g := ln.workRing
    ∃ u, exec (.takeCommit (.okay w)) s = .next u ∧
      OffTested l s (((({ s with inflight := rest } : State).setUport r { s.uport r with list := list }).setRecord n
        { standing := .taken r (leaseOf (s.descriptor l)), gen := (s.record n).gen }).setLane l
          { ln with
              stats := { ln.stats with takes := oneMore ln.stats.takes }
              checkout := ln.checkout.set r (ln.checkedOut r + 1)
              consBind := ln.consBind.set r (some n)
              workRing := { g with head := (g.head + 1) % geom.size, count := g.count - 1, access := .idle,
                                   fenced := none } }) u

/-- A checked PEEK answers the entry word and a checked ACQUIRE or TAKE past the limit the LIMIT token; either way the
ring goes IDLE, then the lane's arrival at OFF is tested; nothing else changes but what follows in the same step (log
2): free slots to what waits, the Status Record writer, a clearing that is due, QIRQ. Rules: R22, R59, R66. -/
def Obligations.PeeksAndReadsPastTheLimitRemoveNothing : Prop :=
  ∀ (s : State) (l : LaneId) (read : ReadOp) (r : Requester) (addr : Addr) (words : List Word) (rest : List InFlight)
    (w : Word) (answer : Word) (list : List Unanswered), NextEnds s (.ringRead l read r addr) words rest →
    SlotOk s l read.ring w →
    ((read = .peek ∧ answer = w) ∨
      (read ≠ .peek ∧ (s.descriptor l).limit ≤ (s.lane l).checkedOut r ∧ answer = 0xFFFFFFFE#32)) →
    Decides (.ring l read.ring) (fun _ => .okay [answer]) (s.uport r).list list →
    ∃ u, exec (readCommand read (.okay w)) s = .next u ∧
      OffTested l s ((({ s with inflight := rest } : State).setUport r { s.uport r with list := list }).setLane l
        ((s.lane l).setRing read.ring { (s.lane l).ring read.ring with access := .idle, fenced := none })) u

/-- A ring read that ends with an error or a timeout, or whose word fails the six checks, answers FAULT to its
requester, frees the ring, is reported MEMORY_ERROR or RING_CORRUPT with the slot address, and halts the lane by its
state; head, tail, count, records, bindings and checkouts stay, but for what follows in the same step (log 2). A
timeout at any count of the timer is the model's choice (log 5). Rules: R37, R38, R39, R40, R147, R150. -/
def Obligations.FailedReadsHaltTheirLane : Prop :=
  ∀ (s : State) (c : Instr) (l : LaneId) (read : ReadOp) (r : Requester) (addr : Addr) (words : List Word)
    (after : List InFlight) (kind : FaultKind) (reason : HaltReason) (data : Word) (list : List Unanswered),
    ((FailsWith s c (.ringRead l read r addr) words after ∧ kind = .memoryError ∧ reason = .memory ∧
        data = 0xFFFFFFFF#32) ∨
      (NextEnds s (.ringRead l read r addr) words after ∧ c = readCommand read (.okay data) ∧
        ¬ SlotOk s l read.ring data ∧ kind = .ringCorrupt ∧ reason = .corrupt)) →
    Decides (.ring l read.ring) faultOf (s.uport r).list list →
    ∃ u, exec c s = .next u ∧
      OffTested l s (((({ s with inflight := after } : State).setUport r { s.uport r with list := list }).setLane l
        (ringFaulted reason
          ((s.lane l).setRing read.ring { (s.lane l).ring read.ring with access := .idle, fenced := none }))).trapReport
            { kind := kind, lane := some l, requester := some r, addr := addr, dir := .read, data := data }) u

/-- The slot write of a POST or RELEASE answers OKAY to its requester and frees the ring; a reclaim write frees the
free ring; then the lane's arrival at OFF is tested; nothing else changes but what follows in the same step (log 2):
free slots to what waits, the Status Record writer, a clearing that is due, QIRQ. Rules: R44, R62. -/
def Obligations.RingWritesFreeTheirRing : Prop :=
  ∀ (s : State) (l : LaneId) (words : List Word) (rest : List InFlight),
    (∀ k w list, NextEnds s (.ringWrite l k w) words rest →
      Decides (.ring l k) (fun _ => .okay []) (s.uport w.requester).list list →
      ∃ u, exec (.slotWriteCompletion (.okay ())) s = .next u ∧
        OffTested l s ((({ s with inflight := rest } : State).setUport w.requester
          { s.uport w.requester with list := list }).setLane l
            ((s.lane l).setRing k { (s.lane l).ring k with access := .idle, fenced := none })) u) ∧
    (∀ addr entry, NextEnds s (.reclaimWrite l addr entry) words rest →
      ∃ u, exec (.reclaimWriteCompletion (.okay ())) s = .next u ∧
        OffTested l s (({ s with inflight := rest } : State).setLane l
          { s.lane l with freeRing := { (s.lane l).freeRing with access := .idle, fenced := none } }) u)

/-- A slot, reclaim or priming write that ends with an error or a timeout frees its ring, is reported MEMORY_ERROR
with the slot address and the entry word, and halts the lane by its state; the slot write's requester is answered
FAULT. A timeout at any count of the timer is the model's choice (log 5). Rules: R41, R42, R85. -/
def Obligations.FailedRingWritesHaltTheirLane : Prop :=
  ∀ (s : State) (c : Instr) (l : LaneId) (words : List Word) (after : List InFlight),
    (∀ k w list, FailsWith s c (.ringWrite l k w) words after →
      Decides (.ring l k) faultOf (s.uport w.requester).list list →
      ∃ u, exec c s = .next u ∧
        OffTested l s (((({ s with inflight := after } : State).setUport w.requester
          { s.uport w.requester with list := list }).setLane l
            (ringFaulted .memory
              ((s.lane l).setRing k { (s.lane l).ring k with access := .idle, fenced := none }))).trapReport
              { kind := .memoryError, lane := some l, requester := some w.requester, addr := w.addr, dir := .write,
                data := w.entry }) u) ∧
    (∀ addr entry, (FailsWith s c (.reclaimWrite l addr entry) words after ∨
        FailsWith s c (.primeWrite l addr entry) words after) →
      ∃ u, exec c s = .next u ∧
        OffTested l s ((({ s with inflight := after } : State).setLane l
          (ringFaulted .memory { s.lane l with
            freeRing := { (s.lane l).freeRing with access := .idle, fenced := none } })).trapReport
              { kind := .memoryError, lane := some l, requester := none, addr := addr, dir := .write,
                data := entry }) u)

/-- The frame at the priming position becomes FREE, tail, count and position advance, the ring is IDLE, and a lane
still PRIMING after its last write enters OPEN with LANE_READY raised. Rules: R6, R84. -/
def Obligations.PrimingWritesFreeTheirFrames : Prop :=
  ∀ (s : State) (l : LaneId) (addr : Addr) (entry : Word) (words : List Word) (rest : List InFlight) (geom : RingGeom),
    NextEnds s (.primeWrite l addr entry) words rest → (s.lane l).freeRing.geom = some geom →
    let ln := s.lane l
    let g := ln.freeRing
    let n := (s.descriptor l).recordOf ln.primePos
    let last := ln.state = .priming ∧ ln.primePos + 1 = (s.descriptor l).frameCount
    ∃ u, exec (.primeWriteCompletion (.okay ())) s = .next u ∧
      OffTested l s ((({ s with inflight := rest } : State).setRecord n
        { standing := .free, gen := (s.record n).gen }).setLane l
          { ln with
              state := if last then .opened else ln.state
              causes := if last then ln.causes ||| 0b000100#6 else ln.causes
              primePos := ln.primePos + 1
              freeRing := { g with tail := (g.tail + 1) % geom.size, count := g.count + 1, access := .idle,
                                   fenced := none } }) u

/-- The requester is answered OKAY with the data or FAULT with all-ones data; a write lowers its forwarded count and
the fences it belongs to; an error is reported except in BYPASS, counted by the lane named unless OFF; an accepted CMD
write makes its command ready. Rules: R68, R148, R156, R174. -/
def Obligations.PassThroughAccessesComplete : Prop :=
  ∀ (s : State) (e : PassEntry) (rest : List InFlight) (resp : DResp (List Word)) (list : List Unanswered),
    NextEndsPass s e rest →
    Decides .pass (passAnswer e.txn.dir resp) (s.uport e.txn.requester).list list →
    let u := s.uport e.txn.requester
    let fails := passFails s.part resp
    let x : State :=
      { s with
          inflight := rest
          uports := s.uports.set e.txn.requester
            { list := list, forwarded := match e.txn.dir with
                | .read => u.forwarded
                | .write => u.forwarded - 1 }
          lanes := Vector.ofFn fun m =>
            if fails = true ∧ e.lane = some m then counted (fencesAfter e.txn.dir e.txn.requester (s.lane m))
            else fencesAfter e.txn.dir e.txn.requester (s.lane m)
          cmd := cmdAfter e.cmd s.cmd }
    ∃ t, exec (.passthroughCompletion resp) s = .next t ∧
      Placed s (if fails then x.trapReport
        { kind := .memoryError, lane := e.lane, requester := some e.txn.requester, addr := e.txn.addr,
          dir := e.txn.dir, data := e.txn.reportData } else x) t

/-- A Status Record write ends the writer's write, or restarts it where a change came meanwhile; a Lane Status Record
write ends with no effect of its own; the final RESULT write ends the command; each leaves the in-flight list, and
nothing else changes but what follows in the same step (log 2): free slots to what waits, the Status Record writer, a
clearing that is due, QIRQ. Rules: R158, R164, R166. -/
def Obligations.RecordWritesComplete : Prop :=
  ∀ (s : State) (words : List Word) (rest : List InFlight),
    (NextEnds s .statusWrite words rest →
      ∃ u, exec (.statusWriteCompletion (.okay ())) s = .next u ∧
        Placed s { s with inflight := rest, writer := writerDone s.writer } u) ∧
    (∀ l ws, NextEnds s (.laneStatusWrite l ws) words rest →
      ∃ u, exec (.laneStatusWriteCompletion (.okay ())) s = .next u ∧ Placed s { s with inflight := rest } u) ∧
    (∀ w final, NextEnds s (.resultWrite w final) words rest →
      ∃ u, exec (.resultWriteCompletion (.okay ())) s = .next u ∧
        Placed s { s with inflight := rest, cmd := if final then none else s.cmd } u)

/-- A Status Record, Lane Status Record or RESULT write that ends with an error or a timeout is reported MEMORY_ERROR
with the record's address and first word, raises MEMORY, and otherwise ends as one that completes. A timeout at any
count of the timer is the model's choice (log 5). Rules: R149, R150. -/
def Obligations.FailedRecordWritesRaiseMemory : Prop :=
  ∀ (s : State) (c : Instr) (first : Word) (more : List Word) (after : List InFlight),
    (FailsWith s c .statusWrite (first :: more) after →
      ∃ u, exec c s = .next u ∧
        Placed s (({ s with inflight := after, writer := writerDone s.writer, memoryPending := true } : State).trapReport
          (ownError none (blockAddr s 0x080) .write first)) u) ∧
    (∀ l words, FailsWith s c (.laneStatusWrite l (first :: more)) words after →
      ∃ u, exec c s = .next u ∧
        Placed s ((({ s with inflight := after, memoryPending := true } : State).setLane l
          (counted (s.lane l))).trapReport (ownError (some l) (blockAddr s (0x100 + 64 * l.val)) .write first)) u) ∧
    (∀ final words, FailsWith s c (.resultWrite first final) words after →
      ∃ u, exec c s = .next u ∧
        Placed s (({ s with inflight := after, memoryPending := true
                            cmd := if final then none else s.cmd } : State).trapReport
          (ownError none (blockAddr s 0x044) .write first)) u)

/-- In LOADING a GLOBAL_READ with the signature brings the settings into force and the part to ACTIVE with the divider
at 0; another signature takes the part to PASS; an error or a timeout is reported and takes it to PASS. The timeout is
the model's choice (log 5) and meets no state of a run, for the start-up read has no timer. Rules: R149, R155, R176.
-/
def Obligations.StartUpReadDecidesThePartState : Prop :=
  ∀ (s : State) (words : List Word), s.part = .loading →
    (∀ rest ws, NextEnds s .globalRead words rest →
      (ws[0] = 0x514C3136#32 → ∃ u, exec (.globalReadCompletion (.okay ws)) s = .next u ∧
        Placed s { s with inflight := rest, part := .active, globals := some (settingsOf ws), divider := 0 } u) ∧
      (ws[0] ≠ 0x514C3136#32 → ∃ u, exec (.globalReadCompletion (.okay ws)) s = .next u ∧
        Placed s { s with inflight := rest, part := .pass } u)) ∧
    (∀ c after, FailsWith s c .globalRead words after →
      ∃ u, exec c s = .next u ∧
        Placed s (({ s with inflight := after, part := .pass } : State).trapReport
          (ownError none (blockAddr s 0) .read 0xFFFFFFFF#32)) u)

/-- A read with the signature brings the settings into force, the part to ACTIVE and the divider to 0, and the command
is done; another signature, or an error reported, refuses BAD_GLOBALS with the settings as they were. A timeout at any
count of the timer is the model's choice (log 5). Rules: R127, R162. -/
def Obligations.ReloadReadsBringSettingsIntoForce : Prop :=
  ∀ (s : State) (w : Word) (words : List Word), s.cmd = some { word := w, phase := .readingGlobals } →
    s.part ≠ .loading →
    (∀ rest ws, NextEnds s .globalRead words rest →
      (ws[0] = 0x514C3136#32 → ∃ u, exec (.reloadGlobalsReadCompletion (.okay ws)) s = .next u ∧
        Placed s (ended { s with inflight := rest, part := .active, globals := some (settingsOf ws), divider := 0 } w
          .none) u) ∧
      (ws[0] ≠ 0x514C3136#32 → ∃ u, exec (.reloadGlobalsReadCompletion (.okay ws)) s = .next u ∧
        Placed s (ended { s with inflight := rest } w .badGlobals) u)) ∧
    (∀ c after, FailsWith s c .globalRead words after →
      ∃ u, exec c s = .next u ∧
        Placed s (ended (({ s with inflight := after } : State).trapReport
          (ownError none (blockAddr s 0) .read 0xFFFFFFFF#32)) w .badGlobals) u)

/-- An error or a timeout is reported for the lane and refuses MEMORY; bad codes or ranges BAD_FIELD, then MISALIGNED,
FREE_RING_SMALL, NO_ROLE, SLICE_OVERLAP, REGION_OVERLAP in that order; a descriptor that passes opens the lane into
PRIMING with its copy, the values of the words at their places, fresh rings and statistics at 0, and the command is
done. A timeout at any count of the timer is the model's choice (log 5). Rules: R73, R76, R77, R78, R79, R149, R169.
-/
def Obligations.DescriptorReadsOpenOrRefuse : Prop :=
  ∀ (s : State) (w : Word) (l : LaneId) (words : List Word), s.cmd = some { word := w, phase := .readingDescriptor } →
    (∀ c after, FailsWith s c (.descRead l) words after →
      ∃ u, exec c s = .next u ∧
        Placed s (ended ((({ s with inflight := after } : State).setLane l (counted (s.lane l))).trapReport
          (ownError (some l) (blockAddr s (0x800 + 64 * l.val)) .read 0xFFFFFFFF#32)) w .memory) u) ∧
    (∀ rest ws, NextEnds s (.descRead l) words rest →
      let refused (reason : Reason) : Prop :=
        ∃ u, exec (.descReadCompletion (.okay ws)) s = .next u ∧ Placed s (ended { s with inflight := rest } w reason) u
      (BadCodes ws → refused .badField) ∧
      (¬ BadCodes ws → ∃ d, CopiedFrom ws d) ∧
      (∀ d, ¬ BadCodes ws → CopiedFrom ws d →
        (¬ FieldsInRange d → refused .badField) ∧
        (FieldsInRange d → ¬ BasesAligned d → refused .misaligned) ∧
        (FieldsInRange d → BasesAligned d → d.freeSize < d.frameCount → refused .freeRingSmall) ∧
        (FieldsInRange d → BasesAligned d → d.frameCount ≤ d.freeSize →
          (d.producers = 0#8 → d.consumers = 0#8 → refused .noRole) ∧
          (d.producers ≠ 0#8 ∨ d.consumers ≠ 0#8 →
            (¬ SliceFree s d → refused .sliceOverlap) ∧
            (SliceFree s d → ¬ RegionsFree s d → refused .regionOverlap) ∧
            (SliceFree s d → RegionsFree s d →
              ∃ u, exec (.descReadCompletion (.okay ws)) s = .next u ∧
                Placed s (ended (({ s with inflight := rest } : State).setLane l (openedLane (s.lane l) d)) w .none)
                  u)))))

/-- Nothing is granted while 32 accesses are in flight; the pass-through head is granted where the engine queue is
empty or was granted last, the engine head where the pass-through queue is empty or was granted last, with its timer
started; a Status Record write takes its content then, a reclaim write frees its frame then. Rules: R43, R150, R173,
R174. -/
def Obligations.TheArbiterAlternates : Prop :=
  ∀ (s : State), s.part ≠ .heldInReset →
    (32 ≤ s.inflight.length → exec .arbiterGrant s = .next s) ∧
    (∀ e ps, s.inflight.length < 32 → s.passQ = e :: ps → (s.engQ = [] ∨ s.lastGrant = .engine) →
      ∃ u, exec .arbiterGrant s = .next u ∧
        Placed s { s with passQ := ps, lastGrant := .passThrough,
                          inflight := s.inflight ++ [{ access := .pass e, words := [], timer := none, late := false }] }
          u) ∧
    (∀ q qs, s.inflight.length < 32 → s.engQ = q :: qs → (s.passQ = [] ∨ s.lastGrant = .passThrough) →
      let granted : State :=
        { s with engQ := qs, lastGrant := .engine,
                 inflight := s.inflight ++
                   [{ access := .engine q, words := wordsNow s q, timer := timerNow s, late := false }] }
      (q = .statusWrite →
        ∃ u, exec .arbiterGrant s = .next u ∧ Placed s { granted with writer := .writing .issued } u) ∧
      (q ≠ .statusWrite → (∀ l addr entry, q ≠ .reclaimWrite l addr entry) →
        ∃ u, exec .arbiterGrant s = .next u ∧ Placed s granted u) ∧
      (∀ l addr entry e es geom, q = .reclaimWrite l addr entry → (s.lane l).reclaim = e :: es →
        (s.lane l).freeRing.geom = some geom →
        let n := (s.descriptor l).recordOf e.frame
        let g := (s.lane l).freeRing
        ∃ u, exec .arbiterGrant s = .next u ∧
          Placed s ((granted.setRecord n { standing := .free, gen := (s.record n).gen }).setLane l
            { s.lane l with
                reclaim := es
                freeRing := { g with tail := (g.tail + 1) % geom.size, count := g.count + 1 } }) u))

/-- RESPONSE_DELIVERY delivers the response of the oldest transaction of the requester's list where it is decided, and
changes nothing where that still waits. Rules: R109. -/
def Obligations.ResponsesGoOutInArrivalOrder : Prop :=
  ∀ (s : State) (r : Requester),
    (∀ n resp us, (s.uport r).list = { readLength := n, standby := .decided resp } :: us →
      exec (.responseDelivery r) s = .next { s.setUport r { s.uport r with list := us } with
        delivered := some { requester := r, resp := resp } }) ∧
    (∀ n a us, (s.uport r).list = { readLength := n, standby := .waiting a } :: us →
      exec (.responseDelivery r) s = .next s)

/-- The response of a timed-out access removes its placeholder alone; the response of an access from before pin reset
lowers the owed count alone; while responses are owed, or behind a placeholder, no response of any kind completes an
access. That a row whose response is not the one that comes changes nothing is the model's choice (log 1). Rules:
R151, R178. -/
def Obligations.LateAndOwedResponsesAreDiscarded : Prop :=
  ∀ (s : State),
    (∀ a rest, s.owed = 0 → s.inflight = a :: rest → a.late = true →
      exec .lateResponseDiscard s = .next { s with inflight := rest }) ∧
    (0 < s.owed ∨ (∀ a rest, s.inflight = a :: rest → a.late = false) → exec .lateResponseDiscard s = .next s) ∧
    (0 < s.owed → exec .owedResponseDiscard s = .next { s with owed := s.owed - 1 }) ∧
    (s.owed = 0 → exec .owedResponseDiscard s = .next s) ∧
    (∀ c, isCompletion c = true → 0 < s.owed ∨ LateFirst s → exec c s = .next s)

/-- With fewer than 15 requests in the engine queue a reclaim write, priming write, Status Record write, Lane Status
Record write or fenced slot write whose own conditions hold is placed at the queue's tail, by its own row or as the
first of those that wait, with its entry, address and content. Rules: R43, R83, R164, R166, R172. -/
def Obligations.WaitingRequestsArePlaced : Prop :=
  ∀ (s : State) (c : Instr) (claim : Claimant), s.engQ.length < 15 → Begins s c claim →
    (∀ l e es geom, claim = .reclaim l → Counts (s.lane l).state → (s.lane l).reclaim = e :: es →
      (s.lane l).freeRing.access = .idle → (s.lane l).freeRing.geom = some geom →
      ∃ u, exec c s = .next u ∧
        Placed s { s.setLane l { s.lane l with freeRing := { (s.lane l).freeRing with access := .writing } } with
          engQ := s.engQ ++ [.reclaimWrite l (slotAt geom (s.lane l).freeRing.tail)
            (Entry.word { index := BitVec.ofNat 10 e.frame, gen := (s.frame l e.frame).gen, length := 0#10,
                          origin := BitVec.ofNat 3 e.former.val, kind := .reclaimed, urgent := false })] } u) ∧
    (∀ l geom, claim = .prime l → (s.lane l).state = .priming →
      (s.lane l).primePos < (s.descriptor l).frameCount → (s.lane l).freeRing.access = .idle →
      (s.lane l).freeRing.geom = some geom →
      ∃ u, exec c s = .next u ∧
        Placed s { s.setLane l { s.lane l with freeRing := { (s.lane l).freeRing with access := .writing } } with
          engQ := s.engQ ++ [.primeWrite l (slotAt geom (s.lane l).freeRing.tail)
            (Entry.word { index := BitVec.ofNat 10 (s.lane l).primePos, gen := (s.frame l (s.lane l).primePos).gen,
                          length := 0#10, origin := 0#3, kind := .primed, urgent := false })] } u) ∧
    (claim = .status → s.writer = .writing .waiting →
      ∃ u, exec c s = .next u ∧
        Placed s { s with writer := .writing .queued, engQ := s.engQ ++ [.statusWrite] } u) ∧
    (∀ l, claim = .laneStatus l → (s.lane l).lsrWaiting = true →
      ∃ u, exec c s = .next u ∧
        Placed s { s.setLane l { s.lane l with lsrWaiting := false } with
          engQ := s.engQ ++ [.laneStatusWrite l (s.lane l).statusRecord] } u) ∧
    (∀ l k w, claim = .fenced l k → ((s.lane l).ring k).fenced = some w → w.fence = 0 →
      ∃ u, exec c s = .next u ∧
        Placed s { s.setLane l ((s.lane l).setRing k { (s.lane l).ring k with fenced := none }) with
          engQ := s.engQ ++ [.ringWrite l k w] } u)

/-- With fewer than 16 requests in the engine queue the Command Unit's first call is placed before any other claimant;
a DESC_READ only where no Lane Status Record write of the lane waits; a SNAPSHOT takes the waiting one's place. Rules:
R75, R172. -/
def Obligations.TheCommandUnitIsServedFirst : Prop :=
  ∀ (s : State) (cs : List CuCall), s.engQ.length < 16 →
    (∀ w final, s.cuCalls = .result w final :: cs →
      ∃ u, exec .slotClaimPlace s = .next u ∧
        Placed s { s with cuCalls := cs, engQ := s.engQ ++ [.resultWrite w final] } u) ∧
    (s.cuCalls = .globalRead :: cs →
      ∃ u, exec .slotClaimPlace s = .next u ∧
        Placed s { s with cuCalls := cs, engQ := s.engQ ++ [.globalRead] } u) ∧
    (∀ l, s.cuCalls = .descRead l :: cs → (s.lane l).lsrWaiting = false →
      ∃ u, exec .slotClaimPlace s = .next u ∧
        Placed s { s with cuCalls := cs, engQ := s.engQ ++ [.descRead l] } u) ∧
    (∀ l, s.cuCalls = .snapshot l :: cs →
      ∃ u, exec .slotClaimPlace s = .next u ∧
        Placed s { s.setLane l { s.lane l with lsrWaiting := false } with
          cuCalls := cs, engQ := s.engQ ++ [.laneStatusWrite l (s.lane l).statusRecord] } u)

/-- LANE_DRAIN_COMPLETE and LANE_TEARDOWN take the lane to OFF where the condition of R93 or R96 holds, its records to
IDLE with the generation kept or advanced, its own values to those of OFF, LANE_OFF raised; and change nothing where
it does not, which is the model's choice (log 1). Rules: R13, R14, R93, R96, R97, R98. -/
def Obligations.LanesReachOff : Prop :=
  ∀ (s : State) (l : LaneId),
    (Drains s l → ∃ y u, exec (.laneDrainComplete l) s = .next u ∧ OffFrom l closedRecord s y ∧ Placed s y u) ∧
    (¬ Drains s l → exec (.laneDrainComplete l) s = .next s) ∧
    (TornDown s l → ∃ y u, exec (.laneTeardown l) s = .next u ∧ OffFrom l tornRecord s y ∧ Placed s y u) ∧
    (¬ TornDown s l → exec (.laneTeardown l) s = .next s)

/-- In PASS each of the ten commands that do not run there is refused NOT_ACTIVE; an opcode that names no command is
refused BAD_OPCODE; the final RESULT is called for, once, and nothing else changes but what follows in the same step
(log 2): free slots to what waits, the Status Record writer, a clearing that is due, QIRQ. Rules: R157. -/
def Obligations.CommandsAreRefusedOutsideTheirPartState : Prop :=
  ∀ (s : State) (w : Word) (opcode : Nat), Ready s w opcode →
    (s.part = .pass → 1 ≤ opcode → opcode ≤ 10 →
      ∃ u, exec (commandFor opcode) s = .next u ∧ Placed s (ended s w .notActive) u) ∧
    (opcode = 0 ∨ 13 ≤ opcode → ∃ u, exec .badOpcodeCommand s = .next u ∧ Placed s (ended s w .badOpcode) u)

/-- OPEN_LANE of a lane not in OFF is refused NOT_OFF with the lane unchanged; of a lane in OFF the DESC_READ is
called for. Rules: R75. -/
def Obligations.OpenLaneReadsTheDescriptorOfAnOffLane : Prop :=
  ∀ (s : State) (w : Word), Ready s w 1 → s.part ≠ .pass →
    ((s.lane (cmdLane w)).state ≠ .off →
      ∃ u, exec .openLane s = .next u ∧ Placed s (ended s w .notOff) u) ∧
    ((s.lane (cmdLane w)).state = .off →
      ∃ u, exec .openLane s = .next u ∧
        Placed s { s with cmd := some { word := w, phase := .readingDescriptor },
                          cuCalls := s.cuCalls ++ [.descRead (cmdLane w)] } u)

/-- Each takes the lane from the states the table names to the state it gives, HALT_LANE with reason COMMAND, the
cause HALTED and the Lane Status Record called for, RESUME_LANE only out of a COMMAND or POLICY halt; in every other
state the command is refused BAD_STATE. Rules: R81, R88, R90. -/
def Obligations.LaneStateCommandsFollowTheTable : Prop :=
  ∀ (s : State) (w : Word), s.part ≠ .pass →
    let l := cmdLane w
    let ln := s.lane l
    (Ready s w 4 →
      (ln.state = .opened ∨ ln.state = .step → ∃ u, exec .pauseLane s = .next u ∧
        Placed s (ended (s.setLane l { ln with state := .paused }) w .none) u) ∧
      (ln.state ≠ .opened → ln.state ≠ .step → ∃ u, exec .pauseLane s = .next u ∧
        Placed s (ended s w .badState) u)) ∧
    (Ready s w 5 →
      (ln.state = .paused ∨ ln.state = .step → ∃ u, exec .resumeLane s = .next u ∧
        Placed s (ended (s.setLane l { ln with state := .opened }) w .none) u) ∧
      (ln.state = .halted → ln.haltReason = .command ∨ ln.haltReason = .policy → ∃ u, exec .resumeLane s = .next u ∧
        Placed s (ended (s.setLane l { ln with state := .opened, haltReason := .none }) w .none) u) ∧
      (ln.state ≠ .paused → ln.state ≠ .step →
        ¬ (ln.state = .halted ∧ (ln.haltReason = .command ∨ ln.haltReason = .policy)) →
        ∃ u, exec .resumeLane s = .next u ∧ Placed s (ended s w .badState) u)) ∧
    (Ready s w 6 →
      (ln.state = .opened ∨ ln.state = .paused → ∃ u, exec .stepLane s = .next u ∧
        Placed s (ended (s.setLane l { ln with state := .step }) w .none) u) ∧
      (ln.state ≠ .opened → ln.state ≠ .paused → ∃ u, exec .stepLane s = .next u ∧
        Placed s (ended s w .badState) u)) ∧
    (Ready s w 7 →
      (Counts ln.state → ∃ u, exec .haltLane s = .next u ∧
        Placed s (ended (s.setLane l { ln with state := .halted, haltReason := .command,
                                               causes := ln.causes ||| 0b010000#6, lsrWaiting := true }) w .none) u) ∧
      (¬ Counts ln.state → ∃ u, exec .haltLane s = .next u ∧ Placed s (ended s w .badState) u))

/-- From OPEN, PAUSED, STEP and a COMMAND or POLICY halt the lane enters CLOSING, where its drain condition is tested
at once; in every other state the command is refused BAD_STATE. Rules: R81, R91, R93. -/
def Obligations.CloseLaneDrainsTheLane : Prop :=
  ∀ (s : State) (w : Word), Ready s w 2 → s.part ≠ .pass →
    let l := cmdLane w
    let ln := s.lane l
    let lifts := ln.state = .halted ∧ (ln.haltReason = .command ∨ ln.haltReason = .policy)
    (ln.state = .opened ∨ ln.state = .paused ∨ ln.state = .step →
      ∃ u, exec .closeLane s = .next u ∧ OffTested l s (ended (s.setLane l { ln with state := .closing }) w .none) u) ∧
    (lifts → ∃ u, exec .closeLane s = .next u ∧
      OffTested l s (ended (s.setLane l { ln with state := .closing, haltReason := .none }) w .none) u) ∧
    (ln.state ≠ .opened → ln.state ≠ .paused → ln.state ≠ .step → ¬ lifts →
      ∃ u, exec .closeLane s = .next u ∧ Placed s (ended s w .badState) u)

/-- A lane in OFF is refused BAD_STATE; one already FLUSHING is left as it is; any other enters FLUSHING, its
ungranted ring requests leave, their rings go IDLE, their requesters are answered FAULT LANE_CLOSING and the faults
reported in some order, and it reaches OFF at once where nothing of it is left. Which order is a free value (log 6).
Rules: R45, R94, R96. -/
def Obligations.ForceCloseFlushesTheLane : Prop :=
  ∀ (s : State) (w : Word), Ready s w 3 → s.part ≠ .pass →
    let l := cmdLane w
    ((s.lane l).state = .off → ∃ u, exec .forceClose s = .next u ∧ Placed s (ended s w .badState) u) ∧
    ((s.lane l).state = .flushing → ∃ u, exec .forceClose s = .next u ∧ Placed s (ended s w .none) u) ∧
    ((s.lane l).state ≠ .off → (s.lane l).state ≠ .flushing →
      ∃ (order : List Discard) (u : State), order.Perm (s.discards l) ∧ exec .forceClose s = .next u ∧
        OffTested l s (ended (order.foldl State.cutOff (flushing s [l])) w .none) u)

/-- CLEAR_TRAP empties the trap record and clears TRAP, whatever the trap held; ACK_IRQ clears the lane causes of the
lane that argument bits 0 to 5 name and TRAP and MEMORY where bits 8 and 9 are set; the final RESULT is called for,
and nothing else changes but what follows in the same step (log 2): free slots to what waits, the Status Record
writer, a clearing that is due, QIRQ. Rules: R144, R160. -/
def Obligations.ClearTrapAndAckIrqClearWhatTheyName : Prop :=
  ∀ (s : State) (w : Word), s.part ≠ .pass →
    (Ready s w 8 → ∃ u, exec .clearTrap s = .next u ∧
      Placed s (ended { s with trap := { stored := none, overflow := 0 }, trapPending := false } w .none) u) ∧
    (Ready s w 9 → ∃ u, exec .ackIrq s = .next u ∧
      Placed s (ended { s.setLane (cmdLane w) { s.lane (cmdLane w) with
            causes := (s.lane (cmdLane w)).causes &&& ~~~(w.extractLsb' 16 6) } with
          trapPending := s.trapPending && !w.getLsbD 24
          memoryPending := s.memoryPending && !w.getLsbD 25 } w .none) u)

/-- SNAPSHOT calls for the lane's Lane Status Record write and then its final RESULT; RELOAD_GLOBALS calls for a
GLOBAL_READ. Rules: R161, R162. -/
def Obligations.SnapshotAndReloadCallForTheirAccess : Prop :=
  ∀ (s : State) (w : Word),
    (Ready s w 10 → s.part ≠ .pass → ∃ u, exec .snapshot s = .next u ∧
      Placed s (ended { s with cuCalls := s.cuCalls ++ [.snapshot (cmdLane w)] } w .none) u) ∧
    (Ready s w 11 → ∃ u, exec .reloadGlobals s = .next u ∧
      Placed s { s with cmd := some { word := w, phase := .readingGlobals },
                        cuCalls := s.cuCalls ++ [.globalRead] } u)

/-- Every lane neither OFF nor FLUSHING enters FLUSHING as by FORCE_CLOSE and reaches OFF where nothing of it is left;
the command waits for its clearing, which follows in the same step, once slots have gone to what waits, where all
lanes are OFF and no Lane Status Record write waits still (log 2). The order of the reports is a free value (log 6).
Rules: R94, R96, R163. -/
def Obligations.ResetAllFlushesEveryLane : Prop :=
  ∀ (s : State) (w : Word), Ready s w 12 →
    let ls := toFlush s allLanes
    ∃ (order : List Discard) (y u : State), order.Perm (ls.flatMap s.discards) ∧
      FlushedOff ls (order.foldl State.cutOff (flushing s ls)) y ∧ exec .resetAll s = .next u ∧
      Placed s { y with cmd := some { word := w, phase := .resetting } } u

/-- Where RESET_ALL waits, every lane is OFF and no Lane Status Record write waits, the clearing sets every lane,
frame record, the trap and the global causes to their reset values and calls for the final RESULT; settings, traffic
and queues stay. Rules: R163. -/
def Obligations.TheClearingReturnsThePartToItsStartUpState : Prop :=
  ∀ (s : State) (w : Word), ClearingDue s w →
    ∃ u, exec .resetAllClearing s = .next u ∧ Placed s (cleared s w) u

/-- PIN_RESET leaves the values of State.reset, with the owed count raised by the accesses in flight; the sampled
strap base stays until the next release. The strap base and the queue of commands are as the model keeps them (log 1,
log 7). Rules: R178. -/
def Obligations.PinResetDropsAllWork : Prop :=
  ∀ (s : State), exec .pinReset s =
    .next { State.reset with cbase := s.cbase, owed := s.owed + s.inflight.length, draws := s.draws,
                             pending := s.pending }

/-- With BYP low the part enters LOADING with CBASE sampled and calls for the GLOBAL_READ; with BYP high it enters
BYPASS, and nothing else changes; with BYP low nothing else changes but what follows in the same step (log 2): free
slots to what waits, the Status Record writer, a clearing that is due, QIRQ. Rules: R176, R177. -/
def Obligations.ReleaseOfResetLoadsOrBypasses : Prop :=
  ∀ (s : State) (base : BitVec 20), s.part = .heldInReset →
    (∃ u, exec (.resetReleaseLoading base) s = .next u ∧
      Placed s { s with part := .loading, cbase := base, cuCalls := s.cuCalls ++ [.globalRead] } u) ∧
    exec (.resetReleaseBypass base) s = .next { s with part := .bypass, cbase := base }

/-- At a tick's claim on a HELD or TAKEN frame of a counting lane with lease remaining 1 the frame becomes RECLAIM
with its generation advanced, the holder's binding and checkout end, the frame joins the reclaim list with its former
holder, EXPIRIES counts and EXPIRED is raised; no fault is taken. Where any of the conditions fails LEASE_EXPIRY
changes nothing (log 1). That it takes one frame alone, whatever the divider stands at, is the model's choice (log 5),
and so is that its reclaim write starts in the same step where the lane halts next (log 14). Rules: R131. -/
def Obligations.LeasesExpire : Prop :=
  ∀ (s : State) (l : LaneId) (i : Fin 1024),
    let ln := s.lane l
    let n := (s.descriptor l).recordOf i.val
    (∀ (r : Requester) (held : Bool), Ticks s → Counts ln.state → i.val < (s.descriptor l).frameCount →
      (s.record n).standing = (if held then .held r (some 1) else .taken r (some 1)) →
      ∃ u, exec (.leaseExpiry l i) s = .next u ∧
        Placed s ((s.setRecord n (expiredRecord (s.record n))).setLane l
          { ln with
              causes := ln.causes ||| 0b100000#6
              stats := { ln.stats with expiries := oneMore ln.stats.expiries }
              checkout := ln.checkout.set r (ln.checkedOut r - 1)
              prodBind := if held = true ∧ ln.producerBinding r = some n then ln.prodBind.set r none else ln.prodBind
              consBind := if held = false ∧ ln.consumerBinding r = some n then ln.consBind.set r none else ln.consBind
              reclaim := ln.reclaim ++ [{ frame := i.val, former := r }] }) u) ∧
    (¬ Ticks s ∨ ¬ Counts ln.state ∨ (s.descriptor l).frameCount ≤ i.val ∨ (s.record n).standing.lease ≠ some 1 →
      exec (.leaseExpiry l i) s = .next s)

/-- Where ticks are produced LEASE_TICK returns the divider to 0; in every lane in OPEN, PAUSED, STEP or CLOSING each
lease above 1 is lowered by one and each frame at 1 expires, in ascending index; every other lane and record stays.
Where no tick is produced nothing changes (log 1). That LEASE_TICK comes whatever the divider stands at is the model's
choice (log 5), and so is that a reclaim write starts in the same step where the lane halts next (log 14). The slices
are those the lanes hold, apart from one another, an invariant stated on its own. Rules: R126, R128, R131, R132. -/
def Obligations.TicksReachEveryCountingLane : Prop :=
  ∀ (s : State), (¬ Ticks s → exec .leaseTick s = .next s) ∧
    (SlicesHeld s → Ticks s → ∃ x u, exec .leaseTick s = .next u ∧ Ticked s x ∧ Placed s x u)

/-- For every entry, the word written holds an even number of ones in bits 0 to 30 and bit 31 clear, and reads back to
the same fields; a word read with an odd number of ones there, or with bit 31 set, fails the checks of a slot read.
Rules: R36. -/
def Obligations.EntryWordsAreWrittenWithEvenParity : Prop :=
  (∀ (e : Entry), Entry.ofWord e.word = e ∧ onesBelow 31 e.word % 2 = 0 ∧ e.word.getLsbD 31 = false) ∧
    ∀ (s : State) (l : LaneId) (k : RingKind) (w : Word),
      onesBelow 31 w % 2 = 1 ∨ w.getLsbD 31 = true → s.slotCheck l k w = false

/-- The fields of the handle, entry, COUNT, RESULT and CMD words, of the 32 words of the Status Record with the
trap's, and of the 16 words of a Lane Status Record stand at their bits, with their codes; the bits between are 0. A
number that a field is too narrow for is left out, being no number of the part. Rules: R169. -/
def Obligations.WordsCarryTheirFields : Prop :=
  (∀ index gen, (handleWord index gen).extractLsb' 0 10 = index ∧ (handleWord index gen).extractLsb' 10 4 = gen ∧
    (handleWord index gen).extractLsb' 14 18 = 0#18) ∧
  (∀ (e : Entry),
    e.word.extractLsb' 0 10 = e.index ∧ e.word.extractLsb' 10 4 = e.gen ∧ e.word.extractLsb' 14 10 = e.length ∧
      e.word.extractLsb' 24 3 = e.origin ∧ e.word.extractLsb' 27 2 = e.kind.code ∧ e.word.getLsbD 29 = e.urgent ∧
      e.word.getLsbD 31 = false) ∧
  (∀ free work st checkout, free < 2048 → work < 2048 → checkout < 16 →
    let w := countWord free work st checkout
    (w.extractLsb' 0 11).toNat = free ∧ (w.extractLsb' 12 11).toNat = work ∧ w.extractLsb' 24 3 = st.code ∧
      (w.extractLsb' 27 4).toNat = checkout ∧ w.getLsbD 11 = false ∧ w.getLsbD 23 = false ∧ w.getLsbD 31 = false) ∧
  (∀ cmd reason busy,
    let w := resultWord cmd reason busy
    w.extractLsb' 0 8 = cmd.extractLsb' 8 8 ∧ w.getLsbD 8 = decide (reason ≠ .none) ∧ w.getLsbD 9 = busy ∧
      w.extractLsb' 10 2 = 0#2 ∧ w.extractLsb' 12 4 = cmd.extractLsb' 0 4 ∧ w.extractLsb' 16 8 = reason.code ∧
      w.extractLsb' 24 8 = 0#8) ∧
  (∀ (s : State), StatusWords s s.statusContents.words) ∧
  (∀ (ln : Lane), LaneStatusWords ln ln.statusRecord) ∧
  CodesOfTheFormats

/-- A report fills an empty trap and raises TRAP; in an occupied one it raises the overflow count up to 255 and
nothing else. While it is occupied every command but CLEAR_TRAP and pin reset, and a REFCLK period, keep the report
and never lower the count, unless RESET_ALL makes its clearing in the step and empties the trap. Rules: R143. -/
def Obligations.TheTrapKeepsItsFirstReport : Prop :=
  (∀ (s : State) (f : Report),
    (s.trap.stored = none → s.trap.overflow = 0 →
      s.trapReport f = { s with trap := { stored := some f, overflow := 0 }, trapPending := true }) ∧
    (∀ g, s.trap.stored = some g →
      s.trapReport f = { s with trap := { stored := some g, overflow := min (s.trap.overflow + 1) 255 } })) ∧
  ∀ (s t : State) (f : Report), s.trap.stored = some f → s.trap.overflow ≤ 255 →
    (∀ c, c ≠ .clearTrap → c ≠ .pinReset → exec c s = .next t → StillHeld f s t ∨ ClearedIn s t) ∧
    (s.pending = [] → step s = .next t → StillHeld f s t ∨ (s.resetting = true ∧ t.cmd ≠ s.cmd))

/-- If the pass-through queue holds at most 32, the engine queue at most 16, the in-flight list at most 32 and each
requester's list at most 32, so they do after every step. Rules: R108, R109, R170, R171, R174. -/
def Obligations.QueuesStayBounded : Prop :=
  ∀ (s t : State), QueuesBounded s → step s = .next t → QueuesBounded t

/-- If QIRQ is high exactly when a pending lane cause is enabled by its lane or a pending global cause by the settings
in force, so it is after every step. Rules: R168. -/
def Obligations.QirqIsHighWhenAnEnabledCauseIsPending : Prop :=
  ∀ (s t : State), (s.qirq = true ↔ CauseEnabled s) → step s = .next t → (t.qirq = true ↔ CauseEnabled t)

/-- If every copy in force names a slice within the 4096 records, any two lanes' slices share no record and a lane in
OFF has no copy, so it is after every step. Rules: R2, R78, R98. -/
def Obligations.SlicesStayApart : Prop :=
  ∀ (s t : State), SlicesHeld s → step s = .next t → SlicesHeld t

/-- If the list of waiting claimants names each one that wants a slot and no other, each once, if they wait only while
the engine queue holds 15 or more, and the Command Unit's first call only while it is full or held for a Lane Status
Record write of its lane, so it is after every step. That the placings fall in the step that makes them possible is
the model's reading (log 2); for a reclaim write after a tick just before a halt it is the model's choice (log 14).
Rules: R43, R75, R172. -/
def Obligations.NothingWaitsWhileItCouldBePlaced : Prop :=
  ∀ (s t : State), NoneKeptWaiting s → step s = .next t → NoneKeptWaiting t

/-- State.reset has its queues within their depths, QIRQ as its causes say, no slices in force and nothing waiting.
Rules: R178. -/
def Obligations.ResetMeetsTheInvariants : Prop :=
  QueuesBounded State.reset ∧ (State.reset.qirq = true ↔ CauseEnabled State.reset) ∧ SlicesHeld State.reset ∧
    NoneKeptWaiting State.reset
end

