-- ==== Sys2Proof/Laws/State.lean ====
section
/-! SUPPORT. Reading a lane, a frame record or a requester's U-port after each update of the state. -/

namespace Sys2Proof.Machine

/-! ### Lanes -/

@[simp] theorem lane_setLane_self (s : State) (l : LaneId) (ln : Lane) : (s.setLane l ln).lane l = ln := by
  simp [State.lane, State.setLane]

theorem lane_setLane_of_ne {s : State} {l m : LaneId} {ln : Lane} (h : m ≠ l) : (s.setLane l ln).lane m = s.lane m := by
  simp only [State.lane, State.setLane, Fin.getElem_fin]
  exact Vector.getElem_set_ne _ _ (fun e => h (Fin.ext e.symm))

theorem lane_setLane (s : State) (l m : LaneId) (ln : Lane) :
    (s.setLane l ln).lane m = if m = l then ln else s.lane m := by
  split
  · next h => subst h; exact lane_setLane_self ..
  · next h => exact lane_setLane_of_ne h

@[simp] theorem lane_updLane_self (s : State) (l : LaneId) (f : Lane → Lane) : (s.updLane l f).lane l = f (s.lane l) :=
  lane_setLane_self ..

theorem lane_updLane_of_ne {s : State} {l m : LaneId} {f : Lane → Lane} (h : m ≠ l) :
    (s.updLane l f).lane m = s.lane m := lane_setLane_of_ne h

theorem lane_updLane (s : State) (l m : LaneId) (f : Lane → Lane) :
    (s.updLane l f).lane m = if m = l then f (s.lane l) else s.lane m := lane_setLane ..

@[simp] theorem lane_setRecord (s : State) (n : RecordId) (r : FrameRec) (l : LaneId) :
    (s.setRecord n r).lane l = s.lane l := rfl

@[simp] theorem lane_setUport (s : State) (r : Requester) (u : UPort) (l : LaneId) :
    (s.setUport r u).lane l = s.lane l := rfl

@[simp] theorem lane_place (s : State) (q : EngineReq) (l : LaneId) : (s.place q).lane l = s.lane l := rfl

/-- The lanes of a state, lane by lane. -/
theorem lanes_ext {a b : Vector Lane 16} (h : ∀ m : LaneId, a[m] = b[m]) : a = b := by
  apply Vector.ext
  intro i hi
  exact h ⟨i, hi⟩

/-- A lane of a state whose lanes are written out by a function. -/
theorem lane_ofFn (s : State) (f : LaneId → Lane) (m : LaneId) : ({ s with lanes := Vector.ofFn f } : State).lane m = f m :=
  Vector.getElem_ofFn (n := 16) (f := f) m.isLt

/-! ### Frame records -/

@[simp] theorem record_setRecord_self (s : State) (n : RecordId) (r : FrameRec) : (s.setRecord n r).record n = r := by
  simp [State.record, State.setRecord]

theorem record_setRecord_of_ne {s : State} {n m : RecordId} {r : FrameRec} (h : m ≠ n) :
    (s.setRecord n r).record m = s.record m := by
  simp only [State.record, State.setRecord, Fin.getElem_fin]
  exact Vector.getElem_set_ne _ _ (fun e => h (Fin.ext e.symm))

theorem record_setRecord (s : State) (n m : RecordId) (r : FrameRec) :
    (s.setRecord n r).record m = if m = n then r else s.record m := by
  split
  · next h => subst h; exact record_setRecord_self ..
  · next h => exact record_setRecord_of_ne h

@[simp] theorem record_setLane (s : State) (l : LaneId) (ln : Lane) (n : RecordId) :
    (s.setLane l ln).record n = s.record n := rfl

@[simp] theorem record_updLane (s : State) (l : LaneId) (f : Lane → Lane) (n : RecordId) :
    (s.updLane l f).record n = s.record n := rfl

@[simp] theorem record_setUport (s : State) (r : Requester) (u : UPort) (n : RecordId) :
    (s.setUport r u).record n = s.record n := rfl

@[simp] theorem record_place (s : State) (q : EngineReq) (n : RecordId) : (s.place q).record n = s.record n := rfl

/-! ### U-ports -/

@[simp] theorem uport_setUport_self (s : State) (r : Requester) (u : UPort) : (s.setUport r u).uport r = u := by
  simp [State.uport, State.setUport]

theorem uport_setUport_of_ne {s : State} {r q : Requester} {u : UPort} (h : q ≠ r) :
    (s.setUport r u).uport q = s.uport q := by
  simp only [State.uport, State.setUport, Fin.getElem_fin]
  exact Vector.getElem_set_ne _ _ (fun e => h (Fin.ext e.symm))

theorem uport_setUport (s : State) (r q : Requester) (u : UPort) :
    (s.setUport r u).uport q = if q = r then u else s.uport q := by
  split
  · next h => subst h; exact uport_setUport_self ..
  · next h => exact uport_setUport_of_ne h

@[simp] theorem uport_setLane (s : State) (l : LaneId) (ln : Lane) (r : Requester) :
    (s.setLane l ln).uport r = s.uport r := rfl

@[simp] theorem uport_updLane (s : State) (l : LaneId) (f : Lane → Lane) (r : Requester) :
    (s.updLane l f).uport r = s.uport r := rfl

@[simp] theorem uport_setRecord (s : State) (n : RecordId) (f : FrameRec) (r : Requester) :
    (s.setRecord n f).uport r = s.uport r := rfl

@[simp] theorem uport_place (s : State) (q : EngineReq) (r : Requester) : (s.place q).uport r = s.uport r := rfl

/-! ### The other fields -/

section setLane
variable (s : State) (l : LaneId) (ln : Lane) (f : Lane → Lane)
@[simp] theorem setLane_part : (s.setLane l ln).part = s.part := rfl
@[simp] theorem setLane_cbase : (s.setLane l ln).cbase = s.cbase := rfl
@[simp] theorem setLane_globals : (s.setLane l ln).globals = s.globals := rfl
@[simp] theorem setLane_trapPending : (s.setLane l ln).trapPending = s.trapPending := rfl
@[simp] theorem setLane_memoryPending : (s.setLane l ln).memoryPending = s.memoryPending := rfl
@[simp] theorem setLane_cmd : (s.setLane l ln).cmd = s.cmd := rfl
@[simp] theorem setLane_cuCalls : (s.setLane l ln).cuCalls = s.cuCalls := rfl
@[simp] theorem setLane_writer : (s.setLane l ln).writer = s.writer := rfl
@[simp] theorem setLane_frames : (s.setLane l ln).frames = s.frames := rfl
@[simp] theorem setLane_divider : (s.setLane l ln).divider = s.divider := rfl
@[simp] theorem setLane_trap : (s.setLane l ln).trap = s.trap := rfl
@[simp] theorem setLane_uports : (s.setLane l ln).uports = s.uports := rfl
@[simp] theorem setLane_delivered : (s.setLane l ln).delivered = s.delivered := rfl
@[simp] theorem setLane_passQ : (s.setLane l ln).passQ = s.passQ := rfl
@[simp] theorem setLane_engQ : (s.setLane l ln).engQ = s.engQ := rfl
@[simp] theorem setLane_lastGrant : (s.setLane l ln).lastGrant = s.lastGrant := rfl
@[simp] theorem setLane_inflight : (s.setLane l ln).inflight = s.inflight := rfl
@[simp] theorem setLane_owed : (s.setLane l ln).owed = s.owed := rfl
@[simp] theorem setLane_pending : (s.setLane l ln).pending = s.pending := rfl
@[simp] theorem updLane_part : (s.updLane l f).part = s.part := rfl
@[simp] theorem updLane_cbase : (s.updLane l f).cbase = s.cbase := rfl
@[simp] theorem updLane_globals : (s.updLane l f).globals = s.globals := rfl
@[simp] theorem updLane_trapPending : (s.updLane l f).trapPending = s.trapPending := rfl
@[simp] theorem updLane_memoryPending : (s.updLane l f).memoryPending = s.memoryPending := rfl
@[simp] theorem updLane_cmd : (s.updLane l f).cmd = s.cmd := rfl
@[simp] theorem updLane_cuCalls : (s.updLane l f).cuCalls = s.cuCalls := rfl
@[simp] theorem updLane_writer : (s.updLane l f).writer = s.writer := rfl
@[simp] theorem updLane_frames : (s.updLane l f).frames = s.frames := rfl
@[simp] theorem updLane_divider : (s.updLane l f).divider = s.divider := rfl
@[simp] theorem updLane_trap : (s.updLane l f).trap = s.trap := rfl
@[simp] theorem updLane_uports : (s.updLane l f).uports = s.uports := rfl
@[simp] theorem updLane_delivered : (s.updLane l f).delivered = s.delivered := rfl
@[simp] theorem updLane_passQ : (s.updLane l f).passQ = s.passQ := rfl
@[simp] theorem updLane_engQ : (s.updLane l f).engQ = s.engQ := rfl
@[simp] theorem updLane_lastGrant : (s.updLane l f).lastGrant = s.lastGrant := rfl
@[simp] theorem updLane_inflight : (s.updLane l f).inflight = s.inflight := rfl
@[simp] theorem updLane_owed : (s.updLane l f).owed = s.owed := rfl
@[simp] theorem updLane_pending : (s.updLane l f).pending = s.pending := rfl
end setLane

section setRecord
variable (s : State) (n : RecordId) (r : FrameRec)
@[simp] theorem setRecord_part : (s.setRecord n r).part = s.part := rfl
@[simp] theorem setRecord_cbase : (s.setRecord n r).cbase = s.cbase := rfl
@[simp] theorem setRecord_globals : (s.setRecord n r).globals = s.globals := rfl
@[simp] theorem setRecord_trapPending : (s.setRecord n r).trapPending = s.trapPending := rfl
@[simp] theorem setRecord_memoryPending : (s.setRecord n r).memoryPending = s.memoryPending := rfl
@[simp] theorem setRecord_cmd : (s.setRecord n r).cmd = s.cmd := rfl
@[simp] theorem setRecord_lanes : (s.setRecord n r).lanes = s.lanes := rfl
@[simp] theorem setRecord_divider : (s.setRecord n r).divider = s.divider := rfl
@[simp] theorem setRecord_trap : (s.setRecord n r).trap = s.trap := rfl
@[simp] theorem setRecord_uports : (s.setRecord n r).uports = s.uports := rfl
@[simp] theorem setRecord_delivered : (s.setRecord n r).delivered = s.delivered := rfl
@[simp] theorem setRecord_passQ : (s.setRecord n r).passQ = s.passQ := rfl
@[simp] theorem setRecord_engQ : (s.setRecord n r).engQ = s.engQ := rfl
@[simp] theorem setRecord_lastGrant : (s.setRecord n r).lastGrant = s.lastGrant := rfl
@[simp] theorem setRecord_inflight : (s.setRecord n r).inflight = s.inflight := rfl
@[simp] theorem setRecord_owed : (s.setRecord n r).owed = s.owed := rfl
@[simp] theorem setRecord_pending : (s.setRecord n r).pending = s.pending := rfl
end setRecord

section setUport
variable (s : State) (r : Requester) (u : UPort)
@[simp] theorem setUport_part : (s.setUport r u).part = s.part := rfl
@[simp] theorem setUport_cbase : (s.setUport r u).cbase = s.cbase := rfl
@[simp] theorem setUport_globals : (s.setUport r u).globals = s.globals := rfl
@[simp] theorem setUport_trapPending : (s.setUport r u).trapPending = s.trapPending := rfl
@[simp] theorem setUport_memoryPending : (s.setUport r u).memoryPending = s.memoryPending := rfl
@[simp] theorem setUport_cmd : (s.setUport r u).cmd = s.cmd := rfl
@[simp] theorem setUport_lanes : (s.setUport r u).lanes = s.lanes := rfl
@[simp] theorem setUport_frames : (s.setUport r u).frames = s.frames := rfl
@[simp] theorem setUport_divider : (s.setUport r u).divider = s.divider := rfl
@[simp] theorem setUport_trap : (s.setUport r u).trap = s.trap := rfl
@[simp] theorem setUport_delivered : (s.setUport r u).delivered = s.delivered := rfl
@[simp] theorem setUport_passQ : (s.setUport r u).passQ = s.passQ := rfl
@[simp] theorem setUport_engQ : (s.setUport r u).engQ = s.engQ := rfl
@[simp] theorem setUport_lastGrant : (s.setUport r u).lastGrant = s.lastGrant := rfl
@[simp] theorem setUport_inflight : (s.setUport r u).inflight = s.inflight := rfl
@[simp] theorem setUport_owed : (s.setUport r u).owed = s.owed := rfl
@[simp] theorem setUport_pending : (s.setUport r u).pending = s.pending := rfl
end setUport

section place
variable (s : State) (q : EngineReq)
@[simp] theorem place_engQ : (s.place q).engQ = s.engQ ++ [q] := rfl
@[simp] theorem place_part : (s.place q).part = s.part := rfl
@[simp] theorem place_cmd : (s.place q).cmd = s.cmd := rfl
@[simp] theorem place_trap : (s.place q).trap = s.trap := rfl
@[simp] theorem place_passQ : (s.place q).passQ = s.passQ := rfl
@[simp] theorem place_inflight : (s.place q).inflight = s.inflight := rfl
end place

/-! ### Requesters' counts and bindings of one lane -/

@[simp] theorem checkedOut_checkOut_self (ln : Lane) (r : Requester) :
    (ln.checkOut r).checkedOut r = ln.checkedOut r + 1 := by simp [Lane.checkedOut, Lane.checkOut]

theorem checkedOut_checkOut_of_ne {ln : Lane} {r q : Requester} (h : q ≠ r) :
    (ln.checkOut r).checkedOut q = ln.checkedOut q := by
  simp only [Lane.checkedOut, Lane.checkOut, Fin.getElem_fin]
  exact Vector.getElem_set_ne _ _ (fun e => h (Fin.ext e.symm))

@[simp] theorem checkedOut_checkIn_self (ln : Lane) (r : Requester) :
    (ln.checkIn r).checkedOut r = ln.checkedOut r - 1 := by simp [Lane.checkedOut, Lane.checkIn]

theorem checkedOut_checkIn_of_ne {ln : Lane} {r q : Requester} (h : q ≠ r) :
    (ln.checkIn r).checkedOut q = ln.checkedOut q := by
  simp only [Lane.checkedOut, Lane.checkIn, Fin.getElem_fin]
  exact Vector.getElem_set_ne _ _ (fun e => h (Fin.ext e.symm))

@[simp] theorem producerBinding_bindProducer_self (ln : Lane) (r : Requester) (n : RecordId) :
    (ln.bindProducer r n).producerBinding r = some n := by simp [Lane.producerBinding, Lane.bindProducer]

theorem producerBinding_bindProducer_of_ne {ln : Lane} {r q : Requester} {n : RecordId} (h : q ≠ r) :
    (ln.bindProducer r n).producerBinding q = ln.producerBinding q := by
  simp only [Lane.producerBinding, Lane.bindProducer, Fin.getElem_fin]
  exact Vector.getElem_set_ne _ _ (fun e => h (Fin.ext e.symm))

@[simp] theorem consumerBinding_bindConsumer_self (ln : Lane) (r : Requester) (n : RecordId) :
    (ln.bindConsumer r n).consumerBinding r = some n := by simp [Lane.consumerBinding, Lane.bindConsumer]

theorem consumerBinding_bindConsumer_of_ne {ln : Lane} {r q : Requester} {n : RecordId} (h : q ≠ r) :
    (ln.bindConsumer r n).consumerBinding q = ln.consumerBinding q := by
  simp only [Lane.consumerBinding, Lane.bindConsumer, Fin.getElem_fin]
  exact Vector.getElem_set_ne _ _ (fun e => h (Fin.ext e.symm))

/-- A binding that names the record is emptied, one that names another is kept (R24). -/
theorem producerBinding_unbindProducer (ln : Lane) (r q : Requester) (n : RecordId) :
    (ln.unbindProducer r n).producerBinding q =
      if q = r ∧ ln.producerBinding r = some n then none else ln.producerBinding q := by
  unfold Lane.unbindProducer
  by_cases h : ln.producerBinding r = some n
  · rw [if_pos h]
    by_cases e : q = r
    · subst e
      rw [if_pos ⟨rfl, h⟩]
      simp [Lane.producerBinding]
    · rw [if_neg (fun x => e x.1)]
      simp only [Lane.producerBinding, Fin.getElem_fin]
      exact Vector.getElem_set_ne _ _ (fun x => e (Fin.ext x.symm))
  · rw [if_neg h, if_neg (fun x => h x.2)]

/-- A binding that names the record is emptied, one that names another is kept (R24). -/
theorem consumerBinding_unbindConsumer (ln : Lane) (r q : Requester) (n : RecordId) :
    (ln.unbindConsumer r n).consumerBinding q =
      if q = r ∧ ln.consumerBinding r = some n then none else ln.consumerBinding q := by
  unfold Lane.unbindConsumer
  by_cases h : ln.consumerBinding r = some n
  · rw [if_pos h]
    by_cases e : q = r
    · subst e
      rw [if_pos ⟨rfl, h⟩]
      simp [Lane.consumerBinding]
    · rw [if_neg (fun x => e x.1)]
      simp only [Lane.consumerBinding, Fin.getElem_fin]
      exact Vector.getElem_set_ne _ _ (fun x => e (Fin.ext x.symm))
  · rw [if_neg h, if_neg (fun x => h x.2)]

end Sys2Proof.Machine
end

