-- ==== Sys2Proof/Laws/Settle.lean ====
section
/-! SUPPORT. Giving slots to those that wait is what `Given` says (R172). -/

namespace Sys2Proof.Machine

theorem mem_allLanes (l : LaneId) : l ∈ allLanes := by revert l; decide

/-! ### Free orders (log 6) -/

/-- A free order is an order of the same events. -/
theorem shuffle_perm {α : Type} (n : Nat) (xs : List α) : (shuffle n xs).Perm xs := by
  induction xs generalizing n with
  | nil => exact .refl _
  | cons x xs ih =>
    cases xs with
    | nil => exact .refl _
    | cons y ys =>
      unfold shuffle
      have k := ih (n / (ys.length + 2))
      refine (List.perm_insertIdx x _ ?_).trans (k.cons x)
      have e := k.length_eq
      rw [e]
      simp only [List.length_cons]
      have := Nat.mod_lt n (show ys.length + 2 > 0 by omega)
      omega

/-- A drawn order is an order of the same events. -/
theorem drawOrder_perm {α : Type} (s : State) (xs : List α) : (s.drawOrder xs).1.Perm xs := by
  unfold State.drawOrder
  split
  · exact .refl _
  · exact shuffle_perm _ _

/-! ### The statements' words and the machine's -/

/-- The list bookkeeping of what waits, and the counter of draws. -/
def State.books (s : State) (calls : List CuCall) (claims : List Claimant) (d : Nat) : State :=
  { s with cuCalls := calls, waiting := claims, draws := d }

/-- Drawing an order changes the counter of draws alone. -/
theorem drawOrder_books {α : Type} (s : State) (xs : List α) :
    (s.drawOrder xs).2 = s.books s.cuCalls s.waiting (s.drawOrder xs).2.draws := by
  unfold State.drawOrder; split <;> rfl

theorem recorded_iff (p : PartState) : p.recorded = true ↔ p = .active ∨ p = .pass := by cases p <;> simp [PartState.recorded]

/-- The writer takes the change (R164). -/
theorem noteChange_eq (s0 s : State) : s0.noteChange s = noted s0 s := by
  unfold State.noteChange noted writerTakes
  by_cases h : s.part.recorded = true ∧ s0.statusContents ≠ s.statusContents
  · rw [if_pos h, if_pos ⟨(recorded_iff _).1 h.1, h.2⟩]
  · rw [if_neg h, if_neg (fun x => h ⟨(recorded_iff _).2 x.1, x.2⟩)]

/-- The claimants that want a slot (R172). -/
theorem claims_eq (s : State) (c : Claimant) : s.claims c = wants s c := by
  cases c with
  | status => rfl
  | fenced l k => unfold State.claims wants; dsimp only; cases ((s.lane l).ring k).fenced <;> rfl
  | prime l =>
    unfold State.claims wants
    rw [Bool.eq_iff_iff]; simp only [Bool.and_eq_true, decide_eq_true_eq, and_assoc]
  | reclaim l =>
    unfold State.claims wants
    rw [Bool.eq_iff_iff]
    simp only [Bool.and_eq_true, decide_eq_true_eq, and_assoc, Bool.not_eq_true', List.isEmpty_eq_false_iff]
    refine and_congr_left fun _ => ?_
    cases (s.lane l).state <;> simp [LaneState.counting]
  | laneStatus l => rfl

theorem mem_allClaimants (c : Claimant) : c ∈ allClaimants := by
  unfold allClaimants
  cases c with
  | status => exact List.mem_cons_self ..
  | _ l =>
    refine List.mem_cons_of_mem _ (List.mem_flatMap.mpr ⟨l, mem_allLanes l, ?_⟩)
    simp [laneClaimants]
    try (rename_i k; cases k <;> simp)

theorem allClaimants_nodup : allClaimants.Nodup := by decide +kernel

/-- A claimant that wants a slot has a request. -/
theorem claimRequest_isSome {y : State} {c : Claimant} (h : wants y c = true) : (claimRequest y c).isSome = true := by
  cases c with
  | status => rfl
  | fenced l k =>
    dsimp only [wants] at h; dsimp only [claimRequest]
    cases hf : ((y.lane l).ring k).fenced with
    | none => rw [hf] at h; cases h
    | some w => rfl
  | prime l => rfl
  | reclaim l =>
    have := (of_decide_eq_true h).2.1
    dsimp only [claimRequest]
    cases hr : (y.lane l).reclaim with
    | nil => exact absurd hr this
    | cons e es => rfl
  | laneStatus l => rfl

theorem claimRequests_length {y : State} {cs : List Claimant} (h : ∀ c ∈ cs, wants y c = true) :
    (cs.filterMap (claimRequest y)).length = cs.length := by
  induction cs with
  | nil => rfl
  | cons c cs ih =>
    obtain ⟨q, e⟩ := Option.isSome_iff_exists.mp (claimRequest_isSome (h c (List.mem_cons_self ..)))
    rw [List.filterMap_cons_some e, List.length_cons, List.length_cons, ih fun d hd => h d (List.mem_cons_of_mem _ hd)]

/-! ### The state with slots given out -/

/-- How many requests the engine queue holds then. -/
theorem given_length {y : State} {claims : List Claimant} (h : ∀ c ∈ claims, wants y c = true) (first last : List CuCall) :
    (given y first claims last).engQ.length = y.engQ.length + first.length + claims.length + last.length := by
  unfold given
  simp only [List.length_append, List.length_map, claimRequests_length h]

@[simp] theorem lane_given (y : State) (first : List CuCall) (claims : List Claimant) (last : List CuCall) (l : LaneId) :
    (given y first claims last).lane l = laneGiven claims (first ++ last) l (y.lane l) :=
  Vector.getElem_ofFn (n := 16) (f := fun l => laneGiven claims (first ++ last) l (y.lane l)) l.isLt

@[simp] theorem lane_books (s : State) (cu : List CuCall) (w : List Claimant) (d : Nat) (l : LaneId) :
    (s.books cu w d).lane l = s.lane l := rfl

/-- Giving slots to nothing. -/
theorem given_nil (y : State) : given y [] [] [] = y := by
  have e : (given y [] [] []).lanes = y.lanes := lanes_ext fun m => (lane_given y [] [] [] m).trans rfl
  have q : (given y [] [] []).engQ = y.engQ := by show y.engQ ++ [] ++ [] ++ [] = _; simp
  calc given y [] [] [] = { y with lanes := (given y [] [] []).lanes, engQ := (given y [] [] []).engQ } := rfl
    _ = y := by rw [e, q]

/-- Calls placed before any claim may be named first or last. -/
theorem given_shift (y : State) (first last : List CuCall) : given y first [] last = given y (first ++ last) [] [] := by
  have q : (given y first [] last).engQ = (given y (first ++ last) [] []).engQ := by
    show y.engQ ++ _ ++ [] ++ _ = y.engQ ++ _ ++ [] ++ []
    simp
  have e : (given y first [] last).lanes = (given y (first ++ last) [] []).lanes := lanes_ext fun m =>
    (lane_given y first [] last m).trans ((lane_given y (first ++ last) [] [] m).trans (by rw [List.append_nil])).symm
  calc given y first [] last = { given y (first ++ last) [] [] with
        lanes := (given y first [] last).lanes, engQ := (given y first [] last).engQ } := rfl
    _ = given y (first ++ last) [] [] := by rw [e, q]

/-- A state that differs from one with slots given out in engine queue, writer and lanes alone. -/
theorem given_of {y t z : State} {first last first' last' : List CuCall} {claims claims' : List Claimant}
    {cu : List CuCall} {w : List Claimant} {d : Nat} (hz : z = (given y first claims last).books cu w d)
    (rest : t = { z with engQ := t.engQ, writer := t.writer, lanes := t.lanes })
    (queue : t.engQ = (given y first' claims' last').engQ) (writer : t.writer = (given y first' claims' last').writer)
    (lanes : ∀ l, t.lane l = laneGiven claims' (first' ++ last') l (y.lane l)) :
    t = (given y first' claims' last').books cu w d := by
  have e : t.lanes = (given y first' claims' last').lanes := lanes_ext fun m => (lanes m).trans (lane_given ..).symm
  rw [rest, queue, writer, e, hz]
  rfl

/-- The frame records are those of before. -/
theorem frame_given (y : State) (first : List CuCall) (claims : List Claimant) (last : List CuCall) (cu : List CuCall)
    (w : List Claimant) (d : Nat) (l : LaneId) (i : Nat) :
    ((given y first claims last).books cu w d).frame l i = y.frame l i := by
  have e : ((given y first claims last).books cu w d).descriptor l = y.descriptor l := by
    unfold State.descriptor; rw [lane_books, lane_given]; rfl
  unfold State.frame
  rw [e]; rfl

/-- The address of the slot at tail (R25). -/
theorem slotAddr_tail (g : Ring) : g.slotAddr g.tail = tailSlot g := by
  unfold Ring.slotAddr tailSlot slotAt
  cases g.geom <;> rfl

section place
variable {y : State} {first last : List CuCall} {claims : List Claimant} {cu : List CuCall} {w : List Claimant} {d : Nat}

/-- One more call is placed. -/
theorem placeCall_given (c : CuCall) : ((given y first claims last).books cu w d).placeCall c =
    (given y first claims (last ++ [c])).books cu w d := by
  have q : (given y first claims last).engQ ++ [callRequest y c] = (given y first claims (last ++ [c])).engQ := by
    unfold given; simp only [List.map_append, List.map_cons, List.map_nil, List.append_assoc]
  have other (m : LaneId) (h : c ≠ .snapshot m) : laneGiven claims (first ++ (last ++ [c])) m (y.lane m) =
      laneGiven claims (first ++ last) m (y.lane m) := by
    unfold laneGiven
    simp only [show (.snapshot m ∈ first ++ (last ++ [c])) = (.snapshot m ∈ first ++ last) from propext (by
      simp [h.symm])]
  have hl (m : LaneId) : ((given y first claims last).books cu w d).lane m = laneGiven claims (first ++ last) m (y.lane m) := by
    rw [lane_books, lane_given]
  have hq : ((given y first claims last).books cu w d).engQ = (given y first claims last).engQ := rfl
  have hw : ((given y first claims last).books cu w d).writer = (given y first claims (last ++ [c])).writer := rfl
  generalize hz : (given y first claims last).books cu w d = z at hl hq hw
  have plain (h : ∀ l, c ≠ .snapshot l) (e : z.placeCall c = z.place (callRequest y c)) :
      z.placeCall c = (given y first claims (last ++ [c])).books cu w d := by
    rw [e]
    refine given_of hz.symm rfl ?_ hw fun m => ?_
    · rw [← q, ← hq]; rfl
    · rw [lane_place, hl, other m (h m)]
  cases c with
  | result v final => exact plain (by simp) rfl
  | descRead l => exact plain (by simp) rfl
  | globalRead => exact plain (by simp) rfl
  | snapshot l =>
    show (z.updLane l _).place _ = _
    refine given_of hz.symm rfl ?_ hw fun m => ?_
    · rw [← q, ← hq, hl]; rfl
    · rw [lane_place, lane_updLane]
      split
      · next e => subst e; rw [hl]; simp [laneGiven]
      · next e => rw [hl, other m (by simp [Ne.symm e])]

/-- The lanes after one more claim that changes lane `l` alone. -/
theorem laneGiven_snoc {c : Claimant} {calls : List CuCall} {m : LaneId} {ln : Lane}
    (h : c ≠ .prime m ∧ c ≠ .reclaim m ∧ c ≠ .fenced m .free ∧ c ≠ .fenced m .work ∧ c ≠ .laneStatus m) :
    laneGiven (claims ++ [c]) calls m ln = laneGiven claims calls m ln := by
  unfold laneGiven
  simp only [List.mem_append, List.mem_singleton, h.1.symm, h.2.1.symm, h.2.2.1.symm, h.2.2.2.1.symm, h.2.2.2.2.symm, or_false]

/-- One more claim is placed. -/
theorem placeClaim_given {c : Claimant} (hc : wants y c = true) (hn : c ∉ claims) :
    ((given y first claims []).books cu w d).placeClaim c = (given y first (claims ++ [c]) []).books cu w d := by
  obtain ⟨r, hr⟩ := Option.isSome_iff_exists.mp (claimRequest_isSome hc)
  have q : (given y first claims []).engQ ++ [r] = (given y first (claims ++ [c]) []).engQ := by
    unfold given
    simp only [List.map_nil, List.append_nil, List.filterMap_append, List.filterMap_cons_some hr, List.filterMap_nil,
      List.append_assoc]
  have wr (h : c ≠ .status) : (given y first claims []).writer = (given y first (claims ++ [c]) []).writer := by
    unfold given
    simp only [List.mem_append, List.mem_singleton, h.symm, or_false]
  have ws (h : c = .status) : (given y first (claims ++ [c]) []).writer = .writing .queued := by
    unfold given
    simp [h]
  have hl (m : LaneId) : ((given y first claims []).books cu w d).lane m = laneGiven claims (first ++ []) m (y.lane m) := by
    rw [lane_books, lane_given]
  have hf (l : LaneId) (i : Nat) : ((given y first claims []).books cu w d).frame l i = y.frame l i := frame_given ..
  have hq : ((given y first claims []).books cu w d).engQ = (given y first claims []).engQ := rfl
  have hw : ((given y first claims []).books cu w d).writer = (given y first claims []).writer := rfl
  generalize hz : (given y first claims []).books cu w d = z at hl hf hq hw
  have upd (l : LaneId) (f : Lane → Lane) (hs : c ≠ .status)
      (hu : f (laneGiven claims (first ++ []) l (y.lane l)) = laneGiven (claims ++ [c]) (first ++ []) l (y.lane l))
      (ho : ∀ m, m ≠ l → c ≠ .prime m ∧ c ≠ .reclaim m ∧ c ≠ .fenced m .free ∧ c ≠ .fenced m .work ∧ c ≠ .laneStatus m) :
      (z.updLane l f).place r = (given y first (claims ++ [c]) []).books cu w d := by
    refine given_of hz.symm rfl ?_ (hw.trans (wr hs)) fun m => ?_
    · rw [← q, ← hq]; rfl
    · rw [lane_place, lane_updLane]
      split
      · next e => subst e; rw [hl]; exact hu
      · next e => rw [hl, laneGiven_snoc (ho m e)]
  cases c with
  | status =>
    cases hr
    refine given_of hz.symm rfl ?_ (ws rfl).symm fun m => ?_
    · rw [← q, ← hq]; rfl
    · refine Eq.trans ?_ (laneGiven_snoc (by simp)).symm
      exact hl m
  | fenced l k =>
    have e : ((z.lane l).ring k).fenced = ((y.lane l).ring k).fenced := by
      rw [hl]
      cases k <;> simp only [laneGiven, Lane.ring, hn, if_false]
    simp only [State.placeClaim, State.placeFenced, e]
    dsimp only [claimRequest] at hr
    cases hf : ((y.lane l).ring k).fenced with
    | none => rw [hf] at hr; cases hr
    | some v =>
      rw [hf] at hr; cases hr
      refine upd l _ (by simp) ?_ (by intro m hm; simp [Ne.symm hm])
      cases k <;> simp [laneGiven, Lane.setRing, Lane.ring]
  | prime l =>
    cases hr
    have e := upd l (fun ln => { ln with freeRing := ln.freeRing.withAccess .writing }) (by simp)
      (by simp [laneGiven, Ring.withAccess]) (by intro m hm; simp [Ne.symm hm])
    rw [← e]
    simp only [State.placeClaim, State.placePrime, hf, slotAddr_tail, hl]
    rfl
  | reclaim l =>
    obtain ⟨e, es, he⟩ := List.exists_cons_of_ne_nil (of_decide_eq_true hc).2.1
    have e2 : (laneGiven claims (first ++ []) l (y.lane l)).reclaim = e :: es := he
    dsimp only [claimRequest] at hr
    rw [he] at hr; cases hr
    have u := upd l (fun ln => { ln with freeRing := ln.freeRing.withAccess .writing }) (by simp)
      (by simp [laneGiven, Ring.withAccess]) (by intro m hm; simp [Ne.symm hm])
    rw [← u]
    simp only [State.placeClaim, State.placeReclaim, hf, slotAddr_tail, hl, e2]
    rfl
  | laneStatus l =>
    cases hr
    have u := upd l (fun ln => { ln with lsrWaiting := false }) (by simp)
      (by simp [laneGiven]) (by intro m hm; simp [Ne.symm hm])
    rw [← u]
    simp only [State.placeClaim, State.placeLaneStatus, hl]
    rfl

/-- Who still wants a slot, with the calls `first` and the claims placed. -/
theorem claims_given (hc : ∀ c ∈ claims, wants y c = true) (c : Claimant) :
    ((given y first claims []).books cu w d).claims c = true ↔
      wants y c = true ∧ mergedInto first c = false ∧ c ∉ claims := by
  rw [claims_eq]
  have hl (m : LaneId) : ((given y first claims []).books cu w d).lane m = laneGiven claims (first ++ []) m (y.lane m) := by
    rw [lane_books, lane_given]
  have hd (m : LaneId) : ((given y first claims []).books cu w d).descriptor m = y.descriptor m := by
    unfold State.descriptor; rw [hl]; rfl
  have hw : ((given y first claims []).books cu w d).writer = if .status ∈ claims then .writing .queued else y.writer := rfl
  generalize (given y first claims []).books cu w d = z at hl hd hw
  cases c with
  | status =>
    dsimp only [wants, mergedInto]
    rw [hw]
    by_cases h : Claimant.status ∈ claims <;> simp [h]
  | fenced l k =>
    dsimp only [wants, mergedInto]
    rw [hl]
    cases k with
    | free => dsimp only [laneGiven, Lane.ring]; by_cases h : Claimant.fenced l .free ∈ claims <;> simp [h]
    | work => dsimp only [laneGiven, Lane.ring]; by_cases h : Claimant.fenced l .work ∈ claims <;> simp [h]
  | prime l =>
    dsimp only [wants, mergedInto]
    rw [hl, hd]
    dsimp only [laneGiven]
    by_cases h : Claimant.prime l ∈ claims
    · simp [h]
    · by_cases g : Claimant.reclaim l ∈ claims
      · have := (of_decide_eq_true (hc _ g)).1
        simp only [h, g, or_true, if_true, decide_eq_true_eq]
        constructor
        · rintro ⟨_, _, x⟩; cases x
        · rintro ⟨⟨x, _⟩, _⟩; rw [x] at this; simp at this
      · simp [h, g]
  | reclaim l =>
    dsimp only [wants, mergedInto]
    rw [hl]
    dsimp only [laneGiven]
    by_cases h : Claimant.reclaim l ∈ claims
    · simp [h]
    · by_cases g : Claimant.prime l ∈ claims
      · have := (of_decide_eq_true (hc _ g)).1
        simp only [h, g, or_false, if_true, decide_eq_true_eq]
        constructor
        · rintro ⟨_, _, x⟩; cases x
        · rintro ⟨⟨x, _⟩, _⟩; rw [this] at x; simp at x
      · simp [h, g]
  | laneStatus l =>
    dsimp only [wants, mergedInto]
    rw [hl]
    dsimp only [laneGiven]
    by_cases h : Claimant.laneStatus l ∈ claims <;> by_cases g : CuCall.snapshot l ∈ first <;> simp [h, g]

/-- A DESC_READ is held while a Lane Status Record write of its lane waits (R75). -/
theorem callHeld_iff (s : State) (c : CuCall) :
    s.callHeld c = true ↔ ∃ l, c = .descRead l ∧ (s.lane l).lsrWaiting = true := by
  cases c <;> simp [State.callHeld]

end place

/-- The Command Unit's calls are placed in order until one finds no slot or is held. -/
theorem serveCalls_given (y : State) (first : List CuCall) (claims : List Claimant) (w : List Claimant) (d : Nat)
    (cs : List CuCall) : ∀ (cu last : List CuCall), ∃ more rest, cs = more ++ rest ∧
      State.serveCalls cs ((given y first claims last).books cu w d) = (given y first claims (last ++ more)).books rest w d ∧
      (more ≠ [] → (given y first claims (last ++ more)).engQ.length ≤ 16) ∧
      (∀ c r, rest = c :: r → 16 ≤ (given y first claims (last ++ more)).engQ.length ∨
        ∃ l, c = .descRead l ∧ ((given y first claims (last ++ more)).lane l).lsrWaiting = true) ∧
      (∀ before l after, more = before ++ .descRead l :: after →
        ((given y first claims (last ++ before)).lane l).lsrWaiting = false) := by
  induction cs with
  | nil => exact fun cu last => ⟨[], [], rfl, by simp [State.serveCalls]; rfl, by simp, by simp, by simp⟩
  | cons c cs ih =>
    intro cu last
    unfold State.serveCalls
    split
    · next h =>
      obtain ⟨more, rest, e, f, room, stop, held⟩ := ih cu (last ++ [c])
      have a : last ++ [c] ++ more = last ++ c :: more := by simp
      rw [a] at f room stop
      refine ⟨c :: more, rest, by rw [e]; rfl, by rw [placeCall_given, f], fun _ => ?_, stop, ?_⟩
      · cases hm : more with
        | cons x xs => rw [← hm]; exact room (by rw [hm]; simp)
        | nil =>
          have := of_decide_eq_true h.1
          have q : (given y first claims (last ++ [c])).engQ.length = (given y first claims last).engQ.length + 1 := by
            unfold given; simp; omega
          rw [q]
          exact this
      · intro before l after e
        cases before with
        | nil =>
          obtain ⟨rfl, _⟩ := List.cons.inj e
          rw [List.append_nil]
          have := h.2
          rw [callHeld_iff] at this
          simpa using this
        | cons x xs =>
          obtain ⟨rfl, e'⟩ := List.cons.inj e
          have := held xs l after e'
          rwa [List.append_assoc] at this
    · next h =>
      refine ⟨[], c :: cs, rfl, by rw [List.append_nil]; rfl, by simp, ?_, by simp⟩
      intro x r e
      obtain ⟨rfl, _⟩ := List.cons.inj e
      rw [List.append_nil]
      by_cases g : ((given y first claims last).books cu w d).anySlotFree = true
      · right
        have : ((given y first claims last).books cu w d).callHeld c = true := by
          by_contra k; exact h ⟨g, k⟩
        exact (callHeld_iff _ _).1 this
      · left
        have : ¬ (given y first claims last).engQ.length < 16 := fun k => g (decide_eq_true k)
        omega

/-- The waiting claims are placed in order until one finds no slot. -/
theorem serveClaims_given (y : State) (first : List CuCall) (cu : List CuCall) (d : Nat) (cs : List Claimant) :
    ∀ (w claims : List Claimant), (∀ c ∈ claims, wants y c = true) → claims.Nodup → ∃ more left,
      State.serveClaims cs ((given y first claims []).books cu w d) = (given y first (claims ++ more) []).books cu left d ∧
      (more ++ left).Sublist (cs.filter fun c => wants y c && !mergedInto first c) ∧
      (∀ c ∈ cs, wants y c = true → mergedInto first c = false → c ∈ claims ∨ c ∈ more ∨ c ∈ left) ∧
      (∀ c ∈ claims ++ more, wants y c = true ∧ c ∉ left) ∧ (claims ++ more).Nodup ∧
      (more ≠ [] → (given y first (claims ++ more) []).engQ.length ≤ 15) ∧
      (left ≠ [] → 15 ≤ (given y first (claims ++ more) []).engQ.length) := by
  induction cs with
  | nil =>
    intro w claims hc hn
    exact ⟨[], [], by rw [List.append_nil]; rfl, by simp, by simp, fun c h => ⟨hc c (by simpa using h), by simp⟩, by simpa using hn,
      by simp, by simp⟩
  | cons c cs ih =>
    intro w claims hc hn
    unfold State.serveClaims
    have hi := claims_given (cu := cu) (w := w) (d := d) (first := first) hc
    split
    · next h =>
      obtain ⟨a, b, n⟩ := (hi c).1 h
      split
      · next g =>
        have hc' : ∀ x ∈ claims ++ [c], wants y x = true := by
          intro x hx
          rcases List.mem_append.mp hx with k | k
          · exact hc x k
          · rw [List.mem_singleton.mp k]; exact a
        obtain ⟨more, left, e, sub, all, once, nd, room, full⟩ := ih w (claims ++ [c]) hc'
          (List.nodup_append.mpr ⟨hn, by simp, by intro x hx z hz; rw [List.mem_singleton.mp hz]; exact fun k => n (k ▸ hx)⟩)
        have q : claims ++ [c] ++ more = claims ++ c :: more := by simp
        rw [q] at e once nd room full
        refine ⟨c :: more, left, by rw [placeClaim_given a n, e], ?_, ?_, once, nd, fun _ => ?_, full⟩
        · rw [List.filter_cons_of_pos (by simp [a, b])]; exact sub.cons_cons c
        · intro x hx p m
          rcases List.mem_cons.mp hx with rfl | hx
          · exact .inr (.inl (List.mem_cons_self ..))
          · rcases all x hx p m with k | k | k
            · rcases List.mem_append.mp k with k | k
              · exact .inl k
              · rw [List.mem_singleton.mp k]; exact .inr (.inl (List.mem_cons_self ..))
            · exact .inr (.inl (List.mem_cons_of_mem _ k))
            · exact .inr (.inr k)
        · cases hm : more with
          | cons x xs => rw [← hm]; exact room (by rw [hm]; simp)
          | nil =>
            have : (given y first claims []).engQ.length + 1 < 16 := of_decide_eq_true g
            rw [given_length hc] at this
            rw [given_length hc', List.length_append]
            simp at this ⊢
            omega
      · next g =>
        refine ⟨[], (c :: cs).filter ((given y first claims []).books cu w d).claims, by rw [List.append_nil]; rfl, ?_, ?_, ?_,
          by simpa using hn, by simp, fun _ => ?_⟩
        · rw [List.nil_append]
          refine List.monotone_filter_right _ fun x hx => ?_
          obtain ⟨p, m, _⟩ := (hi x).1 hx
          simp [p, m]
        · intro x hx p m
          by_cases k : x ∈ claims
          · exact .inl k
          · exact .inr (.inr (List.mem_filter.mpr ⟨hx, (hi x).2 ⟨p, m, k⟩⟩))
        · intro x hx
          rw [List.append_nil] at hx
          exact ⟨hc x hx, fun k => ((hi x).1 (List.mem_filter.mp k).2).2.2 hx⟩
        · rw [List.append_nil]
          have : ¬ (given y first claims []).engQ.length + 1 < 16 := fun k => g (decide_eq_true k)
          omega
    · next h =>
      obtain ⟨more, left, e, sub, all, once, nd, room, full⟩ := ih w claims hc hn
      refine ⟨more, left, e, ?_, ?_, once, nd, room, full⟩
      · rw [List.filter_cons]
        split
        · exact sub.cons c
        · exact sub
      · intro x hx p m
        rcases List.mem_cons.mp hx with rfl | hx
        · left
          by_contra k
          exact h ((hi x).2 ⟨p, m, k⟩)
        · exact all x hx p m

/-- The state that slots given out leave. -/
theorem books_state (z : State) (calls : List CuCall) (left : List Claimant) (d : Nat) (t : State)
    (h : t = (z.books calls left d).refreshQirq) :
    t = { z with cuCalls := t.cuCalls, waiting := t.waiting, qirq := t.causeEnabled, draws := t.draws } := by
  subst h; rfl

/-- The three rounds in which slots are given out. -/
theorem serve_rounds {s z1 z2 z3 : State} (h1 : State.serveCalls s.cuCalls s = z1)
    (h2 : State.serveClaims z1.waiting z1 = z2) (h3 : State.serveCalls z2.cuCalls z2 = z3) : s.serve = z3 := by
  subst h1 h2 h3; rfl

/-- Whether a Lane Status Record write still waits (R166). -/
theorem given_lsr (y : State) (first : List CuCall) (claims : List Claimant) (last : List CuCall) (l : LaneId) :
    ((given y first claims last).lane l).lsrWaiting = true ↔
      (y.lane l).lsrWaiting = true ∧ .laneStatus l ∉ claims ∧ .snapshot l ∉ first ++ last := by
  rw [lane_given]
  show (if _ then false else _) = true ↔ _
  split
  · next h => simp only [Bool.false_eq_true, false_iff]; tauto
  · next h => tauto

/-- Slots given out to what waits (R75, R172). -/
theorem serve_given {y : State} {began : List Claimant} (d : Nat) (hb : began.Nodup)
    (hm : ∀ c, c ∈ began ↔ wants y c = true ∧ c ∉ y.waiting) :
    Given y (y.books y.cuCalls (y.waiting.filter (wants y) ++ began) d).serve.refreshQirq := by
  obtain ⟨first, rest, hc, e1, room1, stop1, held1⟩ := serveCalls_given y [] []
    (y.waiting.filter (wants y) ++ began) d y.cuCalls y.cuCalls []
  rw [given_nil, List.nil_append, given_shift, List.nil_append] at e1
  rw [List.nil_append, given_shift, List.nil_append] at room1 stop1
  obtain ⟨claims, left, e2, sub, all, once, nd, room2, full⟩ := serveClaims_given y first rest d
    (y.waiting.filter (wants y) ++ began) (y.waiting.filter (wants y) ++ began) [] (by simp) List.nodup_nil
  rw [List.nil_append] at e2 once nd room2 full
  obtain ⟨last, calls, hc2, e3, room3, stop3, held3⟩ := serveCalls_given y first claims left d rest rest []
  rw [List.nil_append] at e3 room3 stop3
  have want : ∀ c ∈ claims, wants y c = true := fun c h => (once c h).1
  have e := serve_rounds (s := y.books y.cuCalls (y.waiting.filter (wants y) ++ began) d) e1 e2 e3
  rw [e]
  clear e e1 e2 e3
  have l1 := given_length (y := y) (claims := []) (by simp) first []
  have l2 := given_length want first []
  have l3 := given_length want first last
  rw [l1] at room1 stop1
  rw [l2] at room2 full
  rw [l3] at room3
  simp only [List.length_nil, Nat.add_zero] at room1 stop1 room2 full
  simp only [given_lsr, List.append_nil] at stop1
  simp only [List.nil_append, ← Bool.not_eq_true, given_lsr] at held1 held3
  have head : ∀ c cs, rest = c :: cs → claims ≠ [] →
      ∃ l, c = .descRead l ∧ (y.lane l).lsrWaiting = true ∧ .snapshot l ∉ first := by
    intro c cs hr hcl
    rcases stop1 c cs hr with k | ⟨l, rfl, k⟩
    · have := room2 hcl; omega
    · exact ⟨l, rfl, k.1, k.2.2⟩
  generalize hz : given y first claims last = z at stop3 room3 l3
  refine ⟨began, first, claims, last, ?_⟩
  have ht := books_state z calls left d _ rfl
  generalize hu : (z.books calls left d).refreshQirq = t at ht
  have tc : t.cuCalls = calls := by rw [← hu]; rfl
  have tw : t.waiting = left := by rw [← hu]; rfl
  have tq : t.engQ = z.engQ := by rw [← hu]; rfl
  have tl : ∀ l, t.lane l = z.lane l := fun l => by rw [← hu]; rfl
  clear hu
  rw [← hz] at ht
  refine ⟨ht, ?_, ⟨hb, hm⟩, ?_, ?_, ⟨nd, fun c h => ?_⟩, ⟨room1, room2, room3⟩, ?_, ?_, ?_, ?_, ?_⟩
  · rw [tc, hc, hc2, List.append_assoc]
  · rw [tw]
    refine sub.trans ?_
    unfold waits
    refine List.monotone_filter_right _ fun x hx => ?_
    simp at hx ⊢; exact hx.2
  · intro c h
    rw [tw]
    obtain ⟨a, b⟩ := List.mem_filter.mp h
    refine (all c a ?_ (by simpa using b)).resolve_left (by simp)
    rcases List.mem_append.mp a with k | k
    · exact (List.mem_filter.mp k).2
    · exact ((hm c).1 k).1
  · rw [tw]; exact (once c h).2
  · rw [tw]; exact full
  · rw [tc, tq]
    intro c cs h
    simp only [tl]
    exact stop3 c cs h
  · intro before l after hs
    rcases List.append_eq_append_iff.mp hs with ⟨a, rfl, h⟩ | ⟨a, h, g⟩
    · have := held3 a l after h
      rw [List.length_append]
      by_cases k : (y.lane l).lsrWaiting = true
      · by_cases n : .snapshot l ∈ first ++ a
        · exact .inr (.inl n)
        · exact .inr (.inr ⟨by_contra fun x => this ⟨k, x, n⟩, by omega⟩)
      · exact .inl (by simpa using k)
    · cases a with
      | nil =>
        have := held3 [] l after g.symm
        rw [List.append_nil] at h this
        subst h
        by_cases k : (y.lane l).lsrWaiting = true
        · by_cases n : .snapshot l ∈ first
          · exact .inr (.inl n)
          · exact .inr (.inr ⟨by_contra fun x => this ⟨k, x, n⟩, le_rfl⟩)
        · exact .inl (by simpa using k)
      | cons x xs =>
        obtain ⟨rfl, _⟩ := List.cons.inj g
        have := held1 before l xs h
        by_cases k : (y.lane l).lsrWaiting = true
        · exact .inr (.inl (by_contra fun n => this ⟨k, by simp, n⟩))
        · exact .inl (by simpa using k)
  · rw [tc, ← hc2]
    exact fun h c cs k => head c cs k h
  · intro c cs hl
    have := room3 (by rw [hl]; simp)
    rw [hl] at this
    simp only [List.length_cons] at this
    rcases stop1 c (cs ++ calls) (by rw [hc2, hl]; rfl) with k | ⟨l, rfl, k⟩
    · omega
    · refine ⟨l, rfl, by_contra fun n => ?_⟩
      have := held3 [] l cs hl
      rw [List.append_nil] at this
      exact this ⟨k.1, n, k.2.2⟩

/-- The claimants that begin to wait in a step (R172). -/
theorem serveStep_given (s0 s : State) : Given (noted s0 s) (s0.serveStep s).refreshQirq := by
  unfold State.serveStep State.refreshWaiting
  rw [noteChange_eq]
  have hf : (noted s0 s).waiting.filter (noted s0 s).claims = (noted s0 s).waiting.filter (wants (noted s0 s)) :=
    List.filter_congr fun c _ => claims_eq _ c
  dsimp only
  rw [drawOrder_books, hf]
  refine serve_given _ ((drawOrder_perm ..).nodup_iff.mpr (allClaimants_nodup.filter _)) fun c => ?_
  rw [(drawOrder_perm ..).mem_iff, List.mem_filter]
  simp only [mem_allClaimants, true_and, Bool.and_eq_true, decide_eq_true_eq, claims_eq, List.mem_filter]
  tauto

/-- QIRQ as it stood has no part in giving out slots. -/
theorem Given.ofQirq {y t : State} {q : Bool} (h : Given { y with qirq := q } t) : Given y t := by
  obtain ⟨b, f, c, l, k⟩ := h
  exact ⟨b, f, c, l, k.state, k.calls, k.begins, k.order, k.all, k.once, k.room, k.full, k.stops, k.behind, k.ahead, k.follows⟩

/-! ### Settling -/

/-- The clearing of RESET_ALL (R163). -/
theorem clearing_of {a : State} {w : Word} (h : a.cmd = some { word := w, phase := .resetting }) : a.clearing = cleared a w := by
  unfold State.clearing State.endCommand cleared ended
  dsimp only
  rw [h]
  rfl

/-- When the clearing is due (R163). -/
theorem clearingDue_iff (s : State) : s.clearingDue = true ↔ ∃ w, ClearingDue s w := by
  unfold State.clearingDue State.resetting
  simp only [Bool.and_eq_true, List.all_eq_true, decide_eq_true_eq, Bool.not_eq_true']
  constructor
  · rintro ⟨a, b⟩
    cases hc : s.cmd with
    | none => rw [hc] at a; cases a
    | some r =>
      rw [hc] at a
      exact ⟨r.word, by rw [hc, ← of_decide_eq_true a], fun l => b l (mem_allLanes l)⟩
  · rintro ⟨w, h⟩
    rw [h.cmd]
    exact ⟨rfl, fun l _ => h.lanes l⟩

/-- Settling leaves the state `Placed` describes. -/
theorem settle_placed (s0 s : State) : Placed s0 s (s0.settle s) := by
  refine ⟨(s0.serveStep s).refreshQirq, serveStep_given s0 s, ?_⟩
  unfold State.settle State.clearIfDue
  generalize s0.serveStep s = v
  by_cases h : v.clearingDue = true
  · rw [if_pos h]
    obtain ⟨w, hw⟩ := (clearingDue_iff v).1 h
    refine .inr ⟨w, ⟨hw.cmd, hw.lanes⟩, ?_⟩
    rw [clearing_of hw.cmd]
    exact (serveStep_given v (cleared v w)).ofQirq (q := v.qirq)
  · rw [if_neg h]
    exact .inl ⟨fun w hw => h ((clearingDue_iff v).2 ⟨w, hw.cmd, hw.lanes⟩), rfl⟩

end Sys2Proof.Machine
end

