-- ==== Sys2Proof/Laws/Placed.lean ====
section
/-! SUPPORT. What a settled step keeps, from `Placed`. -/

namespace Sys2Proof.Machine

/-! ### Lanes that are kept -/

/-- A lane without what the placing of a waiting request changes in it (R43, R62, R83, R166): the claim on its free
ring, the slot writes that wait and the waiting Lane Status Record write. -/
def Lane.core (ln : Lane) : Lane :=
  { ln with freeRing := { ln.freeRing with access := .idle, fenced := none },
            workRing := { ln.workRing with fenced := none }, lsrWaiting := false }

/-- Nothing of the lane has changed but what the placing of waiting requests changes. -/
def LaneKept (a b : Lane) : Prop := b.core = a.core

theorem LaneKept.refl (a : Lane) : LaneKept a a := rfl
theorem LaneKept.trans {a b c : Lane} (h : LaneKept a b) (k : LaneKept b c) : LaneKept a c := Eq.trans k h

theorem laneGiven_kept (claims : List Claimant) (calls : List CuCall) (l : LaneId) (ln : Lane) :
    LaneKept ln (laneGiven claims calls l ln) := rfl

section fields
variable {a b : Lane} (h : LaneKept a b)
include h
theorem LaneKept.state : b.state = a.state :=
  congrArg (fun x => x.state) (show b.core = a.core from h)
theorem LaneKept.haltReason : b.haltReason = a.haltReason :=
  congrArg (fun x => x.haltReason) (show b.core = a.core from h)
theorem LaneKept.desc : b.desc = a.desc :=
  congrArg (fun x => x.desc) (show b.core = a.core from h)
theorem LaneKept.enables : b.enables = a.enables :=
  congrArg (fun x => x.enables) (show b.core = a.core from h)
theorem LaneKept.causes : b.causes = a.causes :=
  congrArg (fun x => x.causes) (show b.core = a.core from h)
theorem LaneKept.stats : b.stats = a.stats :=
  congrArg (fun x => x.stats) (show b.core = a.core from h)
theorem LaneKept.primePos : b.primePos = a.primePos :=
  congrArg (fun x => x.primePos) (show b.core = a.core from h)
theorem LaneKept.checkout : b.checkout = a.checkout :=
  congrArg (fun x => x.checkout) (show b.core = a.core from h)
theorem LaneKept.prodBind : b.prodBind = a.prodBind :=
  congrArg (fun x => x.prodBind) (show b.core = a.core from h)
theorem LaneKept.consBind : b.consBind = a.consBind :=
  congrArg (fun x => x.consBind) (show b.core = a.core from h)
theorem LaneKept.reclaim : b.reclaim = a.reclaim :=
  congrArg (fun x => x.reclaim) (show b.core = a.core from h)
theorem LaneKept.freeGeom : b.freeRing.geom = a.freeRing.geom :=
  congrArg (fun x => x.freeRing.geom) (show b.core = a.core from h)
theorem LaneKept.freeHead : b.freeRing.head = a.freeRing.head :=
  congrArg (fun x => x.freeRing.head) (show b.core = a.core from h)
theorem LaneKept.freeTail : b.freeRing.tail = a.freeRing.tail :=
  congrArg (fun x => x.freeRing.tail) (show b.core = a.core from h)
theorem LaneKept.freeCount : b.freeRing.count = a.freeRing.count :=
  congrArg (fun x => x.freeRing.count) (show b.core = a.core from h)
theorem LaneKept.workGeom : b.workRing.geom = a.workRing.geom :=
  congrArg (fun x => x.workRing.geom) (show b.core = a.core from h)
theorem LaneKept.workHead : b.workRing.head = a.workRing.head :=
  congrArg (fun x => x.workRing.head) (show b.core = a.core from h)
theorem LaneKept.workTail : b.workRing.tail = a.workRing.tail :=
  congrArg (fun x => x.workRing.tail) (show b.core = a.core from h)
theorem LaneKept.workCount : b.workRing.count = a.workRing.count :=
  congrArg (fun x => x.workRing.count) (show b.core = a.core from h)
theorem LaneKept.workAccess : b.workRing.access = a.workRing.access :=
  congrArg (fun x => x.workRing.access) (show b.core = a.core from h)
theorem LaneKept.descriptor : b.descriptor = a.descriptor := by unfold Lane.descriptor; rw [h.desc]
theorem LaneKept.checkedOut (r : Requester) : b.checkedOut r = a.checkedOut r := by unfold Lane.checkedOut; rw [h.checkout]
theorem LaneKept.producerBinding (r : Requester) : b.producerBinding r = a.producerBinding r := by
  unfold Lane.producerBinding; rw [h.prodBind]
theorem LaneKept.consumerBinding (r : Requester) : b.consumerBinding r = a.consumerBinding r := by
  unfold Lane.consumerBinding; rw [h.consBind]
end fields

theorem LaneKept.statusRecord {a b : Lane} (h : LaneKept a b) : b.statusRecord = a.statusRecord := by
  unfold Lane.statusRecord
  rw [h.stats, h.workCount, h.freeCount, h.haltReason, h.reclaim]

/-! ### What giving out slots keeps -/

/-- What a settled step keeps, whatever waits, the clearing of RESET_ALL included; the engine queue grows at its tail. -/
structure Settled (s t : State) : Prop where
  part : t.part = s.part
  cbase : t.cbase = s.cbase
  globals : t.globals = s.globals
  divider : t.divider = s.divider
  uports : t.uports = s.uports
  delivered : t.delivered = s.delivered
  passQ : t.passQ = s.passQ
  lastGrant : t.lastGrant = s.lastGrant
  inflight : t.inflight = s.inflight
  owed : t.owed = s.owed
  pending : t.pending = s.pending
  engQ : s.engQ <+: t.engQ

/-- Where no clearing is made, trap, causes, command, frame records and lanes are kept besides. -/
structure Served (s t : State) : Prop extends Settled s t where
  trap : t.trap = s.trap
  trapPending : t.trapPending = s.trapPending
  memoryPending : t.memoryPending = s.memoryPending
  cmd : t.cmd = s.cmd
  frames : t.frames = s.frames
  lanes : ∀ l, LaneKept (s.lane l) (t.lane l)

theorem Settled.trans {s t u : State} (h : Settled s t) (k : Settled t u) : Settled s u where
  part := k.part.trans h.part
  cbase := k.cbase.trans h.cbase
  globals := k.globals.trans h.globals
  divider := k.divider.trans h.divider
  uports := k.uports.trans h.uports
  delivered := k.delivered.trans h.delivered
  passQ := k.passQ.trans h.passQ
  lastGrant := k.lastGrant.trans h.lastGrant
  inflight := k.inflight.trans h.inflight
  owed := k.owed.trans h.owed
  pending := k.pending.trans h.pending
  engQ := h.engQ.trans k.engQ

/-- The clearing keeps them. -/
theorem settled_cleared (s : State) (w : Word) : Settled s (cleared s w) :=
  ⟨rfl, rfl, rfl, rfl, rfl, rfl, rfl, rfl, rfl, rfl, rfl, List.prefix_refl _⟩

section given
variable {y t : State} {began : List Claimant} {first last : List CuCall} {claims : List Claimant}
  (h : GivenTo y t began first claims last)
include h

/-- A field that slots given out do not touch. -/
theorem GivenTo.field {α : Type} (f : State → α) (a : ∀ cu w q d, f { given y first claims last with
    cuCalls := cu, waiting := w, qirq := q, draws := d } = f y) : f t = f y := (congrArg f h.state).trans (a ..)

theorem GivenTo.lane (l : LaneId) : t.lane l = laneGiven claims (first ++ last) l (y.lane l) :=
  (congrArg (fun s => s.lane l) h.state).trans (lane_given ..)

theorem GivenTo.engQ : t.engQ = y.engQ ++ first.map (callRequest y) ++ claims.filterMap (claimRequest y)
    ++ last.map (callRequest y) := congrArg (fun s => s.engQ) h.state

theorem GivenTo.writer : t.writer = if .status ∈ claims then .writing .queued else y.writer :=
  congrArg (fun s => s.writer) h.state

theorem GivenTo.qirq : QirqFollows t := show t.qirq = t.causeEnabled from congrArg (fun s => s.qirq) h.state

theorem GivenTo.served : Served y t where
  part := h.field (fun s => s.part) fun _ _ _ _ => rfl
  cbase := h.field (fun s => s.cbase) fun _ _ _ _ => rfl
  globals := h.field (fun s => s.globals) fun _ _ _ _ => rfl
  divider := h.field (fun s => s.divider) fun _ _ _ _ => rfl
  uports := h.field (fun s => s.uports) fun _ _ _ _ => rfl
  delivered := h.field (fun s => s.delivered) fun _ _ _ _ => rfl
  passQ := h.field (fun s => s.passQ) fun _ _ _ _ => rfl
  lastGrant := h.field (fun s => s.lastGrant) fun _ _ _ _ => rfl
  inflight := h.field (fun s => s.inflight) fun _ _ _ _ => rfl
  owed := h.field (fun s => s.owed) fun _ _ _ _ => rfl
  pending := h.field (fun s => s.pending) fun _ _ _ _ => rfl
  engQ := by rw [h.engQ, List.append_assoc, List.append_assoc]; exact List.prefix_append ..
  trap := h.field (fun s => s.trap) fun _ _ _ _ => rfl
  trapPending := h.field (fun s => s.trapPending) fun _ _ _ _ => rfl
  memoryPending := h.field (fun s => s.memoryPending) fun _ _ _ _ => rfl
  cmd := h.field (fun s => s.cmd) fun _ _ _ _ => rfl
  frames := h.field (fun s => s.frames) fun _ _ _ _ => rfl
  lanes l := by rw [h.lane]; exact laneGiven_kept ..

/-- A claim that is placed wanted its slot. -/
theorem GivenTo.want {c : Claimant} (hc : c ∈ claims ∨ c ∈ t.waiting) : wants y c = true := by
  have := h.order.subset (List.mem_append.mpr hc)
  rcases List.mem_append.mp (List.mem_filter.mp this).1 with k | k
  · exact (List.mem_filter.mp k).2
  · exact ((h.begins.2 c).1 k).1

theorem GivenTo.length : t.engQ.length = y.engQ.length + first.length + claims.length + last.length := by
  rw [h.engQ]
  exact given_length (fun c hc => h.want (.inl hc)) first last

/-- The engine queue stays in its bound (R171, R172). -/
theorem GivenTo.engQ_le (k : y.engQ.length ≤ 16) : t.engQ.length ≤ 16 := by
  rw [h.length]
  obtain ⟨a, b, c⟩ := h.room
  cases last with
  | cons x xs => exact c (by simp)
  | nil =>
    cases claims with
    | cons x xs => have := b (by simp); simp at this ⊢; omega
    | nil =>
      cases first with
      | cons x xs => have := a (by simp); simp at this ⊢; omega
      | nil => simpa using k

/-- Who wants a slot still, waits on the list. -/
theorem GivenTo.left {c : Claimant} (k : wants t c = true) : c ∈ t.waiting := by
  have d : ∀ l, t.descriptor l = y.descriptor l := fun l => (h.served.lanes l).descriptor
  have e : wants y c = true ∧ mergedInto first c = false ∧ c ∉ claims := by
    cases c with
    | status =>
      have w : t.writer = .writing .waiting := of_decide_eq_true k
      rw [h.writer] at w
      by_cases g : Claimant.status ∈ claims
      · rw [if_pos g] at w; cases w
      · rw [if_neg g] at w; exact ⟨decide_eq_true w, rfl, g⟩
    | fenced l r =>
      dsimp only [wants] at k ⊢
      rw [h.lane] at k
      refine ⟨?_, rfl, fun g => ?_⟩
      · cases r with
        | free => dsimp only [laneGiven, Lane.ring] at k ⊢; split at k; exacts [absurd k (by simp), k]
        | work => dsimp only [laneGiven, Lane.ring] at k ⊢; split at k; exacts [absurd k (by simp), k]
      · cases r <;> simp [laneGiven, Lane.ring, g] at k
    | prime l =>
      obtain ⟨a, b, i⟩ := of_decide_eq_true k
      rw [h.lane] at a b i
      rw [d] at b
      dsimp only [laneGiven] at i
      split at i
      · cases i
      · next g => exact ⟨decide_eq_true ⟨a, b, i⟩, rfl, fun n => g (.inl n)⟩
    | reclaim l =>
      obtain ⟨a, b, i⟩ := of_decide_eq_true k
      rw [h.lane] at a b i
      dsimp only [laneGiven] at i
      split at i
      · cases i
      · next g => exact ⟨decide_eq_true ⟨a, b, i⟩, rfl, fun n => g (.inr n)⟩
    | laneStatus l =>
      dsimp only [wants] at k ⊢
      rw [h.lane] at k
      dsimp only [laneGiven] at k
      split at k
      · cases k
      · next g =>
        refine ⟨k, decide_eq_false fun n => g (.inr (List.mem_append_left _ n)), fun n => g (.inl n)⟩
  refine (h.all c (List.mem_filter.mpr ⟨List.mem_append.mpr ?_, by rw [e.2.1]; rfl⟩)).resolve_left e.2.2
  by_cases n : c ∈ y.waiting
  · exact .inl (List.mem_filter.mpr ⟨n, e.1⟩)
  · exact .inr ((h.begins.2 c).2 ⟨e.1, n⟩)

/-- Who waits on the list, wants a slot still. -/
theorem GivenTo.waits_want {c : Claimant} (k : c ∈ t.waiting) : wants t c = true := by
  have wy := h.want (.inr k)
  have nc : c ∉ claims := fun n => h.once.2 c n k
  have nm : mergedInto first c = false := by
    have := (List.mem_filter.mp (h.order.subset (List.mem_append_right _ k))).2
    simpa using this
  have d : ∀ l, t.descriptor l = y.descriptor l := fun l => (h.served.lanes l).descriptor
  cases c with
  | status =>
    dsimp only [wants] at wy ⊢
    rw [h.writer, if_neg nc]; exact wy
  | fenced l r =>
    dsimp only [wants] at wy ⊢
    rw [h.lane]
    cases r <;> simpa [laneGiven, Lane.ring, nc] using wy
  | prime l =>
    obtain ⟨a, b, i⟩ := of_decide_eq_true wy
    have nr : .reclaim l ∉ claims := fun n => by
      have := (of_decide_eq_true (h.want (.inl n))).1
      rw [a] at this; simp at this
    refine decide_eq_true ?_
    rw [h.lane, d]
    exact ⟨a, b, by simpa [laneGiven, nc, nr] using i⟩
  | reclaim l =>
    obtain ⟨a, b, i⟩ := of_decide_eq_true wy
    have np : .prime l ∉ claims := fun n => by
      have := (of_decide_eq_true (h.want (.inl n))).1
      rw [this] at a; simp at a
    refine decide_eq_true ?_
    rw [h.lane]
    exact ⟨a, b, by simpa [laneGiven, nc, np] using i⟩
  | laneStatus l =>
    dsimp only [wants] at wy ⊢
    rw [h.lane]
    have ns : .snapshot l ∉ first ++ last := fun n => by
      rcases List.mem_append.mp n with n | n
      · rw [show mergedInto first (.laneStatus l) = decide (.snapshot l ∈ first) from rfl, decide_eq_true n] at nm
        cases nm
      · have f := h.full (List.ne_nil_of_mem k)
        have r := h.room.2.2 (List.ne_nil_of_mem n)
        cases hl : last with
        | nil => rw [hl] at n; cases n
        | cons c cs =>
          obtain ⟨m, rfl, _⟩ := h.follows c cs hl
          rw [hl] at n r
          have n : .snapshot l ∈ cs := by simpa using n
          have := List.length_pos_of_mem n
          simp only [List.length_cons] at r
          omega
    dsimp only [laneGiven]
    rw [if_neg (fun x => x.elim nc ns)]
    exact wy

/-- No request waits while it could be placed (R172). -/
theorem GivenTo.none (hy : y.waiting.Nodup) : NoneKeptWaiting t where
  once := by
    have : (waits y began first).Nodup := by
      refine List.Nodup.filter _ (List.nodup_append.mpr ⟨hy.filter _, h.begins.1, ?_⟩)
      intro a ha b hb e
      exact ((h.begins.2 b).1 hb).2 (e ▸ (List.mem_filter.mp ha).1)
    exact (this.sublist h.order).of_append_right
  list c := ⟨h.waits_want, h.left⟩
  claims hc := by
    have := h.full hc
    have := h.length
    omega
  calls := h.stops

end given

/-- What waits on the list before and wants no slot has no part in giving out slots (R172). -/
theorem Given.ofWaiting {y t : State} {ws : List Claimant} (e : ws.filter (wants y) = y.waiting.filter (wants y))
    (h : Given { y with waiting := ws } t) : Given y t := by
  obtain ⟨b, f, c, l, k⟩ := h
  have m (x : Claimant) (hx : wants y x = true) : x ∈ ws ↔ x ∈ y.waiting := by
    have := congrArg (x ∈ ·) e
    simpa [List.mem_filter, hx] using this
  have w : waits { y with waiting := ws } b f = waits y b f := by
    show ((ws.filter (wants y)) ++ b).filter _ = _
    rw [e]; rfl
  refine ⟨b, f, c, l, k.state, k.calls, ⟨k.begins.1, fun x => ?_⟩, w ▸ k.order, w ▸ k.all, k.once, k.room, k.full, k.stops,
    k.behind, k.ahead, k.follows⟩
  rw [k.begins.2 x]
  exact and_congr_right fun hx => not_congr (m x hx)

/-- The counter of draws has no part in it. -/
theorem Given.ofDraws {y t : State} {d : Nat} (h : Given { y with draws := d } t) : Given y t := by
  obtain ⟨b, f, c, l, k⟩ := h
  exact ⟨b, f, c, l, k.state, k.calls, k.begins, k.order, k.all, k.once, k.room, k.full, k.stops, k.behind, k.ahead, k.follows⟩

/-! ### A settled step -/

theorem Placed.ofWaiting {s x t : State} {ws : List Claimant}
    (e : ws.filter (wants (noted s x)) = x.waiting.filter (wants (noted s x))) (h : Placed s { x with waiting := ws } t) :
    Placed s x t :=
  let ⟨v, g, k⟩ := h
  ⟨v, g.ofWaiting (y := noted s x) e, k⟩

theorem Placed.ofDraws {s x t : State} {d : Nat} (h : Placed s { x with draws := d } t) : Placed s x t :=
  let ⟨v, g, k⟩ := h
  ⟨v, g.ofDraws (y := noted s x), k⟩

/-- What a settled step keeps of the state its own effect led to. -/
theorem Placed.settled {s x t : State} (h : Placed s x t) : Settled x t := by
  obtain ⟨v, ⟨_, _, _, _, g⟩, k⟩ := h
  have a : Settled x v := ⟨g.served.part, g.served.cbase, g.served.globals, g.served.divider, g.served.uports,
    g.served.delivered, g.served.passQ, g.served.lastGrant, g.served.inflight, g.served.owed, g.served.pending, g.served.engQ⟩
  rcases k with ⟨_, rfl⟩ | ⟨w, _, _, _, _, _, g⟩
  · exact a
  · exact (a.trans (settled_cleared v w)).trans ⟨g.served.part, g.served.cbase, g.served.globals, g.served.divider,
      g.served.uports, g.served.delivered, g.served.passQ, g.served.lastGrant, g.served.inflight, g.served.owed,
      g.served.pending, g.served.engQ⟩

/-- Either no clearing was made and slots were given out alone, or the clearing has emptied the part (R163). -/
theorem Placed.cases {s x t : State} (h : Placed s x t) : Served (noted s x) t ∨
    ∃ w v, Served (noted s x) v ∧ ClearingDue v w ∧ Served (noted v (cleared v w)) t := by
  obtain ⟨v, ⟨_, _, _, _, g⟩, ⟨_, rfl⟩ | ⟨w, d, _, _, _, _, k⟩⟩ := h
  · exact .inl g.served
  · exact .inr ⟨w, v, g.served, d, k.served⟩

/-- The last slots given out in a settled step. -/
theorem Placed.last {s x t : State} (h : Placed s x t) : ∃ y, Given y t ∧ (x.engQ.length ≤ 16 → y.engQ.length ≤ 16) := by
  obtain ⟨v, g, ⟨_, rfl⟩ | ⟨w, _, k⟩⟩ := h
  · exact ⟨_, g, id⟩
  · obtain ⟨_, _, _, _, g⟩ := g
    exact ⟨_, k, fun h => g.engQ_le h⟩

/-- The engine queue stays in its bound (R171, R172). -/
theorem Placed.engQ_le {s x t : State} (h : Placed s x t) (k : x.engQ.length ≤ 16) : t.engQ.length ≤ 16 := by
  obtain ⟨_, ⟨_, _, _, _, g⟩, a⟩ := h.last
  exact g.engQ_le (a k)

/-- QIRQ follows the enabled causes at the end of every settled step (R168). -/
theorem Placed.qirq {s x t : State} (h : Placed s x t) : QirqFollows t := by
  obtain ⟨_, ⟨_, _, _, _, g⟩, _⟩ := h.last
  exact g.qirq

/-- No request waits while it could be placed (R172). -/
theorem Placed.none {s x t : State} (h : Placed s x t) (hx : x.waiting.Nodup) : NoneKeptWaiting t := by
  obtain ⟨v, ⟨_, _, _, _, g⟩, ⟨_, rfl⟩ | ⟨w, _, _, _, _, _, k⟩⟩ := h
  · exact g.none hx
  · exact k.none (g.none hx).once

end Sys2Proof.Machine
end

