-- ==== Sys2Proof/Laws/Answer.lean ====
section
/-! SUPPORT. One lemma for each shared operation of an arrival: answers, fault reports, admission; and the arrival. -/

namespace Sys2Proof.Machine

/-! ### Answers (R109) -/

theorem join_uport_self (s : State) (t : Txn) (b : Standby) :
    (s.join t b).uport t.requester =
      { (s.uport t.requester) with
          list := (s.uport t.requester).list ++ [{ readLength := t.readLength, standby := b }] } := by
  unfold State.join
  exact uport_setUport_self ..

theorem join_uport_of_ne {s : State} {t : Txn} {b : Standby} {r : Requester} (h : r ≠ t.requester) :
    (s.join t b).uport r = s.uport r := by
  unfold State.join
  exact uport_setUport_of_ne h

@[simp] theorem join_lane (s : State) (t : Txn) (b : Standby) (l : LaneId) : (s.join t b).lane l = s.lane l := rfl
@[simp] theorem join_record (s : State) (t : Txn) (b : Standby) (n : RecordId) : (s.join t b).record n = s.record n := rfl
@[simp] theorem join_descriptor (s : State) (t : Txn) (b : Standby) (l : LaneId) :
    (s.join t b).descriptor l = s.descriptor l := rfl
@[simp] theorem join_frame (s : State) (t : Txn) (b : Standby) (l : LaneId) (i : Nat) :
    (s.join t b).frame l i = s.frame l i := rfl

theorem decideResponse_uport_self (s : State) (r : Requester) (a : Await) (mk : Nat → Response) :
    (s.decideResponse r a mk).uport r = { (s.uport r) with list := decideFirst a mk (s.uport r).list } := by
  unfold State.decideResponse
  exact uport_setUport_self ..

theorem decideResponse_uport_of_ne {s : State} {r q : Requester} {a : Await} {mk : Nat → Response} (h : q ≠ r) :
    (s.decideResponse r a mk).uport q = s.uport q := by
  unfold State.decideResponse
  exact uport_setUport_of_ne h

@[simp] theorem decideResponse_lane (s : State) (r : Requester) (a : Await) (mk : Nat → Response) (l : LaneId) :
    (s.decideResponse r a mk).lane l = s.lane l := rfl
@[simp] theorem decideResponse_record (s : State) (r : Requester) (a : Await) (mk : Nat → Response) (n : RecordId) :
    (s.decideResponse r a mk).record n = s.record n := rfl

@[simp] theorem decideFirst_length (a : Await) (mk : Nat → Response) (us : List Unanswered) :
    (decideFirst a mk us).length = us.length := by
  induction us with
  | nil => rfl
  | cons u us ih =>
    unfold decideFirst
    split
    · rfl
    · simp [ih]

/-! ### Fault reports (R143, R145, R146) -/

/-- The lane side of a report. -/
theorem report_lane (s : State) (f : Report) (l : LaneId) :
    (s.report f).lane l = if f.lane = some l then (s.lane l).takeFault f.kind else s.lane l := by
  unfold State.report
  cases e : f.lane with
  | none => simp; rfl
  | some m =>
    simp only [lane_updLane, Option.some.injEq]
    by_cases h : l = m
    · subst h; simp; rfl
    · simp [h, Ne.symm h]; rfl

theorem report_trap (s : State) (f : Report) : (s.report f).trap = s.trap.take f := by
  unfold State.report; split <;> rfl
theorem report_trapPending (s : State) (f : Report) :
    (s.report f).trapPending = (s.trapPending || s.trap.stored.isNone) := by
  unfold State.report; split <;> rfl

theorem StillHeld.trans {f : Report} {s t u : State} (h : StillHeld f s t) (k : StillHeld f t u) : StillHeld f s u :=
  ⟨k.stored, h.rises.trans k.rises, k.bound⟩

/-- What leaves the trap alone keeps its report. -/
theorem stillHeld_of_eq {f : Report} {s t : State} (h : s.trap.stored = some f) (b : s.trap.overflow ≤ 255)
    (e : t.trap = s.trap) : StillHeld f s t :=
  ⟨by rw [e]; exact h, by rw [e], by rw [e]; exact b⟩

/-- A report to an occupied trap keeps the report it holds (R143). -/
theorem report_stillHeld {f : Report} {s : State} (r : Report) (h : s.trap.stored = some f) (b : s.trap.overflow ≤ 255) :
    StillHeld f s (s.report r) := by
  have e : (s.report r).trap = { stored := some f, overflow := min (s.trap.overflow + 1) 255 } := by
    rw [report_trap]; unfold Trap.take; rw [h]
  refine ⟨by rw [e], ?_, ?_⟩ <;> rw [e] <;> dsimp only <;> omega

/-- What a report leaves alone. -/
structure ReportFrame (s t : State) : Prop where
  part : t.part = s.part
  cbase : t.cbase = s.cbase
  globals : t.globals = s.globals
  memoryPending : t.memoryPending = s.memoryPending
  cmd : t.cmd = s.cmd
  cuCalls : t.cuCalls = s.cuCalls
  writer : t.writer = s.writer
  frames : t.frames = s.frames
  divider : t.divider = s.divider
  uports : t.uports = s.uports
  delivered : t.delivered = s.delivered
  passQ : t.passQ = s.passQ
  engQ : t.engQ = s.engQ
  waiting : t.waiting = s.waiting
  lastGrant : t.lastGrant = s.lastGrant
  inflight : t.inflight = s.inflight
  owed : t.owed = s.owed
  draws : t.draws = s.draws
  pending : t.pending = s.pending

theorem report_frame (s : State) (f : Report) : ReportFrame s (s.report f) := by
  unfold State.report; split <;> exact ⟨rfl, rfl, rfl, rfl, rfl, rfl, rfl, rfl, rfl, rfl, rfl, rfl, rfl, rfl, rfl, rfl, rfl, rfl, rfl⟩

/-! ### The answers of an arrival, in the statements' words -/

/-- What a report does to the lane it names (R145, R146). -/
theorem takeFault_eq (ln : Lane) (k : FaultKind) (h : k.requesterCaused = true) : ln.takeFault k = faulted k ln := by
  have e : ln.policyHalts k = true ↔ (ln.state = .opened ∨ ln.state = .paused ∨ ln.state = .step ∨ ln.state = .closing)
      ∧ k.code ≤ 10 ∧ ln.descriptor.haltSet.getLsbD k.code = true := by
    have b : ln.descriptor.haltSet.getLsbD k.code = true → k.code ≤ 10 := fun x => by
      have := BitVec.lt_of_getLsbD x; omega
    have c : ln.state.counting = true ↔
        (ln.state = .opened ∨ ln.state = .paused ∨ ln.state = .step ∨ ln.state = .closing) := by
      cases ln.state <;> simp [LaneState.counting]
    unfold Lane.policyHalts inHaltSet
    simp only [Bool.and_eq_true, h, c, and_true]
    exact ⟨fun x => ⟨x.1, b x.2, x.2⟩, fun x => ⟨x.1, x.2.2⟩⟩
  have d : (if ln.state = .off then ln else ln.countFault) = counted ln := rfl
  unfold Lane.takeFault faulted
  simp only [d, e]
  split
  · next x =>
    have o : ln.state ≠ .off := by rintro y; rw [y] at x; simp at x
    simp only [counted, if_neg o]
    rfl
  · rfl

/-- A refusal at arrival (R141). -/
theorem refuse_eq (s : State) (k : FaultKind) (l : Option LaneId) (t : Txn) (h : k.requesterCaused = true) :
    s.refuse k l t = refused k l t s := by
  cases l with
  | none => rfl
  | some l =>
    unfold refused
    dsimp only
    rw [← takeFault_eq _ _ h]
    rfl

/-- A pass-through admission (R108). -/
theorem enterPass_eq (s : State) (e : PassEntry) (t : Txn) : s.enterPass e t = admitted t e s := by
  unfold State.enterPass State.await admitted
  cases hb : t.body with
  | read n =>
    dsimp only
    unfold State.join
    simp [Txn.dir, hb, State.setUport]
    rfl
  | write ws =>
    dsimp only
    rw [join_uport_self]
    unfold State.join
    simp [Txn.dir, hb, State.setUport]
    rfl

/-! ### The arrival (R101, R109) -/

/-- A transaction that the U-port takes is met, and what waits is served. -/
theorem arrival_next {s : State} {t : Txn} (h : Listens s t.requester) (hw : t.wf = true) :
    s.arrival t = .next (s.settle (s.meet t)) := by
  have e : s.takes t.requester = true := by
    simp [State.takes, h.up, Config.responseDepth, h.room]
  unfold State.arrival State.arrive
  rw [if_pos hw, e]
  rfl

/-- An arrival ends as `Placed` says, from the state its transaction met. -/
theorem arrival_of {s x : State} {t : Txn} (h : Listens s t.requester) (hw : t.wf = true) (e : s.meet t = x) :
    ∃ u, s.arrival t = .next u ∧ Placed s x u :=
  ⟨_, arrival_next h hw, e ▸ settle_placed s (s.meet t)⟩

end Sys2Proof.Machine
end

