-- ==== Sys2Proof/Laws/Arrival.lean ====
section
/-! SUPPORT. What the Window Map and the guard decide, in the statements' words; renewal; the arrivals. -/

namespace Sys2Proof.Machine

theorem arrives_exec {c : Instr} {t : Txn} (h : Arrives c t) (s : State) : exec c s = s.arrival t := by
  have w : t.dir = .write → s.writeArrival t = s.arrival t := fun e => by
    unfold State.writeArrival Txn.isWrite; rw [e]; rfl
  rcases h with rfl | rfl | rfl | rfl | ⟨e, rfl | rfl⟩ | ⟨r, base, ⟨rfl, rfl⟩ | ⟨rfl, rfl⟩ | ⟨rfl, rfl⟩ | ⟨rfl, rfl⟩ |
    ⟨x, ⟨rfl, rfl⟩ | ⟨rfl, rfl⟩ | ⟨rfl, rfl⟩⟩⟩ <;> first | rfl | exact w e

theorem meet_class {s : State} (h : Classifies s) (t : Txn) : s.meet t = s.serveClass t (s.classify t) := by
  unfold State.meet
  rcases h with h | h <;> rw [h]

/-! ### The regions in force -/

/-- The regions of the Window Map are those in force (R100, R101). -/
theorem regions_iff (s : State) (g : Region) : g ∈ s.regions ↔ InForce s g := by
  unfold State.regions InForce Classifies
  have c : ({ kind := .control, range := s.controlRegion } : Region) =
    { kind := .control, range := span (s.cbase.toNat * 65536) 4096 } := rfl
  have k : (g ∈ allLanes.flatMap s.regionsOf) ↔ ∃ l d, (s.lane l).state ≠ .off ∧ (s.lane l).desc = some d ∧ g ∈ regionsFor l d := by
    rw [List.mem_flatMap]
    constructor
    · rintro ⟨l, -, h⟩
      unfold State.regionsOf at h
      split at h
      · cases h
      · next ho =>
        cases hd : (s.lane l).desc with
        | none => rw [hd] at h; cases h
        | some d => rw [hd] at h; exact ⟨l, d, ho, hd, h⟩
    · rintro ⟨l, d, ho, hd, h⟩
      exact ⟨l, mem_allLanes l, by unfold State.regionsOf; rw [if_neg ho, hd]; exact h⟩
  cases hp : s.part <;> simp only [List.not_mem_nil, List.mem_cons, or_false, c, k, reduceCtorEq, or_self,
    false_and, true_and, or_true]

theorem holds_iff (g : Region) (n : Nat) : g.range.holds n = true ↔ Lies n g := by
  unfold Range.holds Lies; simp

/-- The region an address lies in, where there is one. -/
theorem regionAt_some {s : State} {n : Nat} {g : Region} (h : s.regionAt n = some g) : InForce s g ∧ Lies n g :=
  ⟨(regions_iff s g).1 (List.mem_of_find?_eq_some h), (holds_iff g n).1 (by simpa using List.find?_some h)⟩

theorem regionAt_none {s : State} {n : Nat} (h : s.regionAt n = none) (g : Region) (hg : InForce s g) : ¬ Lies n g :=
  fun x => List.find?_eq_none.mp h g ((regions_iff s g).2 hg) ((holds_iff g n).2 x)

/-! ### The outcomes of an arrival -/

theorem answer_arrival {s : State} {t : Txn} {resp : Response} (hl : Listens s t.requester) (hw : t.wf = true)
    (e : s.meet t = s.answer t resp) : ∃ u, s.arrival t = .next u ∧ Answered t resp s u :=
  arrival_of hl hw e

theorem retry_arrival {s : State} {t : Txn} (hl : Listens s t.requester) (hw : t.wf = true)
    (e : s.meet t = s.answer t .retry) : ∃ u, s.arrival t = .next u ∧ Retried t s u := answer_arrival hl hw e

theorem refuse_arrival {s : State} {t : Txn} {f : FaultKind} {l : Option LaneId} (hl : Listens s t.requester)
    (hw : t.wf = true) (hf : f.requesterCaused = true) (e : s.meet t = s.refuse f l t) :
    ∃ u, s.arrival t = .next u ∧ Refused f l t s u :=
  arrival_of hl hw (e.trans (refuse_eq s f l t hf))

theorem admit_arrival {s : State} {t : Txn} {e : PassEntry} (hl : Listens s t.requester) (hw : t.wf = true)
    (h : s.meet t = s.enterPass e t) : ∃ u, s.arrival t = .next u ∧ Admitted t e s u :=
  arrival_of hl hw (h.trans (enterPass_eq s e t))

theorem pass_free {s : State} (h : s.passQ.length < 32) : s.passFree = true := decide_eq_true h

theorem pass_full {s : State} (h : 32 ≤ s.passQ.length) : s.passFree = false := decide_eq_false (by unfold Config.passDepth; omega)

/-- Pass-through admission of a transaction as it arrived: admitted, or answered RETRY while the queue is full (R108). -/
theorem passOn_arrival {s : State} {t : Txn} {l : Option LaneId} (hl : Listens s t.requester) (hw : t.wf = true)
    (e : s.meet t = s.passOn l t) :
    (s.passQ.length < 32 →
      ∃ u, s.arrival t = .next u ∧ Admitted t { txn := t, lane := l, cmd := false } s u) ∧
    (32 ≤ s.passQ.length → ∃ u, s.arrival t = .next u ∧ Retried t s u) := by
  unfold State.passOn at e
  exact ⟨fun h => admit_arrival hl hw (by rw [e, if_pos (pass_free h)]),
    fun h => retry_arrival hl hw (by rw [e, pass_full h]; rfl)⟩

theorem touches_iff (s : State) (t : Txn) (a b : Nat) : s.touches t a b = true ↔ Touches s t a b := by
  unfold State.touches Touches State.controlOffset State.controlLast
  rw [Bool.and_eq_true, decide_eq_true_iff, decide_eq_true_iff]

theorem owned_iff (s : State) (t : Txn) : s.touchesOwned t = true ↔ TouchesOwned s t := by
  simp [State.touchesOwned, TouchesOwned, touches_iff]

theorem cmd_iff (s : State) (t : Txn) : s.touchesCmd t = true ↔ Touches s t 0x040 0x043 := touches_iff ..

theorem fullWord_dir {t : Txn} {w : Word} (h : t.fullWord = some w) : t.dir = .write := by
  unfold Txn.fullWord at h; unfold Txn.dir
  cases e : t.body with
  | read n => rw [e] at h; simp at h
  | write ws => rfl

theorem guard_iff (s : State) (l : LaneId) (t : Txn) : s.guardPasses l t = true ↔ GuardAllows s l t := by
  unfold State.guardPasses GuardAllows State.holds
  dsimp only
  cases hs : (s.lane l).state <;> cases hg : (s.descriptor l).guard <;> cases hd : t.dir <;>
    simp [LaneState.guards]

theorem renews_iff (s : State) (l : LaneId) : s.renews l = true ↔ Renewing s l := by
  unfold State.renews Renewing
  cases (s.lane l).state <;> simp [LaneState.guards]

theorem holder_withLease (st : Standing) (n : Nat) : (st.withLease n).holder = st.holder := by
  rcases st with _ | _ | ⟨r, _ | _⟩ | _ | ⟨r, _ | _⟩ | _ <;> rfl

theorem withLease_withLease (st : Standing) (n : Nat) : (st.withLease n).withLease n = st.withLease n := by
  rcases st with _ | _ | ⟨r, _ | _⟩ | _ | ⟨r, _ | _⟩ | _ <;> rfl

theorem renewFrame_lanes (s : State) (l : LaneId) (r : Requester) (i : Nat) : (s.renewFrame l r i).lanes = s.lanes := by
  unfold State.renewFrame; dsimp only; split <;> rfl

/-- A record after a renewal that touches it where `hit` holds (R121). -/
def renewedRecord (r : Requester) (ticks : Nat) (hit : Prop) [Decidable hit] (a : FrameRec) : FrameRec :=
  if hit ∧ a.standing.holder = some r then { a with standing := a.standing.withLease ticks } else a

theorem renewFrame_record (s : State) (l : LaneId) (r : Requester) (i : Nat) (n : RecordId) :
    (s.renewFrame l r i).record n = renewedRecord r (s.descriptor l).leaseTicks (n = (s.descriptor l).recordOf i) (s.record n) := by
  unfold State.renewFrame State.holds State.frame renewedRecord
  dsimp only
  by_cases h : (s.record ((s.descriptor l).recordOf i)).standing.holder = some r
  · simp only [h, decide_true, if_true, record_setRecord]
    by_cases e : n = (s.descriptor l).recordOf i
    · subst e; simp [h]
    · simp [e]
  · simp only [h, decide_false]
    by_cases e : n = (s.descriptor l).recordOf i
    · subst e; simp [h]
    · simp [e]

theorem renewFrames (l : LaneId) (r : Requester) (is : List Nat) (s : State) :
    let u := is.foldl (fun s i => s.renewFrame l r i) s
    u.lanes = s.lanes ∧ ∀ n, u.record n =
      renewedRecord r (s.descriptor l).leaseTicks (n ∈ is.map (s.descriptor l).recordOf) (s.record n) := by
  induction is generalizing s with
  | nil => exact ⟨rfl, fun n => by simp [renewedRecord]⟩
  | cons i is ih =>
    obtain ⟨a, b⟩ := ih (s.renewFrame l r i)
    have hd : (s.renewFrame l r i).descriptor l = s.descriptor l := by
      unfold State.descriptor State.lane; rw [renewFrame_lanes]
    refine ⟨a.trans (renewFrame_lanes ..), fun n => ?_⟩
    rw [List.foldl_cons, b n, hd, renewFrame_record]
    unfold renewedRecord
    by_cases h1 : n = (s.descriptor l).recordOf i <;> by_cases h2 : n ∈ is.map (s.descriptor l).recordOf <;>
      by_cases h3 : (s.record n).standing.holder = some r <;> simp_all [holder_withLease, withLease_withLease]

theorem renewFrame_frames (s : State) (l : LaneId) (r : Requester) (i : Nat) :
    s.renewFrame l r i = { s with frames := (s.renewFrame l r i).frames } := by
  unfold State.renewFrame; dsimp only; split <;> rfl

theorem renewFrames_frames (l : LaneId) (r : Requester) (is : List Nat) (s : State) :
    is.foldl (fun s i => s.renewFrame l r i) s = { s with frames := (is.foldl (fun s i => s.renewFrame l r i) s).frames } := by
  induction is generalizing s with
  | nil => rfl
  | cons i is ih =>
    rw [List.foldl_cons, ih, renewFrame_frames]

/-- Renewal of the listed records, in a lane where it applies. -/
theorem renewed_of {s : State} {l : LaneId} {r : Requester} {ns : List RecordId} {f : Vector FrameRec 4096}
    (key : ∀ n, f[n] = renewedRecord r (s.descriptor l).leaseTicks (n ∈ ns) (s.record n)) (h : Renewing s l) :
    Renewed s l r ns f := by
  refine ⟨fun n hn _ hh => ?_, fun n hn => ?_⟩
  · rw [key]; unfold renewedRecord; rw [if_pos ⟨hn, hh⟩]
  · rw [key]; unfold renewedRecord; rw [if_neg]
    rintro ⟨a, b⟩
    rcases hn with x | x | x
    · exact x a
    · exact x h
    · exact x b

theorem renewed_none {s : State} {l : LaneId} {r : Requester} {ns : List RecordId} (h : ¬ Renewing s l) :
    Renewed s l r ns s.frames := ⟨fun _ _ k => absurd k h, fun _ _ => rfl⟩

/-- A direct access after its admission (R121). -/
theorem renewTouched_admitted (s : State) (t x : Txn) (e : PassEntry) (l : LaneId) :
    ∃ frames, (admitted t e s).renewTouched l x = { admitted t e s with frames := frames } ∧
      Renewed s l x.requester (((s.descriptor l).framesTouched x).map (s.descriptor l).recordOf) frames := by
  have rn : (admitted t e s).renews l = true ↔ Renewing s l := renews_iff s l
  unfold State.renewTouched
  by_cases hr : Renewing s l
  · rw [if_pos (rn.2 hr)]
    exact ⟨_, renewFrames_frames .., renewed_of (renewFrames l x.requester _ (admitted t e s)).2 hr⟩
  · rw [if_neg (fun x => hr (rn.1 x))]
    exact ⟨_, rfl, renewed_none hr⟩

/-- An aperture access after its admission (R121). -/
theorem renewBound_admitted (s : State) (t : Txn) (e : PassEntry) (l : LaneId) (r : Requester) (n : RecordId)
    (hn : (s.descriptor l).firstRecord ≤ n.val) :
    ∃ frames, (admitted t e s).renewBound l r n = { admitted t e s with frames := frames } ∧
      Renewed s l r [n] frames := by
  have rn : (admitted t e s).renews l = true ↔ Renewing s l := renews_iff s l
  have ix : (s.descriptor l).recordOf ((s.descriptor l).indexOf n) = n := by
    unfold Descriptor.recordOf Descriptor.indexOf
    apply Fin.ext
    simp only [Fin.ofNat]
    have := n.isLt
    rw [Nat.add_sub_cancel' hn, Nat.mod_eq_of_lt this]
  unfold State.renewBound
  by_cases hr : Renewing s l
  · rw [if_pos (rn.2 hr)]
    refine ⟨_, renewFrame_frames .., renewed_of (fun q => ?_) hr⟩
    refine (renewFrame_record (admitted t e s) l r _ q).trans ?_
    have e3 : (admitted t e s).descriptor l = s.descriptor l := rfl
    have er : (admitted t e s).record q = s.record q := rfl
    rw [e3, ix, er]
    unfold renewedRecord
    simp only [List.mem_singleton]
  · rw [if_neg (fun x => hr (rn.1 x))]
    exact ⟨_, rfl, renewed_none hr⟩

theorem portOp_none {offset : Nat} {t : Txn}
    (h : t.length ≠ 1 ∨ 0x101C ≤ offset ∨ (t.dir = .read ∧ offset ∈ [0x1004, 0x1008, 0x100C])
      ∨ (t.dir = .write ∧ (t.fullWord = none ∨ offset ∈ [0x1000, 0x1010, 0x1014, 0x1018]))) : portOpOf offset t = none := by
  unfold portOpOf
  cases hb : t.body with
  | read n =>
    simp only [Txn.length, Txn.dir, hb, List.mem_cons, List.not_mem_nil, or_false, reduceCtorEq, false_and] at h
    simp only [portReadAt]
    split
    · repeat' split
      all_goals first | rfl | omega
    · rfl
  | write ws =>
    simp only
    cases hf : t.fullWord with
    | none => rfl
    | some w =>
      have hl : t.length = 1 := by
        simp only [Txn.fullWord, hb] at hf
        match ws, hf with
        | [x], _ => simp [Txn.length, hb]
      simp only [hl, hf, Txn.dir, hb, List.mem_cons, List.not_mem_nil, or_false, reduceCtorEq, false_and, ne_eq, not_true, false_or, true_and] at h
      simp only [Option.bind_some, portWriteAt]
      repeat' split
      all_goals first | rfl | omega

theorem meet_port {s : State} {l : LaneId} {offset : Nat} {t : Txn} (h : AtPort s l offset t) :
    s.meet t = s.servePortWord l offset t := by
  rw [meet_class (.inl h.part), h.word]; rfl

end Sys2Proof.Machine
end

