-- ==== Sys2Proof/Laws/Off.lean ====
section
/-! SUPPORT. The arrival of a lane at OFF (R93, R96, R97), said once: `OffTested`. -/

namespace Sys2Proof.Machine

/-! ### Every record of a slice changed -/

theorem mapFrames_rest (s : State) (d : Descriptor) (f : FrameRec → FrameRec) (is : List Nat) :
    s.mapFrames d f is = { s with frames := (s.mapFrames d f is).frames } := by
  unfold State.mapFrames
  induction is generalizing s with
  | nil => rfl
  | cons i is ih => rw [List.foldl_cons, ih]; rfl

theorem mapFrames_lanes (s : State) (d : Descriptor) (f : FrameRec → FrameRec) (is : List Nat) :
    (s.mapFrames d f is).lanes = s.lanes := by rw [mapFrames_rest]

/-- A change that does nothing the second time reaches each record named once. -/
theorem mapFrames_record {f : FrameRec → FrameRec} (hf : ∀ r, f (f r) = f r) (d : Descriptor) (is : List Nat) (s : State)
    (n : RecordId) :
    (s.mapFrames d f is).record n = if n ∈ is.map d.recordOf then f (s.record n) else s.record n := by
  unfold State.mapFrames
  induction is generalizing s with
  | nil => simp
  | cons i is ih =>
    rw [List.foldl_cons, ih, record_setRecord]
    by_cases a : n = d.recordOf i <;> by_cases b : n ∈ is.map d.recordOf <;> simp_all

theorem drain_drain (r : FrameRec) : r.drain.drain = r.drain := by
  unfold FrameRec.drain; split <;> simp_all

theorem tearDown_tearDown (r : FrameRec) : r.tearDown.tearDown = r.tearDown := by
  unfold FrameRec.tearDown; split <;> simp_all

theorem tearDown_eq (r : FrameRec) : r.tearDown = tornRecord r := by
  unfold FrameRec.tearDown tornRecord
  split
  · next h => cases r; simp_all
  · simp_all

/-- The records of a slice after a change that does nothing the second time. -/
theorem mapFrames_offFrom {s : State} {l : LaneId} {f g : FrameRec → FrameRec} (hf : ∀ r, f (f r) = f r)
    (hg : ∀ i < (s.descriptor l).frameCount, f (s.frame l i) = g (s.frame l i)) :
    OffFrom l g s ((s.mapFrames (s.descriptor l) f (s.descriptor l).frameIndices).updLane l Lane.toOff) where
  rest := by rw [mapFrames_rest]; rfl
  lane := by
    rw [lane_updLane_self]
    unfold State.lane; rw [mapFrames_lanes]; rfl
  others m hm := by
    rw [lane_updLane_of_ne hm]
    unfold State.lane; rw [mapFrames_lanes]
  slice i hi := by
    rw [record_updLane, mapFrames_record hf, if_pos]
    · exact hg i hi
    · exact List.mem_map_of_mem (List.mem_range.mpr hi)
  records n hn := by
    rw [record_updLane, mapFrames_record hf, if_neg]
    intro h
    obtain ⟨i, hi, e⟩ := List.mem_map.mp h
    exact hn i (List.mem_range.mp hi) e

/-! ### The two conditions -/

theorem drained_iff (s : State) (l : LaneId) : s.drained l = true ↔ Drains s l := by
  unfold State.drained Descriptor.frameIndices
  simp only [Bool.and_eq_true, decide_eq_true_eq, List.isEmpty_iff, List.all_eq_true, List.mem_range,
    Bool.not_eq_true']
  constructor
  · rintro ⟨⟨⟨⟨a, b⟩, c⟩, d⟩, e⟩
    refine ⟨a, b, c, d, fun i hi => ?_⟩
    have := e i hi
    cases h : (s.frame l i).standing <;> simp_all [Standing.out]
  · rintro ⟨a, b, c, d, e⟩
    refine ⟨⟨⟨⟨a, b⟩, c⟩, d⟩, fun i hi => ?_⟩
    rcases e i hi with h | h <;> rw [h] <;> rfl

theorem flushed_iff (s : State) (l : LaneId) : s.flushed l = true ↔ TornDown s l := by
  unfold State.flushed
  simp only [Bool.and_eq_true, decide_eq_true_eq, List.all_eq_true, Bool.not_eq_true', Option.isNone_iff_eq_none]
  constructor
  · rintro ⟨⟨⟨⟨⟨⟨a, b⟩, c⟩, d⟩, e⟩, f⟩, g⟩
    exact ⟨a, b, c, fun k => by cases k; exacts [d, e], f, g⟩
  · rintro ⟨a, b, c, d, f, g⟩
    exact ⟨⟨⟨⟨⟨⟨a, b⟩, c⟩, d .free⟩, d .work⟩, f⟩, g⟩

theorem drainOff_offFrom {s : State} {l : LaneId} (h : Drains s l) : OffFrom l closedRecord s (s.drainOff l) := by
  refine mapFrames_offFrom drain_drain fun i hi => ?_
  unfold FrameRec.drain closedRecord
  rcases h.frames i hi with e | e <;> rw [e] <;> simp
  rw [← e]

theorem teardown_offFrom (s : State) (l : LaneId) : OffFrom l tornRecord s (s.teardown l) :=
  mapFrames_offFrom tearDown_tearDown fun _ _ => tearDown_eq _

/-- A step whose event may bring lane `l` to OFF, settled. -/
theorem settle_offTested (s0 : State) (x : State) (l : LaneId) :
    OffTested l s0 x (s0.settle (x.arriveOff l)) := by
  refine ⟨fun a b => ?_, fun a => ⟨x.drainOff l, drainOff_offFrom a, ?_⟩, fun a => ⟨x.teardown l, teardown_offFrom x l, ?_⟩⟩
  · have : x.arriveOff l = x := by
      unfold State.arriveOff
      rw [if_neg (fun e => a ((drained_iff x l).1 e)), if_neg (fun e => b ((flushed_iff x l).1 e))]
    rw [this]
    exact settle_placed s0 x
  · have : x.arriveOff l = x.drainOff l := by
      unfold State.arriveOff
      rw [if_pos ((drained_iff x l).2 a)]
    rw [this]
    exact settle_placed s0 _
  · have : x.arriveOff l = x.teardown l := by
      unfold State.arriveOff
      rw [if_neg, if_pos ((flushed_iff x l).2 a)]
      intro e
      have := ((drained_iff x l).1 e).state
      rw [a.state] at this
      cases this
    rw [this]
    exact settle_placed s0 _

end Sys2Proof.Machine
end

