-- ==== Sys2Proof/Laws/Completion.lean ====
section
/-! SUPPORT. The ends of D-port accesses (chapters 2, 3, 8 and 10) in the statements' words. -/

namespace Sys2Proof.Machine

theorem NextEnds.completing {s : State} {q : EngineReq} {ws : List Word} {rest : List InFlight} (h : NextEnds s q ws rest) :
    s.completing = some q ∧ s.popOldest = { s with inflight := rest } ∧ s.oldestWords = ws := by
  obtain ⟨timer, e⟩ := h.oldest
  have o : s.oldest = some { access := .engine q, words := ws, timer := timer, late := false } := by
    unfold State.oldest; rw [h.owed, e]; rfl
  refine ⟨?_, ?_, ?_⟩
  · unfold State.completing; rw [o]; rfl
  · unfold State.popOldest; rw [e]; rfl
  · unfold State.oldestWords; rw [o]; rfl

theorem decides_eq {a : Await} {mk : Nat → Response} {xs ys : List Unanswered} (h : Decides a mk xs ys) :
    decideFirst a mk xs = ys := by
  rcases h with ⟨ps, u, qs, rfl, hp, hu, rfl⟩ | ⟨hn, rfl⟩
  · induction ps with
    | nil => simp [decideFirst, hu]
    | cons p ps ih =>
      have hp0 := hp p (List.mem_cons_self ..)
      rw [List.cons_append, List.cons_append, decideFirst, if_neg hp0, ih (fun v hv => hp v (List.mem_cons_of_mem _ hv))]
  · induction ys with
    | nil => rfl
    | cons p ps ih =>
      rw [decideFirst, if_neg (hn p (List.mem_cons_self ..)), ih (fun v hv => hn v (List.mem_cons_of_mem _ hv))]

theorem Decides.response {s : State} {r : Requester} {a : Await} {mk : Nat → Response} {list : List Unanswered}
    (h : Decides a mk (s.uport r).list list) :
    s.decideResponse r a mk = s.setUport r { s.uport r with list := list } := by
  unfold State.decideResponse; dsimp only; rw [decides_eq h]

/-- A step whose event ends in a test for OFF. -/
theorem offTested_of {s x : State} {c : Instr} {l : LaneId} (h : exec c s = .next (s.settle (x.arriveOff l))) :
    ∃ u, exec c s = .next u ∧ OffTested l s x u := ⟨_, h, settle_offTested s x l⟩

theorem slotCheck_iff (s : State) (l : LaneId) (k : RingKind) (w : Word) : s.slotCheck l k w = true ↔ SlotOk s l k w := by
  unfold State.slotCheck
  have kd : slotKindOk k (Entry.ofWord w).kind = true ↔ ((Entry.ofWord w).kind = .posted ↔ k = .work) := by
    cases k <;> cases (Entry.ofWord w).kind <;> simp [slotKindOk]
  have st : k.standing = if k = .work then .queued else .free := by cases k <;> rfl
  simp only [Bool.and_eq_true, decide_eq_true_eq, Bool.not_eq_true', kd, st]
  constructor
  · rintro ⟨⟨⟨⟨⟨a, b⟩, c⟩, d⟩, e⟩, f⟩
    exact ⟨a, b, c, d, e, f⟩
  · rintro ⟨a, b, c, d, e, f⟩
    exact ⟨⟨⟨⟨⟨a, b⟩, c⟩, d⟩, e⟩, f⟩

theorem releaseRing_eq (s : State) (l : LaneId) (k : RingKind) :
    s.releaseRing l k = s.setLane l ((s.lane l).setRing k { (s.lane l).ring k with access := .idle, fenced := none }) := rfl

theorem exec_read {s : State} {l : LaneId} {read : ReadOp} {r : Requester} {addr : Addr} {words : List Word}
    {rest : List InFlight} (h : NextEnds s (.ringRead l read r addr) words rest) (resp : DResp Word) :
    exec (readCommand read resp) s = .next (s.settle (({ s with inflight := rest } : State).endRead l read r addr resp)) := by
  obtain ⟨a, b, -⟩ := h.completing
  cases read <;> simp only [readCommand, exec, execAcquireCommit, execTakeCommit, execPeekCompletion, a, b]

theorem not_limit {s : State} {l : LaneId} {r : Requester} (h : (s.lane l).checkedOut r < (s.descriptor l).limit) (rest : List InFlight) :
    ({ s with inflight := rest } : State).atLimit l r = false := decide_eq_false (Nat.not_le.mpr h)

theorem acquire_lane (ln : Lane) (r : Requester) (n : RecordId) (mark : Nat) (geom : RingGeom) (hg : ln.freeRing.geom = some geom) :
    ({ (((ln.bindProducer r n).checkOut r).countAcquire).raiseIf
          (decide (mark ≤ ln.freeRing.count) && decide (ln.freeRing.count - 1 < mark)) .freeLow with
        freeRing := ln.freeRing.remove.release } : Lane) =
      { ln with
              causes := if mark ≤ ln.freeRing.count ∧ ln.freeRing.count - 1 < mark then ln.causes ||| 0b000010#6 else ln.causes
              stats := { ln.stats with acquires := oneMore ln.stats.acquires }
              checkout := ln.checkout.set r (ln.checkedOut r + 1)
              prodBind := ln.prodBind.set r (some n)
              freeRing := { ln.freeRing with head := (ln.freeRing.head + 1) % geom.size, count := ln.freeRing.count - 1, access := .idle, fenced := none } } := by
  have hsz : ln.freeRing.size = geom.size := by unfold Ring.size; rw [hg]; rfl
  have hr : ln.freeRing.remove.release = { ln.freeRing with head := (ln.freeRing.head + 1) % geom.size, count := ln.freeRing.count - 1, access := .idle, fenced := none } := by unfold Ring.remove Ring.release; rw [hsz]
  rw [hr]
  unfold Lane.raiseIf
  by_cases a : mark ≤ ln.freeRing.count <;> by_cases b : ln.freeRing.count - 1 < mark <;>
    simp [a, b, Lane.raise, Lane.countAcquire, Lane.checkOut, Lane.bindProducer, Lane.checkedOut, bump, oneMore, LaneCause.mask]

theorem take_lane (ln : Lane) (r : Requester) (n : RecordId) (geom : RingGeom) (hg : ln.workRing.geom = some geom) :
    ({ ((ln.bindConsumer r n).checkOut r).countTake with workRing := ln.workRing.remove.release } : Lane) =
      { ln with
          stats := { ln.stats with takes := oneMore ln.stats.takes }
          checkout := ln.checkout.set r (ln.checkedOut r + 1)
          consBind := ln.consBind.set r (some n)
          workRing := { ln.workRing with head := (ln.workRing.head + 1) % geom.size, count := ln.workRing.count - 1,
                                         access := .idle, fenced := none } } := by
  have hsz : ln.workRing.size = geom.size := by unfold Ring.size; rw [hg]; rfl
  unfold Ring.remove Ring.release
  rw [hsz]
  rfl

theorem takeFault_part {ln : Lane} {k : FaultKind} (h : k.requesterCaused = false) :
    ln.takeFault k = counted ln := by
  unfold Lane.takeFault Lane.policyHalts
  rw [h]
  simp [counted, Lane.countFault, bump, oneMore]

/-- The lane side of a ring fault: counted, then halted. -/
theorem ringFault_eq {ln : Lane} {k : FaultKind} (h : k.requesterCaused = false) (reason : HaltReason) :
    (ln.takeFault k).ringFault reason = ringFaulted reason ln := by
  rw [takeFault_part h]
  unfold ringFaulted counted Lane.ringFault
  cases hs : ln.state <;> cases hr : ln.haltReason <;> simp [hs, Lane.halt, Lane.raise, LaneCause.mask]

theorem exec_fails {s : State} {c : Instr} {q : EngineReq} {words : List Word} {after : List InFlight}
    (h : FailsWith s c q words after) :
    exec c s = .next (s.settle (({ s with inflight := after } : State).endWithError words q)) := by
  rcases h with ⟨rfl, h⟩ | ⟨place, timer, rfl, h, rfl⟩
  · obtain ⟨a, b, d⟩ := h.completing
    cases q with
    | ringRead l op r addr => cases op <;> simp only [errorCommand, exec, execAcquireCommit, execTakeCommit, execPeekCompletion, a, b, State.endWithError]
    | ringWrite l k w => simp only [errorCommand, exec, execSlotWriteCompletion, a, b, State.endWithError]
    | reclaimWrite l x e => simp only [errorCommand, exec, execReclaimWriteCompletion, a, b, State.endWithError]
    | primeWrite l x e => simp only [errorCommand, exec, execPrimeWriteCompletion, a, b, State.endWithError]
    | descRead l => simp only [errorCommand, exec, execDescReadCompletion, a, b, State.endWithError]
    | globalRead =>
      by_cases p : s.part = .loading
      · simp only [errorCommand, p, if_true, exec, execGlobalReadCompletion, a, b, State.endWithError, State.endGlobal]
      · simp only [errorCommand, p, if_false, exec, execReloadGlobalsReadCompletion, a, b, State.endWithError, State.endGlobal]
    | statusWrite => simp only [errorCommand, exec, execStatusWriteCompletion, a, b, d, State.endWithError]
    | laneStatusWrite l ws => simp only [errorCommand, exec, execLaneStatusWriteCompletion, a, b, State.endWithError]
    | resultWrite w final => simp only [errorCommand, exec, execResultWriteCompletion, a, b, State.endWithError]
  · have t : s.timed place.val = some (q, { access := .engine q, words := words, timer := some timer, late := false }) := by
      unfold State.timed; rw [h]; simp
    simp only [exec, execEngineAccessTimeout, State.timeout, t]

/-- A report that names a lane and halts it, after a change of that lane. -/
theorem report_ringFault (s : State) (l : LaneId) (ln : Lane) (f : Report) (reason : HaltReason) (hf : f.lane = some l)
    (hk : f.kind.requesterCaused = false) :
    ((s.setLane l ln).report f).updLane l (fun x => x.ringFault reason) =
      (s.setLane l (ringFaulted reason ln)).trapReport f := by
  rw [← ringFault_eq hk]
  unfold State.report
  rw [hf]
  simp only [State.updLane, State.trapReport, State.setLane, State.lane]
  simp

theorem primed_lane (ln : Lane) (geom : RingGeom) (hg : ln.freeRing.geom = some geom) :
    ln.primed =
          { ln with
              state := if ln.state = .priming ∧ ln.primePos + 1 = ln.descriptor.frameCount then .opened else ln.state
              causes := if ln.state = .priming ∧ ln.primePos + 1 = ln.descriptor.frameCount then ln.causes ||| 0b000100#6 else ln.causes
              primePos := ln.primePos + 1
              freeRing := { ln.freeRing with tail := (ln.freeRing.tail + 1) % geom.size, count := ln.freeRing.count + 1, access := .idle, fenced := none } } := by
  have hsz : ln.freeRing.size = geom.size := by unfold Ring.size; rw [hg]; rfl
  unfold Lane.primed Ring.append Ring.release
  rw [hsz]
  by_cases h : ln.state = .priming ∧ ln.primePos + 1 = ln.descriptor.frameCount
  · simp only [h, and_self, if_true]; rfl
  · simp only [h, if_false]

theorem eachLane (f : Lane → Lane) (ls : List LaneId) (hn : ls.Nodup) (s : State) :
    ls.foldl (fun s l => s.updLane l f) s = { s with lanes := (ls.foldl (fun s l => s.updLane l f) s).lanes } ∧
    ∀ m, (ls.foldl (fun s l => s.updLane l f) s).lane m = if m ∈ ls then f (s.lane m) else s.lane m := by
  induction ls generalizing s with
  | nil => exact ⟨rfl, fun m => by simp⟩
  | cons l ls ih =>
    obtain ⟨hl, hn⟩ := List.nodup_cons.mp hn
    obtain ⟨a, b⟩ := ih hn (s.updLane l f)
    rw [List.foldl_cons]
    refine ⟨by rw [a]; rfl, fun m => ?_⟩
    rw [b, lane_updLane]
    by_cases x : m = l
    · subst x; rw [if_neg hl, if_pos rfl, if_pos (List.mem_cons_self ..)]
    · rw [if_neg x]
      by_cases y : m ∈ ls
      · rw [if_pos y, if_pos (List.mem_cons_of_mem _ y)]
      · rw [if_neg y, if_neg (fun h => (List.mem_cons.mp h).elim x y)]

theorem eachLane_all (f : Lane → Lane) (s : State) :
    allLanes.foldl (fun s l => s.updLane l f) s = { s with lanes := Vector.ofFn fun m => f (s.lane m) } := by
  obtain ⟨a, b⟩ := eachLane f allLanes (by decide) s
  have e : (allLanes.foldl (fun s l => s.updLane l f) s).lanes = Vector.ofFn fun m => f (s.lane m) := by
    apply lanes_ext
    intro m
    have q := b m
    rw [if_pos (mem_allLanes m)] at q
    refine q.trans ?_
    exact (Vector.getElem_ofFn (n := 16) (f := fun m => f (s.lane m)) m.isLt).symm
  rw [a, e]

theorem lowerFence_eq (ln : Lane) (r : Requester) :
    ln.lowerFence r = { ln with freeRing := fenceLower r ln.freeRing, workRing := fenceLower r ln.workRing } := rfl

theorem NextEndsPass.completing {s : State} {e : PassEntry} {rest : List InFlight} (h : NextEndsPass s e rest) :
    s.completingPass = some e ∧ s.popOldest = { s with inflight := rest } := by
  obtain ⟨ws, timer, late, q⟩ := h.oldest
  have o : s.oldest = some { access := .pass e, words := ws, timer := timer, late := late } := by
    unfold State.oldest; rw [h.owed, q]; rfl
  refine ⟨?_, ?_⟩
  · unfold State.completingPass; rw [o]
  · unfold State.popOldest; rw [q]; rfl

theorem passResponse_eq (t : Txn) (resp : DResp (List Word)) : passResponse t resp = passAnswer t.dir resp := by
  funext n
  unfold passResponse passAnswer Txn.dir
  cases resp <;> cases t.body <;> rfl

theorem lanes_ofFn (s : State) : (Vector.ofFn fun m => s.lane m) = s.lanes := by
  apply lanes_ext
  intro m
  exact (Vector.getElem_ofFn (n := 16) (f := fun m => s.lane m) m.isLt)

/-- The count of forwarded writes after a completion. -/
theorem fences_step (s : State) (r : Requester) (u : UPort) (d : Dir) :
    (s.setUport r u).accessCompleted r d =
    { s with
        uports := s.uports.set r { list := u.list, forwarded := match d with
          | .read => u.forwarded
          | .write => u.forwarded - 1 }
        lanes := Vector.ofFn fun m => fencesAfter d r (s.lane m) } := by
  cases d with
  | read =>
    simp only [fencesAfter]
    rw [lanes_ofFn]
    rfl
  | write =>
    simp only [State.accessCompleted, State.writeCompleted]
    rw [eachLane_all, uport_setUport_self]
    simp only [State.setUport, State.mk.injEq, true_and, and_true]
    refine ⟨rfl, ?_⟩
    apply Vector.ext
    intro i hi
    by_cases q : r.val = i
    · subst q; simp
    · rw [Vector.getElem_set_ne _ _ q, Vector.getElem_set_ne _ _ q, Vector.getElem_set_ne _ _ q]

/-- A part-side report, the lane it names counting it. -/
theorem report_part (s : State) (f : Report) (hk : f.kind.requesterCaused = false) (g : LaneId → Lane)
    (hg : s.lanes = Vector.ofFn g) : s.report f =
      ({ s with lanes := Vector.ofFn fun m => if f.lane = some m then counted (g m) else g m } : State).trapReport f := by
  unfold State.report
  cases h : f.lane with
  | none => simp [← hg]
  | some l =>
    simp only [State.updLane, State.setLane, takeFault_part hk]
    have e : (s.trapReport f).lane l = g l := by
      show s.lanes[l] = _
      rw [hg]
      exact Vector.getElem_ofFn (n := 16) (f := g) l.isLt
    rw [e]
    simp only [State.trapReport, hg, State.mk.injEq, true_and, and_true]
    apply lanes_ext
    intro m
    rw [show (Vector.ofFn fun m => if some l = some m then counted (g m) else g m)[m] = (if some l = some m then counted (g m) else g m) from
      Vector.getElem_ofFn (n := 16) (f := fun m => if some l = some m then counted (g m) else g m) m.isLt]
    by_cases q : l = m
    · subst q; simp
    · have : l.val ≠ m.val := fun x => q (Fin.ext x)
      simp only [Fin.getElem_fin, Option.some.injEq, q, if_false]
      rw [Vector.getElem_set_ne _ _ this]
      exact Vector.getElem_ofFn (n := 16) (f := g) m.isLt

/-- The end of a pass-through access, said at once. -/
theorem endPass_eq (s : State) (e : PassEntry) (resp : DResp (List Word)) {list : List Unanswered}
    (hd : Decides .pass (passAnswer e.txn.dir resp) (s.uport e.txn.requester).list list) :
    s.endPass e resp =
      let x : State :=
        { s with
            uports := s.uports.set e.txn.requester
              { list := list, forwarded := match e.txn.dir with
                  | .read => (s.uport e.txn.requester).forwarded
                  | .write => (s.uport e.txn.requester).forwarded - 1 }
            lanes := Vector.ofFn fun m =>
              if passFails s.part resp = true ∧ e.lane = some m then counted (fencesAfter e.txn.dir e.txn.requester (s.lane m))
              else fencesAfter e.txn.dir e.txn.requester (s.lane m)
            cmd := cmdAfter e.cmd s.cmd }
      if passFails s.part resp then x.trapReport
        { kind := .memoryError, lane := e.lane, requester := some e.txn.requester, addr := e.txn.addr,
          dir := e.txn.dir, data := e.txn.reportData } else x := by
  have step : (s.decideResponse e.txn.requester .pass (passResponse e.txn resp)).accessCompleted e.txn.requester
      e.txn.dir =
    { s with
        uports := s.uports.set e.txn.requester { list := list, forwarded := match e.txn.dir with
          | .read => (s.uport e.txn.requester).forwarded
          | .write => (s.uport e.txn.requester).forwarded - 1 }
        lanes := Vector.ofFn fun m => fencesAfter e.txn.dir e.txn.requester (s.lane m) } := by
    rw [passResponse_eq, hd.response]
    exact fences_step s e.txn.requester { s.uport e.txn.requester with list := list } e.txn.dir
  have wr : ∀ t : State, (if e.cmd then t.cmdWritten else t) = { t with cmd := cmdAfter e.cmd t.cmd } := by
    intro t
    unfold State.cmdWritten cmdAfter
    cases e.cmd <;> cases h : t.cmd with
    | none => simp [← h]
    | some c =>
      by_cases q : c.phase = .accepted <;> simp [q, ← h]
  have ps : ∀ t : State, t.part = s.part → t.passError e resp = if passFails s.part resp then
      t.report (memoryErrorReport e.lane (some e.txn.requester) e.txn.addr e.txn.dir e.txn.reportData) else t := by
    intro t ht
    unfold State.passError passFails
    cases resp with
    | okay ws => rfl
    | error => by_cases q : s.part = .bypass <;> simp [q, ht]
  unfold State.endPass
  refine (wr _).trans ?_
  generalize hg : (s.decideResponse e.txn.requester .pass (passResponse e.txn resp)).accessCompleted e.txn.requester
      e.txn.dir = g at step ⊢
  rw [ps g (by rw [step]), step]
  dsimp only
  by_cases q : passFails s.part resp = true
  · rw [if_pos q, if_pos q]
    rw [report_part { s with
          uports := s.uports.set e.txn.requester { list := list, forwarded := match e.txn.dir with
            | .read => (s.uport e.txn.requester).forwarded
            | .write => (s.uport e.txn.requester).forwarded - 1 }
          lanes := Vector.ofFn fun m => fencesAfter e.txn.dir e.txn.requester (s.lane m) } _ rfl _ rfl]
    simp only [q, true_and]
    rfl
  · rw [if_neg q, if_neg q]
    simp only [q]
    rfl

end Sys2Proof.Machine
end

