-- ==== Sys2Proof/Laws/Command.lean ====
section
/-! SUPPORT. How a step ends and how the current command is carried out (R156 to R158). -/

namespace Sys2Proof.Machine

/-- A step that settles. -/
theorem placed_of {s x : State} {c : Instr} (h : exec c s = .next (s.settle x)) :
    ∃ u, exec c s = .next u ∧ Placed s x u := ⟨_, h, settle_placed s x⟩

/-- The end of the current command (R158). -/
theorem endCommand_of {s : State} {w : Word} {p : CmdPhase} (h : s.cmd = some { word := w, phase := p }) (r : Reason) :
    s.endCommand r = ended s w r := by unfold State.endCommand ended; rw [h]

/-- A step that ends the current command. -/
theorem ended_step {s X : State} {c : Instr} {w : Word} {p : CmdPhase} {r : Reason}
    (h : exec c s = .next (s.settle (X.endCommand r))) (hc : X.cmd = some { word := w, phase := p }) :
    ∃ u, exec c s = .next u ∧ Placed s (ended X w r) u := by
  rw [endCommand_of hc] at h
  exact placed_of h

/-- The command named is carried out (R156). -/
theorem carryOut_of {s : State} {w : Word} {n : Nat} {op : Opcode} (h : Ready s w n) (hn : Opcode.ofCode n = some op) (act : State → Word → State)
    (hp : op.runsInPass = true ∨ s.part ≠ .pass) : s.carryOut op act = s.settle (act s w) := by
  have a : s.toCarryOut = some w := by unfold State.toCarryOut; rw [h.cmd]; rfl
  unfold State.carryOut
  rw [a]
  dsimp only
  rw [h.code, if_pos hn]
  rcases hp with hp | hp
  · rw [hp]; simp
  · simp [hp]

/-- In PASS it is refused (R157). -/
theorem carryOut_pass {s : State} {w : Word} {n : Nat} {op : Opcode} (h : Ready s w n) (hn : Opcode.ofCode n = some op) (act : State → Word → State)
    (hp : s.part = .pass) (ho : op.runsInPass = false) : s.carryOut op act = s.settle (s.endCommand .notActive) := by
  have a : s.toCarryOut = some w := by unfold State.toCarryOut; rw [h.cmd]; rfl
  unfold State.carryOut
  rw [a]
  dsimp only
  rw [h.code, if_pos hn]
  simp [hp, ho]

/-- A lane-state command that is done. -/
theorem laneCommand_some {s : State} {w : Word} {change : Lane → Option Lane} {ln : Lane} (h : change (s.lane (cmdLane w)) = some ln) :
    s.laneCommand w change = (s.setLane (cmdLane w) ln).endCommand .none := by unfold State.laneCommand; rw [h]

/-- A lane-state command that is refused. -/
theorem laneCommand_none {s : State} {w : Word} {change : Lane → Option Lane} (h : change (s.lane (cmdLane w)) = none) :
    s.laneCommand w change = s.endCommand .badState := by unfold State.laneCommand; rw [h]

/-- The step of a lane-state command that is done. -/
theorem lane_done {s : State} {c : Instr} {w : Word} {change : Lane → Option Lane} {ln : Lane} {x : Running} (hx : s.cmd = some x)
    (hw : x.word = w) (e : exec c s = .next (s.settle (s.laneCommand w change))) (h : change (s.lane (cmdLane w)) = some ln) :
    ∃ u, exec c s = .next u ∧ Placed s (ended (s.setLane (cmdLane w) ln) w .none) u := by
  subst hw
  refine ended_step (p := x.phase) ?_ (show (s.setLane _ _).cmd = _ from hx)
  rw [e, laneCommand_some h]

/-- The step of a lane-state command that is refused. -/
theorem lane_bad {s : State} {c : Instr} {w : Word} {change : Lane → Option Lane} {x : Running} (hx : s.cmd = some x)
    (hw : x.word = w) (e : exec c s = .next (s.settle (s.laneCommand w change))) (h : change (s.lane (cmdLane w)) = none) :
    ∃ u, exec c s = .next u ∧ Placed s (ended s w .badState) u := by
  subst hw
  refine ended_step (p := x.phase) ?_ hx
  rw [e, laneCommand_none h]

/-- The halts that RESUME_LANE and CLOSE_LANE lift (R90). -/
theorem lifts_iff (r : HaltReason) : r.lifts = true ↔ r = .command ∨ r = .policy := by cases r <;> simp [HaltReason.lifts]

end Sys2Proof.Machine
end

