-- ==== Sys2Proof/Laws/Port.lean ====
section
/-! SUPPORT. The port operations (chapter 3) in the statements' words. -/

namespace Sys2Proof.Machine

theorem portOp_of_word {offset : Nat} {t : Txn} {op : PortOp} (h : PortWord offset t op) : portOpOf offset t = some op := by
  rcases h with ⟨rfl, rfl, h⟩ | ⟨rfl, rfl, h⟩ | ⟨rfl, rfl, h⟩ | ⟨rfl, rfl, h⟩ | ⟨w, h, ⟨rfl, rfl⟩ | ⟨rfl, rfl⟩ | ⟨rfl, rfl⟩⟩ <;>
    simp [portOpOf, h, portReadAt, portWriteAt, Txn.fullWord]

theorem verdict_passes {st : LaneState} {op : PortOp} (h : LanePasses st op) : laneVerdict st op = .pass := by
  unfold LanePasses Producing at h
  cases st <;> cases op <;> simp_all [laneVerdict]

theorem roleOk_iff (d : Descriptor) (r : Requester) (op : PortOp) : d.roleOk r op = true ↔ RoleAllows d r op := by
  cases op <;> simp [Descriptor.roleOk, RoleAllows]

/-- RETRY to a port operation (R49, R55). -/
theorem portRetry_arrival {s : State} {t : Txn} {l : LaneId} (hl : Listens s t.requester) (hw : t.wf = true)
    (e : s.meet t = s.portRetry l t) : ∃ u, s.arrival t = .next u ∧ PortRetried l t s u :=
  arrival_of hl hw e

theorem meet_reaches {s : State} {c : Instr} {t : Txn} {l : LaneId} {op : PortOp} (h : Reaches s c t l op) :
    s.meet t = s.servePortOp l t op ∧ t.wf = true := by
  obtain ⟨offset, hp, ho⟩ := h.atPort
  refine ⟨?_, hp.wf⟩
  rw [meet_port hp]
  unfold State.servePortWord
  rw [portOp_of_word ho]
  simp only [verdict_passes h.lane]
  rw [if_pos ((roleOk_iff ..).2 h.role)]

theorem handleFault_eq (s : State) (l : LaneId) (w : Word) (need : Standing → Bool) :
    s.handleFault l w need = if w.getLsbD 31 = true ∨ (s.descriptor l).frameCount ≤ handleIndex w then some .badHandle
      else if w.extractLsb' 10 4 ≠ (s.record (handleRecord s l w)).gen then some .stale
      else if need (s.record (handleRecord s l w)).standing then none else some .notHolder := rfl

theorem heldBy_iff {st : Standing} {r : Requester} : st.heldBy r = true ↔ ∃ lease, st = .held r lease := by
  cases st <;> simp [Standing.heldBy]

theorem HandleFound.fault {s : State} {l : LaneId} {w : Word} (h : HandleFound s l w) (need : Standing → Bool) :
    s.handleFault l w need = if need (s.record (handleRecord s l w)).standing then none else some .notHolder := by
  rw [handleFault_eq, if_neg, if_neg]
  · exact fun x => x h.gen
  · rintro (x | x)
    · rw [h.top] at x; cases x
    · exact Nat.not_lt.mpr x h.index

theorem busy_or_full {s : State} {l : LaneId} {k : RingKind} (h : ((s.lane l).ring k).access ≠ .idle ∨ 15 ≤ s.engQ.length) :
    s.ringIdle l k = false ∨ s.laneSlotFree = false := by
  rcases h with h | h
  · exact .inl (decide_eq_false h)
  · exact .inr (decide_eq_false (by unfold Config.engineDepth; omega))

theorem slot_free {s : State} (h : s.engQ.length < 15) : s.laneSlotFree = true :=
  decide_eq_true (by unfold Config.engineDepth; omega)

theorem ring_idle {s : State} {l : LaneId} {k : RingKind} (h : ((s.lane l).ring k).access = .idle) : s.ringIdle l k = true :=
  decide_eq_true h

theorem serve_read {s : State} {l : LaneId} {t : Txn} (read : ReadOp) (h : read = .peek ∨ (s.lane l).checkedOut t.requester < (s.descriptor l).limit) :
    s.servePortOp l t (readWord read) = s.readResources l read t := by
  cases read with
  | peek => rfl
  | acquire =>
    have : s.atLimit l t.requester = false := decide_eq_false (Nat.not_le.mpr (h.resolve_left (by simp)))
    simp [readWord, State.servePortOp, State.limitedRead, this]
  | take =>
    have : s.atLimit l t.requester = false := decide_eq_false (Nat.not_le.mpr (h.resolve_left (by simp)))
    simp [readWord, State.servePortOp, State.limitedRead, this]

theorem slotAddr_eq {g : Ring} {geom : RingGeom} (h : g.geom = some geom) (k : Nat) : g.slotAddr k = slotAt geom k := by
  unfold Ring.slotAddr slotAt; rw [h]; rfl

theorem post_lane (ln : Lane) (r : Requester) (n : RecordId) (G : Ring) :
    ({ ((((ln.unbindProducer r n).checkIn r).countPost).raiseIf (decide (ln.workRing.count = 0)) .workReady).afterPost with
        workRing := G } : Lane) =
      { ln with
          state := if ln.state = .step then .paused else ln.state
          causes := if ln.workRing.count = 0 then ln.causes ||| 0b000001#6 else ln.causes
          stats := { ln.stats with posts := oneMore ln.stats.posts }
          checkout := ln.checkout.set r (ln.checkedOut r - 1)
          prodBind := if ln.producerBinding r = some n then ln.prodBind.set r none else ln.prodBind
          workRing := G } := by
  unfold Lane.afterPost Lane.raiseIf Lane.unbindProducer
  by_cases a : ln.producerBinding r = some n <;> by_cases b : ln.workRing.count = 0 <;> by_cases c : ln.state = .step <;>
    simp [a, b, c, Lane.checkIn, Lane.countPost, Lane.raise, Lane.checkedOut, bump, oneMore, LaneCause.mask]

theorem claimWrite_eq {g : Ring} {geom : RingGeom} (hg : g.geom = some geom) (urgent : Bool) (W : SlotWrite) :
    (if urgent = true then g.insert else g.append).claimWrite W =
      { g with head := if urgent then slotBeforeHead g geom.size else g.head
               tail := if urgent then g.tail else (g.tail + 1) % geom.size
               count := g.count + 1
               access := .writing
               fenced := some W } := by
  have hsz : g.size = geom.size := by unfold Ring.size; rw [hg]; rfl
  cases urgent <;> simp only [Ring.append, Ring.insert, Ring.claimWrite, Ring.slotBefore, hsz, slotBeforeHead] <;> rfl

theorem release_lane (ln : Lane) (st : Standing) (r : Requester) (n : RecordId) (G : Ring) :
    ({ ((ln.unbind st r n).checkIn r).countRelease with freeRing := G } : Lane) =
      { ln with
          stats := { ln.stats with releases := oneMore ln.stats.releases }
          checkout := ln.checkout.set r (ln.checkedOut r - 1)
          prodBind := if st.isHeld = true ∧ ln.producerBinding r = some n then ln.prodBind.set r none else ln.prodBind
          consBind := if st.isHeld = false ∧ ln.consumerBinding r = some n then ln.consBind.set r none else ln.consBind
          freeRing := G } := by
  unfold Lane.unbind Lane.unbindProducer Lane.unbindConsumer
  cases a : st.isHeld <;> by_cases b : ln.producerBinding r = some n <;> by_cases c : ln.consumerBinding r = some n <;>
    simp [b, c, Lane.checkIn, Lane.countRelease, Lane.checkedOut, bump, oneMore]

end Sys2Proof.Machine
end

