-- ==== Sys2Proof/Laws/Engine.lean ====
section
/-! SUPPORT. The arbiter and the placing of requests that wait (R172, R173). -/

namespace Sys2Proof.Machine

/-- The timer of an access issued now (R150). -/
theorem newTimer_eq (s : State) : s.newTimer = timerNow s := rfl

/-- The words of a request issued now (R173). -/
theorem issueWords_eq (s : State) (q : EngineReq) : s.issueWords q = wordsNow s q := by cases q <;> rfl

/-- The conditions of a grant (R174). -/
theorem canGrant_of {s : State} (h : s.inflight.length < 32) (p : s.part ≠ .heldInReset) : s.canGrant = true := by
  unfold State.canGrant Config.inflightDepth
  simp [h, p]

/-- While a response is owed, none completes an access (R178). -/
theorem oldest_none {s : State} (h : 0 < s.owed) : s.oldest = none := by
  unfold State.oldest; rw [if_neg (by omega)]

/-- While a response is owed, or behind a placeholder, no response completes an access (R151, R178). -/
theorem completing_none {s : State} (h : 0 < s.owed ∨ LateFirst s) : s.completing = none ∧ s.completingPass = none := by
  unfold State.completing State.completingPass
  by_cases o : s.owed = 0
  · obtain ⟨q, words, timer, rest, h⟩ := h.resolve_left (by omega)
    have e : s.oldest = some { access := .engine q, words := words, timer := timer, late := true } := by
      unfold State.oldest; rw [if_pos o, h]; rfl
    rw [e]
    exact ⟨rfl, rfl⟩
  · rw [oldest_none (by omega)]
    exact ⟨rfl, rfl⟩

/-- A claim that has just been placed wants no slot (R172). -/
theorem placed_wants {s : State} {c : Claimant} {cs : List Claimant} (hc : s.claims c = true) (hw : s.waiting = c :: cs) :
    cs.filter (wants (noted s (s.placeClaim c))) =
      (s.placeClaim c).waiting.filter (wants (noted s (s.placeClaim c))) := by
  rw [claims_eq] at hc
  have e : s.placeClaim c = (given s [] [c] []).books s.cuCalls s.waiting s.draws := by
    have := placeClaim_given (y := s) (first := []) (claims := []) (cu := s.cuCalls) (w := s.waiting) (d := s.draws) hc (by simp)
    rw [given_nil] at this
    exact this
  have n := mt (claims_given (y := s) (first := []) (claims := [c]) (cu := s.cuCalls) (w := s.waiting) (d := s.draws)
    (by simpa using hc) c).1 (by simp)
  rw [← e, claims_eq] at n
  have w : (s.placeClaim c).waiting = c :: cs := by rw [e]; exact hw
  rw [w, List.filter_cons_of_neg]
  cases c with
  | status =>
    intro k
    have k : writerTakes s (s.placeClaim .status) = .writing .waiting := of_decide_eq_true k
    unfold writerTakes at k
    split at k <;> cases k
  | _ => exact n

/-- A claimant whose conditions hold is placed by its own row, or as the head of those that wait. -/
theorem begins_placed {s : State} {c : Instr} {claim : Claimant} (hq : s.engQ.length < 15) (h : Begins s c claim)
    (hc : s.claims claim = true) :
    ∃ u, exec c s = .next u ∧ Placed s (s.placeClaim claim) u := by
  have g : s.laneSlotFree = true := by unfold State.laneSlotFree Config.engineDepth; simp; omega
  have own : ∃ u, (.next (s.placeNow claim) : Host.Outcome State Fault Refusal) = .next u ∧ Placed s (s.placeClaim claim) u := by
    refine ⟨_, rfl, ?_⟩
    unfold State.placeNow
    rw [if_pos ⟨hc, g⟩]
    exact settle_placed s _
  rcases h with ⟨l, rfl, rfl⟩ | ⟨l, rfl, rfl⟩ | ⟨rfl, rfl⟩ | ⟨l, rfl, rfl⟩ | ⟨rfl, hcu, cs, hw⟩
  · exact own
  · exact own
  · exact own
  · exact own
  · refine ⟨_, rfl, ?_⟩
    have e : s.serveFirst = ({ s with waiting := cs } : State).placeClaim claim := by
      unfold State.serveFirst State.serveHead
      rw [hcu, hw]
      simp only [hc, g, and_self, if_true]
    rw [e]
    have e2 : ({ s with waiting := cs } : State).placeClaim claim = { s.placeClaim claim with waiting := cs } := by
      cases claim with
      | status => rfl
      | fenced l j =>
        show ({ s with waiting := cs } : State).placeFenced l j = { s.placeFenced l j with waiting := cs }
        unfold State.placeFenced
        rw [show ({ s with waiting := cs } : State).lane l = s.lane l from rfl]
        split <;> rfl
      | prime l => rfl
      | reclaim l =>
        show ({ s with waiting := cs } : State).placeReclaim l = { s.placeReclaim l with waiting := cs }
        unfold State.placeReclaim
        rw [show ({ s with waiting := cs } : State).lane l = s.lane l from rfl]
        dsimp only
        split <;> rfl
      | laneStatus l => rfl
    rw [e2]
    exact (settle_placed s { s.placeClaim claim with waiting := cs }).ofWaiting (placed_wants hc hw)

/-- The lane states in which leases count (R128). -/
theorem counting_iff (st : LaneState) : st.counting = true ↔ Counts st := by
  unfold Counts; cases st <;> simp [LaneState.counting]

end Sys2Proof.Machine
end

