-- ==== Sys2Proof/Laws/Flush.lean ====
section
/-! SUPPORT. The entry into FLUSHING and the clearing of RESET_ALL (R45, R94, R96, R163), said at once. -/

namespace Sys2Proof.Machine

/-- The state with another command, other calls and another count of draws. -/
def State.redraw (s : State) (c : Option Running) (cu : List CuCall) (d : Nat) : State := { s with cmd := c, cuCalls := cu, draws := d }

/-- A change of records does not touch the command. -/
theorem mapFrames_redraw (s : State) (e : Descriptor) (f : FrameRec → FrameRec) (is : List Nat) (c : Option Running) (cu : List CuCall) (d : Nat) :
    (s.redraw c cu d).mapFrames e f is = (s.mapFrames e f is).redraw c cu d := by
  unfold State.mapFrames
  induction is generalizing s with
  | nil => rfl
  | cons i is ih => rw [List.foldl_cons, List.foldl_cons]; exact ih (s.setRecord (e.recordOf i) (f (s.record (e.recordOf i))))

/-- The arrival at OFF does not touch the command. -/
theorem arriveOff_redraw (s : State) (l : LaneId) (c : Option Running) (cu : List CuCall) (d : Nat) :
    (s.redraw c cu d).arriveOff l = (s.arriveOff l).redraw c cu d := by
  unfold State.arriveOff
  rw [show (s.redraw c cu d).drained l = s.drained l from rfl, show (s.redraw c cu d).flushed l = s.flushed l from rfl]
  split
  · unfold State.drainOff; dsimp only
    rw [show (s.redraw c cu d).descriptor l = s.descriptor l from rfl, mapFrames_redraw]; rfl
  · split
    · unfold State.teardown; dsimp only
      rw [show (s.redraw c cu d).descriptor l = s.descriptor l from rfl, mapFrames_redraw]; rfl
    · rfl

/-- The arrival at OFF keeps the command and its calls. -/
theorem arriveOff_cmd (s : State) (l : LaneId) : (s.arriveOff l).cmd = s.cmd ∧ (s.arriveOff l).cuCalls = s.cuCalls := by
  unfold State.arriveOff State.drainOff State.teardown
  split
  · dsimp only; rw [mapFrames_rest]; exact ⟨rfl, rfl⟩
  · split
    · dsimp only; rw [mapFrames_rest]; exact ⟨rfl, rfl⟩
    · exact ⟨rfl, rfl⟩

/-- A command may be ended before or after the arrival at OFF. -/
theorem arriveOff_ended {s : State} {w : Word} {p : CmdPhase} (h : s.cmd = some { word := w, phase := p }) (l : LaneId) (r : Reason) :
    (s.arriveOff l).endCommand r = (ended s w r).arriveOff l := by
  have e : ended s w r = s.redraw (some { word := w, phase := .finishing }) (s.cuCalls ++ [.result (resultWord w r false) true]) s.draws := rfl
  rw [endCommand_of (w := w) (p := p) ((arriveOff_cmd s l).1.trans h), e, arriveOff_redraw]
  unfold ended
  rw [(arriveOff_cmd s l).2]
  have : (s.arriveOff l).draws = s.draws := by
    unfold State.arriveOff State.drainOff State.teardown
    split
    · dsimp only; rw [mapFrames_rest]; rfl
    · split
      · dsimp only; rw [mapFrames_rest]; rfl
      · rfl
  unfold State.redraw
  rw [← this]

/-- Drawing an order changes the counter of draws alone. -/
theorem drawOrder_redraw {α : Type} (s : State) (xs : List α) : (s.drawOrder xs).2 = s.redraw s.cmd s.cuCalls (s.drawOrder xs).2.draws := by
  unfold State.drawOrder
  split <;> rfl

/-- A cut-off does not touch the command. -/
theorem cutOff_redraw (s : State) (x : Discard) (c : Option Running) (cu : List CuCall) (d : Nat) :
    (s.redraw c cu d).cutOff x = (s.cutOff x).redraw c cu d := by
  unfold State.cutOff State.report
  cases x.report.lane <;> rfl

/-- A cut-off keeps the command and its calls. -/
theorem cutOff_cmd (s : State) (x : Discard) : (s.cutOff x).cmd = s.cmd ∧ (s.cutOff x).cuCalls = s.cuCalls := by
  unfold State.cutOff State.report
  cases x.report.lane <;> exact ⟨rfl, rfl⟩

/-- Cut-offs do not touch the command. -/
theorem cutOffs_redraw (xs : List Discard) (s : State) (c : Option Running) (cu : List CuCall) (d : Nat) :
    xs.foldl State.cutOff (s.redraw c cu d) = (xs.foldl State.cutOff s).redraw c cu d := by
  induction xs generalizing s with
  | nil => rfl
  | cons x xs ih => rw [List.foldl_cons, cutOff_redraw, ih]; rfl

/-- Cut-offs keep the command and its calls. -/
theorem cutOffs_cmd (xs : List Discard) (s : State) : (xs.foldl State.cutOff s).cmd = s.cmd ∧ (xs.foldl State.cutOff s).cuCalls = s.cuCalls := by
  induction xs generalizing s with
  | nil => exact ⟨rfl, rfl⟩
  | cons x xs ih => rw [List.foldl_cons]; exact ⟨(ih _).1.trans (cutOff_cmd s x).1, (ih _).2.trans (cutOff_cmd s x).2⟩

/-- A ring at the entry into FLUSHING (R45). -/
theorem cutRing_eq (s : State) (l : LaneId) (k : RingKind) : s.cutRing l k ((s.lane l).ring k) = flushedRing s l k := by
  unfold State.cutRing flushedRing State.ungranted Ring.release
  dsimp only
  by_cases h : (∃ q ∈ s.engQ, q.ringOf = some (l, k)) ∨ ((s.lane l).ring k).fenced ≠ none
  · rw [if_pos h, if_pos]
    rw [Bool.or_eq_true, List.any_eq_true]
    exact h.imp (fun ⟨q, a, b⟩ => ⟨q, a, decide_eq_true b⟩) (fun x => by rw [Option.isSome_iff_ne_none]; exact x)
  · rw [if_neg h, if_neg]
    rw [Bool.or_eq_true, List.any_eq_true]
    exact fun x => h (x.imp (fun ⟨q, a, b⟩ => ⟨q, a, of_decide_eq_true b⟩) (fun y => by rw [← Option.isSome_iff_ne_none]; exact y))

/-- The lanes after one has entered FLUSHING. -/
theorem enterFlushing_lane (s : State) (l m : LaneId) : (s.enterFlushing l).lane m =
    if m = l then { s.lane l with state := .flushing, freeRing := flushedRing s l .free, workRing := flushedRing s l .work } else s.lane m := by
  have e : (s.enterFlushing l).lane m = (s.updLane l fun ln =>
      { ln with state := .flushing, freeRing := s.cutRing l .free ln.freeRing, workRing := s.cutRing l .work ln.workRing }).lane m := rfl
  rw [e, lane_updLane]
  split
  · rw [← cutRing_eq, ← cutRing_eq]; rfl
  · rfl

/-- The entry of one lane does not reach the rings of another. -/
theorem flushedRing_other {s : State} {l m : LaneId} (h : m ≠ l) (k : RingKind) : flushedRing (s.enterFlushing l) m k = flushedRing s m k := by
  unfold flushedRing
  have e : (s.enterFlushing l).lane m = s.lane m := by rw [enterFlushing_lane, if_neg h]
  rw [e]
  dsimp only
  congr 1
  apply propext
  refine or_congr ?_ Iff.rfl
  constructor
  · rintro ⟨q, a, b⟩; exact ⟨q, (List.mem_filter.mp a).1, b⟩
  · rintro ⟨q, a, b⟩
    refine ⟨q, List.mem_filter.mpr ⟨a, ?_⟩, b⟩
    unfold EngineReq.isRingOf; rw [b]; simpa using h

/-- The lanes after the listed ones have entered FLUSHING. -/
theorem flushing_lane (s : State) (ls : List LaneId) (m : LaneId) : (flushing s ls).lane m =
    if m ∈ ls then { s.lane m with state := .flushing, freeRing := flushedRing s m .free, workRing := flushedRing s m .work } else s.lane m := by
  unfold flushing
  exact lane_ofFn { s with engQ := s.engQ.filter fun q => ∀ l ∈ ls, q.isRingOf l = false } _ m

/-- No lane enters. -/
theorem flushing_nil (s : State) : flushing s [] = s := by
  have e : (flushing s []).lanes = s.lanes := lanes_ext fun m => (flushing_lane s [] m).trans (by simp; rfl)
  have f : (flushing s []).engQ = s.engQ := by
    show s.engQ.filter _ = _
    rw [List.filter_eq_self]; simp
  calc flushing s [] = { s with lanes := (flushing s []).lanes, engQ := (flushing s []).engQ } := rfl
    _ = s := by rw [e, f]

/-- The entries into FLUSHING, said at once. -/
theorem enterFlushing_all (ls : List LaneId) (hn : ls.Nodup) (s : State) : ls.foldl State.enterFlushing s = flushing s ls := by
  induction ls generalizing s with
  | nil => exact (flushing_nil s).symm
  | cons l ls ih =>
    obtain ⟨hl, hn⟩ := List.nodup_cons.mp hn
    rw [List.foldl_cons, ih hn]
    have e : (flushing (s.enterFlushing l) ls).lanes = (flushing s (l :: ls)).lanes := by
      apply lanes_ext
      intro m
      refine (flushing_lane _ ls m).trans (Eq.trans ?_ (flushing_lane s (l :: ls) m).symm)
      by_cases a : m = l
      · subst a
        rw [if_neg hl, if_pos (List.mem_cons_self ..), enterFlushing_lane, if_pos rfl]
      · by_cases b : m ∈ ls
        · rw [if_pos b, if_pos (List.mem_cons_of_mem _ b), flushedRing_other a, flushedRing_other a, enterFlushing_lane, if_neg a]
        · rw [if_neg b, if_neg (fun h => (List.mem_cons.mp h).elim a b), enterFlushing_lane, if_neg a]
    have f : (flushing (s.enterFlushing l) ls).engQ = (flushing s (l :: ls)).engQ := by
      show (s.engQ.filter _).filter _ = s.engQ.filter _
      rw [List.filter_filter]
      apply List.filter_congr
      intro q _
      rw [Bool.eq_iff_iff]
      simp only [Bool.and_eq_true, decide_eq_true_eq, Bool.not_eq_true', List.forall_mem_cons]
      exact and_comm
    calc flushing (s.enterFlushing l) ls = { s with lanes := (flushing (s.enterFlushing l) ls).lanes, engQ := (flushing (s.enterFlushing l) ls).engQ } := rfl
      _ = { s with lanes := (flushing s (l :: ls)).lanes, engQ := (flushing s (l :: ls)).engQ } := by rw [e, f]
      _ = _ := rfl

/-- The entry into FLUSHING does not touch the command. -/
theorem flushing_redraw (s : State) (ls : List LaneId) (c : Option Running) (cu : List CuCall) (d : Nat) :
    flushing (s.redraw c cu d) ls = (flushing s ls).redraw c cu d := rfl

/-- The lanes that enter FLUSHING. -/
theorem toFlush_eq (s : State) (ls : List LaneId) : s.toFlush ls = toFlush s ls := by
  unfold State.toFlush toFlush
  apply List.filter_congr
  intro l _
  simp

/-- FORCE_CLOSE and RESET_ALL, said at once. -/
theorem flushLanes_eq (s : State) (ls : List LaneId) (hn : ls.Nodup) :
    ∃ (order : List Discard) (d : Nat), order.Perm ((toFlush s ls).flatMap s.discards) ∧
      s.flushLanes ls = (toFlush s ls).foldl State.arriveOff
        ((order.foldl State.cutOff (flushing s (toFlush s ls))).redraw s.cmd s.cuCalls d) := by
  refine ⟨(s.drawOrder ((toFlush s ls).flatMap s.discards)).1, (s.drawOrder ((toFlush s ls).flatMap s.discards)).2.draws, drawOrder_perm .., ?_⟩
  unfold State.flushLanes
  dsimp only
  have nd : (toFlush s ls).Nodup := hn.filter _
  rw [toFlush_eq, enterFlushing_all _ nd, drawOrder_redraw, flushing_redraw, cutOffs_redraw]
  rfl

/-- The counter of draws has no part in what a settled step leaves. -/
theorem Placed.redraw {s x t : State} {d : Nat} (h : Placed s (x.redraw x.cmd x.cuCalls d) t) : Placed s x t := h.ofDraws

/-- Nor does `OffFrom`. -/
theorem OffFrom.redraw {l : LaneId} {g : FrameRec → FrameRec} {x y : State} {d : Nat} (h : OffFrom l g (x.redraw x.cmd x.cuCalls d) y) :
    OffFrom l g x (y.redraw y.cmd y.cuCalls x.draws) where
  rest := by rw [h.rest]; rfl
  lane := h.lane
  others := h.others
  slice := h.slice
  records := h.records

theorem Placed.undraw {s x t : State} {d : Nat} (h : Placed s x t) : Placed s (x.redraw x.cmd x.cuCalls d) t :=
  Placed.ofDraws (x := x.redraw x.cmd x.cuCalls d) (d := x.draws) h

/-- Nor does `OffTested`. -/
theorem OffTested.redraw {s x t : State} {l : LaneId} {d : Nat} (h : OffTested l s (x.redraw x.cmd x.cuCalls d) t) : OffTested l s x t where
  stays a b := (h.stays (fun q => a ⟨q.state, q.reclaim, q.free, q.work, q.frames⟩)
    (fun q => b ⟨q.state, q.free, q.work, q.fenced, q.queue, q.inflight⟩)).redraw
  drains a := by
    obtain ⟨y, p, q⟩ := h.drains ⟨a.state, a.reclaim, a.free, a.work, a.frames⟩
    exact ⟨_, p.redraw, q.undraw⟩
  tornDown a := by
    obtain ⟨y, p, q⟩ := h.tornDown ⟨a.state, a.free, a.work, a.fenced, a.queue, a.inflight⟩
    exact ⟨_, p.redraw, q.undraw⟩

/-- A record is torn down once. -/
theorem tornRecord_torn (r : FrameRec) : tornRecord (tornRecord r) = tornRecord r := by
  unfold tornRecord; simp

/-- The teardown condition looks at the lane, the engine queue and the in-flight list. -/
theorem TornDown.congr {x y : State} {l : LaneId} (h : TornDown x l) (hl : y.lane l = x.lane l) (hq : y.engQ = x.engQ)
    (hi : y.inflight = x.inflight) : TornDown y l :=
  ⟨by rw [hl]; exact h.state, by rw [hl]; exact h.free, by rw [hl]; exact h.work, by rw [hl]; exact h.fenced,
    by rw [hq]; exact h.queue, by rw [hi]; exact h.inflight⟩

/-- The arrival of one lane in FLUSHING. -/
theorem arriveOff_flushing {x : State} {l : LaneId} (h : (x.lane l).state = .flushing) :
    (TornDown x l ∧ x.arriveOff l = x.teardown l) ∨ (¬ TornDown x l ∧ x.arriveOff l = x) := by
  have d : ¬ x.drained l = true := fun e => by have := ((drained_iff x l).1 e).state; rw [h] at this; cases this
  unfold State.arriveOff
  rw [if_neg d]
  by_cases t : TornDown x l
  · exact .inl ⟨t, if_pos ((flushed_iff x l).2 t)⟩
  · exact .inr ⟨t, if_neg (fun e => t ((flushed_iff x l).1 e))⟩

/-- The lanes in FLUSHING reach OFF one after the other. -/
theorem flushedOff_all (ls : List LaneId) (hn : ls.Nodup) (x : State) (h : ∀ l ∈ ls, (x.lane l).state = .flushing) :
    FlushedOff ls x (ls.foldl State.arriveOff x) := by
  induction ls generalizing x with
  | nil => exact ⟨rfl, by simp, fun _ _ => rfl, by simp, fun _ _ => rfl⟩
  | cons l ls ih =>
    obtain ⟨hl, hn⟩ := List.nodup_cons.mp hn
    rw [List.foldl_cons]
    have hx := h l (List.mem_cons_self ..)
    rcases arriveOff_flushing hx with ⟨t, e⟩ | ⟨t, e⟩
    · rw [e]
      have o := teardown_offFrom x l
      generalize x.teardown l = z at o ⊢
      have ho : ∀ m ∈ ls, z.lane m = x.lane m := fun m hm => o.others m (fun q => hl (q ▸ hm))
      have hq : z.engQ = x.engQ := by rw [o.rest]
      have hi : z.inflight = x.inflight := by rw [o.rest]
      have k := ih hn z (fun m hm => by rw [ho m hm]; exact h m (List.mem_cons_of_mem _ hm))
      generalize ls.foldl State.arriveOff z = y at k ⊢
      have tt : ∀ m ∈ ls, TornDown z m ↔ TornDown x m := fun m hm =>
        ⟨fun q => q.congr (ho m hm).symm hq.symm hi.symm, fun q => q.congr (ho m hm) hq hi⟩
      have hd : ∀ m ∈ ls, z.descriptor m = x.descriptor m := fun m hm => by unfold State.descriptor; rw [ho m hm]
      have yl : y.lane l = z.lane l := k.stays l (fun q => absurd q hl)
      have rec' : ∀ n, y.record n = z.record n ∨ y.record n = tornRecord (z.record n) := by
        intro n
        by_cases q : ∃ m ∈ ls, TornDown z m ∧ ∃ i < (z.descriptor m).frameCount, (z.descriptor m).recordOf i = n
        · obtain ⟨m, hm, a, i, b, c⟩ := q
          right
          rw [← c, k.torn m hm a i b]; rfl
        · left
          exact k.records n fun m hm a i b c => q ⟨m, hm, a, i, b, c⟩
      refine ⟨?_, ?_, ?_, ?_, ?_⟩
      · rw [k.rest, o.rest]
      · intro m hm a
        rcases List.mem_cons.mp hm with rfl | hm
        · rw [yl, o.lane]
        · rw [k.off m hm ((tt m hm).2 a), ho m hm]
      · intro m hm
        have ml : m ≠ l := fun q => by subst q; exact hm (List.mem_cons_self ..) t
        rw [k.stays m (fun q => fun r => hm (List.mem_cons_of_mem _ q) ((tt m q).1 r)), o.others m ml]
      · intro m hm a i hi
        rcases List.mem_cons.mp hm with rfl | hm
        · have zr := o.slice i hi
          rcases rec' ((x.descriptor m).recordOf i) with q | q
          · rw [q, zr]
          · rw [q, zr, tornRecord_torn]
        · have := k.torn m hm ((tt m hm).2 a) i (by rw [hd m hm]; exact hi)
          rw [hd m hm] at this
          rw [this]
          show tornRecord (z.record ((z.descriptor m).recordOf i)) = tornRecord (x.record ((x.descriptor m).recordOf i))
          rw [hd m hm]
          by_cases q : ∃ j < (x.descriptor l).frameCount, (x.descriptor l).recordOf j = (x.descriptor m).recordOf i
          · obtain ⟨j, a, b⟩ := q
            rw [← b, o.slice j a]
            exact tornRecord_torn _
          · rw [o.records _ fun j a b => q ⟨j, a, b⟩]
      · intro n hn
        have a := hn l (List.mem_cons_self ..) t
        rw [k.records n fun m hm p i q => by
          rw [hd m hm] at q ⊢
          exact hn m (List.mem_cons_of_mem _ hm) ((tt m hm).1 p) i q, o.records n a]
    · rw [e]
      have k := ih hn x (fun m hm => h m (List.mem_cons_of_mem _ hm))
      generalize ls.foldl State.arriveOff x = y at k ⊢
      refine ⟨k.rest, ?_, ?_, ?_, ?_⟩
      · intro m hm a
        rcases List.mem_cons.mp hm with rfl | hm
        · exact absurd a t
        · exact k.off m hm a
      · intro m hm
        exact k.stays m (fun q => hm (List.mem_cons_of_mem _ q))
      · intro m hm a i hi
        rcases List.mem_cons.mp hm with rfl | hm
        · exact absurd a t
        · exact k.torn m hm a i hi
      · intro n hn
        exact k.records n fun m hm => hn m (List.mem_cons_of_mem _ hm)

end Sys2Proof.Machine
end

