-- ==== Sys2Proof/Laws/Lease.lean ====
section
/-! SUPPORT. Ticks, expiries and REFCLK periods (R126, R128, R131, R132, R150), said at once. -/

namespace Sys2Proof.Machine

/-- The timers after a REFCLK period. -/
theorem counting_eq (s : State) : s.inflight.map InFlight.advance = counting s := rfl

/-- The places of the timers that have reached their values. -/
theorem mem_expiredPlaces (s : State) (i : Nat) : i ∈ s.expiredPlaces ↔ RunsOut s.inflight i := by
  unfold State.expiredPlaces RunsOut
  rw [List.mem_filter, List.mem_range]
  constructor
  · rintro ⟨h, k⟩
    rw [List.getElem?_eq_getElem h] at k ⊢
    simp only [Option.map_some, Option.getD_some, InFlight.expired] at k
    refine ⟨s.inflight[i], ?_⟩
    cases ht : s.inflight[i].timer with
    | none => rw [ht] at k; cases k
    | some t => rw [ht] at k; exact ⟨t, rfl, rfl, of_decide_eq_true k⟩
  · rintro ⟨a, t, h, ht, k⟩
    obtain ⟨hi, e⟩ := List.getElem?_eq_some_iff.mp h
    refine ⟨hi, ?_⟩
    rw [h]
    simp [InFlight.expired, ht, k]

/-- None has. -/
theorem expiredPlaces_nil {s : State} (h : ∀ i, ¬ RunsOut s.inflight i) : s.expiredPlaces = [] := by
  rw [List.eq_nil_iff_forall_not_mem]
  exact fun i hi => h i ((mem_expiredPlaces s i).1 hi)

/-- One has. -/
theorem expiredPlaces_one {s : State} {p : Nat} (h : RunsOut s.inflight p) (k : ∀ i, i ≠ p → ¬ RunsOut s.inflight i) : s.expiredPlaces = [p] := by
  have nd : s.expiredPlaces.Nodup := List.Nodup.filter _ List.nodup_range
  have m : ∀ i, i ∈ s.expiredPlaces ↔ i = p := fun i => by
    rw [mem_expiredPlaces]
    exact ⟨fun x => by by_contra q; exact k i q x, fun x => x ▸ h⟩
  exact List.perm_singleton.mp ((List.perm_ext_iff_of_nodup nd (List.nodup_singleton p)).2 fun i => by rw [m, List.mem_singleton])

/-- A step on an empty queue is a REFCLK period (log 4). -/
theorem step_idle {s : State} (h : s.pending = []) : step s = .next s.refclk := by unfold step; rw [h]

/-- A REFCLK period in which at most one thing comes due. -/
theorem refclk_of {s c : State} {es : List ClockEvent} (hc : ({ s with inflight := counting s } : State).countDivider = c)
    (he : (if s.tickDue then [ClockEvent.tick] else []) ++ c.expiredPlaces.map ClockEvent.timeout = es) (hl : es.length < 2) :
    s.refclk = es.foldl State.clockEvent c := by
  unfold State.refclk
  rw [counting_eq, hc]
  dsimp only
  rw [he]
  unfold State.drawOrder
  rw [if_pos hl]

/-- Ticks are produced (R126). -/
theorem ticking_iff (s : State) : s.ticking.isSome = true ↔ Ticks s := by
  unfold State.ticking Ticks
  cases hp : s.part <;> cases hg : s.globals with
  | none => simp
  | some g => by_cases q : g.tickPeriod = 0#16 <;> simp [q]

/-- The lane of a frame that expires (R131). -/
theorem expire_lane (ln : Lane) (r : Requester) (held : Bool) (n : RecordId) (i : Nat) :
    ln.expire (if held then .held r (some 1) else .taken r (some 1)) r n i =
          { ln with
              causes := ln.causes ||| 0b100000#6
              stats := { ln.stats with expiries := oneMore ln.stats.expiries }
              checkout := ln.checkout.set r (ln.checkedOut r - 1)
              prodBind := if held = true ∧ ln.producerBinding r = some n then ln.prodBind.set r none else ln.prodBind
              consBind := if held = false ∧ ln.consumerBinding r = some n then ln.consBind.set r none else ln.consBind
              reclaim := ln.reclaim ++ [{ frame := i, former := r }] } := by
  unfold Lane.expire Lane.unbind
  cases held with
  | true =>
    simp only [if_true, Standing.isHeld, Lane.unbindProducer, true_and, if_false, false_and, reduceCtorEq]
    by_cases q : ln.producerBinding r = some n
    · simp only [q, if_true]; rfl
    · simp only [q, if_false]; rfl
  | false =>
    simp only [Bool.false_eq_true, Standing.isHeld, Lane.unbindConsumer, true_and, if_false, false_and]
    by_cases q : ln.consumerBinding r = some n
    · simp only [q, if_true]; rfl
    · simp only [q, if_false]; rfl

/-- An expiry (R131). -/
theorem expire_eq {s : State} {l : LaneId} {i : Nat} {r : Requester} {held : Bool}
    (h : (s.frame l i).standing = if held then .held r (some 1) else .taken r (some 1)) :
    s.expire l i = (s.setRecord ((s.descriptor l).recordOf i) (expiredRecord (s.frame l i))).setLane l
      { s.lane l with
              causes := (s.lane l).causes ||| 0b100000#6
              stats := { (s.lane l).stats with expiries := oneMore (s.lane l).stats.expiries }
              checkout := (s.lane l).checkout.set r ((s.lane l).checkedOut r - 1)
              prodBind := if held = true ∧ (s.lane l).producerBinding r = some ((s.descriptor l).recordOf i) then (s.lane l).prodBind.set r none else (s.lane l).prodBind
              consBind := if held = false ∧ (s.lane l).consumerBinding r = some ((s.descriptor l).recordOf i) then (s.lane l).consBind.set r none else (s.lane l).consBind
              reclaim := (s.lane l).reclaim ++ [{ frame := i, former := r }] } := by
  unfold State.expire
  dsimp only
  rw [show s.record ((s.descriptor l).recordOf i) = s.frame l i from rfl, h, ← expire_lane]
  cases held <;> rfl

/-- Expiries of the frames `is` of lane `l` lead from `s` to `x`. -/
structure Expired (l : LaneId) (is : List Nat) (s x : State) : Prop where
  rest : x = { s with lanes := x.lanes, frames := x.frames }
  others : ∀ m, m ≠ l → x.lane m = s.lane m
  laneRest : x.lane l = { s.lane l with causes := (x.lane l).causes, stats := (x.lane l).stats, reclaim := (x.lane l).reclaim, checkout := (x.lane l).checkout, prodBind := (x.lane l).prodBind, consBind := (x.lane l).consBind }
  causes : (x.lane l).causes = if is = [] then (s.lane l).causes else (s.lane l).causes ||| 0b100000#6
  stats : (x.lane l).stats = { (s.lane l).stats with expiries := if is = [] then (s.lane l).stats.expiries else min ((s.lane l).stats.expiries + is.length) 0xFFFFFFFF }
  reclaim : (x.lane l).reclaim.map ReclaimEntry.frame = (s.lane l).reclaim.map ReclaimEntry.frame ++ is
  former : (x.lane l).reclaim.map (fun e => some e.former) = (s.lane l).reclaim.map (fun e => some e.former) ++ is.map fun i => (s.frame l i).standing.holder
  checkout : ∀ r, (x.lane l).checkedOut r = (s.lane l).checkedOut r - is.countP fun i => (s.frame l i).standing.holder = some r
  producer : ∀ r, (x.lane l).producerBinding r = if ∃ i ∈ is, (s.frame l i).standing = .held r (some 1) ∧ (s.lane l).producerBinding r = some ((s.descriptor l).recordOf i) then none else (s.lane l).producerBinding r
  consumer : ∀ r, (x.lane l).consumerBinding r = if ∃ i ∈ is, (s.frame l i).standing = .taken r (some 1) ∧ (s.lane l).consumerBinding r = some ((s.descriptor l).recordOf i) then none else (s.lane l).consumerBinding r
  hit : ∀ i ∈ is, x.record ((s.descriptor l).recordOf i) = expiredRecord (s.frame l i)
  miss : ∀ n, (∀ i ∈ is, (s.descriptor l).recordOf i ≠ n) → x.record n = s.record n

/-- A frame with lease remaining 1 is HELD or TAKEN (R4). -/
theorem standing_due {st : Standing} (h : st.lease = some 1) : ∃ (r : Requester) (held : Bool), st = if held then .held r (some 1) else .taken r (some 1) := by
  cases st with
  | held r n => exact ⟨r, true, by simp only [Standing.lease] at h; rw [h]; rfl⟩
  | taken r n => exact ⟨r, false, by simp only [Standing.lease] at h; rw [h]; rfl⟩
  | _ => simp [Standing.lease] at h

/-- A checkout count set. -/
theorem checkedOut_set (ln : Lane) (r q : Requester) (n : Nat) :
    ({ ln with checkout := ln.checkout.set r n } : Lane).checkedOut q = if q = r then n else ln.checkedOut q := by
  unfold Lane.checkedOut
  simp only [Fin.getElem_fin]
  by_cases h : q = r
  · subst h; simp
  · have : r.val ≠ q.val := fun x => h (Fin.ext x.symm)
    rw [Vector.getElem_set_ne _ _ this, if_neg h]

/-- A binding set. -/
theorem bind_set (v : Vector (Option RecordId) 8) (r q : Requester) (x : Option RecordId) :
    (v.set r x)[q] = if q = r then x else v[q] := by
  simp only [Fin.getElem_fin]
  by_cases h : q = r
  · subst h; simp
  · have : r.val ≠ q.val := fun x => h (Fin.ext x.symm)
    rw [Vector.getElem_set_ne _ _ this, if_neg h]

/-- The lane after one expiry. -/
abbrev lane1 (ln : Lane) (r : Requester) (held : Bool) (n : RecordId) (i : Nat) : Lane :=
          { ln with
              causes := ln.causes ||| 0b100000#6
              stats := { ln.stats with expiries := oneMore ln.stats.expiries }
              checkout := ln.checkout.set r (ln.checkedOut r - 1)
              prodBind := if held = true ∧ ln.producerBinding r = some n then ln.prodBind.set r none else ln.prodBind
              consBind := if held = false ∧ ln.consumerBinding r = some n then ln.consBind.set r none else ln.consBind
              reclaim := ln.reclaim ++ [{ frame := i, former := r }] }

/-- The checkout counts after one expiry. -/
theorem lane1_checkedOut (ln : Lane) (r : Requester) (held : Bool) (n : RecordId) (i : Nat) (q : Requester) :
    (lane1 ln r held n i).checkedOut q = if q = r then ln.checkedOut r - 1 else ln.checkedOut q :=
  checkedOut_set ln r q _

/-- The producer bindings after one expiry. -/
theorem lane1_producer (ln : Lane) (r : Requester) (held : Bool) (n : RecordId) (i : Nat) (q : Requester) :
    (lane1 ln r held n i).producerBinding q = if held = true ∧ q = r ∧ ln.producerBinding r = some n then none else ln.producerBinding q := by
  show (if held = true ∧ ln.producerBinding r = some n then ln.prodBind.set r none else ln.prodBind)[q] = _
  by_cases h : held = true ∧ ln.producerBinding r = some n
  · rw [if_pos h, bind_set]
    by_cases e : q = r
    · rw [if_pos e, if_pos ⟨h.1, e, h.2⟩]
    · rw [if_neg e, if_neg (fun x => e x.2.1)]; rfl
  · rw [if_neg h, if_neg (fun x => h ⟨x.1, x.2.2⟩)]; rfl

/-- The consumer bindings after one expiry. -/
theorem lane1_consumer (ln : Lane) (r : Requester) (held : Bool) (n : RecordId) (i : Nat) (q : Requester) :
    (lane1 ln r held n i).consumerBinding q = if held = false ∧ q = r ∧ ln.consumerBinding r = some n then none else ln.consumerBinding q := by
  show (if held = false ∧ ln.consumerBinding r = some n then ln.consBind.set r none else ln.consBind)[q] = _
  by_cases h : held = false ∧ ln.consumerBinding r = some n
  · rw [if_pos h, bind_set]
    by_cases e : q = r
    · rw [if_pos e, if_pos ⟨h.1, e, h.2⟩]
    · rw [if_neg e, if_neg (fun x => e x.2.1)]; rfl
  · rw [if_neg h, if_neg (fun x => h ⟨x.1, x.2.2⟩)]; rfl

/-- Several frames of a lane expire one after the other (R132). -/
theorem expire_all (l : LaneId) (is : List Nat) (s : State) (hd : ∀ i ∈ is, (s.frame l i).standing.lease = some 1)
    (hn : (is.map (s.descriptor l).recordOf).Nodup) : Expired l is s (is.foldl (fun s i => s.expire l i) s) := by
  induction is generalizing s with
  | nil => exact ⟨rfl, fun _ _ => rfl, rfl, rfl, rfl, by simp, by simp, by simp, by simp, by simp, by simp, fun _ _ => rfl⟩
  | cons i is ih =>
    obtain ⟨r, held, hs⟩ := standing_due (hd i (List.mem_cons_self ..))
    rw [List.map_cons, List.nodup_cons] at hn
    have e := expire_eq hs
    change s.expire l i = (s.setRecord ((s.descriptor l).recordOf i) (expiredRecord (s.frame l i))).setLane l (lane1 (s.lane l) r held ((s.descriptor l).recordOf i) i) at e
    have zl : (s.expire l i).lane l = lane1 (s.lane l) r held ((s.descriptor l).recordOf i) i := by rw [e, lane_setLane_self]
    have zo : ∀ m, m ≠ l → (s.expire l i).lane m = s.lane m := fun m hm => by rw [e, lane_setLane_of_ne hm]; rfl
    have zd : (s.expire l i).descriptor l = s.descriptor l := by unfold State.descriptor; rw [zl]; rfl
    have zr : ∀ n, (s.expire l i).record n = if n = (s.descriptor l).recordOf i then expiredRecord (s.frame l i) else s.record n := fun n => by
      rw [e]; show (s.setRecord _ _).record n = _; rw [record_setRecord]
    have zrest : s.expire l i = { s with lanes := (s.expire l i).lanes, frames := (s.expire l i).frames } := by rw [e]; rfl
    have hne : ∀ j ∈ is, (s.descriptor l).recordOf j ≠ (s.descriptor l).recordOf i := fun j hj q => hn.1 (q ▸ List.mem_map_of_mem hj)
    have zf : ∀ j ∈ is, (s.expire l i).frame l j = s.frame l j := fun j hj => by
      unfold State.frame; rw [zd, zr, if_neg (hne j hj)]
    have k := ih (s.expire l i) (fun j hj => by rw [zf j hj]; exact hd j (List.mem_cons_of_mem _ hj)) (by rw [zd]; exact hn.2)
    rw [List.foldl_cons]
    generalize s.expire l i = z at zl zo zd zr zf zrest k ⊢
    generalize is.foldl (fun s i => s.expire l i) z = x at k ⊢
    have hold : (s.frame l i).standing.holder = some r := by rw [hs]; cases held <;> rfl
    have fi : z.record ((s.descriptor l).recordOf i) = expiredRecord (s.frame l i) := by rw [zr, if_pos rfl]
    refine ⟨?_, ?_, ?_, ?_, ?_, ?_, ?_, ?_, ?_, ?_, ?_, ?_⟩
    · rw [k.rest, zrest]
    · exact fun m hm => (k.others m hm).trans (zo m hm)
    · rw [k.laneRest, zl]
    · rw [k.causes, zl, if_neg (List.cons_ne_nil i is)]
      split
      · rfl
      · exact BitVec.eq_of_getLsbD_eq fun b hb => by simp
    · rw [k.stats, zl, if_neg (List.cons_ne_nil i is)]
      split
      · next q => subst q; rfl
      · simp only [oneMore, List.length_cons, Stats.mk.injEq, true_and]
        omega
    · rw [k.reclaim, zl]; simp
    · rw [k.former, zl]
      rw [List.map_append, List.append_assoc]
      congr 1
      rw [List.map_cons, List.map_cons, List.map_nil, hold]
      rw [List.singleton_append]
      congr 1
      exact List.map_congr_left fun j hj => by rw [zf j hj]
    · intro q
      rw [k.checkout q, zl, lane1_checkedOut, List.countP_cons, hold]
      have : is.countP (fun j => decide ((z.frame l j).standing.holder = some q)) = is.countP fun j => decide ((s.frame l j).standing.holder = some q) :=
        List.countP_congr fun j hj => by rw [zf j hj]
      rw [this]
      by_cases hq : q = r
      · subst hq; simp; omega
      · have : ¬ r = q := fun x => hq x.symm
        simp [hq, this]
    · intro q
      rw [k.producer q, zl, lane1_producer, zd]
      by_cases c1 : held = true ∧ q = r ∧ (s.lane l).producerBinding r = some ((s.descriptor l).recordOf i)
      · rw [if_pos c1]
        obtain ⟨rfl, rfl, hb⟩ := c1
        rw [if_neg (fun ⟨j, _, _, b⟩ => by cases b), if_pos ⟨i, List.mem_cons_self .., hs, hb⟩]
      · rw [if_neg c1]
        have iff : (∃ j ∈ is, (z.frame l j).standing = .held q (some 1) ∧ (s.lane l).producerBinding q = some ((s.descriptor l).recordOf j)) ↔
            ∃ j ∈ i :: is, (s.frame l j).standing = .held q (some 1) ∧ (s.lane l).producerBinding q = some ((s.descriptor l).recordOf j) := by
          constructor
          · rintro ⟨j, hj, a, b⟩; exact ⟨j, List.mem_cons_of_mem _ hj, by rw [← zf j hj]; exact a, b⟩
          · rintro ⟨j, hj, a, b⟩
            rcases List.mem_cons.mp hj with rfl | hj
            · exfalso
              apply c1
              rw [hs] at a
              cases held with
              | true => cases a; exact ⟨rfl, rfl, b⟩
              | false => cases a
            · exact ⟨j, hj, by rw [zf j hj]; exact a, b⟩
        simp only [iff]
    · intro q
      rw [k.consumer q, zl, lane1_consumer, zd]
      by_cases c1 : held = false ∧ q = r ∧ (s.lane l).consumerBinding r = some ((s.descriptor l).recordOf i)
      · rw [if_pos c1]
        obtain ⟨rfl, rfl, hb⟩ := c1
        rw [if_neg (fun ⟨j, _, _, b⟩ => by cases b), if_pos ⟨i, List.mem_cons_self .., hs, hb⟩]
      · rw [if_neg c1]
        have iff : (∃ j ∈ is, (z.frame l j).standing = .taken q (some 1) ∧ (s.lane l).consumerBinding q = some ((s.descriptor l).recordOf j)) ↔
            ∃ j ∈ i :: is, (s.frame l j).standing = .taken q (some 1) ∧ (s.lane l).consumerBinding q = some ((s.descriptor l).recordOf j) := by
          constructor
          · rintro ⟨j, hj, a, b⟩; exact ⟨j, List.mem_cons_of_mem _ hj, by rw [← zf j hj]; exact a, b⟩
          · rintro ⟨j, hj, a, b⟩
            rcases List.mem_cons.mp hj with rfl | hj
            · exfalso
              apply c1
              rw [hs] at a
              cases held with
              | true => cases a
              | false => cases a; exact ⟨rfl, rfl, b⟩
            · exact ⟨j, hj, by rw [zf j hj]; exact a, b⟩
        simp only [iff]
    · intro j hj
      rcases List.mem_cons.mp hj with rfl | hj
      · rw [k.miss _ fun m hm => by rw [zd]; exact hne m hm, fi]
      · have := k.hit j hj
        rw [zd, zf j hj] at this
        exact this
    · intro n hn'
      rw [k.miss n fun j hj => by rw [zd]; exact hn' j (List.mem_cons_of_mem _ hj), zr,
        if_neg (fun q => hn' i (List.mem_cons_self ..) q.symm)]

/-- A change of each record named once. -/
theorem mapFrames_record_nodup {f : FrameRec → FrameRec} (d : Descriptor) (is : List Nat) (hn : (is.map d.recordOf).Nodup) (s : State)
    (n : RecordId) : (s.mapFrames d f is).record n = if n ∈ is.map d.recordOf then f (s.record n) else s.record n := by
  unfold State.mapFrames
  induction is generalizing s with
  | nil => simp
  | cons i is ih =>
    rw [List.map_cons, List.nodup_cons] at hn
    rw [List.foldl_cons, ih hn.2, record_setRecord, List.map_cons]
    simp only [List.mem_cons]
    by_cases a : n = d.recordOf i
    · subst a; simp [hn.1]
    · by_cases b : n ∈ is.map d.recordOf <;> simp [a, b]

/-- The frames of a slice have records of their own. -/
theorem recordOf_nodup (d : Descriptor) (h : d.firstRecord + d.frameCount ≤ 4096) : (d.frameIndices.map d.recordOf).Nodup := by
  unfold Descriptor.frameIndices
  rw [List.nodup_map_iff_inj_on List.nodup_range]
  intro i hi j hj e
  rw [List.mem_range] at hi hj
  have := congrArg Fin.val e
  simp only [Descriptor.recordOf, Fin.val_ofNat] at this
  rw [Nat.mod_eq_of_lt (by omega), Nat.mod_eq_of_lt (by omega)] at this
  omega

/-- Frames of slices that are apart have records of their own. -/
theorem recordOf_apart {d e : Descriptor} (hd : d.firstRecord + d.frameCount ≤ 4096) (he : e.firstRecord + e.frameCount ≤ 4096)
    (h : SlicesApart d e) {i j : Nat} (hi : i < d.frameCount) (hj : j < e.frameCount) : d.recordOf i ≠ e.recordOf j := by
  intro q
  have := congrArg Fin.val q
  simp only [Descriptor.recordOf, Fin.val_ofNat] at this
  rw [Nat.mod_eq_of_lt (by omega), Nat.mod_eq_of_lt (by omega)] at this
  rcases h with h | h <;> omega

/-- A lease of 1 is not lowered (R128). -/
theorem lowerLease_lease (r : FrameRec) (h : r.standing.lease = some 1) : r.lowerLease = r := by
  unfold FrameRec.lowerLease; rw [h]; rfl

/-- A record that does not expire at the tick. -/
theorem ticked_not (r : FrameRec) (h : r.standing.lease ≠ some 1) : r.lowerLease = tickedRecord r := by
  unfold FrameRec.lowerLease tickedRecord
  cases hl : r.standing.lease with
  | none => rfl
  | some n =>
    have : n ≠ 1 := fun q => h (by rw [hl, q])
    dsimp only
    rw [if_neg this]
    by_cases q : 1 < n
    · rw [if_pos q]
    · rw [if_neg q]
      have : n = 0 := by omega
      subst this
      obtain ⟨st, g⟩ := r
      cases st <;> simp_all [Standing.lease, Standing.withLease]

/-- A record that expires at the tick. -/
theorem ticked_due (r : FrameRec) (h : r.standing.lease = some 1) : tickedRecord r = expiredRecord r := by
  unfold tickedRecord; rw [h]; rfl

/-- A tick has reached the lanes listed. -/
structure TickedOn (ls : List LaneId) (s x : State) : Prop where
  rest : x = { s with lanes := x.lanes, frames := x.frames }
  lanes : ∀ l ∈ ls, Counts (s.lane l).state → LaneTicked s l (x.lane l)
  others : ∀ l, (l ∈ ls → ¬ Counts (s.lane l).state) → x.lane l = s.lane l
  slices : ∀ l ∈ ls, Counts (s.lane l).state → ∀ i < (s.descriptor l).frameCount,
    x.record ((s.descriptor l).recordOf i) = tickedRecord (s.frame l i)
  records : ∀ n, (∀ l ∈ ls, Counts (s.lane l).state → ∀ i < (s.descriptor l).frameCount, (s.descriptor l).recordOf i ≠ n) →
    x.record n = s.record n

/-- A tick reaches one lane. -/
theorem tickLane_on (s : State) (l : LaneId) (hf : (s.descriptor l).firstRecord + (s.descriptor l).frameCount ≤ 4096) :
    TickedOn [l] s (s.tickLane l) := by
  unfold State.tickLane
  by_cases hc : (s.lane l).state.counting = true
  · rw [if_pos hc]
    dsimp only
    have hC := (counting_iff _).1 hc
    have hn := recordOf_nodup _ hf
    have hdue : ((s.descriptor l).frameIndices.filter fun i => s.expires l i) = dueFrames s l := rfl
    rw [hdue]
    have mr := mapFrames_record_nodup (f := FrameRec.lowerLease) (s.descriptor l) (s.descriptor l).frameIndices hn s
    have ml : ∀ m, (s.mapFrames (s.descriptor l) FrameRec.lowerLease (s.descriptor l).frameIndices).lane m = s.lane m := fun m => by
      unfold State.lane; rw [mapFrames_lanes]
    have mrest := mapFrames_rest s (s.descriptor l) FrameRec.lowerLease (s.descriptor l).frameIndices
    generalize s.mapFrames (s.descriptor l) FrameRec.lowerLease (s.descriptor l).frameIndices = z at mr ml mrest ⊢
    have zd : z.descriptor l = s.descriptor l := by unfold State.descriptor; rw [ml]
    have zrec : ∀ i < (s.descriptor l).frameCount, z.record ((s.descriptor l).recordOf i) = (s.frame l i).lowerLease := fun i hi => by
      have : (s.descriptor l).recordOf i ∈ (s.descriptor l).frameIndices.map (s.descriptor l).recordOf := List.mem_map_of_mem (List.mem_range.mpr hi)
      rw [mr, if_pos this]; rfl
    have mem : ∀ i, i ∈ dueFrames s l ↔ i < (s.descriptor l).frameCount ∧ (s.frame l i).standing.lease = some 1 := fun i => by
      unfold dueFrames; rw [List.mem_filter, List.mem_range, decide_eq_true_eq]
    have zf : ∀ i ∈ dueFrames s l, z.frame l i = s.frame l i := fun i hi => by
      have := (mem i).1 hi
      unfold State.frame; rw [zd, zrec i this.1, lowerLease_lease _ this.2]; rfl
    have k := expire_all l (dueFrames s l) z (fun i hi => by rw [zf i hi]; exact ((mem i).1 hi).2) (by
      rw [zd]
      exact hn.sublist (List.filter_sublist.map _))
    generalize (dueFrames s l).foldl (fun s i => s.expire l i) z = x at k ⊢
    have ex : ∀ (P : Nat → Prop) (Q : Nat → Prop), (∀ i ∈ dueFrames s l, P i ↔ Q i) → ((∃ i ∈ dueFrames s l, P i) ↔ ∃ i ∈ dueFrames s l, Q i) :=
      fun P Q h => ⟨fun ⟨i, a, b⟩ => ⟨i, a, (h i a).1 b⟩, fun ⟨i, a, b⟩ => ⟨i, a, (h i a).2 b⟩⟩
    refine ⟨?_, ?_, ?_, ?_, ?_⟩
    · rw [k.rest, mrest]
    · intro m hm _
      rw [List.mem_singleton] at hm; subst hm
      refine ⟨?_, ?_, ?_, ?_, ?_, ?_, ?_, ?_⟩
      · rw [k.laneRest, ml]
      · rw [k.causes, ml]
      · rw [k.stats, ml]
      · rw [k.reclaim, ml]
      · rw [k.former, ml]
        congr 1
        exact List.map_congr_left fun i hi => by rw [zf i hi]
      · intro r
        rw [k.checkout, ml]
        congr 1
        exact List.countP_congr fun i hi => by rw [zf i hi]
      · intro r
        rw [k.producer, ml, zd]
        have := ex (fun i => (z.frame m i).standing = .held r (some 1) ∧ (s.lane m).producerBinding r = some ((s.descriptor m).recordOf i))
          (fun i => (s.frame m i).standing = .held r (some 1) ∧ (s.lane m).producerBinding r = some ((s.descriptor m).recordOf i)) (fun i hi => by rw [zf i hi])
        simp only [this]
      · intro r
        rw [k.consumer, ml, zd]
        have := ex (fun i => (z.frame m i).standing = .taken r (some 1) ∧ (s.lane m).consumerBinding r = some ((s.descriptor m).recordOf i))
          (fun i => (s.frame m i).standing = .taken r (some 1) ∧ (s.lane m).consumerBinding r = some ((s.descriptor m).recordOf i)) (fun i hi => by rw [zf i hi])
        simp only [this]
    · intro m hm
      have : m ≠ l := fun q => by subst q; exact hm (List.mem_singleton.mpr rfl) hC
      rw [k.others m this, ml]
    · intro m hm _ i hi
      rw [List.mem_singleton] at hm; subst hm
      by_cases q : (s.frame m i).standing.lease = some 1
      · have hi' := (mem i).2 ⟨hi, q⟩
        have := k.hit i hi'
        rw [zd, zf i hi'] at this
        rw [this, ticked_due _ q]
      · rw [k.miss _ fun j hj e => ?_, zrec i hi, ticked_not _ q]
        rw [zd] at e
        have hj' := (mem j).1 hj
        have inj := List.inj_on_of_nodup_map hn (List.mem_range.mpr hj'.1) (List.mem_range.mpr hi) e
        subst inj
        exact q hj'.2
    · intro n h
      rw [k.miss n fun j hj => ?_, mr, if_neg]
      · intro hm
        obtain ⟨j, hj, e⟩ := List.mem_map.mp hm
        exact h l (List.mem_singleton.mpr rfl) hC j (List.mem_range.mp hj) e
      · rw [zd]; exact h l (List.mem_singleton.mpr rfl) hC j ((mem j).1 hj).1
  · rw [if_neg hc]
    have hC : ¬ Counts (s.lane l).state := fun q => hc ((counting_iff _).2 q)
    refine ⟨rfl, ?_, fun _ _ => rfl, ?_, fun _ _ => rfl⟩
    · intro m hm h; rw [List.mem_singleton] at hm; subst hm; exact absurd h hC
    · intro m hm h; rw [List.mem_singleton] at hm; subst hm; exact absurd h hC

/-- What a tick does to a lane depends on the lane and its frames. -/
theorem LaneTicked.congr {s z : State} {l : LaneId} {y : Lane} (h : LaneTicked z l y) (hl : z.lane l = s.lane l)
    (hf : ∀ i < (s.descriptor l).frameCount, z.frame l i = s.frame l i) : LaneTicked s l y := by
  have hd : z.descriptor l = s.descriptor l := by unfold State.descriptor; rw [hl]
  have due : dueFrames z l = dueFrames s l := by
    unfold dueFrames; rw [hd]
    exact List.filter_congr fun i hi => by rw [hf i (List.mem_range.mp hi)]
  have dm : ∀ i ∈ dueFrames s l, z.frame l i = s.frame l i := fun i hi => hf i (List.mem_range.mp (List.mem_filter.mp hi).1)
  have ex : ∀ (P : Nat → Prop) (Q : Nat → Prop), (∀ i ∈ dueFrames s l, P i ↔ Q i) → ((∃ i ∈ dueFrames s l, P i) ↔ ∃ i ∈ dueFrames s l, Q i) :=
    fun P Q h => ⟨fun ⟨i, a, b⟩ => ⟨i, a, (h i a).1 b⟩, fun ⟨i, a, b⟩ => ⟨i, a, (h i a).2 b⟩⟩
  refine ⟨?_, ?_, ?_, ?_, ?_, ?_, ?_, ?_⟩
  · rw [← hl]; exact h.rest
  · rw [← hl, ← due]; exact h.causes
  · rw [← hl, ← due]; exact h.stats
  · rw [← hl, ← due]; exact h.reclaim
  · rw [h.former, hl, due]
    congr 1
    exact List.map_congr_left fun i hi => by rw [dm i hi]
  · intro r
    rw [h.checkout, hl, due]
    congr 1
    exact List.countP_congr fun i hi => by rw [dm i hi]
  · intro r
    rw [h.producer, hl, hd, due]
    have := ex (fun i => (z.frame l i).standing = .held r (some 1) ∧ (s.lane l).producerBinding r = some ((s.descriptor l).recordOf i))
      (fun i => (s.frame l i).standing = .held r (some 1) ∧ (s.lane l).producerBinding r = some ((s.descriptor l).recordOf i)) (fun i hi => by rw [dm i hi])
    simp only [this]
  · intro r
    rw [h.consumer, hl, hd, due]
    have := ex (fun i => (z.frame l i).standing = .taken r (some 1) ∧ (s.lane l).consumerBinding r = some ((s.descriptor l).recordOf i))
      (fun i => (s.frame l i).standing = .taken r (some 1) ∧ (s.lane l).consumerBinding r = some ((s.descriptor l).recordOf i)) (fun i hi => by rw [dm i hi])
    simp only [this]

/-- The slices in force lie within the records. -/
theorem descriptor_fits {s : State} (h : SlicesHeld s) (l : LaneId) : (s.descriptor l).firstRecord + (s.descriptor l).frameCount ≤ 4096 := by
  unfold State.descriptor Lane.descriptor
  cases hd : (s.lane l).desc with
  | none => simp [Descriptor.absent]
  | some d => exact h.fits l d hd

/-- The slices in force are apart. -/
theorem descriptor_apart {s : State} (h : SlicesHeld s) {l m : LaneId} (hlm : l ≠ m) {i j : Nat} (hi : i < (s.descriptor l).frameCount)
    (hj : j < (s.descriptor m).frameCount) : (s.descriptor l).recordOf i ≠ (s.descriptor m).recordOf j := by
  refine recordOf_apart (descriptor_fits h l) (descriptor_fits h m) ?_ hi hj
  unfold State.descriptor Lane.descriptor at *
  cases hd : (s.lane l).desc with
  | none => rw [hd] at hi; simp [Descriptor.absent] at hi
  | some d =>
    cases he : (s.lane m).desc with
    | none => rw [he] at hj; simp [Descriptor.absent] at hj
    | some e => exact h.apart l m d e hlm hd he

/-- A tick changes no lane state and no copy. -/
theorem LaneTicked.state {s : State} {l : LaneId} {y : Lane} (h : LaneTicked s l y) : y.state = (s.lane l).state ∧ y.desc = (s.lane l).desc := by
  rw [h.rest]; exact ⟨rfl, rfl⟩

/-- A tick changes no lane state and no copy. -/
theorem TickedOn.lane_kept {ls : List LaneId} {s x : State} (h : TickedOn ls s x) (l : LaneId) : (x.lane l).state = (s.lane l).state ∧ (x.lane l).desc = (s.lane l).desc := by
  by_cases q : l ∈ ls ∧ Counts (s.lane l).state
  · exact (h.lanes l q.1 q.2).state
  · rw [h.others l (fun a b => q ⟨a, b⟩)]; exact ⟨rfl, rfl⟩

/-- A tick keeps the slices. -/
theorem TickedOn.slicesHeld {ls : List LaneId} {s x : State} (h : TickedOn ls s x) (k : SlicesHeld s) : SlicesHeld x where
  off l a := by rw [(h.lane_kept l).2]; exact k.off l (by rw [← (h.lane_kept l).1]; exact a)
  fits l d a := k.fits l d (by rw [← (h.lane_kept l).2]; exact a)
  apart l m d e n a b := k.apart l m d e n (by rw [← (h.lane_kept l).2]; exact a) (by rw [← (h.lane_kept m).2]; exact b)

/-- A tick reaches the lanes one after the other. -/
theorem tick_lanes (ls : List LaneId) (hn : ls.Nodup) (s : State) (k : SlicesHeld s) : TickedOn ls s (ls.foldl State.tickLane s) := by
  induction ls generalizing s with
  | nil => exact ⟨rfl, by simp, fun _ _ => rfl, by simp, fun _ _ => rfl⟩
  | cons l ls ih =>
    obtain ⟨hl, hn⟩ := List.nodup_cons.mp hn
    rw [List.foldl_cons]
    have a := tickLane_on s l (descriptor_fits k l)
    have b := ih hn (s.tickLane l) (a.slicesHeld k)
    generalize s.tickLane l = z at a b ⊢
    generalize ls.foldl State.tickLane z = x at b ⊢
    have zo : ∀ m, m ≠ l → z.lane m = s.lane m := fun m hm => a.others m fun q => absurd (List.mem_singleton.mp q) hm
    have zd : ∀ m, z.descriptor m = s.descriptor m := fun m => by unfold State.descriptor Lane.descriptor; rw [(a.lane_kept m).2]
    have zst : ∀ m, (z.lane m).state = (s.lane m).state := fun m => (a.lane_kept m).1
    have zf : ∀ m, m ≠ l → ∀ i < (s.descriptor m).frameCount, z.frame m i = s.frame m i := fun m hm i hi => by
      unfold State.frame
      rw [zd m]
      refine a.records _ fun q hq _ j hj => ?_
      rw [List.mem_singleton] at hq; subst hq
      exact descriptor_apart k hm.symm hj hi
    have ne : ∀ m ∈ ls, m ≠ l := fun m hm q => hl (q ▸ hm)
    have xl : x.lane l = z.lane l := b.others l fun q => absurd q hl
    refine ⟨?_, ?_, ?_, ?_, ?_⟩
    · rw [b.rest, a.rest]
    · intro m hm hc
      rcases List.mem_cons.mp hm with rfl | hm
      · rw [xl]; exact a.lanes m (List.mem_singleton.mpr rfl) hc
      · have := b.lanes m hm (by rw [zst m]; exact hc)
        exact this.congr (zo m (ne m hm)) (zf m (ne m hm))
    · intro m hm
      rw [b.others m fun q => by rw [zst m]; exact hm (List.mem_cons_of_mem _ q)]
      exact a.others m fun q => hm (List.mem_singleton.mp q ▸ List.mem_cons_self ..)
    · intro m hm hc i hi
      rcases List.mem_cons.mp hm with rfl | hm
      · rw [b.records _ fun q hq _ j hj => ?_, a.slices m (List.mem_singleton.mpr rfl) hc i hi]
        rw [zd q] at hj ⊢
        exact descriptor_apart k (ne q hq) hj hi
      · have := b.slices m hm (by rw [zst m]; exact hc) i (by rw [zd m]; exact hi)
        rw [zd m, zf m (ne m hm) i hi] at this
        exact this
    · intro n h
      rw [b.records n fun m hm hc i hi => by
        rw [zd m] at hi ⊢
        exact h m (List.mem_cons_of_mem _ hm) (by rw [← zst m]; exact hc) i hi]
      exact a.records n fun m hm hc i hi => h m (List.mem_singleton.mp hm ▸ List.mem_cons_self ..) hc i hi

end Sys2Proof.Machine
end

