-- ==== Sys2Proof/Laws/Validate.lean ====
section
/-! SUPPORT. The ends of the Command Unit's accesses and the validation of a descriptor (R76 to R79, R149, R155) in the statements' words. -/

namespace Sys2Proof.Machine

/-- The writer after its write has completed (R164). -/
theorem writerCompleted_eq (w : Writer) : w.completed = writerDone w := by cases w <;> rfl

/-- A failed write of the Status Record or of RESULT (R149). -/
theorem recordFailed_none (s : State) (addr : Addr) (data : Word) :
    s.recordFailed none addr data .error = { s.trapReport (ownError none addr .write data) with memoryPending := true } := rfl

/-- A failed write of a Lane Status Record (R149). -/
theorem recordFailed_lane (s : State) (l : LaneId) (addr : Addr) (data : Word) :
    s.recordFailed (some l) addr data .error = { (s.setLane l (counted (s.lane l))).trapReport (ownError (some l) addr .write data) with memoryPending := true } := by
  simp only [State.recordFailed, State.report, memoryErrorReport, State.updLane]
  rw [takeFault_part rfl]
  rfl

/-- A Global Record with the signature is valid (R155). -/
theorem validGlobals_ok {ws : Vector Word 16} (h : ws[0] = 0x514C3136#32) : validGlobals (.okay ws) = some (settingsOf ws) := by
  exact if_pos h

/-- A Global Record with another signature is not (R155). -/
theorem validGlobals_bad {ws : Vector Word 16} (h : ws[0] ≠ 0x514C3136#32) : validGlobals (.okay ws) = none := by
  exact if_neg h

/-- A failed DESC_READ is reported for its lane (R149). -/
theorem error_read (s : State) (l : LaneId) (addr : Addr) {α : Type} : s.reportReadError (some l) addr (.error : DResp α) =
    (s.setLane l (counted (s.lane l))).trapReport (ownError (some l) addr .read 0xFFFFFFFF#32) := by
  simp only [State.reportReadError, State.report, memoryErrorReport, State.updLane]
  rw [takeFault_part rfl]
  rfl

/-- The copies in force of the lanes not in OFF. -/
theorem openDescriptors_mem (s : State) (e : Descriptor) : e ∈ s.openDescriptors ↔
    ∃ m, (s.lane m).state ≠ .off ∧ (s.lane m).desc = some e := by
  unfold State.openDescriptors
  rw [List.mem_filterMap]
  constructor
  · rintro ⟨m, -, h⟩
    by_cases q : (s.lane m).state = .off
    · simp [q] at h
    · simp only [q, if_false] at h; exact ⟨m, q, h⟩
  · rintro ⟨m, q, h⟩
    exact ⟨m, mem_allLanes m, by simp only [q, if_false]; exact h⟩

/-- Two ranges that do not overlap are apart. -/
theorem overlaps_iff (a b : Range) : a.overlaps b = false ↔ RangesApart a b := by
  unfold Range.overlaps RangesApart
  rw [Bool.and_eq_false_iff, decide_eq_false_iff_not, decide_eq_false_iff_not, Nat.not_le, Nat.not_le, or_comm]

/-- The ranges of a list are pairwise apart. -/
theorem rangesApart_iff (rs : List Range) : rangesApart rs = true ↔ rs.Pairwise RangesApart := by
  induction rs with
  | nil => simp [rangesApart]
  | cons a as ih =>
    simp only [rangesApart, Bool.and_eq_true, List.pairwise_cons, ih, Bool.not_eq_true', List.any_eq_false, ← overlaps_iff,
      Bool.not_eq_true]

/-- Step 6 of the validation passes (R78). -/
theorem sliceTaken_iff (s : State) (d : Descriptor) : s.sliceTaken d = false ↔ SliceFree s d := by
  unfold State.sliceTaken
  rw [Bool.or_eq_false_iff, decide_eq_false_iff_not, Nat.not_lt, List.any_eq_false]
  constructor
  · rintro ⟨a, b⟩
    refine ⟨a, fun m e q h => ?_⟩
    have := b e ((openDescriptors_mem s e).2 ⟨m, q, h⟩)
    unfold Descriptor.sliceOverlaps at this
    unfold SlicesApart
    simp at this
    omega
  · rintro ⟨a, b⟩
    refine ⟨a, fun e h => ?_⟩
    obtain ⟨m, q, h⟩ := (openDescriptors_mem s e).1 h
    have := b m e q h
    unfold Descriptor.sliceOverlaps
    unfold SlicesApart at this
    simp
    omega

/-- Step 7 of the validation passes (R78). -/
theorem regionTaken_iff (s : State) (d : Descriptor) : s.regionTaken d = false ↔ RegionsFree s d := by
  unfold State.regionTaken
  rw [Bool.or_eq_false_iff, Bool.not_eq_false', rangesApart_iff, List.any_eq_false]
  constructor
  · rintro ⟨a, b⟩
    refine ⟨a, fun r hr => ?_, fun m e q h r hr x hx => ?_⟩
    · have := b r hr
      rw [Bool.not_eq_true, Bool.or_eq_false_iff, overlaps_iff] at this
      exact this.1
    · have := b r hr
      rw [Bool.not_eq_true, Bool.or_eq_false_iff, List.any_eq_false] at this
      have := this.2 e ((openDescriptors_mem s e).2 ⟨m, q, h⟩)
      rw [Bool.not_eq_true, List.any_eq_false] at this
      have := this x hx
      rw [Bool.not_eq_true, overlaps_iff] at this
      exact this
  · rintro ⟨a, b, c⟩
    refine ⟨a, fun r hr => ?_⟩
    rw [Bool.not_eq_true, Bool.or_eq_false_iff, overlaps_iff, List.any_eq_false]
    refine ⟨b r hr, fun e h => ?_⟩
    obtain ⟨m, q, h⟩ := (openDescriptors_mem s e).1 h
    rw [Bool.not_eq_true, List.any_eq_false]
    intro x hx
    rw [Bool.not_eq_true, overlaps_iff]
    exact c m e q h r hr x hx

/-- The values are in range (R77). -/
theorem fieldsOk_iff (d : Descriptor) : d.fieldsOk = true ↔ FieldsInRange d := by
  unfold Descriptor.fieldsOk
  simp only [Bool.and_eq_true, decide_eq_true_eq]
  exact ⟨fun ⟨⟨⟨a, b⟩, c⟩, e⟩ => ⟨⟨a, b⟩, c, e⟩, fun ⟨⟨a, b⟩, c, e⟩ => ⟨⟨⟨a, b⟩, c⟩, e⟩⟩

/-- The bases are aligned (R77). -/
theorem aligned_iff (d : Descriptor) : d.aligned = true ↔ BasesAligned d := by
  unfold Descriptor.aligned
  simp only [Bool.and_eq_true, decide_eq_true_eq]
  exact ⟨fun ⟨⟨⟨a, b⟩, c⟩, e⟩ => ⟨a, b, c, e⟩, fun ⟨a, b, c, e⟩ => ⟨⟨⟨a, b⟩, c⟩, e⟩⟩

/-- The frame size codes that name nothing (R169). -/
theorem frameSizeOf_none (n : Nat) : frameSizeOf n = none ↔ 6 ≤ n := by
  unfold frameSizeOf; split <;> simp_all <;> omega

/-- The ring size code that names nothing (R169). -/
theorem ringSizeOf_none (n : Nat) (h : n < 8) : ringSizeOf n = none ↔ n = 7 := by
  unfold ringSizeOf; split <;> simp_all <;> omega

/-- The guard code that names nothing (R169). -/
theorem guardOf_none (n : Nat) (h : n < 4) : guardOf n = none ↔ n = 3 := by
  unfold guardOf; split <;> simp_all <;> omega

/-- A code of the descriptor names nothing (R77). -/
theorem descriptorOf_none (ws : Vector Word 16) : descriptorOf ws = none ↔ BadCodes ws := by
  have a := frameSizeOf_none (field ws[8] 12 3)
  have b := ringSizeOf_none (field ws[9] 0 3) (BitVec.isLt _)
  have c := ringSizeOf_none (field ws[9] 4 3) (BitVec.isLt _)
  have d := guardOf_none (field ws[9] 28 2) (BitVec.isLt _)
  unfold BadCodes
  have e1 : (ws[9].extractLsb' 0 3 = 7#3) ↔ field ws[9] 0 3 = 7 := by
    rw [← BitVec.toNat_inj]; rfl
  have e2 : (ws[9].extractLsb' 4 3 = 7#3) ↔ field ws[9] 4 3 = 7 := by
    rw [← BitVec.toNat_inj]; rfl
  have e3 : (ws[9].extractLsb' 28 2 = 3#2) ↔ field ws[9] 28 2 = 3 := by
    rw [← BitVec.toNat_inj]; rfl
  rw [e1, e2, e3, ← b, ← c, ← d, show ((6 ≤ (ws[8].extractLsb' 12 3 : BitVec 3).toNat) ↔ 6 ≤ field ws[8] 12 3) from Iff.rfl, ← a]
  unfold descriptorOf
  cases h1 : frameSizeOf (field ws[8] 12 3) <;> cases h2 : ringSizeOf (field ws[9] 0 3) <;>
    cases h3 : ringSizeOf (field ws[9] 4 3) <;> cases h4 : guardOf (field ws[9] 28 2) <;> simp

/-- A base address from its two words (R169). -/
theorem baseOf_toNat (lo hi : Word) : (baseOf lo hi).toNat = lo.toNat + 2 ^ 32 * (hi.extractLsb' 0 4).toNat := by
  unfold baseOf
  rw [BitVec.toNat_append, ← Nat.shiftLeft_add_eq_or_of_lt lo.isLt, Nat.shiftLeft_eq]
  omega

/-- The frame sizes of the codes that name one (R169). -/
theorem frameSizeOf_some {n k : Nat} (h : frameSizeOf n = some k) : k = 64 * 2 ^ n := by
  unfold frameSizeOf at h; split at h <;> cases h <;> rfl
/-- The ring sizes of the codes that name one (R169). -/
theorem ringSizeOf_some {n k : Nat} (h : ringSizeOf n = some k) : k = 16 * 2 ^ n := by
  unfold ringSizeOf at h; split at h <;> cases h <;> rfl
/-- The guard levels of the codes that name one (R169). -/
theorem guardOf_some {b : BitVec 2} {g : Guard} (h : guardOf b.toNat = some g) : guardCode g = b := by
  apply BitVec.eq_of_toNat_eq
  unfold guardOf at h
  split at h <;> cases h <;> next e => exact e.symm

/-- The halt-on-fault set as copied (R73). -/
theorem haltSetOf_bit (w : Word) (k : Nat) : (haltSetOf w).getLsbD k = (decide (1 ≤ k ∧ k ≤ 10) && w.getLsbD k) := by
  unfold haltSetOf
  rw [BitVec.getLsbD_append]
  by_cases h : k < 1
  · have : k = 0 := by omega
    subst this; simp
  · rw [if_neg h, BitVec.getLsbD_extractLsb']
    by_cases h2 : k ≤ 10
    · simp [show k - 1 < 10 by omega, show 1 + (k - 1) = k by omega, show 1 ≤ k by omega, h2]
    · simp [show ¬ k - 1 < 10 by omega, h2]

/-- The words of a descriptor determine its copy (R169). -/
theorem CopiedFrom.unique {ws : Vector Word 16} {d e : Descriptor} (h : CopiedFrom ws d) (k : CopiedFrom ws e) : d = e := by
  have b : ∀ {x y : Addr} {n : Nat}, x.toNat = n → y.toNat = n → x = y := fun p q => BitVec.eq_of_toNat_eq (p.trans q.symm)
  have g : d.guard = e.guard := by
    have := h.guard.trans k.guard.symm
    cases hd : d.guard <;> cases he : e.guard <;> rw [hd, he] at this <;> first | rfl | exact absurd this (by decide)
  have m : d.haltSet = e.haltSet := BitVec.eq_of_getLsbD_eq fun i _ => (h.haltSet i).trans (k.haltSet i).symm
  obtain ⟨_, _, _, _, _, _, _, _, _, _, _, _, _, _, _, _, _, _⟩ := d
  obtain ⟨_, _, _, _, _, _, _, _, _, _, _, _, _, _, _, _, _, _⟩ := e
  simp only [Descriptor.mk.injEq]
  exact ⟨b h.portBase k.portBase, b h.frameBase k.frameBase, h.frameSize.trans k.frameSize.symm,
    h.frameCount.trans k.frameCount.symm, h.firstRecord.trans k.firstRecord.symm, b h.freeBase k.freeBase,
    h.freeSize.trans k.freeSize.symm, b h.workBase k.workBase, h.workSize.trans k.workSize.symm,
    h.producers.trans k.producers.symm, h.consumers.trans k.consumers.symm, h.limit.trans k.limit.symm,
    h.leaseTicks.trans k.leaseTicks.symm, h.renew.trans k.renew.symm, g, m, h.watermark.trans k.watermark.symm,
    h.enables.trans k.enables.symm⟩

/-- The copy a descriptor gives holds the values of its words (R73, R169). -/
theorem descriptorOf_copied {ws : Vector Word 16} {d : Descriptor} (h : descriptorOf ws = some d) : CopiedFrom ws d := by
  unfold descriptorOf at h
  cases h1 : frameSizeOf (field ws[8] 12 3) with
  | none => simp [h1] at h
  | some a =>
  cases h2 : ringSizeOf (field ws[9] 0 3) with
  | none => simp [h1, h2] at h
  | some b =>
  cases h3 : ringSizeOf (field ws[9] 4 3) with
  | none => simp [h1, h2, h3] at h
  | some c =>
  cases h4 : guardOf (field ws[9] 28 2) with
  | none => simp [h1, h2, h3, h4] at h
  | some g =>
    simp only [h1, h2, h3, h4, Option.bind_eq_bind, Option.bind_some, Option.pure_def, Option.some.injEq] at h
    subst h
    exact ⟨baseOf_toNat .., baseOf_toNat .., baseOf_toNat .., baseOf_toNat .., rfl, frameSizeOf_some h1, rfl,
      ringSizeOf_some h2, ringSizeOf_some h3, rfl, rfl, rfl, guardOf_some h4, rfl, rfl, rfl, haltSetOf_bit _, rfl⟩

/-- A descriptor whose codes all name something gives its copy (R77). -/
theorem descriptorOf_of {ws : Vector Word 16} {d : Descriptor} (h : ¬ BadCodes ws) (k : CopiedFrom ws d) :
    descriptorOf ws = some d := by
  cases e : descriptorOf ws with
  | none => exact absurd ((descriptorOf_none ws).1 e) h
  | some x => rw [(descriptorOf_copied e).unique k]

end Sys2Proof.Machine
end

