-- ==== Sys2Proof/Tests/Slice0.lean ====
section
/-! SUPPORT. The tests: the well-formedness checks, one or two small steps of each command, and for each statement with
hypotheses a state and operands that meet them, clause by clause. -/

namespace Sys2Proof.Tests

open Sys2Proof Sys2Proof.Machine

set_option Elab.async false

/-! ### Well-formedness: each check refuses a term -/

def rd (r : Requester) (addr : Addr) (n : Nat) : Txn := { requester := r, addr := addr, body := .read n }
def wr (r : Requester) (addr : Addr) (w : Word) : Txn :=
  { requester := r, addr := addr, body := .write [{ data := w, enables := 0b1111#4 }] }
def halfWr (r : Requester) (addr : Addr) : Txn :=
  { requester := r, addr := addr, body := .write [{ data := 0#32, enables := 0b0011#4 }] }

theorem test_wf_no_words : (Instr.passthroughTransaction (rd 0 0#36 0)).wf = false := by decide
theorem test_wf_too_many_words : (Instr.frameAccess (rd 0 0#36 17)).wf = false := by decide
theorem test_wf_misaligned : (Instr.apertureAccess (rd 0 2#36 1)).wf = false := by decide
theorem test_wf_not_a_write : (Instr.controlWrite (rd 0 0#36 1)).wf = false := by decide
theorem test_wf_ring_write_is_a_write : (Instr.ringRegionWrite (rd 0 0#36 1)).wf = false := by decide
theorem test_wf_undefined_access : (Instr.portUndefinedAccess (rd 0 1#36 1)).wf = false := by decide
theorem test_wf_port_base : (Instr.acquire 0 0x1000#36).wf = false ∧ (Instr.post 0 0x1000#36 0#32).wf = false ∧
    (Instr.postUrgent 0 0x1000#36 0#32).wf = false ∧ (Instr.release 0 0x1000#36 0#32).wf = false ∧
    (Instr.take 0 0x1000#36).wf = false ∧ (Instr.peek 0 0x1000#36).wf = false ∧
    (Instr.count 0 0x1000#36).wf = false := by decide
theorem test_wf_accepts : (Instr.controlWrite (wr 0 0x40#36 0#32)).wf = true ∧ (Instr.acquire 0 0x2000#36).wf = true ∧
    (Instr.passthroughTransaction (rd 7 0xFFFFFFFFC#36 16)).wf = true := by decide
theorem test_ill_formed_is_refused : exec (.passthroughTransaction (rd 0 0#36 0)) State.reset = .refused .notATransaction := rfl
theorem test_no_row_has_bits : decodeTableWord 32 0 = none ∧ State.reset.withFetchWord 32 0 = State.reset := ⟨rfl, rfl⟩

/-! ### Small states -/

def desc : Descriptor :=
  { portBase := 0x100000#36, frameBase := 0x200000#36, frameSize := 64, frameCount := 2, firstRecord := 0,
    freeBase := 0x300000#36, freeSize := 16, workBase := 0x400000#36, workSize := 16, producers := 0b00000001#8,
    consumers := 0b00000010#8, limit := 1, leaseTicks := 3, renew := true, guard := .write, haltSet := 0#11,
    watermark := 1, enables := 0b111111#6 }

def ring (base : Addr) (count : Nat) : Ring :=
  { Ring.reset with geom := some { base := base, size := 16 }, count := count, tail := count }

/-- A lane with two frames, one in each ring. -/
def lane (st : LaneState) : Lane :=
  { Lane.reset with state := st, desc := some desc, freeRing := ring 0x300000#36 1, workRing := ring 0x400000#36 1 }

def settings : Globals := { tickPeriod := 2#16, memoryTimeout := 5#16, enableTrap := true, enableMemory := true }

/-- ACTIVE with lane 0 as given. -/
def world (ln : Lane) : State :=
  { State.reset with part := .active, globals := some settings, writer := .writing .queued,
                     lanes := State.reset.lanes.set 0 ln }

def opened : State := world (lane .opened)
def frame0 (st : Standing) (s : State) : State := s.setRecord 0 { standing := st, gen := 0#4 }
def command (w : Word) (s : State) : State := { s with cmd := some { word := w, phase := .ready } }
def flying (q : EngineReq) (s : State) : State :=
  { s with inflight := [{ access := .engine q, words := [7#32], timer := some { limit := 5, elapsed := 0 }, late := false }] }
def full (s : State) : State :=
  { s with passQ := List.replicate 32 { txn := rd 0 0#36 1, lane := none, cmd := false } }
def crowded (s : State) : State := { s with engQ := List.replicate 15 .globalRead }
def after (o : Host.Outcome State Fault Refusal) : State :=
  match o with
  | .next t => t
  | _ => State.reset

abbrev port : Addr := 0x100000#36
def entry0 (k : EntryKind) : Word :=
  Entry.word { index := 0#10, gen := 0#4, length := 0#10, origin := 0#3, kind := k, urgent := false }

theorem uport_world (ln : Lane) (r : Requester) : (world ln).uport r = UPort.reset := Vector.getElem_replicate r.isLt
theorem listens (ln : Lane) (r : Requester) : Listens (world ln) r :=
  ⟨fun h => (nomatch (show PartState.active = .heldInReset from h)), by rw [uport_world]; decide⟩

theorem arrives_acquire (r : Requester) (base : Addr) : Arrives (.acquire r base) (portRead r base 0x1000) :=
  .inr (.inr (.inr (.inr (.inr ⟨r, base, .inl ⟨rfl, rfl⟩⟩))))
theorem arrives_take (r : Requester) (base : Addr) : Arrives (.take r base) (portRead r base 0x1010) :=
  .inr (.inr (.inr (.inr (.inr ⟨r, base, .inr (.inl ⟨rfl, rfl⟩)⟩))))
theorem arrives_peek (r : Requester) (base : Addr) : Arrives (.peek r base) (portRead r base 0x1014) :=
  .inr (.inr (.inr (.inr (.inr ⟨r, base, .inr (.inr (.inl ⟨rfl, rfl⟩))⟩))))
theorem arrives_count (r : Requester) (base : Addr) : Arrives (.count r base) (portRead r base 0x1018) :=
  .inr (.inr (.inr (.inr (.inr ⟨r, base, .inr (.inr (.inr (.inl ⟨rfl, rfl⟩)))⟩))))
theorem arrives_post (r : Requester) (base : Addr) (w : Word) : Arrives (.post r base w) (portWrite r base 0x1004 w) :=
  .inr (.inr (.inr (.inr (.inr ⟨r, base, .inr (.inr (.inr (.inr ⟨w, .inl ⟨rfl, rfl⟩⟩)))⟩))))
theorem arrives_postUrgent (r : Requester) (base : Addr) (w : Word) :
    Arrives (.postUrgent r base w) (portWrite r base 0x1008 w) :=
  .inr (.inr (.inr (.inr (.inr ⟨r, base, .inr (.inr (.inr (.inr ⟨w, .inr (.inl ⟨rfl, rfl⟩)⟩)))⟩))))
theorem arrives_release (r : Requester) (base : Addr) (w : Word) :
    Arrives (.release r base w) (portWrite r base 0x100C w) :=
  .inr (.inr (.inr (.inr (.inr ⟨r, base, .inr (.inr (.inr (.inr ⟨w, .inr (.inr ⟨rfl, rfl⟩)⟩)))⟩))))

/-! ### Small steps -/

theorem test_release_of_reset : (after (exec (.resetReleaseLoading 3#20) State.reset)).engQ = [.globalRead] ∧
    (after (exec (.resetReleaseBypass 3#20) State.reset)).part = .bypass := by decide +kernel
theorem test_start_up : let s := after (exec .arbiterGrant (after (exec (.resetReleaseLoading 3#20) State.reset)))
    (after (exec (.globalReadCompletion (.okay (Vector.replicate 16 0x514C3136#32))) s)).part = .active := by
  decide +kernel
theorem test_acquire : (after (exec (.acquire 0 port) opened)).engQ = [.ringRead 0 .acquire 0 0x300000#36] := by
  decide +kernel
theorem test_acquire_commit :
    let t := after (exec (.acquireCommit (.okay (entry0 .primed)))
      (flying (.ringRead 0 .acquire 0 0x300000#36) (frame0 .free opened)))
    (t.record 0).standing = .held 0 (some 3) ∧ (t.lane 0).freeRing.count = 0 ∧ (t.lane 0).causes = 0b000010#6 := by
  decide +kernel
theorem test_post : let t := after (exec (.post 0 port 0#32) (frame0 (.held 0 (some 3)) opened))
    (t.record 0).standing = .queued ∧ t.engQ.length = 1 ∧ (t.lane 0).workRing.count = 2 := by decide +kernel
theorem test_take_commit :
    ((after (exec (.takeCommit (.okay (entry0 .posted)))
      (flying (.ringRead 0 .take 1 0x400000#36) (frame0 .queued opened)))).record 0).standing = .taken 1 (some 3) := by
  decide +kernel
theorem test_release : let t := after (exec (.release 1 port 0#32) (frame0 (.taken 1 (some 3)) opened))
    t.record 0 = { standing := .free, gen := 1#4 } ∧ (t.lane 0).freeRing.count = 2 := by decide +kernel
theorem test_bad_parity_halts :
    ((after (exec (.peekCompletion (.okay (entry0 .posted ^^^ 1#32)))
      (flying (.ringRead 0 .peek 1 0x400000#36) (frame0 .queued opened)))).lane 0).haltReason = .corrupt := by
  decide +kernel
theorem test_expiry : let t := after (exec (.leaseExpiry 0 0) (frame0 (.held 0 (some 1)) opened))
    t.record 0 = { standing := .reclaim, gen := 1#4 } ∧ (t.lane 0).freeRing.access = .writing := by decide +kernel
theorem test_timeout : let t := after (exec (.engineAccessTimeout 0) (flying .globalRead opened))
    t.inflight.map InFlight.late = [true] := by decide +kernel
theorem test_force_close : let t := after (exec .forceClose (command 0x03#32 opened))
    (t.lane 0).state = .off ∧ (t.lane 0).desc = none := by decide +kernel
theorem test_close_lane_waits : ((after (exec .closeLane (command 0x02#32 (frame0 .queued opened)))).lane 0).state = .closing := by
  decide +kernel
theorem test_bad_opcode : (after (exec .badOpcodeCommand (command 0x0D#32 opened))).engQ =
    [.resultWrite 0x0003D100#32 true] := by decide +kernel
theorem test_clock : (after (step opened)).divider = 1 ∧ (after (step (after (step opened)))).divider = 0 := by
  decide +kernel
theorem test_pin_reset : (after (exec .pinReset (flying .globalRead opened))).owed = 1 := by decide +kernel

/-! ### Witnesses: the hypotheses of the statements are met, clause by clause -/

def timed (s : State) : State :=
  { s with inflight := [{ access := .engine .globalRead, words := [], timer := some { limit := 5, elapsed := 4 }, late := false }] }
theorem only_first (a : InFlight) (i : Nat) (h : i ≠ 0) : ¬ RunsOut [a] i := by
  rintro ⟨b, t, e, -⟩
  cases i with
  | zero => exact h rfl
  | succ n => cases e

theorem test_witness_EmptyQueue :
    (opened.pending = [] ∧ opened.ticking = some 2 ∧ opened.divider + 1 < 2 ∧ counting opened = []) ∧
    (State.reset.ticking = none ∧ counting State.reset = []) ∧
    (({ opened with divider := 1 } : State).ticking = some 2 ∧ 2 ≤ ({ opened with divider := 1 } : State).divider + 1) ∧
    ((timed State.reset).ticking = none ∧ (timed State.reset).pending = [] ∧ RunsOut (counting (timed State.reset)) 0 ∧
      ∀ i, i ≠ 0 → ¬ RunsOut (counting (timed State.reset)) i) ∧
    ((timed opened).ticking = some 2 ∧ (timed opened).divider + 1 < 2 ∧ RunsOut (counting (timed opened)) 0 ∧
      ∀ i, i ≠ 0 → ¬ RunsOut (counting (timed opened)) i) := by
  refine ⟨by decide +kernel, by decide +kernel, by decide +kernel, ⟨rfl, rfl, ⟨_, _, rfl, rfl, by decide⟩, only_first _⟩,
    ⟨rfl, by decide, ⟨_, _, rfl, rfl, by decide⟩, only_first _⟩⟩

theorem test_witness_CommandsKeepTheQueue : exec .owedResponseDiscard State.reset = .next State.reset := rfl

theorem test_witness_WellFormedCommands : Instr.leaseTick.wf = true ∧
    exec (.frameAccess (rd 0 0#36 0)) opened = .refused .notATransaction := ⟨rfl, rfl⟩

theorem test_witness_Classification_inForce :
    (([0xFFF, 0x100000, 0x101FFF, 0x200000, 0x20007F, 0x300000, 0x30003F, 0x400000, 0x40003F].map opened.regionAt).map
      fun g => g.map Region.kind) = [some .control, some (.port 0), some (.port 0), some (.frame 0), some (.frame 0),
        some (.ring 0 .free), some (.ring 0 .free), some (.ring 0 .work), some (.ring 0 .work)] ∧
    [0x1000, 0xFFFFF, 0x102000, 0x1FFFFF, 0x200080, 0x2FFFFF, 0x300040, 0x3FFFFF, 0x400040].map opened.regionAt =
      List.replicate 9 none ∧
    ({ opened with part := .pass } : State).regionAt 0x100000 = none ∧
    (({ opened with part := .pass } : State).regionAt 0).map Region.kind = some .control ∧
    ({ opened with part := .loading } : State).regionAt 0 = none ∧
    ({ opened with part := .bypass } : State).regionAt 0 = none := by decide +kernel
theorem test_witness_Classification_ends :
    opened.classify (rd 0 0xFFFFFFFFC#36 2) = .split none ∧ opened.classify (rd 0 0x1000#36 16) = .plain ∧
    opened.classify (rd 0 0xFFFFC#36 2) = .split (some 0) ∧ opened.classify (rd 0 0xFFC#36 2) = .split none ∧
    opened.classify (rd 0 0x101FFC#36 2) = .split (some 0) := by decide +kernel
theorem test_witness_Classification_regions :
    opened.classify (rd 0 0xFFC#36 1) = .control ∧ opened.classify (rd 0 0x30003C#36 1) = .ring 0 .free ∧
    opened.classify (rd 0 0x200000#36 16) = .frame 0 ∧ opened.classify (rd 0 0x20003C#36 2) = .split (some 0) ∧
    (world { lane .opened with desc := some { desc with guard := .none } }).classify (rd 0 0x20003C#36 2) = .frame 0 := by
  decide +kernel
theorem test_witness_Classification_ports :
    opened.classify (rd 0 0x1007FC#36 1) = .producer 0 0x7FC ∧ opened.classify (rd 0 0x100800#36 1) = .consumer 0 0 ∧
    opened.classify (rd 0 0x1007FC#36 2) = .split (some 0) ∧ opened.classify (rd 0 0x100FFC#36 2) = .split (some 0) ∧
    opened.classify (rd 0 0x101000#36 1) = .portWord 0 0x1000 := by decide +kernel

theorem test_witness_Loading : Arrives (.passthroughTransaction (rd 0 0#36 1)) (rd 0 0#36 1) ∧ (rd 0 0#36 1).wf = true ∧
    Listens { opened with part := .loading } 0 ∧ ({ opened with part := .loading } : State).part = .loading :=
  ⟨.inl rfl, rfl, ⟨by decide, by decide +kernel⟩, rfl⟩

theorem test_witness_Unchecked_bypass : Listens { opened with part := .bypass } 0 ∧
    ({ opened with part := .bypass } : State).passQ.length < 32 := ⟨⟨by decide, by decide +kernel⟩, by decide⟩
theorem test_witness_Unchecked_classes : Classifies opened ∧ opened.classify (rd 0 0x1000#36 1) = .plain ∧
    opened.classify (rd 0 0#36 1) = .control ∧ (rd 0 0#36 1).dir = .read ∧
    opened.classify (rd 0 0x300000#36 1) = .ring 0 .free := ⟨.inl rfl, by decide +kernel⟩
theorem test_witness_Unchecked_full : Listens (full opened) 0 ∧ Classifies (full opened) ∧
    (full opened).classify (rd 0 0x1000#36 1) = .plain ∧ 32 ≤ (full opened).passQ.length :=
  ⟨⟨by decide, by decide +kernel⟩, .inl rfl, by decide +kernel, by decide +kernel⟩

theorem test_witness_Split : Arrives (.passthroughTransaction (rd 0 0xFFC#36 2)) (rd 0 0xFFC#36 2) ∧
    Listens opened 0 ∧ Classifies opened ∧ opened.classify (rd 0 0xFFC#36 2) = .split none :=
  ⟨.inl rfl, listens _ 0, .inl rfl, by decide +kernel⟩

theorem test_witness_ControlWrites_owned : Arrives (.controlWrite (wr 0 0x44#36 0#32)) (wr 0 0x44#36 0#32) ∧
    Listens opened 0 ∧ Classifies opened ∧ opened.classify (wr 0 0x44#36 0#32) = .control ∧
    TouchesOwned opened (wr 0 0x44#36 0#32) ∧ TouchesOwned opened (wr 0 0x4FC#36 0#32) :=
  ⟨.inr (.inr (.inr (.inr (.inl ⟨rfl, .inl rfl⟩)))), listens _ 0, .inl rfl, by decide +kernel,
    .inl (by unfold Touches; decide +kernel), .inr (by unfold Touches; decide +kernel)⟩
theorem test_witness_ControlWrites_command : opened.classify (halfWr 0 0x40#36) = .control ∧
    ¬ TouchesOwned opened (halfWr 0 0x40#36) ∧ Touches opened (halfWr 0 0x40#36) 0x040 0x043 ∧
    (halfWr 0 0x40#36).fullWord = none := by unfold TouchesOwned Touches; decide +kernel
theorem test_witness_ControlWrites_other : opened.classify (wr 0 0x48#36 0#32) = .control ∧
    ¬ TouchesOwned opened (wr 0 0x48#36 0#32) ∧ ¬ Touches opened (wr 0 0x48#36 0#32) 0x040 0x043 ∧
    opened.passQ.length < 32 ∧ 32 ≤ (full opened).passQ.length := by unfold TouchesOwned Touches; decide +kernel

theorem test_witness_CommandWrites : Arrives (.controlWrite (wr 0 0x40#36 1#32)) (wr 0 0x40#36 1#32) ∧
    Listens opened 0 ∧ Classifies opened ∧ opened.classify (wr 0 0x40#36 1#32) = .control ∧
    (wr 0 0x40#36 1#32).fullWord = some 1#32 ∧ ¬ TouchesOwned opened (wr 0 0x40#36 1#32) ∧
    Touches opened (wr 0 0x40#36 1#32) 0x040 0x043 ∧ opened.cmd = none ∧ opened.passQ.length < 32 :=
  ⟨.inr (.inr (.inr (.inr (.inl ⟨rfl, .inl rfl⟩)))), listens _ 0, .inl rfl, by unfold TouchesOwned Touches; decide +kernel⟩
theorem test_witness_CommandWrites_busy : Listens (command 1#32 opened) 0 ∧
    (command 1#32 opened).classify (wr 0 0x40#36 1#32) = .control ∧ (command 1#32 opened).cmd ≠ none :=
  ⟨⟨by decide, by decide +kernel⟩, by decide +kernel⟩

theorem test_witness_RingWrites : Arrives (.ringRegionWrite (wr 0 0x40003C#36 0#32)) (wr 0 0x40003C#36 0#32) ∧
    Listens opened 0 ∧ Classifies opened ∧ opened.classify (wr 0 0x40003C#36 0#32) = .ring 0 .work :=
  ⟨.inr (.inr (.inr (.inr (.inl ⟨rfl, .inr rfl⟩)))), listens _ 0, .inl rfl, by decide +kernel⟩

theorem test_witness_Frames_guarded : Arrives (.frameAccess (wr 0 0x200000#36 0#32)) (wr 0 0x200000#36 0#32) ∧
    Listens opened 0 ∧ Classifies opened ∧ opened.classify (wr 0 0x200000#36 0#32) = .frame 0 ∧
    ¬ GuardAllows opened 0 (wr 0 0x200000#36 0#32) :=
  ⟨.inr (.inl rfl), listens _ 0, .inl rfl, by decide +kernel, by unfold GuardAllows; decide +kernel⟩
theorem test_witness_Frames_allowed : GuardAllows (frame0 (.held 0 (some 1)) opened) 0 (wr 0 0x200000#36 0#32) ∧
    (frame0 (.held 0 (some 1)) opened).classify (wr 0 0x200000#36 0#32) = .frame 0 ∧
    Renewing (frame0 (.held 0 (some 1)) opened) 0 ∧
    ((frame0 (.held 0 (some 1)) opened).frame 0 0).standing.holder = some 0 ∧
    desc.framesTouched (wr 0 0x200000#36 0#32) = [0] ∧
    GuardAllows (full (frame0 (.held 0 (some 1)) opened)) 0 (wr 0 0x200000#36 0#32) := by
  unfold GuardAllows Renewing; decide +kernel

def bound : State := world { lane .opened with prodBind := (Vector.replicate 8 none).set 0 (some 1) }
theorem test_witness_Apertures_none : Arrives (.apertureAccess (rd 0 0x100000#36 1)) (rd 0 0x100000#36 1) ∧
    Listens opened 0 ∧ opened.classify (rd 0 0x100000#36 1) = .producer 0 0 ∧ (opened.lane 0).producerBinding 0 = none ∧
    (opened.lane 0).state ≠ .flushing ∧ ((world (lane .flushing)).lane 0).state = .flushing :=
  ⟨.inr (.inr (.inl rfl)), listens _ 0, by decide +kernel⟩
theorem test_witness_Apertures_bound : Listens bound 0 ∧ bound.classify (rd 0 0x10003C#36 1) = .producer 0 0x3C ∧
    (bound.lane 0).producerBinding 0 = some 1 ∧ 0x3C + 4 * 1 ≤ (bound.descriptor 0).frameSize ∧
    bound.classify (rd 0 0x100040#36 1) = .producer 0 0x40 ∧ (bound.descriptor 0).frameSize < 0x40 + 4 * 1 ∧
    (bound.descriptor 0).firstRecord ≤ 1 ∧ 32 ≤ (full bound).passQ.length := ⟨listens _ 0, by decide +kernel⟩

theorem at_port (t : Txn) (offset : Nat) (ln : Lane) (h : t.wf = true ∧ (world ln).classify t = .portWord 0 offset) :
    AtPort (world ln) 0 offset t := ⟨rfl, h.1, h.2⟩
theorem test_witness_Malformed : AtPort opened 0 0x1000 (rd 0 0x101000#36 2) ∧ AtPort opened 0 0x101C (rd 0 0x10101C#36 1) ∧
    AtPort opened 0 0x1004 (rd 0 0x101004#36 1) ∧ AtPort opened 0 0x1018 (wr 0 0x101018#36 0#32) ∧
    AtPort opened 0 0x1004 (halfWr 0 0x101004#36) :=
  ⟨at_port _ _ _ (by decide +kernel), at_port _ _ _ (by decide +kernel), at_port _ _ _ (by decide +kernel),
    at_port _ _ _ (by decide +kernel), at_port _ _ _ (by decide +kernel)⟩

theorem test_witness_LaneState (st : LaneState) (h : st ≠ .off) : Arrives (.acquire 0 port) (portRead 0 port 0x1000) ∧
    Listens (world (lane st)) 0 ∧ AtPort (world (lane st)) 0 0x1000 (portRead 0 port 0x1000) ∧
    PortWord 0x1000 (portRead 0 port 0x1000) .acquire ∧ ((world (lane st)).lane 0).state = st :=
  ⟨arrives_acquire 0 port, listens _ 0, at_port _ _ _ (by cases st <;> first | exact absurd rfl h | decide +kernel),
    .inl ⟨rfl, rfl, rfl⟩, by cases st <;> decide +kernel⟩
theorem test_witness_Role : LanePasses (opened.lane 0).state .take ∧ ¬ RoleAllows (opened.descriptor 0) 0 .take ∧
    AtPort opened 0 0x1010 (portRead 0 port 0x1010) ∧ PortWord 0x1010 (portRead 0 port 0x1010) .take :=
  ⟨.inl (by decide +kernel), by unfold RoleAllows; decide +kernel, at_port _ _ _ (by decide +kernel),
    .inr (.inl ⟨rfl, rfl, rfl⟩)⟩

theorem reaches {s : State} {c : Instr} {t : Txn} {op : PortOp} (offset : Nat) (a : Arrives c t)
    (h : s.part = .active ∧ t.wf = true ∧ s.classify t = .portWord 0 offset ∧ (s.lane 0).state = .opened ∧
      (s.uport t.requester).list.length < 32) (w : PortWord offset t op)
    (r : RoleAllows (s.descriptor 0) t.requester op) : Reaches s c t 0 op :=
  ⟨a, ⟨by rw [h.1]; decide, h.2.2.2.2⟩, ⟨offset, ⟨h.1, h.2.1, h.2.2.1⟩, w⟩, .inl h.2.2.2.1, r⟩

theorem port_post (w : Word) : PortWord 0x1004 (portWrite 0 port 0x1004 w) (.post w) :=
  .inr (.inr (.inr (.inr ⟨w, rfl, .inl ⟨rfl, rfl⟩⟩)))
theorem port_postUrgent (w : Word) : PortWord 0x1008 (portWrite 0 port 0x1008 w) (.postUrgent w) :=
  .inr (.inr (.inr (.inr ⟨w, rfl, .inr (.inl ⟨rfl, rfl⟩)⟩)))
theorem port_release (w : Word) : PortWord 0x100C (portWrite 1 port 0x100C w) (.release w) :=
  .inr (.inr (.inr (.inr ⟨w, rfl, .inr (.inr ⟨rfl, rfl⟩)⟩)))

/-- What makes a one-word access of lane 0 a port word in ACTIVE. -/
abbrev AtWord (s : State) (t : Txn) (offset : Nat) : Prop :=
  s.part = .active ∧ t.wf = true ∧ s.classify t = .portWord 0 offset ∧ (s.lane 0).state = .opened ∧
    (s.uport t.requester).list.length < 32

theorem reaches_post (st : Standing) (w : Word) (h : AtWord (frame0 st opened) (portWrite 0 port 0x1004 w) 0x1004) :
    Reaches (frame0 st opened) (.post 0 port w) (portWrite 0 port 0x1004 w) 0 (.post w) :=
  reaches 0x1004 (arrives_post 0 port w) h (port_post w)
    (show desc.producers.getLsbD 0 = true by decide)

theorem test_witness_Handles_post :
    (Reaches (frame0 .free opened) (.post 0 port 0x80000000#32) (portWrite 0 port 0x1004 0x80000000#32) 0 (.post 0x80000000#32)) ∧
    (Reaches (frame0 .free opened) (.post 0 port 2#32) (portWrite 0 port 0x1004 2#32) 0 (.post 2#32) ∧
      ((frame0 .free opened).descriptor 0).frameCount ≤ handleIndex 2#32) ∧
    (Reaches (frame0 .free opened) (.post 0 port 0x401#32) (portWrite 0 port 0x1004 0x401#32) 0 (.post 0x401#32) ∧
      handleIndex 0x401#32 < ((frame0 .free opened).descriptor 0).frameCount) ∧
    (HandleFound (frame0 .free opened) 0 0#32 ∧
      (frame0 .free opened).record (handleRecord (frame0 .free opened) 0 0#32) = { standing := .free, gen := 0#4 }) :=
  ⟨reaches_post _ _ (by decide +kernel), ⟨reaches_post _ _ (by decide +kernel), by decide +kernel⟩,
    ⟨reaches_post _ _ (by decide +kernel), by decide +kernel⟩,
    ⟨⟨by decide +kernel, by decide +kernel, by decide +kernel⟩, by decide +kernel⟩⟩
theorem test_witness_Handles_length :
    Reaches (frame0 (.held 0 none) opened) (.post 0 port 0x44000#32) (portWrite 0 port 0x1004 0x44000#32) 0 (.post 0x44000#32) ∧
    HandleFound (frame0 (.held 0 none) opened) 0 0x44000#32 ∧ ¬ LengthFits (frame0 (.held 0 none) opened) 0 0x44000#32 ∧
    LengthFits (frame0 (.held 0 none) opened) 0 0x40000#32 :=
  ⟨reaches_post _ _ (by decide +kernel), ⟨by decide +kernel, by decide +kernel, by decide +kernel⟩,
    by unfold LengthFits; decide +kernel⟩
theorem reaches_release (st : Standing) (h : AtWord (frame0 st opened) (portWrite 1 port 0x100C 0#32) 0x100C) :
    Reaches (frame0 st opened) (.release 1 port 0#32) (portWrite 1 port 0x100C 0#32) 0 (.release 0#32) :=
  reaches 0x100C (arrives_release 1 port 0#32) h (port_release 0#32)
    (.inr (show desc.consumers.getLsbD 1 = true by decide))
theorem test_witness_Releases : Reaches (frame0 (.taken 1 none) opened) (.release 1 port 0#32) (portWrite 1 port 0x100C 0#32) 0
      (.release 0#32) ∧ HandleFound (frame0 (.taken 1 none) opened) 0 0#32 ∧
    ((frame0 (.taken 1 none) opened).record 0).standing.holder = some 1 ∧ (opened.lane 0).freeRing.access = .idle ∧
    opened.engQ.length < 15 ∧ 15 ≤ (crowded opened).engQ.length :=
  ⟨reaches_release _ (by decide +kernel), ⟨by decide +kernel, by decide +kernel, by decide +kernel⟩, by decide +kernel⟩
theorem test_witness_Posts : HandleFound (frame0 (.held 0 (some 3)) opened) 0 0#32 ∧
    LengthFits (frame0 (.held 0 (some 3)) opened) 0 0#32 ∧
    Reaches (frame0 (.held 0 (some 3)) opened) (.postUrgent 0 port 0#32) (portWrite 0 port 0x1008 0#32) 0
      (if true then .postUrgent 0#32 else .post 0#32) ∧
    Reaches (frame0 (.held 0 (some 3)) opened) (.post 0 port 0#32) (portWrite 0 port 0x1004 0#32) 0
      (if false then .postUrgent 0#32 else .post 0#32) ∧
    ((frame0 (.held 0 (some 3)) opened).record 0).standing = .held 0 (some 3) ∧ (opened.lane 0).workRing.access = .idle ∧
    (opened.lane 0).workRing.count ≠ 16 :=
  ⟨⟨by decide +kernel, by decide +kernel, by decide +kernel⟩, by unfold LengthFits; decide +kernel,
    reaches 0x1008 (arrives_postUrgent 0 port 0#32) (by decide +kernel) (port_postUrgent 0#32)
      (show desc.producers.getLsbD 0 = true by decide),
    reaches_post _ _ (by decide +kernel), by decide +kernel⟩

theorem test_witness_Reads : Reaches opened (.acquire 0 port) (portRead 0 port 0x1000) 0 (readWord .acquire) ∧
    Reaches opened (.take 1 port) (portRead 1 port 0x1010) 0 (readWord .take) ∧
    Reaches opened (.peek 1 port) (portRead 1 port 0x1014) 0 (readWord .peek) ∧
    Reaches opened (.count 5 port) (portRead 5 port 0x1018) 0 .count :=
  ⟨reaches 0x1000 (arrives_acquire 0 port) (by decide +kernel) (.inl ⟨rfl, rfl, rfl⟩) (show desc.producers.getLsbD 0 = true by decide),
    reaches 0x1010 (arrives_take 1 port) (by decide +kernel) (.inr (.inl ⟨rfl, rfl, rfl⟩)) (show desc.consumers.getLsbD 1 = true by decide),
    reaches 0x1014 (arrives_peek 1 port) (by decide +kernel) (.inr (.inr (.inl ⟨rfl, rfl, rfl⟩))) (show desc.consumers.getLsbD 1 = true by decide),
    reaches 0x1018 (arrives_count 5 port) (by decide +kernel) (.inr (.inr (.inr (.inl ⟨rfl, rfl, rfl⟩)))) trivial⟩
theorem test_witness_Reads_outcomes : (opened.lane 0).checkedOut 0 < (opened.descriptor 0).limit ∧
    ((opened.lane 0).ring .free).access = .idle ∧ ((opened.lane 0).ring .free).count ≠ 0 ∧ opened.engQ.length < 15 ∧
    ((opened.lane 0).ring .free).geom = some { base := 0x300000#36, size := 16 } ∧
    (opened.descriptor 0).limit ≤ ((world { lane .opened with checkout := Vector.replicate 8 1 }).lane 0).checkedOut 0 ∧
    ((world { lane .opened with freeRing := ring 0x300000#36 0 }).lane 0).freeRing.count = 0 ∧
    15 ≤ (crowded opened).engQ.length := by decide +kernel

/-! Accesses that end -/

theorem ends (q : EngineReq) (s : State) (h : s.owed = 0) : NextEnds (flying q s) q [7#32] [] := ⟨h, _, rfl⟩
theorem none_waits (a : Await) (mk : Nat → Response) : Decides a mk [] [] := .inr ⟨by simp, rfl⟩
theorem one_waits (a : Await) (mk : Nat → Response) : Decides a mk [{ readLength := 1, standby := .waiting a }]
    [{ readLength := 1, standby := .decided (mk 1) }] := .inl ⟨[], _, [], rfl, by simp, rfl, rfl⟩

def acquiring : State := flying (.ringRead 0 .acquire 0 0x300000#36) (frame0 .free opened)
def taking : State := flying (.ringRead 0 .take 1 0x400000#36) (frame0 .queued opened)
theorem slot_free : SlotOk acquiring 0 .free (entry0 .primed) :=
  ⟨by decide +kernel, by decide +kernel, by decide +kernel, by decide +kernel, by decide +kernel, by decide +kernel⟩
theorem slot_work : SlotOk taking 0 .work (entry0 .posted) :=
  ⟨by decide +kernel, by decide +kernel, by decide +kernel, by decide +kernel, by decide +kernel, by decide +kernel⟩
theorem test_witness_Commits : NextEnds acquiring (.ringRead 0 .acquire 0 0x300000#36) [7#32] [] ∧
    SlotOk acquiring 0 .free (entry0 .primed) ∧ (acquiring.lane 0).checkedOut 0 < (acquiring.descriptor 0).limit ∧
    NextEnds taking (.ringRead 0 .take 1 0x400000#36) [7#32] [] ∧ SlotOk taking 0 .work (entry0 .posted) ∧
    (acquiring.uport 0).list = [] ∧ (acquiring.lane 0).freeRing.geom = some { base := 0x300000#36, size := 16 } :=
  ⟨ends _ _ rfl, slot_free, by decide +kernel, ends _ _ rfl, slot_work, by decide +kernel⟩
/-- Lane 0 open, its requesters at their checkout limit. -/
def limited : State := world { lane .opened with checkout := Vector.replicate 8 1 }
theorem test_witness_PastTheLimit :
    let s := flying (.ringRead 0 .acquire 0 0x300000#36) (frame0 .free limited)
    NextEnds s (.ringRead 0 .acquire 0 0x300000#36) [7#32] [] ∧ (s.descriptor 0).limit ≤ (s.lane 0).checkedOut 0 ∧
      SlotOk s 0 ReadOp.acquire.ring (entry0 .primed) :=
  ⟨ends _ _ rfl, by decide +kernel,
    ⟨by decide +kernel, by decide +kernel, by decide +kernel, by decide +kernel, by decide +kernel, by decide +kernel⟩⟩
theorem test_witness_PastTheLimit_take :
    let s := flying (.ringRead 0 .take 1 0x400000#36) (frame0 .queued limited)
    NextEnds s (.ringRead 0 .take 1 0x400000#36) [7#32] [] ∧ (s.descriptor 0).limit ≤ (s.lane 0).checkedOut 1 ∧
      SlotOk s 0 ReadOp.take.ring (entry0 .posted) :=
  ⟨ends _ _ rfl, by decide +kernel,
    ⟨by decide +kernel, by decide +kernel, by decide +kernel, by decide +kernel, by decide +kernel, by decide +kernel⟩⟩
theorem test_witness_Peek :
    let s := flying (.ringRead 0 .peek 1 0x400000#36) (frame0 .queued opened)
    NextEnds s (.ringRead 0 .peek 1 0x400000#36) [7#32] [] ∧ SlotOk s 0 ReadOp.peek.ring (entry0 .posted) ∧
      (s.uport 1).list = [] :=
  ⟨ends _ _ rfl,
    ⟨by decide +kernel, by decide +kernel, by decide +kernel, by decide +kernel, by decide +kernel, by decide +kernel⟩,
    by decide +kernel⟩
theorem test_witness_Fails : FailsWith acquiring (.acquireCommit .error) (.ringRead 0 .acquire 0 0x300000#36) [7#32] [] ∧
    FailsWith acquiring (.engineAccessTimeout 0) (.ringRead 0 .acquire 0 0x300000#36) [7#32]
      [{ access := .engine (.ringRead 0 .acquire 0 0x300000#36), words := [7#32], timer := none, late := true }] ∧
    ¬ SlotOk acquiring 0 .free (entry0 .posted) :=
  ⟨.inl ⟨rfl, ends _ _ rfl⟩, .inr ⟨0, { limit := 5, elapsed := 0 }, rfl, rfl, rfl⟩,
    fun h => absurd h.kind (by decide +kernel)⟩
def slot : SlotWrite := { requester := 0, addr := 0x400004#36, entry := 0#32, opData := 0#32, fence := 0 }
theorem test_witness_RingWrites_end : NextEnds (flying (.ringWrite 0 .work slot) opened) (.ringWrite 0 .work slot) [7#32] [] ∧
    NextEnds (flying (.reclaimWrite 0 0#36 0#32) opened) (.reclaimWrite 0 0#36 0#32) [7#32] [] ∧
    NextEnds (flying (.primeWrite 0 0#36 0#32) opened) (.primeWrite 0 0#36 0#32) [7#32] [] ∧
    FailsWith (flying (.primeWrite 0 0#36 0#32) opened) (.primeWriteCompletion .error) (.primeWrite 0 0#36 0#32) [7#32] [] ∧
    FailsWith (flying (.reclaimWrite 0 0#36 0#32) opened) (.reclaimWriteCompletion .error) (.reclaimWrite 0 0#36 0#32) [7#32] [] ∧
    FailsWith (flying (.ringWrite 0 .work slot) opened) (.slotWriteCompletion .error) (.ringWrite 0 .work slot) [7#32] [] :=
  ⟨ends _ _ rfl, ends _ _ rfl, ends _ _ rfl, .inl ⟨rfl, ends _ _ rfl⟩, .inl ⟨rfl, ends _ _ rfl⟩, .inl ⟨rfl, ends _ _ rfl⟩⟩
def passing : State :=
  { opened with inflight := [{ access := .pass { txn := wr 0 0#36 1#32, lane := none, cmd := false }, words := [], timer := none, late := false }] }
theorem test_witness_PassThrough : NextEndsPass passing { txn := wr 0 0#36 1#32, lane := none, cmd := false } [] ∧
    (passing.uport 0).list = [] := ⟨⟨rfl, _, _, _, rfl⟩, by decide +kernel⟩
theorem test_witness_Records : NextEnds (flying .statusWrite opened) .statusWrite [7#32] [] ∧
    NextEnds (flying (.laneStatusWrite 0 [7#32]) opened) (.laneStatusWrite 0 [7#32]) [7#32] [] ∧
    NextEnds (flying (.resultWrite 7#32 true) opened) (.resultWrite 7#32 true) [7#32] [] ∧
    FailsWith (flying .statusWrite opened) (.statusWriteCompletion .error) .statusWrite [7#32] [] ∧
    FailsWith (flying (.laneStatusWrite 0 [7#32]) opened) (.laneStatusWriteCompletion .error) (.laneStatusWrite 0 [7#32]) [7#32] [] ∧
    FailsWith (flying (.resultWrite 7#32 true) opened) (.resultWriteCompletion .error) (.resultWrite 7#32 true) [7#32] [] :=
  ⟨ends _ _ rfl, ends _ _ rfl, ends _ _ rfl, .inl ⟨rfl, ends _ _ rfl⟩, .inl ⟨rfl, ends _ _ rfl⟩, .inl ⟨rfl, ends _ _ rfl⟩⟩
def loading : State := { flying .globalRead State.reset with part := .loading }
def reloading : State := { flying .globalRead opened with cmd := some { word := 11#32, phase := .readingGlobals } }
theorem test_witness_GlobalReads : loading.part = .loading ∧ NextEnds loading .globalRead [7#32] [] ∧
    (Vector.replicate 16 0x514C3136#32)[0] = 0x514C3136#32 ∧ (Vector.replicate 16 0#32)[0] ≠ 0x514C3136#32 ∧
    FailsWith loading (.globalReadCompletion .error) .globalRead [7#32] [] ∧ NextEnds reloading .globalRead [7#32] [] ∧
    FailsWith reloading (.reloadGlobalsReadCompletion .error) .globalRead [7#32] [] :=
  ⟨rfl, ⟨rfl, _, rfl⟩, by decide, by decide, .inl ⟨rfl, rfl, _, rfl⟩, ⟨rfl, _, rfl⟩, .inl ⟨rfl, rfl, _, rfl⟩⟩

/-! Descriptors -/

def reading : State := { flying (.descRead 1) opened with cmd := some { word := 0x11#32, phase := .readingDescriptor } }
theorem test_witness_Descriptor_read : NextEnds reading (.descRead 1) [7#32] [] ∧
    FailsWith reading (.descReadCompletion .error) (.descRead 1) [7#32] [] ∧
    BadCodes ((Vector.replicate 16 0#32).set 8 0x6000#32) ∧ ¬ BadCodes (Vector.replicate 16 0#32) ∧
    (∃ d, descriptorOf (Vector.replicate 16 0#32) = some d ∧ ¬ FieldsInRange d) :=
  ⟨⟨rfl, _, rfl⟩, .inl ⟨rfl, rfl, _, rfl⟩, by unfold BadCodes; decide +kernel, by unfold BadCodes; decide +kernel,
    ⟨_, rfl, fun h => absurd h.count.1 (by decide +kernel)⟩⟩

/-- The words of a descriptor: port base, words 8 (frame count, first record) and 10 (masks) as given. -/
def words (portBase counts masks : Word) : Vector Word 16 :=
  #v[portBase, 0#32, 0x500000#32, 0#32, 0x700000#32, 0#32, 0x800000#32, 0#32, counts, 0x100#32, masks, 0#32, 0#32, 0#32, 0#32, 0#32]
def descOf (ws : Vector Word 16) : Descriptor := (descriptorOf ws).getD Descriptor.absent
def good : Vector Word 16 := words 0x600000#32 0x00100001#32 1#32

/-- A descriptor that gives a copy meets the premises of the statement about it. -/
theorem copied {ws : Vector Word 16} (h : (descriptorOf ws).isSome = true) : ¬ BadCodes ws ∧ CopiedFrom ws (descOf ws) := by
  obtain ⟨d, e⟩ := Option.isSome_iff_exists.mp h
  unfold descOf
  rw [e]
  exact ⟨fun b => by have := (descriptorOf_none ws).2 b; simp [e] at this, descriptorOf_copied e⟩
theorem test_witness_Descriptor_opens : (¬ BadCodes good ∧ CopiedFrom good (descOf good)) ∧ FieldsInRange (descOf good) ∧
    BasesAligned (descOf good) ∧ (descOf good).frameCount ≤ (descOf good).freeSize ∧ (descOf good).producers ≠ 0#8 ∧
    SliceFree reading (descOf good) ∧ RegionsFree reading (descOf good) :=
  ⟨copied (by decide +kernel), (fieldsOk_iff _).1 (by decide +kernel), (aligned_iff _).1 (by decide +kernel), by decide +kernel,
    by decide +kernel, (sliceTaken_iff _ _).1 (by decide +kernel), (regionTaken_iff _ _).1 (by decide +kernel)⟩
theorem test_witness_Descriptor_copied : [Vector.replicate 16 0#32, words 0x600004#32 0x00100001#32 1#32,
    words 0x600000#32 0x00100011#32 1#32, words 0x600000#32 0x00100001#32 0#32, words 0x600000#32 0x00010001#32 1#32,
    words 0x100000#32 0x00100001#32 1#32].all (fun ws => (descriptorOf ws).isSome) = true := by decide +kernel
theorem test_witness_Descriptor_refused :
    (let d := descOf (words 0x600004#32 0x00100001#32 1#32); FieldsInRange d ∧ ¬ BasesAligned d) ∧
    (let d := descOf (words 0x600000#32 0x00100011#32 1#32); FieldsInRange d ∧ BasesAligned d ∧ d.freeSize < d.frameCount) ∧
    (let d := descOf (words 0x600000#32 0x00100001#32 0#32)
     FieldsInRange d ∧ BasesAligned d ∧ d.frameCount ≤ d.freeSize ∧ d.producers = 0#8 ∧ d.consumers = 0#8) ∧
    (let d := descOf (words 0x600000#32 0x00010001#32 1#32)
     FieldsInRange d ∧ BasesAligned d ∧ d.frameCount ≤ d.freeSize ∧ ¬ SliceFree reading d) ∧
    (let d := descOf (words 0x100000#32 0x00100001#32 1#32)
     FieldsInRange d ∧ BasesAligned d ∧ d.frameCount ≤ d.freeSize ∧ SliceFree reading d ∧ ¬ RegionsFree reading d) := by
  simp only [← fieldsOk_iff, ← aligned_iff, ← sliceTaken_iff, ← regionTaken_iff]
  decide +kernel

/-! The queues -/

theorem test_witness_Arbiter : opened.part ≠ .heldInReset ∧ opened.inflight.length < 32 ∧
    (full opened).passQ = { txn := rd 0 0#36 1, lane := none, cmd := false } :: (full opened).passQ.tail ∧
    (full opened).engQ = [] ∧ (crowded opened).engQ = .globalRead :: (crowded opened).engQ.tail ∧ (crowded opened).passQ = [] ∧
    32 ≤ ({ opened with inflight := List.replicate 32 { access := .engine .globalRead, words := [], timer := none, late := false } }
      : State).inflight.length :=
  by decide +kernel
def reclaiming : State :=
  { world { lane .opened with reclaim := [{ frame := 1, former := 2 }] } with engQ := [.reclaimWrite 0 0x300004#36 0#32] }
theorem test_witness_Arbiter_reclaim : reclaiming.engQ = [.reclaimWrite 0 0x300004#36 0#32] ∧
    (reclaiming.lane 0).reclaim = [{ frame := 1, former := 2 }] ∧ reclaiming.passQ = [] ∧
    (reclaiming.lane 0).freeRing.geom = some { base := 0x300000#36, size := 16 } := by decide +kernel
theorem test_witness_Responses :
    ((opened.setUport 0 { list := [{ readLength := 0, standby := .decided .retry }], forwarded := 0 }).uport 0).list =
      [{ readLength := 0, standby := .decided .retry }] ∧
    ((opened.setUport 0 { list := [{ readLength := 0, standby := .waiting .pass }], forwarded := 0 }).uport 0).list =
      [{ readLength := 0, standby := .waiting .pass }] := by decide +kernel
def placeholder : InFlight := { access := .engine .globalRead, words := [], timer := none, late := true }
def late : State := { opened with inflight := [placeholder] }
theorem test_witness_Late : (late.owed = 0 ∧ late.inflight = placeholder :: [] ∧ placeholder.late = true) ∧
    LateFirst late ∧ 0 < ({ late with owed := 1 } : State).owed ∧
    (∀ a rest, (timed opened).inflight = a :: rest → a.late = false) ∧
    isCompletion (.globalReadCompletion .error) = true ∧ isCompletion (.slotWriteCompletion (.okay ())) = true :=
  ⟨⟨rfl, rfl, rfl⟩, ⟨_, _, _, _, rfl⟩, by decide, fun a rest h => by cases h; rfl, rfl, rfl⟩
def fencing : State := world { lane .opened with workRing := { ring 0x400000#36 1 with access := .writing, fenced := some slot } }
theorem test_witness_Waiting : reclaiming.engQ.length < 15 ∧ Begins reclaiming (.reclaimWriteStart 0) (.reclaim 0) ∧
    Counts (reclaiming.lane 0).state ∧ (reclaiming.lane 0).freeRing.access = .idle ∧
    Begins opened (.primeWriteStart 0) (.prime 0) ∧ ((world (lane .priming)).lane 0).state = .priming ∧
    ((world (lane .priming)).lane 0).primePos < ((world (lane .priming)).descriptor 0).frameCount ∧
    Begins opened .statusWritePlace .status ∧ ({ opened with writer := .writing .waiting } : State).writer = .writing .waiting ∧
    Begins opened (.laneStatusWritePlace 0) (.laneStatus 0) ∧
    ((world { lane .opened with lsrWaiting := true }).lane 0).lsrWaiting = true ∧
    Begins { fencing with waiting := [.fenced 0 .work] } .slotClaimPlace (.fenced 0 .work) ∧
    ((fencing.lane 0).ring .work).fenced = some slot ∧ slot.fence = 0 :=
  ⟨by decide, .inl ⟨0, rfl, rfl⟩, .inl (by decide +kernel), by decide +kernel, .inr (.inl ⟨0, rfl, rfl⟩),
    by decide +kernel, by decide +kernel, .inr (.inr (.inl ⟨rfl, rfl⟩)), rfl, .inr (.inr (.inr (.inl ⟨0, rfl, rfl⟩))),
    by decide +kernel, .inr (.inr (.inr (.inr ⟨rfl, rfl, [], rfl⟩))), by decide +kernel⟩
theorem test_witness_CommandUnit (c : CuCall) : ({ opened with cuCalls := [c] } : State).engQ.length < 16 ∧ (({ opened with cuCalls := [c] } : State).lane 0).lsrWaiting = false ∧
    ({ opened with cuCalls := [c] } : State).cuCalls = [c] :=
  ⟨(show opened.engQ.length < 16 by decide), (show (opened.lane 0).lsrWaiting = false by decide +kernel), rfl⟩

/-! Lanes and commands -/

theorem test_witness_Off : Drains (world (lane .closing)) 0 ∧ ¬ Drains opened 0 ∧
    TornDown (world (lane .flushing)) 0 ∧ ¬ TornDown opened 0 :=
  ⟨(drained_iff _ _).1 (by decide +kernel), mt (drained_iff _ _).2 (by decide +kernel),
    (flushed_iff _ _).1 (by decide +kernel), mt (flushed_iff _ _).2 (by decide +kernel)⟩
theorem ready (w : Word) (n : Nat) (s : State) (h : cmdOpcode w = n) : Ready (command w s) w n := ⟨rfl, h⟩
def passed (s : State) : State := { s with part := .pass }
theorem test_witness_NotActive : Ready (command 1#32 (passed opened)) 1#32 1 ∧ Ready (command 10#32 (passed opened)) 10#32 10 ∧
    (command 1#32 (passed opened)).part = .pass ∧ Ready (command 0#32 opened) 0#32 0 ∧ Ready (command 13#32 opened) 13#32 13 ∧
    Ready (command 15#32 opened) 15#32 15 :=
  ⟨ready _ _ _ rfl, ready _ _ _ rfl, rfl, ready _ _ _ rfl, ready _ _ _ rfl, ready _ _ _ rfl⟩
theorem test_witness_OpenLane : Ready (command 0x11#32 opened) 0x11#32 1 ∧ (opened.lane (cmdLane 0x11#32)).state = .off ∧
    Ready (command 0x01#32 opened) 0x01#32 1 ∧ (opened.lane (cmdLane 0x01#32)).state ≠ .off ∧ opened.part ≠ .pass :=
  ⟨ready _ _ _ rfl, by decide +kernel, ready _ _ _ rfl, by decide +kernel⟩
theorem test_witness_LaneCommands (st : LaneState) : ((world (lane st)).lane (cmdLane 4#32)).state = st ∧
    Ready (command 4#32 (world (lane st))) 4#32 4 ∧ Ready (command 5#32 (world (lane st))) 5#32 5 ∧
    Ready (command 6#32 (world (lane st))) 6#32 6 ∧ Ready (command 7#32 (world (lane st))) 7#32 7 ∧
    Ready (command 2#32 (world (lane st))) 2#32 2 ∧ Ready (command 3#32 (world (lane st))) 3#32 3 ∧
    (world (lane st)).part ≠ .pass :=
  ⟨by cases st <;> decide +kernel, ready _ _ _ rfl, ready _ _ _ rfl, ready _ _ _ rfl, ready _ _ _ rfl, ready _ _ _ rfl,
    ready _ _ _ rfl, (fun h => nomatch (show PartState.active = .pass from h))⟩
theorem test_witness_Lifts :
    (let ln := (world { lane .halted with haltReason := .policy }).lane (cmdLane 5#32)
     ln.state = .halted ∧ (ln.haltReason = .command ∨ ln.haltReason = .policy)) ∧
    (let ln := (world { lane .halted with haltReason := .memory }).lane (cmdLane 5#32)
     ln.state ≠ .paused ∧ ln.state ≠ .step ∧ ¬ (ln.state = .halted ∧ (ln.haltReason = .command ∨ ln.haltReason = .policy))) := by
  decide +kernel
theorem test_witness_Others : Ready (command 8#32 opened) 8#32 8 ∧ Ready (command 9#32 opened) 9#32 9 ∧
    Ready (command 10#32 opened) 10#32 10 ∧ Ready (command 11#32 (passed opened)) 11#32 11 ∧ Ready (command 12#32 opened) 12#32 12 :=
  ⟨ready _ _ _ rfl, ready _ _ _ rfl, ready _ _ _ rfl, ready _ _ _ rfl, ready _ _ _ rfl⟩
theorem test_witness_Clearing : ClearingDue { State.reset with cmd := some { word := 12#32, phase := .resetting } } 12#32 :=
  ⟨rfl, by decide +kernel⟩
theorem test_witness_Release : State.reset.part = .heldInReset := rfl

/-! Leases, trap and invariants -/

def leased : State := frame0 (.held 0 (some 1)) opened
theorem ticks_opened : Ticks opened := ⟨rfl, settings, rfl, by decide⟩
theorem test_witness_Leases : Ticks leased ∧ Counts (leased.lane 0).state ∧ (0 : Fin 1024).val < (leased.descriptor 0).frameCount ∧
    (leased.record ((leased.descriptor 0).recordOf 0)).standing = (if true then .held 0 (some 1) else .taken 0 (some 1)) ∧
    ((frame0 (.taken 1 (some 1)) opened).record 0).standing = (if false then .held 1 (some 1) else .taken 1 (some 1)) ∧
    ¬ Ticks State.reset ∧ (opened.record ((opened.descriptor 0).recordOf 0)).standing.lease ≠ some 1 :=
  ⟨⟨rfl, settings, rfl, by decide⟩, .inl (by decide +kernel), by decide +kernel, by decide +kernel, by decide +kernel,
    (fun h => nomatch (show PartState.heldInReset = .active from h.1)), by decide +kernel⟩

theorem only_lane0 {l : LaneId} (h : ((opened.lane l).desc).isSome = true) : l = 0 := by revert l; decide +kernel
theorem test_witness_Slices : SlicesHeld opened where
  off := by decide +kernel
  fits l d h := by
    have e := only_lane0 (l := l) (by rw [h]; rfl)
    subst e
    cases (show (some desc) = some d from (show (opened.lane 0).desc = some desc by decide +kernel).symm.trans h)
    decide
  apart l m d e n a b := absurd ((only_lane0 (l := l) (by rw [a]; rfl)).trans (only_lane0 (l := m) (by rw [b]; rfl)).symm) n
/-- The trap is occupied, its overflow count at its last value. -/
def trapped (s : State) : State :=
  { s with trap := { stored := some { kind := .split, lane := none, requester := none, addr := 0#36, dir := .read,
                                      data := 0#32 }, overflow := 255 } }
theorem test_witness_Trap : State.reset.trap.stored = none ∧ State.reset.trap.overflow = 0 ∧
    (trapped opened).trap.stored ≠ none ∧ (trapped opened).trap.overflow ≤ 255 ∧ (trapped opened).pending = [] ∧
    (after (exec .leaseTick (trapped opened))).trap = (trapped opened).trap ∧
    (after (step (trapped opened))).trap = (trapped opened).trap := by decide +kernel
theorem test_witness_Trap_cleared :
    let s := trapped { State.reset with cmd := some { word := 12#32, phase := .resetting } }
    s.trap.stored ≠ none ∧ (after (exec .resetAllClearing s)).trap = { stored := none, overflow := 0 } ∧
    (after (exec .resetAllClearing s)).cmd = some { word := 12#32, phase := .finishing } := by decide +kernel
theorem test_witness_Queues : QueuesBounded opened := ⟨by decide, by decide, by decide, by decide +kernel⟩
theorem test_witness_Qirq : opened.qirq = true ↔ CauseEnabled opened := by
  constructor
  · intro h; cases h
  · rintro (⟨l, i, hi, a, -⟩ | ⟨g, -, ⟨-, h⟩ | ⟨-, h⟩⟩)
    · have : ∀ l, (opened.lane l).causes = 0#6 := by decide +kernel
      rw [this l] at a; simp at a
    · cases h
    · cases h
/-- Two writes wait for a slot, with 15 requests in the engine queue. -/
def waitingTwo : State :=
  { crowded (world { lane .opened with lsrWaiting := true }) with writer := .writing .waiting, waiting := [.laneStatus 0, .status] }
theorem wants_waitingTwo (c : Claimant) : c ∈ waitingTwo.waiting ↔ wants waitingTwo c = true :=
  (show ∀ c ∈ allClaimants, (c ∈ waitingTwo.waiting ↔ wants waitingTwo c = true) by decide +kernel) c (mem_allClaimants c)
theorem test_witness_NoneWaits : NoneKeptWaiting waitingTwo :=
  ⟨by decide, wants_waitingTwo, fun _ => by decide, fun _ _ h => nomatch h⟩
/-- One slot goes to the first on the list, the other waits on; the next goes ahead of one that begins to wait then. -/
theorem test_waiting_order :
    let s := after (exec .leaseTick { waitingTwo with engQ := List.replicate 14 .globalRead })
    s.waiting = [.status] ∧ s.engQ.length = 15 ∧
      (after (exec .leaseTick { s with lanes := waitingTwo.lanes })).waiting = [.status, .laneStatus 0] := by
  decide +kernel
/-- A refusal places nothing and calls for its final RESULT once. -/
theorem test_refused_places_nothing :
    let s := after (exec .openLane (command 0x01#32 { opened with engQ := List.replicate 16 .globalRead }))
    s.engQ = List.replicate 16 .globalRead ∧ s.cuCalls = [.result (resultWord 0x01#32 .notOff false) true] := by
  decide +kernel
theorem test_witness_Words : (2047 : Nat) < 2048 ∧ (15 : Nat) < 16 ∧ onesBelow 31 1#32 % 2 = 1 ∧
    (0x80000000#32).getLsbD 31 = true ∧ (opened.lane 0).stats.posts < 2 ^ 32 ∧ (opened.lane 0).freeRing.count < 2048 ∧
    (opened.lane 0).reclaim.length < 2048 ∧ (trapped opened).trap.stored ≠ none ∧ opened.trap.stored = none := by
  decide +kernel

end Sys2Proof.Tests
end

/-! PROOFS. What each operation of the part does to the descriptor copies of the lanes: it drops a copy or keeps it, and
never takes a lane that keeps its copy to OFF. OPEN_LANE alone brings a copy into force. -/

namespace Sys2Proof.Machine

/-! ### The relation -/

/-- From `a` to `b` the lane has lost its copy, or it has kept it and has not entered OFF (R73, R97). -/
def CopyKept (a b : Lane) : Prop := b.desc = none ∨ (b.desc = a.desc ∧ (b.state = .off → a.state = .off))

/-- Every lane has lost its copy, or has kept it and has not entered OFF. -/
structure CopiesKept (s t : State) : Prop where
  lane : ∀ l, CopyKept (s.lane l) (t.lane l)

theorem CopyKept.of_eq {a b : Lane} (hd : b.desc = a.desc) (hs : b.state = a.state) : CopyKept a b :=
  .inr ⟨hd, fun h => hs ▸ h⟩

theorem CopyKept.of_not_off {a b : Lane} (hd : b.desc = a.desc) (hs : b.state ≠ .off) : CopyKept a b :=
  .inr ⟨hd, fun h => absurd h hs⟩

theorem CopyKept.refl (a : Lane) : CopyKept a a := .of_eq rfl rfl

theorem CopyKept.trans {a b c : Lane} (h : CopyKept a b) (k : CopyKept b c) : CopyKept a c := by
  rcases k with k | ⟨kd, ks⟩
  · exact .inl k
  · rcases h with h | ⟨hd, hs⟩
    · exact .inl (kd.trans h)
    · exact .inr ⟨kd.trans hd, fun x => hs (ks x)⟩

/-- What the placing of a waiting request changes in a lane is not its copy. -/
theorem LaneKept.copyKept {a b : Lane} (h : LaneKept a b) : CopyKept a b := .of_eq h.desc h.state

theorem CopiesKept.refl (s : State) : CopiesKept s s := ⟨fun _ => .refl _⟩

theorem CopiesKept.trans {s t u : State} (h : CopiesKept s t) (k : CopiesKept t u) : CopiesKept s u :=
  ⟨fun l => (h.lane l).trans (k.lane l)⟩

/-- What changes no lane keeps the copies. -/
theorem CopiesKept.of_lanes {s t : State} (h : t.lanes = s.lanes) : CopiesKept s t where
  lane l := by unfold State.lane; rw [h]; exact .refl _

/-- What changes no lane may go ahead. -/
theorem CopiesKept.lanes_left {s x t : State} (h : CopiesKept x t) (e : x.lanes = s.lanes) : CopiesKept s t :=
  (CopiesKept.of_lanes e).trans h

/-- What changes no lane may follow. -/
theorem CopiesKept.lanes_right {s x t : State} (h : CopiesKept s x) (e : t.lanes = x.lanes) : CopiesKept s t :=
  h.trans (.of_lanes e)

/-- A step that keeps or drops copies keeps the slices within the records and apart (R2). -/
theorem CopiesKept.slicesHeld {s t : State} (h : CopiesKept s t) (k : SlicesHeld s) : SlicesHeld t := by
  have kept {l d} (e : (t.lane l).desc = some d) : (s.lane l).desc = some d := by
    rcases h.lane l with n | ⟨n, -⟩
    · rw [n] at e; cases e
    · rw [← n]; exact e
  refine ⟨fun l e => ?_, fun l d e => k.fits l d (kept e), fun l m d e n a b => k.apart l m d e n (kept a) (kept b)⟩
  rcases h.lane l with n | ⟨n, o⟩
  · exact n
  · rw [n]; exact k.off l (o e)

theorem SlicesHeld.of_lanes {s t : State} (k : SlicesHeld s) (h : t.lanes = s.lanes) : SlicesHeld t :=
  (CopiesKept.of_lanes h).slicesHeld k

/-- A lane replaced by one that keeps or has lost its copy. -/
theorem setLane_copiesKept {s x : State} {l : LaneId} {ln : Lane} (hx : x.lanes = s.lanes)
    (h : CopyKept (s.lane l) ln) : CopiesKept s (x.setLane l ln) where
  lane m := by
    rw [lane_setLane]
    split
    · next e => subst e; exact h
    · exact (CopiesKept.of_lanes hx).lane m

/-- A lane changed by a function that keeps or drops its copy. -/
theorem updLane_copiesKept {s x : State} {l : LaneId} {f : Lane → Lane} (hx : x.lanes = s.lanes)
    (h : ∀ ln, CopyKept ln (f ln)) : CopiesKept s (x.updLane l f) :=
  (CopiesKept.of_lanes hx).trans (setLane_copiesKept rfl (h _))

/-- A sequence of changes, each of which keeps or drops copies. -/
theorem foldl_copiesKept {α : Type} {f : State → α → State} (h : ∀ s x, CopiesKept s (f s x)) (xs : List α)
    (s : State) : CopiesKept s (xs.foldl f s) := by
  induction xs generalizing s with
  | nil => exact .refl s
  | cons x xs ih => exact (h s x).trans (ih _)

/-! ### Lanes -/

theorem raiseIf_copyKept (ln : Lane) (p : Bool) (c : LaneCause) : CopyKept ln (ln.raiseIf p c) := by
  unfold Lane.raiseIf
  split
  · exact .of_eq rfl rfl
  · exact .refl _

theorem setRing_copyKept (ln : Lane) (k : RingKind) (g : Ring) : CopyKept ln (ln.setRing k g) := by
  cases k <;> exact .of_eq rfl rfl

theorem unbindProducer_copyKept (ln : Lane) (r : Requester) (n : RecordId) : CopyKept ln (ln.unbindProducer r n) := by
  unfold Lane.unbindProducer
  split
  · exact .of_eq rfl rfl
  · exact .refl _

theorem unbindConsumer_copyKept (ln : Lane) (r : Requester) (n : RecordId) : CopyKept ln (ln.unbindConsumer r n) := by
  unfold Lane.unbindConsumer
  split
  · exact .of_eq rfl rfl
  · exact .refl _

theorem unbind_copyKept (ln : Lane) (st : Standing) (r : Requester) (n : RecordId) :
    CopyKept ln (ln.unbind st r n) := by
  unfold Lane.unbind
  split
  · exact unbindProducer_copyKept ..
  · exact unbindConsumer_copyKept ..

/-- A lane that halts is in HALTED (R88). -/
theorem halt_copyKept (ln : Lane) (reason : HaltReason) : CopyKept ln (ln.halt reason) :=
  .of_not_off rfl LaneState.noConfusion

theorem takeFault_copyKept (ln : Lane) (k : FaultKind) : CopyKept ln (ln.takeFault k) := by
  have counted : CopyKept ln (if ln.state = .off then ln else ln.countFault) := by
    split
    · exact .refl _
    · exact .of_eq rfl rfl
  unfold Lane.takeFault
  dsimp only
  split
  · exact counted.trans (halt_copyKept ..)
  · exact counted

theorem ringFault_copyKept (ln : Lane) (reason : HaltReason) : CopyKept ln (ln.ringFault reason) := by
  unfold Lane.ringFault
  cases ln.state with
  | off | flushing => exact .refl _
  | halted =>
    cases ln.haltReason with
    | corrupt | memory => exact .refl _
    | none | command | policy => exact .of_not_off rfl LaneState.noConfusion
  | priming | opened | paused | step | closing => exact halt_copyKept ln reason

/-- STEP becomes PAUSED, and no other state changes (R63). -/
theorem afterPost_copyKept (ln : Lane) : CopyKept ln ln.afterPost := by
  unfold Lane.afterPost
  split
  · exact .of_not_off rfl LaneState.noConfusion
  · exact .refl _

/-- A priming write that completes leaves the lane's state or opens it (R84). -/
theorem primed_copyKept (ln : Lane) : CopyKept ln ln.primed := by
  unfold Lane.primed
  dsimp only
  split
  · exact .of_not_off rfl LaneState.noConfusion
  · exact .of_eq rfl rfl

theorem expire_copyKept (ln : Lane) (st : Standing) (r : Requester) (n : RecordId) (i : Nat) :
    CopyKept ln (ln.expire st r n i) := (unbind_copyKept ln st r n).trans (.of_eq rfl rfl)

/-- A change of a lane by a command, where it makes one, keeps its copy. -/
def ChangeKeepsCopy (change : Lane → Option Lane) : Prop := ∀ a b, change a = some b → CopyKept a b

theorem closed_keepsCopy : ChangeKeepsCopy Lane.closed := fun a b h => by
  unfold Lane.closed at h
  generalize a.state = st at h
  cases st with
  | off | priming | closing | flushing => cases h
  | opened | paused | step => cases h; exact .of_not_off rfl LaneState.noConfusion
  | halted =>
    dsimp only at h
    split at h
    · cases h; exact .of_not_off rfl LaneState.noConfusion
    · cases h

theorem pausedBy_keepsCopy : ChangeKeepsCopy Lane.pausedBy := fun a b h => by
  unfold Lane.pausedBy at h
  split at h <;> cases h
  all_goals exact .of_not_off rfl LaneState.noConfusion

theorem resumed_keepsCopy : ChangeKeepsCopy Lane.resumed := fun a b h => by
  unfold Lane.resumed at h
  generalize a.state = st at h
  cases st with
  | off | priming | opened | closing | flushing => cases h
  | paused | step => cases h; exact .of_not_off rfl LaneState.noConfusion
  | halted =>
    dsimp only at h
    split at h
    · cases h; exact .of_not_off rfl LaneState.noConfusion
    · cases h

theorem stepped_keepsCopy : ChangeKeepsCopy Lane.stepped := fun a b h => by
  unfold Lane.stepped at h
  split at h <;> cases h
  all_goals exact .of_not_off rfl LaneState.noConfusion

theorem haltedBy_keepsCopy : ChangeKeepsCopy Lane.haltedBy := fun a b h => by
  unfold Lane.haltedBy at h
  split at h <;> cases h
  all_goals exact halt_copyKept ..

/-! ### Reports, records and the arrival at OFF -/

theorem report_copiesKept (s : State) (f : Report) : CopiesKept s (s.report f) where
  lane l := by
    rw [report_lane]
    split
    · exact takeFault_copyKept ..
    · exact .refl _

theorem refuse_copiesKept (s : State) (k : FaultKind) (l : Option LaneId) (t : Txn) : CopiesKept s (s.refuse k l t) :=
  (report_copiesKept ..).lanes_left rfl

theorem releaseRing_copiesKept (s : State) (l : LaneId) (k : RingKind) : CopiesKept s (s.releaseRing l k) :=
  updLane_copiesKept rfl fun _ => setRing_copyKept ..

theorem ringFault_copiesKept (s : State) (l : LaneId) (reason : HaltReason) :
    CopiesKept s (s.updLane l fun ln => ln.ringFault reason) := updLane_copiesKept rfl fun _ => ringFault_copyKept ..

theorem endCommand_lanes (s : State) (r : Reason) : (s.endCommand r).lanes = s.lanes := by
  unfold State.endCommand; split <;> rfl

theorem endCommand_copiesKept (s : State) (r : Reason) :
    CopiesKept s (s.endCommand r) := .of_lanes (endCommand_lanes s r)

theorem cmdPhase_copiesKept (s : State) (p : CmdPhase) : CopiesKept s (s.cmdPhase p) := .of_lanes <| by
  unfold State.cmdPhase; split <;> rfl

theorem mapFrames_copiesKept (s : State) (d : Descriptor) (f : FrameRec → FrameRec) (is : List Nat) :
    CopiesKept s (s.mapFrames d f is) := .of_lanes (mapFrames_lanes s d f is)

/-- A lane that reaches OFF has no copy any more, whatever becomes of its records (R97). -/
theorem toOff_copiesKept (s : State) (l : LaneId) (d : Descriptor) (f : FrameRec → FrameRec) (is : List Nat) :
    CopiesKept s ((s.mapFrames d f is).updLane l Lane.toOff) :=
  (mapFrames_copiesKept s d f is).trans (updLane_copiesKept rfl fun _ => .inl rfl)

theorem drainOff_copiesKept (s : State) (l : LaneId) : CopiesKept s (s.drainOff l) := toOff_copiesKept ..

theorem teardown_copiesKept (s : State) (l : LaneId) : CopiesKept s (s.teardown l) := toOff_copiesKept ..

theorem arriveOff_copiesKept (s : State) (l : LaneId) : CopiesKept s (s.arriveOff l) := by
  unfold State.arriveOff
  split
  · exact drainOff_copiesKept s l
  · split
    · exact teardown_copiesKept s l
    · exact .refl _

/-! ### Entry into FLUSHING (R94) -/

theorem enterFlushing_copiesKept (s : State) (l : LaneId) : CopiesKept s (s.enterFlushing l) where
  lane m := by
    rw [enterFlushing_lane]
    split
    · next e => subst e; exact .of_not_off rfl LaneState.noConfusion
    · exact .refl _

theorem cutOff_copiesKept (s : State) (x : Discard) : CopiesKept s (s.cutOff x) :=
  (report_copiesKept ..).lanes_left rfl

theorem drawOrder_copiesKept {α : Type} (s : State) (xs : List α) : CopiesKept s (s.drawOrder xs).2 := .of_lanes <| by
  rw [drawOrder_books]; rfl

theorem flushLanes_copiesKept (s : State) (ls : List LaneId) : CopiesKept s (s.flushLanes ls) :=
  (((drawOrder_copiesKept s _).trans (foldl_copiesKept enterFlushing_copiesKept ..)).trans
    (foldl_copiesKept cutOff_copiesKept ..)).trans (foldl_copiesKept arriveOff_copiesKept ..)

/-! ### Settling and the clearing of RESET_ALL -/

/-- Lanes at their pin-reset values have no copies. -/
theorem copiesKept_of_reset {s t : State} (h : t.lanes = Vector.replicate 16 Lane.reset) : CopiesKept s t where
  lane l := .inl (by simp [State.lane, h, Lane.reset])

theorem clearing_copiesKept (s : State) : CopiesKept s s.clearing := copiesKept_of_reset (endCommand_lanes ..)

theorem Served.copiesKept {s t : State} (h : Served s t) : CopiesKept s t := ⟨fun l => (h.lanes l).copyKept⟩

/-- Giving out slots keeps the copies; the clearing of RESET_ALL drops them (R163, R172). -/
theorem Placed.copiesKept {s x t : State} (h : Placed s x t) : CopiesKept x t := by
  rcases h.cases with k | ⟨w, v, -, -, k⟩
  · exact k.copiesKept.lanes_left rfl
  · have cleared : CopiesKept x (noted v (cleared v w)) := copiesKept_of_reset rfl
    exact cleared.trans k.copiesKept

/-- A step keeps or drops copies where its own effect does. -/
theorem settle_copiesKept {s x : State} (s0 : State) (h : CopiesKept s x) : CopiesKept s (s0.settle x) :=
  h.trans (settle_placed s0 x).copiesKept

/-! ### Placing and issuing requests -/

theorem place_copiesKept {s x : State} {q : EngineReq} (h : CopiesKept s x) : CopiesKept s (x.place q) :=
  h.lanes_right rfl

theorem placeLaneStatus_copiesKept (s : State) (l : LaneId) : CopiesKept s (s.placeLaneStatus l) := by
  unfold State.placeLaneStatus
  exact place_copiesKept (updLane_copiesKept rfl fun _ => .of_eq rfl rfl)

theorem placeClaim_copiesKept (s : State) (c : Claimant) : CopiesKept s (s.placeClaim c) := by
  have write (l : LaneId) (q : EngineReq) : CopiesKept s
      ((s.updLane l fun ln => { ln with freeRing := ln.freeRing.withAccess .writing }).place q) :=
    place_copiesKept (updLane_copiesKept rfl fun _ => .of_eq rfl rfl)
  cases c with
  | status => exact .of_lanes rfl
  | fenced l k =>
    show CopiesKept s (s.placeFenced l k)
    unfold State.placeFenced
    split
    · exact .refl _
    · exact place_copiesKept (updLane_copiesKept rfl fun _ => setRing_copyKept ..)
  | prime l => exact write l _
  | reclaim l =>
    show CopiesKept s (s.placeReclaim l)
    unfold State.placeReclaim
    dsimp only
    split
    · exact .refl _
    · exact write l _
  | laneStatus l => exact placeLaneStatus_copiesKept s l

theorem placeCall_copiesKept (s : State) (c : CuCall) : CopiesKept s (s.placeCall c) := by
  cases c with
  | snapshot l => exact placeLaneStatus_copiesKept s l
  | result w final => exact .of_lanes rfl
  | descRead l => exact .of_lanes rfl
  | globalRead => exact .of_lanes rfl

theorem placeNow_copiesKept (s : State) (c : Claimant) : CopiesKept s (s.placeNow c) := by
  unfold State.placeNow
  split
  · exact settle_copiesKept s (placeClaim_copiesKept s c)
  · exact .refl _

theorem serveHead_copiesKept (s : State) : CopiesKept s s.serveHead := by
  unfold State.serveHead
  split
  · exact .refl _
  · split
    · exact (placeClaim_copiesKept ..).lanes_left rfl
    · exact .refl _

theorem serveFirst_copiesKept (s : State) : CopiesKept s s.serveFirst := by
  unfold State.serveFirst
  split
  · exact serveHead_copiesKept s
  · split
    · exact (placeCall_copiesKept ..).lanes_left rfl
    · exact serveHead_copiesKept s

theorem reclaimIssue_copiesKept (s : State) (l : LaneId) : CopiesKept s (s.reclaimIssue l) := by
  unfold State.reclaimIssue
  split
  · exact .refl _
  · exact updLane_copiesKept rfl fun _ => .of_eq rfl rfl

theorem atIssue_copiesKept (s : State) (q : EngineReq) : CopiesKept s (s.atIssue q) := by
  cases q with
  | reclaimWrite l addr e => exact reclaimIssue_copiesKept s l
  | _ => exact .of_lanes rfl

theorem grantEngine_copiesKept (s : State) (q : EngineReq) (rest : List EngineReq) :
    CopiesKept s (s.grantEngine q rest) :=
  (atIssue_copiesKept ..).lanes_left rfl

theorem grant_copiesKept (s : State) : CopiesKept s s.grant := by
  unfold State.grant
  split
  · exact .refl _
  · exact .of_lanes rfl
  · exact grantEngine_copiesKept ..
  · split
    · exact .of_lanes rfl
    · exact grantEngine_copiesKept ..

/-! ### Arrivals -/

theorem passOn_copiesKept (s : State) (l : Option LaneId) (t : Txn) : CopiesKept s (s.passOn l t) := by
  unfold State.passOn
  split
  · rw [enterPass_eq]; exact .of_lanes rfl
  · exact .of_lanes rfl

theorem cmdWrite_copiesKept (s : State) (t : Txn) : CopiesKept s (s.cmdWrite t) := by
  unfold State.cmdWrite
  split
  · exact refuse_copiesKept ..
  · split
    · exact .of_lanes rfl
    · split
      · rw [enterPass_eq]; exact .of_lanes rfl
      · exact .of_lanes rfl

theorem serveControl_copiesKept (s : State) (t : Txn) : CopiesKept s (s.serveControl t) := by
  unfold State.serveControl
  split
  · exact passOn_copiesKept ..
  · split
    · exact refuse_copiesKept ..
    · split
      · exact cmdWrite_copiesKept ..
      · exact passOn_copiesKept ..

theorem serveRing_copiesKept (s : State) (l : LaneId) (t : Txn) : CopiesKept s (s.serveRing l t) := by
  unfold State.serveRing
  split
  · exact passOn_copiesKept ..
  · exact refuse_copiesKept ..

theorem serveFrame_copiesKept (s : State) (l : LaneId) (t : Txn) : CopiesKept s (s.serveFrame l t) := by
  unfold State.serveFrame
  split
  · split
    · refine (passOn_copiesKept s (some l) t).trans ?_
      unfold State.renewTouched
      split
      · exact .of_lanes (renewFrames ..).1
      · exact .refl _
    · exact .of_lanes rfl
  · exact refuse_copiesKept ..

theorem serveAperture_copiesKept (s : State) (l : LaneId) (offset : Nat) (binding : Option RecordId) (t : Txn) :
    CopiesKept s (s.serveAperture l offset binding t) := by
  unfold State.serveAperture
  split
  · exact refuse_copiesKept ..
  · split
    · exact refuse_copiesKept ..
    · dsimp only
      split
      · exact refuse_copiesKept ..
      · split
        · rw [enterPass_eq]
          unfold State.renewBound
          split
          · exact .of_lanes (renewFrame_lanes ..)
          · exact .of_lanes rfl
        · exact .of_lanes rfl

theorem portRetry_copiesKept (s : State) (l : LaneId) (t : Txn) : CopiesKept s (s.portRetry l t) :=
  updLane_copiesKept rfl fun _ => .of_eq rfl rfl

theorem readResources_copiesKept (s : State) (l : LaneId) (op : ReadOp) (t : Txn) :
    CopiesKept s (s.readResources l op t) := by
  unfold State.readResources
  split
  · exact portRetry_copiesKept ..
  · split
    · exact portRetry_copiesKept ..
    · split
      · exact updLane_copiesKept rfl fun _ => .of_eq rfl rfl
      · exact place_copiesKept (updLane_copiesKept rfl fun _ => setRing_copyKept ..)

theorem limitedRead_copiesKept (s : State) (l : LaneId) (op : ReadOp) (t : Txn) :
    CopiesKept s (s.limitedRead l op t) := by
  unfold State.limitedRead
  split
  · exact .of_lanes rfl
  · exact readResources_copiesKept ..

theorem acceptPost_copiesKept (s : State) (l : LaneId) (t : Txn) (w : Word) (urgent : Bool) :
    CopiesKept s (s.acceptPost l t w urgent) := by
  unfold State.acceptPost
  dsimp only
  refine updLane_copiesKept rfl fun ln => ?_
  have unbound := unbindProducer_copyKept ln t.requester ((s.descriptor l).recordOf (quotedIndex w))
  have posted := unbound.trans (CopyKept.of_eq (b := (Lane.checkIn _ t.requester).countPost) rfl rfl)
  exact ((posted.trans (raiseIf_copyKept ..)).trans (afterPost_copyKept _)).trans (.of_eq rfl rfl)

theorem servePost_copiesKept (s : State) (l : LaneId) (t : Txn) (w : Word) (urgent : Bool) :
    CopiesKept s (s.servePost l t w urgent) := by
  unfold State.servePost
  split
  · exact refuse_copiesKept ..
  · split
    · exact portRetry_copiesKept ..
    · split
      · exact portRetry_copiesKept ..
      · split
        · exact portRetry_copiesKept ..
        · exact acceptPost_copiesKept ..

theorem acceptRelease_copiesKept (s : State) (l : LaneId) (t : Txn) (w : Word) :
    CopiesKept s (s.acceptRelease l t w) := by
  unfold State.acceptRelease
  dsimp only
  exact updLane_copiesKept rfl fun ln => (unbind_copyKept ln _ t.requester _).trans (.of_eq rfl rfl)

theorem serveRelease_copiesKept (s : State) (l : LaneId) (t : Txn) (w : Word) :
    CopiesKept s (s.serveRelease l t w) := by
  unfold State.serveRelease
  split
  · exact refuse_copiesKept ..
  · split
    · exact portRetry_copiesKept ..
    · split
      · exact portRetry_copiesKept ..
      · exact acceptRelease_copiesKept ..

theorem servePortOp_copiesKept (s : State) (l : LaneId) (t : Txn) (op : PortOp) :
    CopiesKept s (s.servePortOp l t op) := by
  cases op with
  | acquire => exact limitedRead_copiesKept ..
  | post w => exact servePost_copiesKept ..
  | postUrgent w => exact servePost_copiesKept ..
  | release w => exact serveRelease_copiesKept ..
  | take => exact limitedRead_copiesKept ..
  | peek => exact readResources_copiesKept ..
  | count => exact .of_lanes rfl

theorem servePortWord_copiesKept (s : State) (l : LaneId) (offset : Nat) (t : Txn) :
    CopiesKept s (s.servePortWord l offset t) := by
  unfold State.servePortWord
  split
  · exact refuse_copiesKept ..
  · split
    · exact portRetry_copiesKept ..
    · exact refuse_copiesKept ..
    · split
      · exact servePortOp_copiesKept ..
      · exact refuse_copiesKept ..

theorem serveClass_copiesKept (s : State) (t : Txn) (c : Class) : CopiesKept s (s.serveClass t c) := by
  cases c with
  | plain => exact passOn_copiesKept ..
  | control => exact serveControl_copiesKept ..
  | portWord l offset => exact servePortWord_copiesKept ..
  | producer l offset => exact serveAperture_copiesKept ..
  | consumer l offset => exact serveAperture_copiesKept ..
  | frame l => exact serveFrame_copiesKept ..
  | ring l k => exact serveRing_copiesKept ..
  | split l => exact refuse_copiesKept ..

theorem meet_copiesKept (s : State) (t : Txn) : CopiesKept s (s.meet t) := by
  unfold State.meet
  split
  · exact .refl _
  · exact .of_lanes rfl
  · exact serveClass_copiesKept ..
  · exact serveClass_copiesKept ..
  · exact passOn_copiesKept ..

theorem arrive_copiesKept (s : State) (t : Txn) : CopiesKept s (s.arrive t) := by
  unfold State.arrive
  split
  · exact settle_copiesKept s (meet_copiesKept s t)
  · exact .refl _

/-! ### Completions -/

theorem failRead_copiesKept (s : State) (l : LaneId) (op : ReadOp) (r : Requester) (addr : Addr) (k : FaultKind)
    (data : Word) (reason : HaltReason) : CopiesKept s (s.failRead l op r addr k data reason) := by
  unfold State.failRead
  refine .trans (.trans ?_ (report_copiesKept ..)) (ringFault_copiesKept ..)
  exact .lanes_left (releaseRing_copiesKept ..) rfl

theorem limitRead_copiesKept (s : State) (l : LaneId) (k : RingKind) (r : Requester) :
    CopiesKept s (s.limitRead l k r) :=
  .lanes_left (releaseRing_copiesKept ..) rfl

theorem commitAcquire_copiesKept (s : State) (l : LaneId) (r : Requester) (e : Entry) :
    CopiesKept s (s.commitAcquire l r e) := by
  unfold State.commitAcquire
  dsimp only
  refine updLane_copiesKept rfl fun ln => ?_
  have bound : CopyKept ln ((ln.bindProducer r ((s.descriptor l).recordOf e.index.toNat)).checkOut r).countAcquire :=
    .of_eq rfl rfl
  exact (bound.trans (raiseIf_copyKept ..)).trans (.of_eq rfl rfl)

theorem commitTake_copiesKept (s : State) (l : LaneId) (r : Requester) (w : Word) :
    CopiesKept s (s.commitTake l r w) := by
  unfold State.commitTake
  dsimp only
  exact updLane_copiesKept rfl fun _ => .of_eq rfl rfl

theorem passedRead_copiesKept (s : State) (l : LaneId) (op : ReadOp) (r : Requester) (w : Word) :
    CopiesKept s (s.passedRead l op r w) := by
  cases op with
  | acquire =>
    unfold State.passedRead
    dsimp only
    split
    · exact limitRead_copiesKept ..
    · exact commitAcquire_copiesKept ..
  | take =>
    unfold State.passedRead
    dsimp only
    split
    · exact limitRead_copiesKept ..
    · exact commitTake_copiesKept ..
  | peek => exact .lanes_left (releaseRing_copiesKept ..) rfl

theorem endRead_copiesKept (s : State) (l : LaneId) (op : ReadOp) (r : Requester) (addr : Addr) (resp : DResp Word) :
    CopiesKept s (s.endRead l op r addr resp) := by
  refine CopiesKept.trans ?_ (arriveOff_copiesKept ..)
  unfold State.readOutcome
  split
  · exact failRead_copiesKept ..
  · split
    · exact passedRead_copiesKept ..
    · exact failRead_copiesKept ..

theorem failWrite_copiesKept (s : State) (l : LaneId) (r : Option Requester) (addr : Addr) (entry : Word) :
    CopiesKept s (s.failWrite l r addr entry) := (report_copiesKept ..).trans (ringFault_copiesKept ..)

theorem endSlotWrite_copiesKept (s : State) (l : LaneId) (k : RingKind) (w : SlotWrite) (resp : DResp Unit) :
    CopiesKept s (s.endSlotWrite l k w resp) := by
  have released (mk : Nat → Response) :
      CopiesKept s ((s.decideResponse w.requester (.ring l k) mk).releaseRing l k) :=
    .lanes_left (releaseRing_copiesKept ..) rfl
  refine CopiesKept.trans ?_ (arriveOff_copiesKept ..)
  unfold State.slotWriteOutcome
  split
  · exact released _
  · exact (released _).trans (failWrite_copiesKept ..)

theorem endReclaim_copiesKept (s : State) (l : LaneId) (addr : Addr) (entry : Word) (resp : DResp Unit) :
    CopiesKept s (s.endReclaim l addr entry resp) := by
  unfold State.endReclaim
  split
  · exact (releaseRing_copiesKept ..).trans (arriveOff_copiesKept ..)
  · exact ((releaseRing_copiesKept ..).trans (failWrite_copiesKept ..)).trans (arriveOff_copiesKept ..)

theorem primeDone_copiesKept (s : State) (l : LaneId) : CopiesKept s (s.primeDone l) :=
  updLane_copiesKept rfl primed_copyKept

theorem endPrime_copiesKept (s : State) (l : LaneId) (addr : Addr) (entry : Word) (resp : DResp Unit) :
    CopiesKept s (s.endPrime l addr entry resp) := by
  unfold State.endPrime
  split
  · exact (primeDone_copiesKept s l).trans (arriveOff_copiesKept ..)
  · exact ((releaseRing_copiesKept ..).trans (failWrite_copiesKept ..)).trans (arriveOff_copiesKept ..)

theorem reportReadError_copiesKept {α : Type} (s : State) (l : Option LaneId) (addr : Addr) (resp : DResp α) :
    CopiesKept s (s.reportReadError l addr resp) := by
  unfold State.reportReadError
  split
  · exact .refl _
  · exact report_copiesKept ..

theorem endStartUp_copiesKept (s : State) (resp : DResp (Vector Word 16)) : CopiesKept s (s.endStartUp resp) := by
  refine (reportReadError_copiesKept s none (s.controlAddr 0) resp).trans ?_
  unfold State.endStartUp
  dsimp only
  split <;> exact .of_lanes rfl

theorem endReload_copiesKept (s : State) (resp : DResp (Vector Word 16)) : CopiesKept s (s.endReload resp) := by
  refine (reportReadError_copiesKept s none (s.controlAddr 0) resp).trans ?_
  unfold State.endReload
  dsimp only
  split
  · exact (endCommand_copiesKept ..).lanes_left rfl
  · exact endCommand_copiesKept ..

theorem endGlobal_copiesKept (s : State) (resp : DResp (Vector Word 16)) : CopiesKept s (s.endGlobal resp) := by
  unfold State.endGlobal
  split
  · exact endStartUp_copiesKept ..
  · exact endReload_copiesKept ..

theorem recordFailed_copiesKept (s : State) (l : Option LaneId) (addr : Addr) (data : Word) (resp : DResp Unit) :
    CopiesKept s (s.recordFailed l addr data resp) := by
  unfold State.recordFailed
  split
  · exact .refl _
  · exact (report_copiesKept ..).lanes_right rfl

theorem endStatus_copiesKept (s : State) (words : List Word) (resp : DResp Unit) :
    CopiesKept s (s.endStatus words resp) :=
  (recordFailed_copiesKept ..).lanes_left rfl

theorem endLaneStatus_copiesKept (s : State) (l : LaneId) (words : List Word) (resp : DResp Unit) :
    CopiesKept s (s.endLaneStatus l words resp) := recordFailed_copiesKept ..

theorem endResult_copiesKept (s : State) (word : Word) (final : Bool) (resp : DResp Unit) :
    CopiesKept s (s.endResult word final resp) := by
  refine (recordFailed_copiesKept s none s.resultAddr word resp).trans ?_
  unfold State.endResult
  dsimp only
  split <;> exact .of_lanes rfl

/-- A DESC_READ that fails opens no lane (R76, R149). -/
theorem endDesc_error_copiesKept (s : State) (l : LaneId) : CopiesKept s (s.endDesc l .error) :=
  (reportReadError_copiesKept ..).trans (endCommand_copiesKept ..)

/-- An engine access that ends as an error brings no copy into force (R150). -/
theorem endWithError_copiesKept (s : State) (words : List Word) (q : EngineReq) :
    CopiesKept s (s.endWithError words q) := by
  cases q with
  | ringRead l op r addr => exact endRead_copiesKept ..
  | ringWrite l k w => exact endSlotWrite_copiesKept ..
  | reclaimWrite l addr e => exact endReclaim_copiesKept s l addr e .error
  | primeWrite l addr e => exact endPrime_copiesKept s l addr e .error
  | descRead l => exact endDesc_error_copiesKept s l
  | globalRead => exact endGlobal_copiesKept ..
  | statusWrite => exact endStatus_copiesKept ..
  | laneStatusWrite l ws => exact endLaneStatus_copiesKept s l ws .error
  | resultWrite w final => exact endResult_copiesKept ..

theorem timeout_copiesKept (s : State) (place : Nat) : CopiesKept s (s.timeout place) := by
  unfold State.timeout
  split
  · exact .refl _
  · exact settle_copiesKept s (.lanes_left (endWithError_copiesKept ..) rfl)

theorem writeCompleted_copiesKept (s : State) (r : Requester) : CopiesKept s (s.writeCompleted r) := by
  unfold State.writeCompleted
  refine .lanes_left (foldl_copiesKept (fun _ _ => ?_) ..) rfl
  exact updLane_copiesKept rfl fun _ => .of_eq rfl rfl

theorem accessCompleted_copiesKept (s : State) (r : Requester) (d : Dir) : CopiesKept s (s.accessCompleted r d) := by
  cases d with
  | read => exact .refl _
  | write => exact writeCompleted_copiesKept s r

theorem passError_copiesKept (s : State) (e : PassEntry) (resp : DResp (List Word)) :
    CopiesKept s (s.passError e resp) := by
  unfold State.passError
  split
  · exact .refl _
  · split
    · exact .refl _
    · exact report_copiesKept ..

theorem cmdWritten_copiesKept (s : State) : CopiesKept s s.cmdWritten := .of_lanes <| by
  unfold State.cmdWritten
  split
  · rfl
  · split <;> rfl

theorem endPass_copiesKept (s : State) (e : PassEntry) (resp : DResp (List Word)) :
    CopiesKept s (s.endPass e resp) := by
  have decided : CopiesKept s (s.decideResponse e.txn.requester .pass (passResponse e.txn resp)) := .of_lanes rfl
  have done := (decided.trans (accessCompleted_copiesKept _ e.txn.requester e.txn.dir)).trans
    (passError_copiesKept _ e resp)
  unfold State.endPass
  dsimp only
  split
  · exact done.trans (cmdWritten_copiesKept _)
  · exact done

/-! ### The Lease Timer and the clock -/

theorem expire_copiesKept (s : State) (l : LaneId) (i : Nat) : CopiesKept s (s.expire l i) := by
  unfold State.expire
  dsimp only
  split
  · exact .refl _
  · exact updLane_copiesKept rfl fun _ => expire_copyKept ..

theorem tickLane_copiesKept (s : State) (l : LaneId) : CopiesKept s (s.tickLane l) := by
  unfold State.tickLane
  split
  · exact (mapFrames_copiesKept ..).trans (foldl_copiesKept (fun s i => expire_copiesKept s l i) ..)
  · exact .refl _

theorem tickStep_copiesKept (s : State) : CopiesKept s s.tickStep := by
  unfold State.tickStep
  split
  · exact settle_copiesKept s (.lanes_left (foldl_copiesKept tickLane_copiesKept ..) rfl)
  · exact .refl _

theorem clockEvent_copiesKept (s : State) (e : ClockEvent) : CopiesKept s (s.clockEvent e) := by
  cases e with
  | tick => exact tickStep_copiesKept s
  | timeout place => exact timeout_copiesKept s place

theorem countDivider_copiesKept (s : State) : CopiesKept s s.countDivider := .of_lanes <| by
  unfold State.countDivider; split <;> rfl

/-- A REFCLK period keeps or drops copies (R126, R150). -/
theorem refclk_copiesKept (s : State) : CopiesKept s s.refclk := by
  unfold State.refclk
  refine .trans (.trans ?_ (drawOrder_copiesKept ..)) (foldl_copiesKept clockEvent_copiesKept ..)
  exact .lanes_left (countDivider_copiesKept _) rfl

/-! ### Commands of the Command Unit -/

theorem carryOut_copiesKept {act : State → Word → State} (h : ∀ s w, CopiesKept s (act s w)) (s : State) (op : Opcode) :
    CopiesKept s (s.carryOut op act) := by
  unfold State.carryOut
  split
  · exact .refl _
  · split
    · refine settle_copiesKept s ?_
      split
      · exact endCommand_copiesKept ..
      · exact h ..
    · exact .refl _

theorem laneCommand_copiesKept {change : Lane → Option Lane} (h : ChangeKeepsCopy change) (s : State) (w : Word) :
    CopiesKept s (s.laneCommand w change) := by
  unfold State.laneCommand
  split
  · exact endCommand_copiesKept ..
  · next ln e => exact (setLane_copiesKept rfl (h _ ln e)).trans (endCommand_copiesKept ..)

theorem openLane_copiesKept (s : State) (w : Word) : CopiesKept s (s.openLane w) := by
  unfold State.openLane
  split
  · exact (cmdPhase_copiesKept s .readingDescriptor).lanes_right rfl
  · exact endCommand_copiesKept ..

theorem closeLane_copiesKept (s : State) (w : Word) : CopiesKept s (s.closeLane w) := by
  unfold State.closeLane
  split
  · exact endCommand_copiesKept ..
  · next ln e =>
    exact ((setLane_copiesKept rfl (closed_keepsCopy _ ln e)).trans (endCommand_copiesKept ..)).trans
      (arriveOff_copiesKept ..)

theorem forceClose_copiesKept (s : State) (w : Word) : CopiesKept s (s.forceClose w) := by
  unfold State.forceClose
  split
  · exact endCommand_copiesKept ..
  · exact (flushLanes_copiesKept ..).trans (endCommand_copiesKept ..)

theorem clearTrap_copiesKept (s : State) (w : Word) : CopiesKept s (s.clearTrap w) :=
  (endCommand_copiesKept ..).lanes_left rfl

theorem ackIrq_copiesKept (s : State) (w : Word) : CopiesKept s (s.ackIrq w) := by
  have acked : CopiesKept s (s.updLane (cmdLane w) fun ln =>
      { ln with causes := ln.causes &&& ~~~((cmdArgument w).extractLsb' 0 6) }) :=
    updLane_copiesKept rfl fun _ => .of_eq rfl rfl
  unfold State.ackIrq
  exact .trans acked (.lanes_left (endCommand_copiesKept ..) rfl)

theorem snapshot_copiesKept (s : State) (w : Word) : CopiesKept s (s.snapshot w) :=
  (endCommand_copiesKept ..).lanes_left rfl

theorem reloadGlobals_copiesKept (s : State) (w : Word) : CopiesKept s (s.reloadGlobals w) :=
  (cmdPhase_copiesKept s .readingGlobals).lanes_right rfl

theorem resetAll_copiesKept (s : State) (w : Word) : CopiesKept s (s.resetAll w) :=
  (flushLanes_copiesKept ..).trans (cmdPhase_copiesKept ..)

end Sys2Proof.Machine

/-! PROOFS. The slices of the open lanes stay within the records and apart (R2, R78, R98), and a quoted handle is
checked before any resource (R18, R19, R52). -/

namespace Sys2Proof.Machine

/-! ### OPEN_LANE brings a copy into force (R76 to R79) -/

/-- A validation that passes has read a descriptor, and found its slice free (R76, R78). -/
theorem validate_ok {s : State} {resp : DResp (Vector Word 16)} {d : Descriptor} (h : s.validate resp = .ok d) :
    (∃ ws, resp = .okay ws) ∧ SliceFree s d := by
  unfold State.validate at h
  split at h
  · cases h
  · next ws =>
    refine ⟨⟨ws, rfl⟩, (sliceTaken_iff s d).1 ?_⟩
    split at h
    · cases h
    · repeat' split at h
      all_goals cases h
      exact Bool.eq_false_iff.2 ‹_›

/-- The copy of each lane after lane `l` has opened with descriptor `d`. -/
theorem desc_opening (s : State) (l m : LaneId) (d : Descriptor) :
    ((s.updLane l fun ln => ln.opening d).lane m).desc = if m = l then some d else (s.lane m).desc := by
  rw [lane_updLane]; split <;> rfl

/-- A lane that opens with a free slice keeps the slices within the records and apart (R2, R78). -/
theorem SlicesHeld.opening {s : State} {l : LaneId} {d : Descriptor} (k : SlicesHeld s) (h : SliceFree s d) :
    SlicesHeld (s.updLane l fun ln => ln.opening d) where
  off m e := by
    rw [lane_updLane] at e ⊢
    split at e
    · cases e
    · next n => rw [if_neg n]; exact k.off m e
  fits m e he := by
    rw [desc_opening] at he
    split at he
    · cases he; exact h.fits
    · exact k.fits m e he
  apart m n e f hmn he hf := by
    have apart {q g} (hg : (s.lane q).desc = some g) : SlicesApart d g :=
      h.apart q g (fun o => by rw [k.off q o] at hg; cases hg) hg
    rw [desc_opening] at he hf
    split at he
    · next a =>
      cases he
      rw [if_neg (fun b => hmn (a.trans b.symm))] at hf
      exact apart hf
    · split at hf
      · cases hf; exact (apart he).symm
      · exact k.apart m n e f hmn he hf

/-- The end of a DESC_READ keeps the slices within the records and apart (R76 to R79). -/
theorem endDesc_slicesHeld {s : State} (k : SlicesHeld s) (l : LaneId) (resp : DResp (Vector Word 16)) :
    SlicesHeld (s.endDesc l resp) := by
  unfold State.endDesc
  dsimp only
  split
  · exact ((reportReadError_copiesKept ..).trans (endCommand_copiesKept ..)).slicesHeld k
  · next d h =>
    obtain ⟨⟨ws, rfl⟩, free⟩ := validate_ok h
    exact (endCommand_copiesKept ..).slicesHeld (k.opening free)

/-! ### Every command -/

/-- The outcome keeps or drops the copies that `s` has. -/
def OutcomeKeeps (s : State) (o : Host.Outcome State Fault Refusal) : Prop := ∀ t, o = .next t → CopiesKept s t

theorem next_keeps {s t : State} (h : CopiesKept s t) : OutcomeKeeps s (.next t) := fun _ e => by cases e; exact h

/-- A command whose event cannot take place changes nothing (log 1). -/
theorem outcomeKeeps_same (s : State) : OutcomeKeeps s (.next s) := next_keeps (.refl s)

theorem arrival_keeps (s : State) (t : Txn) : OutcomeKeeps s (s.arrival t) := by
  unfold State.arrival
  split
  · exact next_keeps (arrive_copiesKept s t)
  · exact fun _ e => by cases e

theorem writeArrival_keeps (s : State) (t : Txn) : OutcomeKeeps s (s.writeArrival t) := by
  unfold State.writeArrival
  split
  · exact arrival_keeps s t
  · exact fun _ e => by cases e

/-- An event that takes place where its condition holds. -/
theorem ifHolds_keeps {s x : State} (p : Prop) [Decidable p] (h : CopiesKept s x) :
    OutcomeKeeps s (.next (if p then s.settle x else s)) := by
  split
  · exact next_keeps (settle_copiesKept s h)
  · exact outcomeKeeps_same s

/-- The end of the oldest access, from what it does once the access has left the in-flight list. -/
theorem popOldest_settle_keeps {s x : State} (h : CopiesKept s.popOldest x) : OutcomeKeeps s (.next (s.settle x)) :=
  next_keeps (settle_copiesKept s (h.lanes_left rfl))

theorem execResponseDelivery_keeps (r : Requester) (s : State) : OutcomeKeeps s (execResponseDelivery r s) := by
  unfold execResponseDelivery
  split
  · exact outcomeKeeps_same s
  · split
    · exact outcomeKeeps_same s
    · exact next_keeps (.of_lanes rfl)

theorem execLeaseExpiry_keeps (l : LaneId) (frame : Fin 1024) (s : State) :
    OutcomeKeeps s (execLeaseExpiry l frame s) := by
  unfold execLeaseExpiry
  split
  · exact next_keeps (settle_copiesKept s (expire_copiesKept ..))
  · exact outcomeKeeps_same s

theorem execBadOpcodeCommand_keeps (s : State) : OutcomeKeeps s (execBadOpcodeCommand s) := by
  unfold execBadOpcodeCommand
  split
  · exact outcomeKeeps_same s
  · exact ifHolds_keeps _ (endCommand_copiesKept ..)

theorem execLateResponseDiscard_keeps (s : State) : OutcomeKeeps s (execLateResponseDiscard s) := by
  unfold execLateResponseDiscard
  split
  · exact outcomeKeeps_same s
  · split
    · exact next_keeps (.of_lanes rfl)
    · exact outcomeKeeps_same s

theorem execResetReleaseLoading_keeps (cbase : BitVec 20) (s : State) :
    OutcomeKeeps s (execResetReleaseLoading cbase s) := ifHolds_keeps _ (.of_lanes rfl)

theorem execResetReleaseBypass_keeps (cbase : BitVec 20) (s : State) :
    OutcomeKeeps s (execResetReleaseBypass cbase s) := by
  unfold execResetReleaseBypass
  split
  · exact next_keeps (.of_lanes rfl)
  · exact outcomeKeeps_same s

theorem execAcquireCommit_keeps (resp : DResp Word) (s : State) : OutcomeKeeps s (execAcquireCommit resp s) := by
  unfold execAcquireCommit
  split
  · exact popOldest_settle_keeps (endRead_copiesKept ..)
  · exact outcomeKeeps_same s

theorem execTakeCommit_keeps (resp : DResp Word) (s : State) : OutcomeKeeps s (execTakeCommit resp s) := by
  unfold execTakeCommit
  split
  · exact popOldest_settle_keeps (endRead_copiesKept ..)
  · exact outcomeKeeps_same s

theorem execPeekCompletion_keeps (resp : DResp Word) (s : State) : OutcomeKeeps s (execPeekCompletion resp s) := by
  unfold execPeekCompletion
  split
  · exact popOldest_settle_keeps (endRead_copiesKept ..)
  · exact outcomeKeeps_same s

theorem execSlotWriteCompletion_keeps (resp : DResp Unit) (s : State) :
    OutcomeKeeps s (execSlotWriteCompletion resp s) := by
  unfold execSlotWriteCompletion
  split
  · exact popOldest_settle_keeps (endSlotWrite_copiesKept ..)
  · exact outcomeKeeps_same s

theorem execReclaimWriteCompletion_keeps (resp : DResp Unit) (s : State) :
    OutcomeKeeps s (execReclaimWriteCompletion resp s) := by
  unfold execReclaimWriteCompletion
  split
  · exact popOldest_settle_keeps (endReclaim_copiesKept ..)
  · exact outcomeKeeps_same s

theorem execPrimeWriteCompletion_keeps (resp : DResp Unit) (s : State) :
    OutcomeKeeps s (execPrimeWriteCompletion resp s) := by
  unfold execPrimeWriteCompletion
  split
  · exact popOldest_settle_keeps (endPrime_copiesKept ..)
  · exact outcomeKeeps_same s

theorem execPassthroughCompletion_keeps (resp : DResp (List Word)) (s : State) :
    OutcomeKeeps s (execPassthroughCompletion resp s) := by
  unfold execPassthroughCompletion
  split
  · exact outcomeKeeps_same s
  · exact popOldest_settle_keeps (endPass_copiesKept ..)

theorem execResultWriteCompletion_keeps (resp : DResp Unit) (s : State) :
    OutcomeKeeps s (execResultWriteCompletion resp s) := by
  unfold execResultWriteCompletion
  split
  · exact popOldest_settle_keeps (endResult_copiesKept ..)
  · exact outcomeKeeps_same s

theorem execStatusWriteCompletion_keeps (resp : DResp Unit) (s : State) :
    OutcomeKeeps s (execStatusWriteCompletion resp s) := by
  unfold execStatusWriteCompletion
  split
  · exact popOldest_settle_keeps (endStatus_copiesKept ..)
  · exact outcomeKeeps_same s

theorem execLaneStatusWriteCompletion_keeps (resp : DResp Unit) (s : State) :
    OutcomeKeeps s (execLaneStatusWriteCompletion resp s) := by
  unfold execLaneStatusWriteCompletion
  split
  · exact popOldest_settle_keeps (endLaneStatus_copiesKept ..)
  · exact outcomeKeeps_same s

theorem execGlobalReadCompletion_keeps (resp : DResp (Vector Word 16)) (s : State) :
    OutcomeKeeps s (execGlobalReadCompletion resp s) := by
  unfold execGlobalReadCompletion
  split
  · exact ifHolds_keeps _ (.lanes_left (endStartUp_copiesKept ..) rfl)
  · exact outcomeKeeps_same s

theorem execReloadGlobalsReadCompletion_keeps (resp : DResp (Vector Word 16)) (s : State) :
    OutcomeKeeps s (execReloadGlobalsReadCompletion resp s) := by
  unfold execReloadGlobalsReadCompletion
  split
  · split
    · exact outcomeKeeps_same s
    · exact popOldest_settle_keeps (endReload_copiesKept ..)
  · exact outcomeKeeps_same s

/-- DESC_READ_COMPLETION alone can bring a copy into force. -/
theorem exec_keeps (c : Instr) (s : State) (h : ∀ resp, c ≠ .descReadCompletion resp) : OutcomeKeeps s (exec c s) := by
  cases c with
  | descReadCompletion resp => exact absurd rfl (h resp)
  | pinReset => exact next_keeps (copiesKept_of_reset rfl)
  | resetReleaseLoading cbase => exact execResetReleaseLoading_keeps cbase s
  | resetReleaseBypass cbase => exact execResetReleaseBypass_keeps cbase s
  | leaseTick => exact next_keeps (tickStep_copiesKept s)
  | leaseExpiry l frame => exact execLeaseExpiry_keeps l frame s
  | engineAccessTimeout place => exact next_keeps (timeout_copiesKept s place.val)
  | passthroughTransaction t => exact arrival_keeps s t
  | controlWrite t => exact writeArrival_keeps s t
  | ringRegionWrite t => exact writeArrival_keeps s t
  | frameAccess t => exact arrival_keeps s t
  | apertureAccess t => exact arrival_keeps s t
  | acquire r base => exact arrival_keeps s (portRead r base 0x1000)
  | post r base data => exact arrival_keeps s (portWrite r base 0x1004 data)
  | postUrgent r base data => exact arrival_keeps s (portWrite r base 0x1008 data)
  | release r base data => exact arrival_keeps s (portWrite r base 0x100C data)
  | take r base => exact arrival_keeps s (portRead r base 0x1010)
  | peek r base => exact arrival_keeps s (portRead r base 0x1014)
  | count r base => exact arrival_keeps s (portRead r base 0x1018)
  | portUndefinedAccess t => exact arrival_keeps s t
  | acquireCommit resp => exact execAcquireCommit_keeps resp s
  | takeCommit resp => exact execTakeCommit_keeps resp s
  | peekCompletion resp => exact execPeekCompletion_keeps resp s
  | slotWriteCompletion resp => exact execSlotWriteCompletion_keeps resp s
  | reclaimWriteCompletion resp => exact execReclaimWriteCompletion_keeps resp s
  | primeWriteCompletion resp => exact execPrimeWriteCompletion_keeps resp s
  | passthroughCompletion resp => exact execPassthroughCompletion_keeps resp s
  | reloadGlobalsReadCompletion resp => exact execReloadGlobalsReadCompletion_keeps resp s
  | resultWriteCompletion resp => exact execResultWriteCompletion_keeps resp s
  | globalReadCompletion resp => exact execGlobalReadCompletion_keeps resp s
  | statusWriteCompletion resp => exact execStatusWriteCompletion_keeps resp s
  | laneStatusWriteCompletion resp => exact execLaneStatusWriteCompletion_keeps resp s
  | lateResponseDiscard => exact execLateResponseDiscard_keeps s
  | owedResponseDiscard => exact next_keeps (.of_lanes rfl)
  | responseDelivery r => exact execResponseDelivery_keeps r s
  | arbiterGrant => exact ifHolds_keeps _ (grant_copiesKept s)
  | slotClaimPlace => exact next_keeps (settle_copiesKept s (serveFirst_copiesKept s))
  | reclaimWriteStart l => exact next_keeps (placeNow_copiesKept s _)
  | primeWriteStart l => exact next_keeps (placeNow_copiesKept s _)
  | statusWritePlace => exact next_keeps (placeNow_copiesKept s _)
  | laneStatusWritePlace l => exact next_keeps (placeNow_copiesKept s _)
  | laneDrainComplete l => exact ifHolds_keeps _ (drainOff_copiesKept s l)
  | laneTeardown l => exact ifHolds_keeps _ (teardown_copiesKept s l)
  | resetAllClearing => exact ifHolds_keeps _ (clearing_copiesKept s)
  | openLane => exact next_keeps (carryOut_copiesKept openLane_copiesKept s _)
  | closeLane => exact next_keeps (carryOut_copiesKept closeLane_copiesKept s _)
  | forceClose => exact next_keeps (carryOut_copiesKept forceClose_copiesKept s _)
  | pauseLane => exact next_keeps (carryOut_copiesKept (laneCommand_copiesKept pausedBy_keepsCopy) s _)
  | resumeLane => exact next_keeps (carryOut_copiesKept (laneCommand_copiesKept resumed_keepsCopy) s _)
  | stepLane => exact next_keeps (carryOut_copiesKept (laneCommand_copiesKept stepped_keepsCopy) s _)
  | haltLane => exact next_keeps (carryOut_copiesKept (laneCommand_copiesKept haltedBy_keepsCopy) s _)
  | clearTrap => exact next_keeps (carryOut_copiesKept clearTrap_copiesKept s _)
  | ackIrq => exact next_keeps (carryOut_copiesKept ackIrq_copiesKept s _)
  | snapshot => exact next_keeps (carryOut_copiesKept snapshot_copiesKept s _)
  | reloadGlobals => exact next_keeps (carryOut_copiesKept reloadGlobals_copiesKept s _)
  | resetAll => exact next_keeps (carryOut_copiesKept resetAll_copiesKept s _)
  | badOpcodeCommand => exact execBadOpcodeCommand_keeps s

/-- DESC_READ_COMPLETION keeps the slices within the records and apart (R76 to R79). -/
theorem execDescReadCompletion_slicesHeld {s t : State} {resp : DResp (Vector Word 16)} (k : SlicesHeld s)
    (h : execDescReadCompletion resp s = .next t) : SlicesHeld t := by
  unfold execDescReadCompletion at h
  split at h
  · next l _ =>
    cases h
    have popped : SlicesHeld s.popOldest := k.of_lanes rfl
    exact (settle_placed s _).copiesKept.slicesHeld (endDesc_slicesHeld popped l resp)
  · cases h; exact k

theorem exec_slicesHeld {c : Instr} {s t : State} (k : SlicesHeld s) (h : exec c s = .next t) : SlicesHeld t := by
  by_cases d : ∃ resp, c = .descReadCompletion resp
  · obtain ⟨resp, rfl⟩ := d
    exact execDescReadCompletion_slicesHeld k h
  · exact (exec_keeps c s (fun resp e => d ⟨resp, e⟩) t h).slicesHeld k

/-- Settles O58: the copies are kept or dropped by every command but DESC_READ_COMPLETION, which validates the slice of
the copy it brings into force. -/
theorem slicesStayApart : Obligations.SlicesStayApart := by
  intro s t k h
  unfold step at h
  split at h
  · cases h; exact (refclk_copiesKept s).slicesHeld k
  · next c rest _ =>
    have taken : SlicesHeld { s with pending := rest } := k.of_lanes rfl
    exact exec_slicesHeld taken h

/-! ### The handle check (R18, R19, R52) -/

/-- A transaction that the port operation it reaches refuses is answered FAULT and nothing else happens (R54). -/
theorem refused_reaches {s : State} {c : Instr} {t : Txn} {l : LaneId} {op : PortOp} {k : FaultKind}
    (h : Reaches s c t l op) (hk : k.requesterCaused = true) (e : s.servePortOp l t op = s.refuse k (some l) t) :
    ∃ u, exec c s = .next u ∧ Refused k (some l) t s u := by
  obtain ⟨met, wf⟩ := meet_reaches h
  rw [arrives_exec h.arrives]
  exact refuse_arrival h.listens wf hk (met.trans e)

/-- POST and POST_URGENT refuse what their fourth check finds (R52). -/
theorem servePost_fault {s : State} {l : LaneId} {t : Txn} {w : Word} {k : FaultKind}
    (h : s.postFault l t.requester w = some k) (urgent : Bool) : s.servePost l t w urgent = s.refuse k (some l) t := by
  unfold State.servePost; rw [h]

/-- RELEASE refuses what its fourth check finds (R52). -/
theorem serveRelease_fault {s : State} {l : LaneId} {t : Txn} {w : Word} {k : FaultKind}
    (h : s.releaseFault l t.requester w = some k) : s.serveRelease l t w = s.refuse k (some l) t := by
  unfold State.serveRelease; rw [h]

theorem postFault_of_handleFault {s : State} {l : LaneId} {r : Requester} {w : Word} {k : FaultKind}
    (h : s.handleFault l w (fun st => st.heldBy r) = some k) : s.postFault l r w = some k := by
  unfold State.postFault; rw [h]

/-- Whatever standing the operation requires, a fault that the handle check finds is what it is refused for (R18). -/
theorem servePortOp_handleFault {s : State} {l : LaneId} {t : Txn} {w : Word} {op : PortOp} {k : FaultKind}
    (ho : op = .post w ∨ op = .postUrgent w ∨ op = .release w) (h : ∀ need, s.handleFault l w need = some k) :
    s.servePortOp l t op = s.refuse k (some l) t := by
  rcases ho with rfl | rfl | rfl
  · exact servePost_fault (postFault_of_handleFault (h _)) false
  · exact servePost_fault (postFault_of_handleFault (h _)) true
  · exact serveRelease_fault (h _)

theorem handleFault_badHandle {s : State} {l : LaneId} {w : Word}
    (h : w.getLsbD 31 = true ∨ (s.descriptor l).frameCount ≤ handleIndex w) (need : Standing → Bool) :
    s.handleFault l w need = some .badHandle := by rw [handleFault_eq, if_pos h]

theorem handleFault_stale {s : State} {l : LaneId} {w : Word} (top : w.getLsbD 31 = false)
    (index : handleIndex w < (s.descriptor l).frameCount)
    (gen : w.extractLsb' 10 4 ≠ (s.record (handleRecord s l w)).gen) (need : Standing → Bool) :
    s.handleFault l w need = some .stale := by
  have named : ¬ (w.getLsbD 31 = true ∨ (s.descriptor l).frameCount ≤ handleIndex w) := by
    rw [top]; exact not_or.2 ⟨Bool.false_ne_true, Nat.not_le.2 index⟩
  rw [handleFault_eq, if_neg named, if_pos gen]

theorem releaseFault_notHolder {s : State} {l : LaneId} {w : Word} {r : Requester} (h : HandleFound s l w)
    (holder : (s.record (handleRecord s l w)).standing.holder ≠ some r) : s.releaseFault l r w = some .notHolder := by
  unfold State.releaseFault
  rw [h.fault, if_neg (by rw [decide_eq_true_iff]; exact holder)]

theorem postFault_notHolder {s : State} {l : LaneId} {w : Word} {r : Requester} (h : HandleFound s l w)
    (holder : ¬ ∃ lease, (s.record (handleRecord s l w)).standing = .held r lease) :
    s.postFault l r w = some .notHolder :=
  postFault_of_handleFault <| by rw [h.fault, if_neg (fun e => holder (heldBy_iff.1 e))]

theorem postFault_badLength {s : State} {l : LaneId} {w : Word} {r : Requester} (h : HandleFound s l w)
    (holder : ∃ lease, (s.record (handleRecord s l w)).standing = .held r lease) (length : ¬ LengthFits s l w) :
    s.postFault l r w = some .badLength := by
  unfold State.postFault
  rw [h.fault, if_pos (heldBy_iff.2 holder)]
  exact if_pos (Nat.not_le.1 length)

/-- An operation that quotes a handle and is no RELEASE refuses what the check of POST finds (R52). -/
theorem servePortOp_postFault {s : State} {l : LaneId} {t : Txn} {w : Word} {op : PortOp} {k : FaultKind}
    (ho : op = .post w ∨ op = .postUrgent w ∨ op = .release w) (hr : op ≠ .release w)
    (h : s.postFault l t.requester w = some k) : s.servePortOp l t op = s.refuse k (some l) t := by
  rcases ho with rfl | rfl | rfl
  · exact servePost_fault h false
  · exact servePost_fault h true
  · exact absurd rfl hr

/-- Settles O16: the handle check of R52 finds each fault before the resource check of R53 is reached. -/
theorem handlesAreCheckedBeforeResources : Obligations.HandlesAreCheckedBeforeResources := by
  intro s c t l op w h ho
  refine ⟨fun bad => ?_, fun top index gen => ?_, fun found hr holder => ?_, fun found hr => ⟨fun holder => ?_,
    fun holder length => ?_⟩⟩
  · exact refused_reaches h rfl (servePortOp_handleFault ho (handleFault_badHandle bad))
  · exact refused_reaches h rfl (servePortOp_handleFault ho (handleFault_stale top index gen))
  · subst hr
    exact refused_reaches h rfl (serveRelease_fault (releaseFault_notHolder found holder))
  · exact refused_reaches h rfl (servePortOp_postFault ho hr (postFault_notHolder found holder))
  · exact refused_reaches h rfl (servePortOp_postFault ho hr (postFault_badLength found holder length))

end Sys2Proof.Machine

/-! PROOFS. The entry words of the rings, the ring accesses that fail, and the requests that wait for an engine queue
slot (chapters 2, 4 and 10). -/

namespace Sys2Proof.Machine

/-! ### The entry word and its parity (R35, R36) -/

theorem onesBelow_succ (n : Nat) (w : Word) :
    onesBelow (n + 1) w = onesBelow n w + if w.getLsbD n = true then 1 else 0 := by
  unfold onesBelow
  rw [List.range_succ, List.countP_append, List.countP_singleton]

/-- The count looks at the low bits alone. -/
theorem onesBelow_congr {n : Nat} {v w : Word} (h : ∀ i < n, v.getLsbD i = w.getLsbD i) :
    onesBelow n v = onesBelow n w :=
  List.countP_congr fun i hi => by rw [h i (List.mem_range.1 hi)]

theorem word_body_bit (e : Entry) {i : Nat} (h : i < 30) : e.word.getLsbD i = e.body.getLsbD i := by
  unfold Entry.word
  rw [BitVec.getLsbD_append, if_pos h]

theorem word_parity_bit (e : Entry) : e.word.getLsbD 30 = entryParity e.body := by
  unfold Entry.word
  rw [BitVec.getLsbD_append, if_neg (by decide), BitVec.getLsbD_append, if_pos (by decide)]
  simp

theorem word_top_bit (e : Entry) : e.word.getLsbD 31 = false := by
  unfold Entry.word
  rw [BitVec.getLsbD_append, if_neg (by decide), BitVec.getLsbD_append, if_neg (by decide)]
  simp

theorem onesBelow_word (e : Entry) : onesBelow 30 e.word = onesBelow 30 (0#2 ++ e.body) :=
  onesBelow_congr fun i hi => by rw [word_body_bit e hi, BitVec.getLsbD_append, if_pos hi]

/-- The parity bit makes the number of ones even (R36). -/
theorem word_even_parity (e : Entry) : onesBelow 31 e.word % 2 = 0 := by
  rw [onesBelow_succ, word_parity_bit, onesBelow_word]
  unfold entryParity
  simp only [beq_iff_eq]
  split <;> omega

theorem entryKind_ofCode_code (k : EntryKind) : EntryKind.ofCode k.code = k := by cases k <;> rfl

/-- A part of the body of an entry word is that part of the word. -/
theorem extract_word (e : Entry) {lo n : Nat} (h : lo + n ≤ 30) :
    e.word.extractLsb' lo n = e.body.extractLsb' lo n := by
  ext i hi
  simp only [BitVec.getElem_extractLsb']
  exact word_body_bit e (by omega)

/-- An entry word reads back to its fields: each stands above those written below it (R35). -/
theorem ofWord_word (e : Entry) : Entry.ofWord e.word = e := by
  obtain ⟨index, gen, length, origin, kind, urgent⟩ := e
  unfold Entry.ofWord
  rw [extract_word _ (by decide), extract_word _ (by decide), extract_word _ (by decide), extract_word _ (by decide),
    extract_word _ (by decide), word_body_bit _ (by decide)]
  unfold Entry.body
  congr 1
  case e_index => exact BitVec.extractLsb'_append_eq_right
  case e_gen =>
    rw [BitVec.extractLsb'_append_eq_of_le (by decide)]
    exact BitVec.extractLsb'_append_eq_right
  case e_length =>
    iterate 2 rw [BitVec.extractLsb'_append_eq_of_le (by decide)]
    exact BitVec.extractLsb'_append_eq_right
  case e_origin =>
    iterate 3 rw [BitVec.extractLsb'_append_eq_of_le (by decide)]
    exact BitVec.extractLsb'_append_eq_right
  case e_kind =>
    iterate 4 rw [BitVec.extractLsb'_append_eq_of_le (by decide)]
    exact (congrArg EntryKind.ofCode BitVec.extractLsb'_append_eq_right).trans (entryKind_ofCode_code kind)
  case e_urgent =>
    iterate 5 rw [BitVec.getLsbD_append, if_neg (by decide)]
    exact BitVec.getLsbD_ofBool urgent 0

theorem slotCheck_fails {s : State} {l : LaneId} {k : RingKind} {w : Word}
    (h : onesBelow 31 w % 2 = 1 ∨ w.getLsbD 31 = true) : s.slotCheck l k w = false := by
  rw [← Bool.not_eq_true, slotCheck_iff]
  intro ok
  rcases h with odd | top
  · exact absurd (odd.symm.trans ok.parity) (by decide)
  · exact absurd (top.symm.trans ok.top) (by decide)

/-- Settles O53: the parity bit completes the ones of the body to an even number, and each field stands at its bits. -/
theorem entryWordsAreWrittenWithEvenParity : Obligations.EntryWordsAreWrittenWithEvenParity :=
  ⟨fun e => ⟨ofWord_word e, word_even_parity e, word_top_bit e⟩, fun _ _ _ _ => slotCheck_fails⟩

/-! ### Failed ring accesses (R38 to R42, R85) -/

/-- A step whose event, said in the statements' words, ends in a test for OFF. -/
theorem offTested_of_eq {s x y : State} {c : Instr} {l : LaneId} (h : exec c s = .next (s.settle (y.arriveOff l)))
    (e : y = x) : ∃ u, exec c s = .next u ∧ OffTested l s x u := offTested_of (e ▸ h)

/-- A ring read that fails, in the statements' words. -/
theorem failRead_eq {s : State} {l : LaneId} {op : ReadOp} {r : Requester} {list : List Unanswered} (addr : Addr)
    {k : FaultKind} (data : Word) (reason : HaltReason) (hk : k.requesterCaused = false)
    (hd : Decides (.ring l op.ring) faultOf (s.uport r).list list) :
    s.failRead l op r addr k data reason =
      ((s.setUport r { s.uport r with list := list }).setLane l
        (ringFaulted reason
          ((s.lane l).setRing op.ring { (s.lane l).ring op.ring with access := .idle, fenced := none }))).trapReport
            { kind := k, lane := some l, requester := some r, addr := addr, dir := .read, data := data } := by
  have answered : s.decideResponse r (.ring l op.ring) faultResponse = s.setUport r { s.uport r with list := list } :=
    hd.response
  unfold State.failRead
  rw [answered, releaseRing_eq]
  exact report_ringFault _ l _ _ reason rfl hk

/-- A write of a ring that fails, after its ring has been released (R41, R42, R85). -/
theorem failWrite_releaseRing (s : State) (l : LaneId) (k : RingKind) (r : Option Requester) (addr : Addr)
    (entry : Word) : (s.releaseRing l k).failWrite l r addr entry =
      (s.setLane l (ringFaulted .memory
        ((s.lane l).setRing k { (s.lane l).ring k with access := .idle, fenced := none }))).trapReport
          { kind := .memoryError, lane := some l, requester := r, addr := addr, dir := .write, data := entry } :=
  report_ringFault s l _ _ .memory rfl rfl

/-- The failed write of a port operation, in the statements' words (R41). -/
theorem slotWriteOutcome_error {s : State} {l : LaneId} {k : RingKind} {w : SlotWrite} {list : List Unanswered}
    (hd : Decides (.ring l k) faultOf (s.uport w.requester).list list) :
    s.slotWriteOutcome l k w .error =
      ((s.setUport w.requester { s.uport w.requester with list := list }).setLane l
        (ringFaulted .memory
          ((s.lane l).setRing k { (s.lane l).ring k with access := .idle, fenced := none }))).trapReport
            { kind := .memoryError, lane := some l, requester := some w.requester, addr := w.addr, dir := .write,
              data := w.entry } := by
  have answered : s.decideResponse w.requester (.ring l k) faultResponse = _ := hd.response
  unfold State.slotWriteOutcome
  dsimp only
  rw [answered, failWrite_releaseRing]
  rfl

/-- Settles O24: both ways a read fails end in `failRead`, followed by the test for OFF. -/
theorem failedReadsHaltTheirLane : Obligations.FailedReadsHaltTheirLane := by
  intro s c l read r addr words after kind reason data list h hd
  rcases h with ⟨fails, rfl, rfl, rfl⟩ | ⟨ends, rfl, bad, rfl, rfl⟩
  · have ended : exec c s = .next (s.settle
        ((({ s with inflight := after } : State).failRead l read r addr .memoryError allOnes .memory).arriveOff l)) :=
      (exec_fails fails :)
    exact offTested_of_eq ended (failRead_eq addr allOnes .memory rfl hd)
  · have failed : ({ s with inflight := after } : State).readOutcome l read r addr (.okay data) =
        ({ s with inflight := after } : State).failRead l read r addr .ringCorrupt data .corrupt :=
      if_neg (mt (slotCheck_iff s l read.ring data).1 bad)
    exact offTested_of_eq (exec_read ends (.okay data)) (failed.trans (failRead_eq addr data .corrupt rfl hd))

/-- Settles O26: every failed write releases its ring and then fails in `failWrite`, followed by the test for OFF. -/
theorem failedRingWritesHaltTheirLane : Obligations.FailedRingWritesHaltTheirLane := by
  intro s c l words after
  refine ⟨fun k w list fails hd => ?_, fun addr entry fails => ?_⟩
  · have ended : exec c s = .next (s.settle
        ((({ s with inflight := after } : State).slotWriteOutcome l k w .error).arriveOff l)) := (exec_fails fails :)
    exact offTested_of_eq ended (slotWriteOutcome_error hd)
  · have ended : exec c s = .next (s.settle
        (((({ s with inflight := after } : State).releaseRing l .free).failWrite l none addr entry).arriveOff l)) :=
      fails.elim exec_fails exec_fails
    exact offTested_of_eq ended (failWrite_releaseRing _ l .free none addr entry)

/-! ### Claimants that are placed (R43, R62, R83, R164, R166) -/

/-- The address of a slot of a ring in force (R25). -/
theorem slotAddr_of {g : Ring} {geom : RingGeom} (h : g.geom = some geom) (n : Nat) : g.slotAddr n = slotAt geom n := by
  unfold Ring.slotAddr; rw [h]; rfl

theorem wants_reclaim {s : State} {l : LaneId} (st : Counts (s.lane l).state) (entry : (s.lane l).reclaim ≠ [])
    (idle : (s.lane l).freeRing.access = .idle) : wants s (.reclaim l) = true := by
  unfold Counts at st
  exact decide_eq_true ⟨by simpa using st, entry, idle⟩

/-- A reclaim write takes the entry at the list's head to the slot at tail (R43, R134). -/
theorem placeReclaim_eq {s : State} {l : LaneId} {e : ReclaimEntry} {es : List ReclaimEntry} {geom : RingGeom}
    (head : (s.lane l).reclaim = e :: es) (hg : (s.lane l).freeRing.geom = some geom) :
    s.placeReclaim l = (s.setLane l { s.lane l with freeRing := { (s.lane l).freeRing with access := .writing } }).place
      (.reclaimWrite l (slotAt geom (s.lane l).freeRing.tail) (reclaimedEntry e (s.frame l e.frame).gen).word) := by
  unfold State.placeReclaim
  dsimp only
  split
  · next empty => rw [head] at empty; cases empty
  · next first rest listed =>
    obtain ⟨rfl, rfl⟩ := List.cons.inj (listed.symm.trans head)
    rw [← slotAddr_of hg]
    rfl

/-- A priming write takes the frame at the priming position to the slot at tail (R83). -/
theorem placePrime_eq {s : State} {l : LaneId} {geom : RingGeom} (hg : (s.lane l).freeRing.geom = some geom) :
    s.placePrime l = (s.setLane l { s.lane l with freeRing := { (s.lane l).freeRing with access := .writing } }).place
      (.primeWrite l (slotAt geom (s.lane l).freeRing.tail)
        (primedEntry (s.lane l).primePos (s.frame l (s.lane l).primePos).gen).word) := by
  unfold State.placePrime
  dsimp only
  rw [← slotAddr_of hg]
  rfl

theorem wants_fenced {s : State} {l : LaneId} {k : RingKind} {w : SlotWrite}
    (hw : ((s.lane l).ring k).fenced = some w) (fence : w.fence = 0) : wants s (.fenced l k) = true := by
  unfold wants; dsimp only
  rw [hw]
  exact decide_eq_true fence

/-- A fenced slot write waits no longer once it is placed (R62). -/
theorem placeFenced_eq {s : State} {l : LaneId} {k : RingKind} {w : SlotWrite}
    (hw : ((s.lane l).ring k).fenced = some w) :
    s.placeFenced l k =
      (s.setLane l ((s.lane l).setRing k { (s.lane l).ring k with fenced := none })).place (.ringWrite l k w) := by
  unfold State.placeFenced
  rw [hw]
  rfl

/-- A claimant that wants a slot is placed while the queue holds fewer than 15, in the statements' words. -/
theorem begins_placed_eq {s x : State} {c : Instr} {claim : Claimant} (hq : s.engQ.length < 15) (h : Begins s c claim)
    (hw : wants s claim = true) (e : s.placeClaim claim = x) : ∃ u, exec c s = .next u ∧ Placed s x u :=
  e ▸ begins_placed hq h ((claims_eq s claim).trans hw)

/-- Settles O37: each claimant whose conditions hold wants a slot, and `begins_placed` gives it one. -/
theorem waitingRequestsArePlaced : Obligations.WaitingRequestsArePlaced := by
  intro s c claim hq h
  refine ⟨?reclaim, ?prime, ?status, ?laneStatus, ?fenced⟩
  case reclaim =>
    rintro l e es geom rfl counts head idle hg
    have listed : (s.lane l).reclaim ≠ [] := by rw [head]; exact List.cons_ne_nil e es
    exact begins_placed_eq hq h (wants_reclaim counts listed idle) (placeReclaim_eq head hg)
  case prime =>
    rintro l geom rfl priming more idle hg
    exact begins_placed_eq hq h (decide_eq_true ⟨priming, more, idle⟩) (placePrime_eq hg)
  case status =>
    rintro rfl waits
    exact begins_placed_eq hq h (decide_eq_true waits) rfl
  case laneStatus =>
    rintro l rfl waits
    exact begins_placed_eq hq h waits rfl
  case fenced =>
    rintro l k w rfl hw fence
    exact begins_placed_eq hq h (wants_fenced hw fence) (placeFenced_eq hw)

end Sys2Proof.Machine

/-! PROOFS. The port operations (chapter 3): their checks in order, their acceptance, and the ends of the ring accesses
they start. -/

namespace Sys2Proof.Machine

/-! ### Word, lane state and role (R48, R50, R51) -/

/-- What is no port word's operation is refused first (R48, R49). -/
theorem servePortWord_undefined {s : State} {l : LaneId} {offset : Nat} {t : Txn} (h : portOpOf offset t = none) :
    s.servePortWord l offset t = s.refuse .portUndefined (some l) t := by
  unfold State.servePortWord; rw [h]

/-- Settles O14: the first check finds no operation. -/
theorem malformedPortAccessesAreUndefined : Obligations.MalformedPortAccessesAreUndefined := by
  intro s c t l offset arrives listens port _ malformed
  have met : s.meet t = s.refuse .portUndefined (some l) t :=
    (meet_port port).trans (servePortWord_undefined (portOp_none malformed))
  rw [arrives_exec arrives]
  exact refuse_arrival listens port.wf rfl met

/-- A lane state that holds the operation off answers RETRY (R50). -/
theorem servePortWord_retry {s : State} {l : LaneId} {offset : Nat} {t : Txn} {op : PortOp}
    (word : PortWord offset t op) (verdict : laneVerdict (s.lane l).state op = .retry) :
    s.servePortWord l offset t = s.portRetry l t := by
  unfold State.servePortWord
  rw [portOp_of_word word]
  dsimp only
  rw [verdict]

/-- A lane state that refuses the operation answers with its fault (R50). -/
theorem servePortWord_fault {s : State} {l : LaneId} {offset : Nat} {t : Txn} {op : PortOp} {k : FaultKind}
    (word : PortWord offset t op) (verdict : laneVerdict (s.lane l).state op = .fault k) :
    s.servePortWord l offset t = s.refuse k (some l) t := by
  unfold State.servePortWord
  rw [portOp_of_word word]
  dsimp only
  rw [verdict]

/-- A requester without the operation's role is refused ROLE (R51). -/
theorem servePortWord_role {s : State} {l : LaneId} {offset : Nat} {t : Txn} {op : PortOp}
    (word : PortWord offset t op) (passes : LanePasses (s.lane l).state op)
    (role : ¬ RoleAllows (s.descriptor l) t.requester op) :
    s.servePortWord l offset t = s.refuse .role (some l) t := by
  unfold State.servePortWord
  rw [portOp_of_word word]
  dsimp only
  rw [verdict_passes passes]
  exact if_neg (mt (roleOk_iff ..).1 role)

theorem laneVerdict_retry {st : LaneState} {op : PortOp} (h : st = .priming ∨ (st = .paused ∧ Producing op)) :
    laneVerdict st op = .retry := by
  rcases h with rfl | ⟨rfl, rfl | ⟨w, rfl⟩ | ⟨w, rfl⟩⟩
  · cases op <;> rfl
  · rfl
  · rfl
  · rfl

theorem laneVerdict_halted {op : PortOp} (h : op ≠ .count) : laneVerdict .halted op = .fault .laneHalted := by
  cases op with
  | count => exact absurd rfl h
  | _ => rfl

theorem laneVerdict_closing {st : LaneState} {op : PortOp} (h : st = .flushing ∨ (st = .closing ∧ op = .acquire)) :
    laneVerdict st op = .fault .laneClosing := by
  rcases h with rfl | ⟨rfl, rfl⟩
  · cases op <;> rfl
  · rfl

/-- Settles O15: the lane state's verdict, and behind a passing one the role, decide before the handle is looked at. -/
theorem laneStateAndRoleDecidePortOperations : Obligations.LaneStateAndRoleDecidePortOperations := by
  intro s c t l offset op arrives listens port word
  rw [arrives_exec arrives]
  have met : s.meet t = s.servePortWord l offset t := meet_port port
  refine ⟨fun state => ?retry, fun state other => ?halted, fun state => ?closing, fun passes role => ?role⟩
  case retry => exact portRetry_arrival listens port.wf (met.trans (servePortWord_retry word (laneVerdict_retry state)))
  case halted =>
    have verdict : laneVerdict (s.lane l).state op = .fault .laneHalted := state ▸ laneVerdict_halted other
    exact refuse_arrival listens port.wf rfl (met.trans (servePortWord_fault word verdict))
  case closing =>
    exact refuse_arrival listens port.wf rfl (met.trans (servePortWord_fault word (laneVerdict_closing state)))
  case role => exact refuse_arrival listens port.wf rfl (met.trans (servePortWord_role word passes role))

/-! ### The resource check of the read-side operations (R53) -/

/-- What a port operation that has passed its first three checks does is the step's own effect. -/
theorem placed_reaches {s x : State} {c : Instr} {t : Txn} {l : LaneId} {op : PortOp} (h : Reaches s c t l op)
    (e : s.servePortOp l t op = x) : ∃ u, exec c s = .next u ∧ Placed s x u := by
  obtain ⟨met, wf⟩ := meet_reaches h
  rw [arrives_exec h.arrives]
  exact arrival_of h.listens wf (met.trans e)

/-- At its limit a requester's ACQUIRE or TAKE gets the LIMIT token (R22). -/
theorem servePortOp_limit {s : State} {l : LaneId} {t : Txn} {read : ReadOp} (h : read ≠ .peek)
    (limit : (s.descriptor l).limit ≤ (s.lane l).checkedOut t.requester) :
    s.servePortOp l t (readWord read) = s.portLimit t := by
  have reached : s.atLimit l t.requester = true := decide_eq_true limit
  cases read with
  | peek => exact absurd rfl h
  | acquire => exact if_pos reached
  | take => exact if_pos reached

theorem readResources_retry {s : State} {l : LaneId} {t : Txn} {read : ReadOp}
    (h : ((s.lane l).ring read.ring).access ≠ .idle ∨ 15 ≤ s.engQ.length) :
    s.readResources l read t = s.portRetry l t := by
  unfold State.readResources
  rcases busy_or_full h with busy | full
  · rw [busy]; rfl
  · rw [full]; exact ite_self _

/-- With the ring IDLE and a slot free, the ring's count decides (R53). -/
theorem readResources_free {s : State} {l : LaneId} {t : Txn} {read : ReadOp}
    (idle : ((s.lane l).ring read.ring).access = .idle) (room : s.engQ.length < 15) :
    s.readResources l read t =
      if ((s.lane l).ring read.ring).count = 0 then s.portEmpty l t else s.acceptRead l read t := by
  unfold State.readResources
  rw [ring_idle idle, slot_free room]
  rfl

/-- The ring is claimed READING and the read of its head slot joins the engine queue (R57, R65, R66). -/
theorem acceptRead_eq {s : State} {l : LaneId} {read : ReadOp} {geom : RingGeom} (t : Txn)
    (hg : ((s.lane l).ring read.ring).geom = some geom) :
    s.acceptRead l read t =
      { (s.join t (.waiting (.ring l read.ring))).setLane l
          ((s.lane l).setRing read.ring { (s.lane l).ring read.ring with access := .reading }) with
        engQ := s.engQ ++ [.ringRead l read t.requester (slotAt geom ((s.lane l).ring read.ring).head)] } := by
  unfold State.acceptRead
  dsimp only
  rw [slotAddr_of hg]
  rfl

/-- Settles O17: the limit test, then the ring's claim and the slot, then the ring's count. -/
theorem readsClaimTheirRing : Obligations.ReadsClaimTheirRing := by
  intro s c t l read h
  refine ⟨fun limited reached => placed_reaches h (servePortOp_limit limited reached), fun below => ?_⟩
  have served : s.servePortOp l t (readWord read) = s.readResources l read t := serve_read read below
  refine ⟨fun taken => ?retry, fun idle room empty => ?empty, fun geom idle room entries hg => ?claims⟩
  case retry => exact placed_reaches h (served.trans (readResources_retry taken))
  case empty =>
    have answered : s.readResources l read t = s.portEmpty l t := by rw [readResources_free idle room, if_pos empty]
    exact placed_reaches h (served.trans answered)
  case claims =>
    have accepted : s.readResources l read t = s.acceptRead l read t := by
      rw [readResources_free idle room, if_neg entries]
    exact placed_reaches h ((served.trans accepted).trans (acceptRead_eq t hg))

/-! ### POST, POST_URGENT and RELEASE (R52, R53, R60 to R64) -/

theorem postFault_none {s : State} {l : LaneId} {w : Word} {r : Requester} (h : HandleFound s l w)
    (held : ∃ lease, (s.record (handleRecord s l w)).standing = .held r lease) (length : LengthFits s l w) :
    s.postFault l r w = none := by
  unfold State.postFault
  rw [h.fault, if_pos (heldBy_iff.2 held)]
  exact if_neg (Nat.not_lt.2 length)

theorem releaseFault_none {s : State} {l : LaneId} {w : Word} {r : Requester} (h : HandleFound s l w)
    (holder : (s.record (handleRecord s l w)).standing.holder = some r) : s.releaseFault l r w = none := by
  unfold State.releaseFault
  rw [h.fault, if_pos (decide_eq_true holder)]

theorem servePortOp_post (s : State) (l : LaneId) (t : Txn) (w : Word) (urgent : Bool) :
    s.servePortOp l t (if urgent then .postUrgent w else .post w) = s.servePost l t w urgent := by
  cases urgent <;> rfl

theorem servePost_retry {s : State} {l : LaneId} {t : Txn} {w : Word} {urgent : Bool}
    (found : s.postFault l t.requester w = none)
    (h : (s.lane l).workRing.access ≠ .idle ∨ 15 ≤ s.engQ.length ∨
      (s.lane l).workRing.count = (s.lane l).workRing.size) :
    s.servePost l t w urgent = s.portRetry l t := by
  unfold State.servePost
  rw [found]
  dsimp only
  rcases or_assoc.2 h with taken | full
  · rcases busy_or_full (k := .work) taken with busy | noSlot
    · rw [busy]; rfl
    · rw [noSlot]; exact ite_self _
  · rw [if_pos full]; simp only [ite_self]

theorem servePost_accepts {s : State} {l : LaneId} {t : Txn} {w : Word} {urgent : Bool}
    (found : s.postFault l t.requester w = none) (idle : (s.lane l).workRing.access = .idle)
    (room : s.engQ.length < 15) (space : (s.lane l).workRing.count ≠ (s.lane l).workRing.size) :
    s.servePost l t w urgent = s.acceptPost l t w urgent := by
  unfold State.servePost
  rw [found, ring_idle (k := .work) idle, slot_free room]
  exact if_neg space

theorem serveRelease_retry {s : State} {l : LaneId} {t : Txn} {w : Word}
    (found : s.releaseFault l t.requester w = none)
    (h : (s.lane l).freeRing.access ≠ .idle ∨ 15 ≤ s.engQ.length) : s.serveRelease l t w = s.portRetry l t := by
  unfold State.serveRelease
  rw [found]
  dsimp only
  rcases busy_or_full (k := .free) h with busy | noSlot
  · rw [busy]; rfl
  · rw [noSlot]; exact ite_self _

theorem serveRelease_accepts {s : State} {l : LaneId} {t : Txn} {w : Word}
    (found : s.releaseFault l t.requester w = none) (idle : (s.lane l).freeRing.access = .idle)
    (room : s.engQ.length < 15) : s.serveRelease l t w = s.acceptRelease l t w := by
  unfold State.serveRelease
  rw [found, ring_idle (k := .free) idle, slot_free room]
  rfl

theorem size_of_geom {g : Ring} {geom : RingGeom} (h : g.geom = some geom) : g.size = geom.size := by
  unfold Ring.size; rw [h]; rfl

theorem slotBefore_of_geom {g : Ring} {geom : RingGeom} (h : g.geom = some geom) :
    g.slotBefore = slotBeforeHead g geom.size := by
  unfold Ring.slotBefore slotBeforeHead; rw [size_of_geom h]

/-- An entry joins a ring in force at its tail, and the ring waits to write it (R30, R62). -/
theorem append_claimWrite {g : Ring} {geom : RingGeom} (h : g.geom = some geom) (w : SlotWrite) :
    g.append.claimWrite w =
      { g with tail := (g.tail + 1) % geom.size, count := g.count + 1, access := .writing, fenced := some w } :=
  claimWrite_eq h false w

/-- Settles O18: with the handle found, the resource check of R53 decides; `post_lane` and `claimWrite_eq` say what the
acceptance does to the lane. -/
theorem postsQueueTheirFrame : Obligations.PostsQueueTheirFrame := by
  intro s c t l w urgent lease h found length held
  have served : s.servePortOp l t (if urgent then .postUrgent w else .post w) = s.servePost l t w urgent :=
    servePortOp_post s l t w urgent
  have checked : s.postFault l t.requester w = none := postFault_none found ⟨lease, held⟩ length
  refine ⟨fun taken => ?retry, fun geom hg idle room space => ?accepts⟩
  case retry =>
    have taken : (s.lane l).workRing.access ≠ .idle ∨ 15 ≤ s.engQ.length ∨
        (s.lane l).workRing.count = (s.lane l).workRing.size :=
      taken.imp_right (Or.imp_right fun ⟨_, hg, full⟩ => full.trans (size_of_geom hg).symm)
    exact placed_reaches h (served.trans (servePost_retry checked taken))
  case accepts =>
    have accepted : s.servePost l t w urgent = s.acceptPost l t w urgent :=
      servePost_accepts checked idle room (size_of_geom hg ▸ space)
    refine placed_reaches h ((served.trans accepted).trans ?_)
    unfold State.acceptPost
    dsimp only
    rw [slotAddr_of hg]
    refine congrArg (State.setLane _ l) ((post_lane ..).trans ?_)
    rw [claimWrite_eq hg, slotBefore_of_geom hg]
    cases urgent <;> rfl

/-- Settles O19: with the handle found, the resource check of R53 decides; `release_lane` and `append_claimWrite` say
what the acceptance does to the lane. -/
theorem releasesFreeTheirFrame : Obligations.ReleasesFreeTheirFrame := by
  intro s c t l w h found holder
  have checked : s.releaseFault l t.requester w = none := releaseFault_none found holder
  refine ⟨fun taken => placed_reaches h (serveRelease_retry checked taken), fun geom hg idle room => ?_⟩
  have accepted : s.servePortOp l t (.release w) = s.acceptRelease l t w := serveRelease_accepts checked idle room
  refine placed_reaches h (accepted.trans ?_)
  unfold State.acceptRelease
  dsimp only
  rw [slotAddr_of hg]
  refine congrArg (State.setLane _ l) ((release_lane ..).trans ?_)
  rw [append_claimWrite hg]
  rfl

/-! ### COUNT (R67) -/

/-- Settles O20: COUNT meets no resource check, and its answer is all it does. -/
theorem countAnswersTheLanesCounts : Obligations.CountAnswersTheLanesCounts := by
  intro s c t l h
  have served : s.servePortOp l t .count = s.answer t (.okay [(s.lane l).countWordFor t.requester]) := rfl
  exact placed_reaches h served

/-! ### The ends of ring reads (R22, R58, R59, R65, R66) -/

/-- A read whose word passed the six checks ends as its operation says. -/
theorem readOutcome_passed {s : State} {l : LaneId} {read : ReadOp} {w : Word} (h : SlotOk s l read.ring w)
    (r : Requester) (addr : Addr) : s.readOutcome l read r addr (.okay w) = s.passedRead l read r w :=
  if_pos ((slotCheck_iff s l read.ring w).2 h)

/-- The step of a ring read whose word passed the six checks, in the statements' words. -/
theorem passedRead_step {s x : State} {l : LaneId} {read : ReadOp} {r : Requester} {addr : Addr} {words : List Word}
    {rest : List InFlight} {w : Word} (ends : NextEnds s (.ringRead l read r addr) words rest)
    (ok : SlotOk s l read.ring w) (e : ({ s with inflight := rest } : State).passedRead l read r w = x) :
    ∃ u, exec (readCommand read (.okay w)) s = .next u ∧ OffTested l s x u := by
  have ok : SlotOk { s with inflight := rest } l read.ring w :=
    ⟨ok.parity, ok.top, ok.kind, ok.index, ok.gen, ok.standing⟩
  exact offTested_of_eq (exec_read ends (.okay w)) ((readOutcome_passed ok r addr).trans e)

/-- An ACQUIRE below the limit commits (R58). -/
theorem passedRead_acquire {s : State} {l : LaneId} {r : Requester} (w : Word)
    (below : (s.lane l).checkedOut r < (s.descriptor l).limit) :
    s.passedRead l .acquire r w = s.commitAcquire l r (Entry.ofWord w) := by
  have under : s.atLimit l r = false := not_limit below s.inflight
  unfold State.passedRead
  dsimp only
  rw [under]
  rfl

/-- A TAKE below the limit commits (R65). -/
theorem passedRead_take {s : State} {l : LaneId} {r : Requester} (w : Word)
    (below : (s.lane l).checkedOut r < (s.descriptor l).limit) :
    s.passedRead l .take r w = s.commitTake l r w := by
  have under : s.atLimit l r = false := not_limit below s.inflight
  unfold State.passedRead
  dsimp only
  rw [under]
  rfl

/-- The commit of an ACQUIRE, in the statements' words (R7, R29, R58). -/
theorem commitAcquire_eq {s : State} {l : LaneId} {r : Requester} {w : Word} {geom : RingGeom} {list : List Unanswered}
    (hg : (s.lane l).freeRing.geom = some geom)
    (hd : Decides (.ring l .free) (fun _ => .okay [handleWord (w.extractLsb' 0 10) (w.extractLsb' 10 4)])
      (s.uport r).list list) :
    let n := handleRecord s l w
    let ln := s.lane l
    let g := ln.freeRing
    let mark := (s.descriptor l).watermark
    s.commitAcquire l r (Entry.ofWord w) =
      ((s.setUport r { s.uport r with list := list }).setRecord n
        { standing := .held r (leaseOf (s.descriptor l)), gen := (s.record n).gen }).setLane l
          { ln with
              causes := if mark ≤ g.count ∧ g.count - 1 < mark then ln.causes ||| 0b000010#6 else ln.causes
              stats := { ln.stats with acquires := oneMore ln.stats.acquires }
              checkout := ln.checkout.set r (ln.checkedOut r + 1)
              prodBind := ln.prodBind.set r (some n)
              freeRing := { g with head := (g.head + 1) % geom.size, count := g.count - 1, access := .idle,
                                   fenced := none } } := by
  have answered : s.decideResponse r (.ring l .free)
      (fun _ => .okay [handleWord (Entry.ofWord w).index (Entry.ofWord w).gen]) = _ := hd.response
  unfold State.commitAcquire
  dsimp only
  rw [answered]
  exact congrArg (State.setLane _ l) (acquire_lane (s.lane l) r (handleRecord s l w) _ geom hg)

/-- The commit of a TAKE, in the statements' words (R9, R65). -/
theorem commitTake_eq {s : State} {l : LaneId} {r : Requester} {w : Word} {geom : RingGeom} {list : List Unanswered}
    (hg : (s.lane l).workRing.geom = some geom)
    (hd : Decides (.ring l .work) (fun _ => .okay [w]) (s.uport r).list list) :
    let n := handleRecord s l w
    let ln := s.lane l
    let g := ln.workRing
    s.commitTake l r w =
      ((s.setUport r { s.uport r with list := list }).setRecord n
        { standing := .taken r (leaseOf (s.descriptor l)), gen := (s.record n).gen }).setLane l
          { ln with
              stats := { ln.stats with takes := oneMore ln.stats.takes }
              checkout := ln.checkout.set r (ln.checkedOut r + 1)
              consBind := ln.consBind.set r (some n)
              workRing := { g with head := (g.head + 1) % geom.size, count := g.count - 1, access := .idle,
                                   fenced := none } } := by
  unfold State.commitTake
  dsimp only
  rw [hd.response]
  exact congrArg (State.setLane _ l) (take_lane (s.lane l) r (handleRecord s l w) geom hg)

/-- Settles O21: below the limit a checked ACQUIRE commits. -/
theorem acquiresCommit : Obligations.AcquiresCommit := by
  intro s l r addr words rest w geom list ends ok below hg hd
  have commits : ({ s with inflight := rest } : State).passedRead l .acquire r w = _ := passedRead_acquire w below
  exact passedRead_step (read := .acquire) ends ok
    (commits.trans (commitAcquire_eq (s := { s with inflight := rest }) hg hd))

/-- Settles O22: below the limit a checked TAKE commits. -/
theorem takesCommit : Obligations.TakesCommit := by
  intro s l r addr words rest w geom list ends ok below hg hd
  have commits : ({ s with inflight := rest } : State).passedRead l .take r w = _ := passedRead_take w below
  exact passedRead_step (read := .take) ends ok
    (commits.trans (commitTake_eq (s := { s with inflight := rest }) hg hd))

/-- A ring access that is answered and frees its ring, and does nothing else. -/
theorem decideResponse_releaseRing {s : State} {r : Requester} {l : LaneId} {k : RingKind} {mk : Nat → Response}
    {list : List Unanswered} (hd : Decides (.ring l k) mk (s.uport r).list list) :
    (s.decideResponse r (.ring l k) mk).releaseRing l k =
      (s.setUport r { s.uport r with list := list }).setLane l
        ((s.lane l).setRing k { (s.lane l).ring k with access := .idle, fenced := none }) := by
  rw [hd.response, releaseRing_eq]
  rfl

/-- An ACQUIRE or TAKE at the limit is discarded (R22, R59). -/
theorem passedRead_limit {s : State} {l : LaneId} {read : ReadOp} {r : Requester} (w : Word) (h : read ≠ .peek)
    (limit : (s.descriptor l).limit ≤ (s.lane l).checkedOut r) :
    s.passedRead l read r w = s.limitRead l read.ring r := by
  have reached : s.atLimit l r = true := decide_eq_true limit
  cases read with
  | peek => exact absurd rfl h
  | acquire => exact if_pos reached
  | take => exact if_pos reached

/-- Settles O23: a PEEK, and a read past the limit, answers its word and frees its ring. -/
theorem peeksAndReadsPastTheLimitRemoveNothing : Obligations.PeeksAndReadsPastTheLimitRemoveNothing := by
  intro s l read r addr words rest w answer list ends ok kind hd
  have outcome : ({ s with inflight := rest } : State).passedRead l read r w =
      (({ s with inflight := rest } : State).decideResponse r (.ring l read.ring) fun _ => .okay [answer]).releaseRing l
        read.ring := by
    rcases kind with ⟨rfl, rfl⟩ | ⟨limited, reached, rfl⟩
    · rfl
    · exact passedRead_limit w limited reached
  exact passedRead_step ends ok (outcome.trans (decideResponse_releaseRing (s := { s with inflight := rest }) hd))

/-! ### The ends of ring writes (R44, R62) -/

/-- Settles O25: a slot write answers OKAY and frees its ring, a reclaim write frees the free ring. -/
theorem ringWritesFreeTheirRing : Obligations.RingWritesFreeTheirRing := by
  intro s l words rest
  refine ⟨fun k w list ends hd => ?slot, fun addr entry ends => ?reclaim⟩
  case slot =>
    obtain ⟨completing, popped, -⟩ := ends.completing
    have ended : exec (.slotWriteCompletion (.okay ())) s = .next (s.settle
        ((({ s with inflight := rest } : State).slotWriteOutcome l k w (.okay ())).arriveOff l)) := by
      simp only [exec, execSlotWriteCompletion, completing, popped, State.endSlotWrite]
    exact offTested_of_eq ended (decideResponse_releaseRing (s := { s with inflight := rest }) hd)
  case reclaim =>
    obtain ⟨completing, popped, -⟩ := ends.completing
    have ended : exec (.reclaimWriteCompletion (.okay ())) s = .next (s.settle
        ((({ s with inflight := rest } : State).releaseRing l .free).arriveOff l)) := by
      simp only [exec, execReclaimWriteCompletion, completing, popped, State.endReclaim]
    exact offTested_of_eq ended (releaseRing_eq _ l .free)

end Sys2Proof.Machine

/-! PROOFS. The life cycle of a lane (chapter 4): OPEN_LANE and its descriptor read, priming, the commands that move a
lane from state to state, and its ways to OFF. -/

namespace Sys2Proof.Machine

/-! ### The descriptor read (R76 to R79, R149) -/

open Classical in
/-- The tests that follow the codes, in their order and in the statements' words (R76 to R78). -/
theorem validate_copied {s : State} {ws : Vector Word 16} {d : Descriptor} (codes : ¬ BadCodes ws)
    (copy : CopiedFrom ws d) : s.validate (.okay ws) =
      if ¬ FieldsInRange d then .error .badField
      else if ¬ BasesAligned d then .error .misaligned
      else if d.freeSize < d.frameCount then .error .freeRingSmall
      else if d.producers = 0#8 ∧ d.consumers = 0#8 then .error .noRole
      else if ¬ SliceFree s d then .error .sliceOverlap
      else if ¬ RegionsFree s d then .error .regionOverlap
      else .ok d := by
  unfold State.validate
  simp only [descriptorOf_of codes copy, ← fieldsOk_iff, ← aligned_iff, ← sliceTaken_iff, ← regionTaken_iff,
    Bool.not_eq_true, Bool.not_eq_true', Bool.not_eq_false]

/-- Codes that name nothing fail the validation first (R77). -/
theorem validate_badCodes {s : State} {ws : Vector Word 16} (h : BadCodes ws) :
    s.validate (.okay ws) = .error .badField := by
  unfold State.validate; simp only [(descriptorOf_none ws).2 h]

/-- The memory controller's answer to a DESC_READ ends it (R76). -/
theorem exec_descRead {s : State} {l : LaneId} {words : List Word} {rest : List InFlight}
    (ends : NextEnds s (.descRead l) words rest) (ws : Vector Word 16) : exec (.descReadCompletion (.okay ws)) s =
      .next (s.settle (({ s with inflight := rest } : State).endDesc l (.okay ws))) := by
  obtain ⟨completing, popped, -⟩ := ends.completing
  simp only [exec, execDescReadCompletion, completing, popped]

section descRead
variable {s : State} {w : Word} {l : LaneId} {words : List Word} {rest : List InFlight} {ws : Vector Word 16}
  (hc : s.cmd = some { word := w, phase := .readingDescriptor }) (ends : NextEnds s (.descRead l) words rest)
include hc ends

/-- A descriptor that fails a test refuses its command (R76). -/
theorem descRead_refuses {reason : Reason} (h : s.validate (.okay ws) = .error reason) :
    ∃ u, exec (.descReadCompletion (.okay ws)) s = .next u ∧
      Placed s (ended { s with inflight := rest } w reason) u := by
  have same : ({ s with inflight := rest } : State).validate (.okay ws) = .error reason := h
  have refuses : ({ s with inflight := rest } : State).endDesc l (.okay ws) =
      ({ s with inflight := rest } : State).endCommand reason := by unfold State.endDesc; rw [same]; rfl
  exact ended_step ((exec_descRead ends ws).trans (by rw [refuses])) hc

/-- A descriptor that passes opens the lane (R79). -/
theorem descRead_opens {d : Descriptor} (h : s.validate (.okay ws) = .ok d) :
    ∃ u, exec (.descReadCompletion (.okay ws)) s = .next u ∧
      Placed s (ended (({ s with inflight := rest } : State).setLane l (openedLane (s.lane l) d)) w .none) u := by
  have same : ({ s with inflight := rest } : State).validate (.okay ws) = .ok d := h
  have opens : ({ s with inflight := rest } : State).endDesc l (.okay ws) =
      (({ s with inflight := rest } : State).setLane l (openedLane (s.lane l) d)).endCommand .none := by
    unfold State.endDesc; rw [same]; rfl
  exact ended_step ((exec_descRead ends ws).trans (by rw [opens])) hc

end descRead

/-- A DESC_READ that fails is reported for its lane and refuses the command (R76, R149). -/
theorem endDesc_error (s : State) (l : LaneId) : s.endDesc l .error =
    ((s.setLane l (counted (s.lane l))).trapReport
      (ownError (some l) (blockAddr s (0x800 + 64 * l.val)) .read 0xFFFFFFFF#32)).endCommand .memory :=
  congrArg (fun x => x.endCommand .memory) (error_read s l (s.descAddr l))

/-- Settles O33: the outcome is that of the first test that fails, as `validate_copied` lists them. -/
theorem descriptorReadsOpenOrRefuse : Obligations.DescriptorReadsOpenOrRefuse := by
  intro s w l words hc
  refine ⟨fun c after fails => ?failed, fun rest ws ends => ⟨fun bad => ?badCodes, fun codes => ?copy, ?tests⟩⟩
  case failed =>
    have refuses := exec_fails fails
    rw [State.endWithError, endDesc_error] at refuses
    exact ended_step refuses hc
  case badCodes => exact descRead_refuses hc ends (validate_badCodes bad)
  case copy =>
    obtain ⟨d, read⟩ := Option.ne_none_iff_exists'.1 (mt (descriptorOf_none ws).1 codes)
    exact ⟨d, descriptorOf_copied read⟩
  case tests =>
    intro d codes copy
    have outcome := validate_copied (s := s) codes copy
    refine ⟨fun fields => ?badField, fun fields bases => ?misaligned, fun fields bases small => ?freeRingSmall,
      fun fields bases fits => ⟨fun producers consumers => ?noRole, fun role => ?records⟩⟩
    case badField => exact descRead_refuses hc ends (by simp [outcome, fields])
    case misaligned => exact descRead_refuses hc ends (by simp [outcome, fields, bases])
    case freeRingSmall => exact descRead_refuses hc ends (by simp [outcome, fields, bases, small])
    case noRole =>
      exact descRead_refuses hc ends (by simp [outcome, fields, bases, fits.not_gt, producers, consumers])
    case records =>
      have roles : ¬ (d.producers = 0#8 ∧ d.consumers = 0#8) := not_and_or.2 role
      refine ⟨fun slice => ?sliceOverlap, fun slice regions => ?regionOverlap, fun slice regions => ?opens⟩
      case sliceOverlap =>
        exact descRead_refuses hc ends (by simp [outcome, fields, bases, fits.not_gt, roles, slice])
      case regionOverlap =>
        exact descRead_refuses hc ends (by simp [outcome, fields, bases, fits.not_gt, roles, slice, regions])
      case opens =>
        exact descRead_opens hc ends (by simp [outcome, fields, bases, fits.not_gt, roles, slice, regions])

/-! ### Priming (R6, R84) -/

/-- A priming write that completes, in the statements' words. -/
theorem primeDone_eq {s : State} {l : LaneId} {geom : RingGeom} (hg : (s.lane l).freeRing.geom = some geom) :
    let ln := s.lane l
    let n := (s.descriptor l).recordOf ln.primePos
    let last := ln.state = .priming ∧ ln.primePos + 1 = (s.descriptor l).frameCount
    s.primeDone l = (s.setRecord n { standing := .free, gen := (s.record n).gen }).setLane l
      { ln with
          state := if last then .opened else ln.state
          causes := if last then ln.causes ||| 0b000100#6 else ln.causes
          primePos := ln.primePos + 1
          freeRing := { ln.freeRing with tail := (ln.freeRing.tail + 1) % geom.size, count := ln.freeRing.count + 1,
                                         access := .idle, fenced := none } } := by
  intro ln n last
  exact congrArg (fun x => (s.setRecord n { standing := .free, gen := (s.record n).gen }).setLane l x)
    (primed_lane ln geom hg)

/-- Settles O27: the write ends in `primeDone`, followed by the test for OFF. -/
theorem primingWritesFreeTheirFrames : Obligations.PrimingWritesFreeTheirFrames := by
  intro s l addr entry words rest geom ends hg
  obtain ⟨completing, popped, -⟩ := ends.completing
  have ended : exec (.primeWriteCompletion (.okay ())) s = .next (s.settle
      ((({ s with inflight := rest } : State).primeDone l).arriveOff l)) := by
    simp only [exec, execPrimeWriteCompletion, completing, popped, State.endPrime]
  exact offTested_of_eq ended (primeDone_eq (s := { s with inflight := rest }) hg)

/-! ### The arrival at OFF (R13, R14, R93, R96, R97) -/

/-- Settles O39: each of the two commands tests its condition, and settles the arrival at OFF where it holds. -/
theorem lanesReachOff : Obligations.LanesReachOff := by
  intro s l
  refine ⟨fun h => ⟨s.drainOff l, s.settle (s.drainOff l), ?_, drainOff_offFrom h, settle_placed s _⟩, fun h => ?_,
    fun h => ⟨s.teardown l, s.settle (s.teardown l), ?_, teardown_offFrom s l, settle_placed s _⟩, fun h => ?_⟩
  · exact congrArg Host.Outcome.next (if_pos ((drained_iff s l).2 h))
  · exact congrArg Host.Outcome.next (if_neg (mt (drained_iff s l).1 h))
  · exact congrArg Host.Outcome.next (if_pos ((flushed_iff s l).2 h))
  · exact congrArg Host.Outcome.next (if_neg (mt (flushed_iff s l).1 h))

/-! ### The table of lane states (R81, R88, R90, R91) -/

/-- PAUSE_LANE pauses a lane in OPEN or STEP (R81). -/
theorem pausedBy_eq (ln : Lane) : ln.pausedBy =
    if ln.state = .opened ∨ ln.state = .step then some { ln with state := .paused } else none := by
  unfold Lane.pausedBy; cases ln.state <;> rfl

/-- RESUME_LANE opens a lane in PAUSED or STEP, and one out of a halt that it lifts (R81, R90). -/
theorem resumed_eq (ln : Lane) : ln.resumed =
    if ln.state = .paused ∨ ln.state = .step then some { ln with state := .opened }
    else if ln.state = .halted ∧ (ln.haltReason = .command ∨ ln.haltReason = .policy) then
      some { ln with state := .opened, haltReason := .none }
    else none := by
  unfold Lane.resumed; cases ln.state <;> simp [lifts_iff]

/-- STEP_LANE takes a lane in OPEN or PAUSED to STEP (R81). -/
theorem stepped_eq (ln : Lane) : ln.stepped =
    if ln.state = .opened ∨ ln.state = .paused then some { ln with state := .step } else none := by
  unfold Lane.stepped; cases ln.state <;> rfl

/-- HALT_LANE halts a lane in which leases count, with reason COMMAND (R81, R88). -/
theorem haltedBy_eq (ln : Lane) : ln.haltedBy = if ln.state.counting then some (ln.halt .command) else none := by
  unfold Lane.haltedBy; cases ln.state <;> rfl

/-- CLOSE_LANE closes a lane in OPEN, PAUSED or STEP, and one out of a halt that it lifts (R81, R90, R91). -/
theorem closed_eq (ln : Lane) : ln.closed =
    if ln.state = .opened ∨ ln.state = .paused ∨ ln.state = .step then some { ln with state := .closing }
    else if ln.state = .halted ∧ (ln.haltReason = .command ∨ ln.haltReason = .policy) then
      some { ln with state := .closing, haltReason := .none }
    else none := by
  unfold Lane.closed; cases ln.state <;> simp [lifts_iff]

/-! ### The commands that move a lane (R75, R81, R158) -/

/-- The step of a command that is carried out (R156). -/
theorem carryOut_step {s : State} {c : Instr} {w : Word} {n : Nat} {op : Opcode} {act : State → Word → State}
    (ready : Ready s w n) (part : s.part ≠ .pass) (code : Opcode.ofCode n = some op)
    (h : exec c s = .next (s.carryOut op act)) : exec c s = .next (s.settle (act s w)) :=
  h.trans (congrArg Host.Outcome.next (carryOut_of ready code act (.inr part)))

/-- A lane-state command is done where it changes its lane, and refused BAD_STATE where it does not (R81, R158). -/
theorem laneCommand_step {s : State} {c : Instr} {w : Word} {n : Nat} {op : Opcode} {change : Lane → Option Lane}
    (ready : Ready s w n) (part : s.part ≠ .pass) (code : Opcode.ofCode n = some op)
    (h : exec c s = .next (s.carryOut op fun s w => s.laneCommand w change)) :
    (∀ ln, change (s.lane (cmdLane w)) = some ln →
      ∃ u, exec c s = .next u ∧ Placed s (ended (s.setLane (cmdLane w) ln) w .none) u) ∧
    (change (s.lane (cmdLane w)) = none → ∃ u, exec c s = .next u ∧ Placed s (ended s w .badState) u) :=
  have step := carryOut_step ready part code h
  ⟨fun _ => lane_done ready.cmd rfl step, lane_bad ready.cmd rfl step⟩

/-- Settles O41: OPEN_LANE asks whether the lane is OFF. -/
theorem openLaneReadsTheDescriptorOfAnOffLane : Obligations.OpenLaneReadsTheDescriptorOfAnOffLane := by
  intro s w ready part
  have step : exec .openLane s = .next (s.settle (s.openLane w)) := carryOut_step ready part rfl rfl
  refine ⟨fun h => ?notOff, fun h => ?off⟩
  case notOff =>
    have refuses : s.openLane w = s.endCommand .notOff := if_neg h
    exact ended_step (refuses ▸ step) ready.cmd
  case off =>
    have reads : s.openLane w = { s with cmd := some { word := w, phase := .readingDescriptor },
                                         cuCalls := s.cuCalls ++ [.descRead (cmdLane w)] } := by
      unfold State.openLane State.cmdPhase
      rw [if_pos h, ready.cmd]
      rfl
    exact placed_of (reads ▸ step)

/-- Settles O42: each command by the equation of its lane change. -/
theorem laneStateCommandsFollowTheTable : Obligations.LaneStateCommandsFollowTheTable := by
  intro s w part
  refine ⟨fun ready => ?pause, fun ready => ?resume, fun ready => ?step, fun ready => ?halt⟩
  case pause =>
    obtain ⟨done, bad⟩ := laneCommand_step (c := .pauseLane) ready part rfl rfl
    exact ⟨fun h => done _ ((pausedBy_eq _).trans (if_pos h)),
      fun a b => bad ((pausedBy_eq _).trans (if_neg (not_or.2 ⟨a, b⟩)))⟩
  case resume =>
    obtain ⟨done, bad⟩ := laneCommand_step (c := .resumeLane) ready part rfl rfl
    refine ⟨fun h => done _ ((resumed_eq _).trans (if_pos h)), fun halted lifts => done _ ?_, fun a b n => bad ?_⟩
    · rw [resumed_eq, if_neg (by simp [halted]), if_pos ⟨halted, lifts⟩]
    · rw [resumed_eq, if_neg (not_or.2 ⟨a, b⟩), if_neg n]
  case step =>
    obtain ⟨done, bad⟩ := laneCommand_step (c := .stepLane) ready part rfl rfl
    exact ⟨fun h => done _ ((stepped_eq _).trans (if_pos h)),
      fun a b => bad ((stepped_eq _).trans (if_neg (not_or.2 ⟨a, b⟩)))⟩
  case halt =>
    obtain ⟨done, bad⟩ := laneCommand_step (c := .haltLane) ready part rfl rfl
    exact ⟨fun h => done _ ((haltedBy_eq _).trans (if_pos ((counting_iff _).2 h))),
      fun h => bad ((haltedBy_eq _).trans (if_neg (mt (counting_iff _).1 h)))⟩

/-! ### CLOSE_LANE (R91, R93) -/

/-- CLOSE_LANE of a lane that it closes is done, and the drain condition is tested at once (R91, R93). -/
theorem closeLane_some {s : State} {w : Word} {p : CmdPhase} {ln : Lane} (hc : s.cmd = some { word := w, phase := p })
    (h : (s.lane (cmdLane w)).closed = some ln) :
    s.closeLane w = (ended (s.setLane (cmdLane w) ln) w .none).arriveOff (cmdLane w) := by
  have done : (s.setLane (cmdLane w) ln).endCommand .none = ended (s.setLane (cmdLane w) ln) w .none :=
    endCommand_of (s := s.setLane (cmdLane w) ln) hc .none
  unfold State.closeLane
  simp only [h, done]

/-- CLOSE_LANE of a lane that it does not close is refused (R81). -/
theorem closeLane_none {s : State} {w : Word} (h : (s.lane (cmdLane w)).closed = none) :
    s.closeLane w = s.endCommand .badState := by
  unfold State.closeLane; simp only [h]

/-- Settles O43: by the equation of the lane change, `closed_eq`. -/
theorem closeLaneDrainsTheLane : Obligations.CloseLaneDrainsTheLane := by
  intro s w ready part l ln lifts
  have step : exec .closeLane s = .next (s.settle (s.closeLane w)) := carryOut_step ready part rfl rfl
  have closes {x : Lane} (h : ln.closed = some x) :
      ∃ u, exec .closeLane s = .next u ∧ OffTested l s (ended (s.setLane l x) w .none) u :=
    offTested_of (closeLane_some ready.cmd h ▸ step)
  refine ⟨fun h => closes ((closed_eq ln).trans (if_pos h)), fun h => closes ?_, fun a b c n => ?_⟩
  · rw [closed_eq, if_neg (by simp [h.1]), if_pos h]
  · have refuses : ln.closed = none := by rw [closed_eq, if_neg (by simp [a, b, c]), if_neg n]
    exact ended_step (closeLane_none refuses ▸ step) ready.cmd

/-! ### FORCE_CLOSE (R45, R94, R96) -/

/-- A lane already FLUSHING is left as it is (R94). -/
theorem flushLanes_flushing {s : State} {l : LaneId} (h : (s.lane l).state = .flushing) : s.flushLanes [l] = s := by
  have none : s.toFlush [l] = [] := by simp [State.toFlush, h]
  unfold State.flushLanes
  rw [none]
  rfl

/-- A lane neither OFF nor FLUSHING enters FLUSHING, the operations cut off are answered in some order, and its arrival
at OFF is tested, at the end of the command as well as before it (R45, R94, R96). -/
theorem flushLanes_ended {s : State} {w : Word} {p : CmdPhase} {l : LaneId} (r : Reason)
    (hc : s.cmd = some { word := w, phase := p }) (off : (s.lane l).state ≠ .off)
    (flushes : (s.lane l).state ≠ .flushing) : ∃ (order : List Discard) (d : Nat), order.Perm (s.discards l) ∧
      let x := ended (order.foldl State.cutOff (flushing s [l])) w r
      (s.flushLanes [l]).endCommand r = (x.redraw x.cmd x.cuCalls d).arriveOff l := by
  obtain ⟨order, d, perm, flushed⟩ := flushLanes_eq s [l] (List.nodup_singleton l)
  have enters : toFlush s [l] = [l] := by simp [toFlush, off, flushes]
  rw [enters] at perm flushed
  rw [List.flatMap_singleton] at perm
  refine ⟨order, d, perm, ?_⟩
  dsimp only
  generalize hx : order.foldl State.cutOff (flushing s [l]) = x at flushed
  have calls : x.cuCalls = s.cuCalls := hx ▸ (cutOffs_cmd order (flushing s [l])).2
  have drawn : ended (x.redraw s.cmd s.cuCalls d) w r =
      (ended x w r).redraw (ended x w r).cmd (ended x w r).cuCalls d := by
    unfold ended State.redraw
    rw [calls]
  calc (s.flushLanes [l]).endCommand r = ((x.redraw s.cmd s.cuCalls d).arriveOff l).endCommand r := by rw [flushed]; rfl
    _ = (ended (x.redraw s.cmd s.cuCalls d) w r).arriveOff l := arriveOff_ended (s := x.redraw s.cmd s.cuCalls d) hc l r
    _ = ((ended x w r).redraw (ended x w r).cmd (ended x w r).cuCalls d).arriveOff l := by rw [drawn]

/-- Settles O44: the lane's state decides whether `flushLanes` does anything, and the draw of the order leaves no trace
but its count. -/
theorem forceCloseFlushesTheLane : Obligations.ForceCloseFlushesTheLane := by
  intro s w ready part l
  have step : exec .forceClose s = .next (s.settle (s.forceClose w)) := carryOut_step ready part rfl rfl
  have flushes (h : (s.lane l).state ≠ .off) : s.forceClose w = (s.flushLanes [l]).endCommand .none := if_neg h
  refine ⟨fun off => ?off, fun already => ?already, fun off enters => ?enters⟩
  case off =>
    have refuses : s.forceClose w = s.endCommand .badState := if_pos off
    exact ended_step (refuses ▸ step) ready.cmd
  case already =>
    have done : s.forceClose w = s.endCommand .none := by
      rw [flushes (by simp [already]), flushLanes_flushing already]
    exact ended_step (done ▸ step) ready.cmd
  case enters =>
    obtain ⟨order, d, perm, ends⟩ := flushLanes_ended .none ready.cmd off enters
    rw [flushes off, ends] at step
    obtain ⟨u, next, tested⟩ := offTested_of step
    exact ⟨order, u, perm, next, tested.redraw⟩

end Sys2Proof.Machine

/-! PROOFS. The depths of the queues and lists (R108, R109, R170, R171, R174): most of what the part does keeps their
lengths. -/

namespace Sys2Proof.Machine

/-! ### The lengths -/

/-- The lengths of the queues and lists that have a depth. -/
structure Lengths where
  passQ : Nat
  engQ : Nat
  inflight : Nat
  lists : Requester → Nat

/-- The lengths of the queues and lists of a state. -/
def State.lengths (s : State) : Lengths :=
  { passQ := s.passQ.length, engQ := s.engQ.length, inflight := s.inflight.length,
    lists := fun r => (s.uport r).list.length }

/-- What keeps the lengths keeps the bounds. -/
theorem QueuesBounded.of_lengths {s t : State} (k : QueuesBounded s) (h : t.lengths = s.lengths) : QueuesBounded t where
  passQ := (congrArg Lengths.passQ h).trans_le k.passQ
  engQ := (congrArg Lengths.engQ h).trans_le k.engQ
  inflight := (congrArg Lengths.inflight h).trans_le k.inflight
  lists r := (congrFun (congrArg Lengths.lists h) r).trans_le (k.lists r)

/-- What leaves the queues and the U-ports alone keeps the lengths. -/
theorem lengths_of_fields {s t : State} (hp : t.passQ = s.passQ) (he : t.engQ = s.engQ) (hi : t.inflight = s.inflight)
    (hu : t.uports = s.uports) : t.lengths = s.lengths := by
  unfold State.lengths State.uport
  rw [hp, he, hi, hu]

/-- A sequence of changes, each of which keeps the lengths. -/
theorem foldl_lengths {α : Type} {f : State → α → State} (h : ∀ s x, (f s x).lengths = s.lengths) (xs : List α)
    (s : State) : (xs.foldl f s).lengths = s.lengths := by
  induction xs generalizing s with
  | nil => rfl
  | cons x xs ih => exact (ih _).trans (h s x)

/-- A sequence of changes, each of which keeps the bounds. -/
theorem foldl_bounded {α : Type} {f : State → α → State} (h : ∀ s x, QueuesBounded s → QueuesBounded (f s x))
    (xs : List α) {s : State} (k : QueuesBounded s) : QueuesBounded (xs.foldl f s) := by
  induction xs generalizing s with
  | nil => exact k
  | cons x xs ih => exact ih (h s x k)

/-! ### What keeps the lengths -/

@[simp] theorem lengths_setLane (s : State) (l : LaneId) (ln : Lane) : (s.setLane l ln).lengths = s.lengths := rfl

@[simp] theorem lengths_updLane (s : State) (l : LaneId) (f : Lane → Lane) : (s.updLane l f).lengths = s.lengths := rfl

@[simp] theorem lengths_setRecord (s : State) (n : RecordId) (r : FrameRec) : (s.setRecord n r).lengths = s.lengths := rfl

@[simp] theorem lengths_releaseRing (s : State) (l : LaneId) (k : RingKind) : (s.releaseRing l k).lengths = s.lengths := rfl

/-- A U-port whose list keeps its length. -/
theorem lengths_setUport {s : State} {r : Requester} {u : UPort} (h : u.list.length = (s.uport r).list.length) :
    (s.setUport r u).lengths = s.lengths := by
  have lists : (s.setUport r u).lengths.lists = s.lengths.lists := funext fun q => by
    show ((s.setUport r u).uport q).list.length = (s.uport q).list.length
    rw [uport_setUport]
    split
    · next e => rw [h, e]
    · rfl
  exact congrArg (fun ls : Requester → Nat => { s.lengths with lists := ls }) lists

/-- A response decided stays on its list until it is delivered (R109). -/
@[simp] theorem lengths_decideResponse (s : State) (r : Requester) (a : Await) (mk : Nat → Response) :
    (s.decideResponse r a mk).lengths = s.lengths := lengths_setUport (decideFirst_length ..)

@[simp] theorem lengths_report (s : State) (f : Report) : (s.report f).lengths = s.lengths :=
  have h := report_frame s f
  lengths_of_fields h.passQ h.engQ h.inflight h.uports

@[simp] theorem lengths_drawOrder {α : Type} (s : State) (xs : List α) : (s.drawOrder xs).2.lengths = s.lengths := by
  rw [drawOrder_books]; rfl

@[simp] theorem lengths_endCommand (s : State) (reason : Reason) : (s.endCommand reason).lengths = s.lengths := by
  unfold State.endCommand; split <;> rfl

@[simp] theorem lengths_cmdPhase (s : State) (p : CmdPhase) : (s.cmdPhase p).lengths = s.lengths := by
  unfold State.cmdPhase; split <;> rfl

@[simp] theorem lengths_call (s : State) (c : CuCall) : (s.call c).lengths = s.lengths := rfl

@[simp] theorem lengths_mapFrames (s : State) (d : Descriptor) (f : FrameRec → FrameRec) (is : List Nat) :
    (s.mapFrames d f is).lengths = s.lengths := by rw [mapFrames_rest]; rfl

@[simp] theorem lengths_drainOff (s : State) (l : LaneId) : (s.drainOff l).lengths = s.lengths := lengths_mapFrames ..

@[simp] theorem lengths_teardown (s : State) (l : LaneId) : (s.teardown l).lengths = s.lengths := lengths_mapFrames ..

@[simp] theorem lengths_arriveOff (s : State) (l : LaneId) : (s.arriveOff l).lengths = s.lengths := by
  unfold State.arriveOff
  split
  · exact lengths_drainOff s l
  · split
    · exact lengths_teardown s l
    · rfl

@[simp] theorem lengths_clearing (s : State) : s.clearing.lengths = s.lengths := lengths_endCommand ..

@[simp] theorem lengths_cutOff (s : State) (x : Discard) : (s.cutOff x).lengths = s.lengths := by simp [State.cutOff]

/-! ### The ends of accesses keep the lengths -/

theorem lengths_passedRead (s : State) (l : LaneId) (op : ReadOp) (r : Requester) (w : Word) :
    (s.passedRead l op r w).lengths = s.lengths := by
  have limit (k : RingKind) : (s.limitRead l k r).lengths = s.lengths := by simp [State.limitRead]
  cases op with
  | acquire =>
    unfold State.passedRead
    dsimp only
    split
    · exact limit .free
    · simp [State.commitAcquire]
  | take =>
    unfold State.passedRead
    dsimp only
    split
    · exact limit .work
    · simp [State.commitTake]
  | peek => simp [State.passedRead, State.finishPeek]

theorem lengths_endRead (s : State) (l : LaneId) (op : ReadOp) (r : Requester) (addr : Addr) (resp : DResp Word) :
    (s.endRead l op r addr resp).lengths = s.lengths := by
  have fails (k : FaultKind) (data : Word) (reason : HaltReason) :
      (s.failRead l op r addr k data reason).lengths = s.lengths := by simp [State.failRead]
  unfold State.endRead State.readOutcome
  rw [lengths_arriveOff]
  split
  · exact fails ..
  · split
    · exact lengths_passedRead ..
    · exact fails ..

@[simp] theorem lengths_failWrite (s : State) (l : LaneId) (r : Option Requester) (addr : Addr) (entry : Word) :
    (s.failWrite l r addr entry).lengths = s.lengths := by simp [State.failWrite]

theorem lengths_endSlotWrite (s : State) (l : LaneId) (k : RingKind) (w : SlotWrite) (resp : DResp Unit) :
    (s.endSlotWrite l k w resp).lengths = s.lengths := by
  unfold State.endSlotWrite
  cases resp <;> simp [State.slotWriteOutcome]

theorem lengths_endReclaim (s : State) (l : LaneId) (addr : Addr) (entry : Word) (resp : DResp Unit) :
    (s.endReclaim l addr entry resp).lengths = s.lengths := by
  cases resp <;> simp [State.endReclaim]

theorem lengths_endPrime (s : State) (l : LaneId) (addr : Addr) (entry : Word) (resp : DResp Unit) :
    (s.endPrime l addr entry resp).lengths = s.lengths := by
  cases resp <;> simp [State.endPrime, State.primeDone]

@[simp] theorem lengths_reportReadError {α : Type} (s : State) (l : Option LaneId) (addr : Addr) (resp : DResp α) :
    (s.reportReadError l addr resp).lengths = s.lengths := by
  cases resp <;> simp [State.reportReadError]

theorem lengths_endDesc (s : State) (l : LaneId) (resp : DResp (Vector Word 16)) :
    (s.endDesc l resp).lengths = s.lengths := by
  unfold State.endDesc
  dsimp only
  split <;> simp

@[simp] theorem lengths_activate (s : State) (g : Globals) : (s.activate g).lengths = s.lengths := rfl

theorem lengths_endStartUp (s : State) (resp : DResp (Vector Word 16)) : (s.endStartUp resp).lengths = s.lengths := by
  unfold State.endStartUp
  dsimp only
  split
  · simp
  · exact lengths_reportReadError s none (s.controlAddr 0) resp

theorem lengths_endReload (s : State) (resp : DResp (Vector Word 16)) : (s.endReload resp).lengths = s.lengths := by
  unfold State.endReload
  dsimp only
  split <;> simp

theorem lengths_endGlobal (s : State) (resp : DResp (Vector Word 16)) : (s.endGlobal resp).lengths = s.lengths := by
  unfold State.endGlobal
  split
  · exact lengths_endStartUp s resp
  · exact lengths_endReload s resp

theorem lengths_recordFailed (s : State) (l : Option LaneId) (addr : Addr) (data : Word) (resp : DResp Unit) :
    (s.recordFailed l addr data resp).lengths = s.lengths := by
  cases resp with
  | okay _ => rfl
  | error => exact lengths_report ..

theorem lengths_endStatus (s : State) (words : List Word) (resp : DResp Unit) :
    (s.endStatus words resp).lengths = s.lengths := lengths_recordFailed ..

theorem lengths_endLaneStatus (s : State) (l : LaneId) (words : List Word) (resp : DResp Unit) :
    (s.endLaneStatus l words resp).lengths = s.lengths := lengths_recordFailed ..

theorem lengths_endResult (s : State) (word : Word) (final : Bool) (resp : DResp Unit) :
    (s.endResult word final resp).lengths = s.lengths := by
  unfold State.endResult
  dsimp only
  split <;> exact lengths_recordFailed s none s.resultAddr word resp

theorem lengths_endWithError (s : State) (words : List Word) (q : EngineReq) :
    (s.endWithError words q).lengths = s.lengths := by
  cases q with
  | ringRead l op r addr => exact lengths_endRead ..
  | ringWrite l k w => exact lengths_endSlotWrite ..
  | reclaimWrite l addr e => exact lengths_endReclaim ..
  | primeWrite l addr e => exact lengths_endPrime ..
  | descRead l => exact lengths_endDesc ..
  | globalRead => exact lengths_endGlobal ..
  | statusWrite => exact lengths_endStatus ..
  | laneStatusWrite l ws => exact lengths_endLaneStatus ..
  | resultWrite w final => exact lengths_endResult ..

@[simp] theorem lengths_accessCompleted (s : State) (r : Requester) (d : Dir) :
    (s.accessCompleted r d).lengths = s.lengths := by
  cases d with
  | read => rfl
  | write =>
    unfold State.accessCompleted State.writeCompleted
    dsimp only
    rw [foldl_lengths fun _ _ => lengths_updLane ..]
    exact lengths_setUport rfl

@[simp] theorem lengths_passError (s : State) (e : PassEntry) (resp : DResp (List Word)) :
    (s.passError e resp).lengths = s.lengths := by
  unfold State.passError
  split
  · rfl
  · split <;> simp

@[simp] theorem lengths_cmdWritten (s : State) : s.cmdWritten.lengths = s.lengths := by
  unfold State.cmdWritten
  split
  · rfl
  · split <;> rfl

theorem lengths_endPass (s : State) (e : PassEntry) (resp : DResp (List Word)) :
    (s.endPass e resp).lengths = s.lengths := by
  unfold State.endPass
  dsimp only
  split <;> simp

/-! ### Leases and commands keep the lengths -/

@[simp] theorem lengths_renewFrame (s : State) (l : LaneId) (r : Requester) (i : Nat) :
    (s.renewFrame l r i).lengths = s.lengths := by rw [renewFrame_frames]; rfl

theorem lengths_expire (s : State) (l : LaneId) (i : Nat) : (s.expire l i).lengths = s.lengths := by
  unfold State.expire
  dsimp only
  split <;> simp

theorem lengths_tickLane (s : State) (l : LaneId) : (s.tickLane l).lengths = s.lengths := by
  unfold State.tickLane
  split
  · exact (foldl_lengths (fun s i => lengths_expire s l i) _ _).trans (lengths_mapFrames ..)
  · rfl

theorem lengths_tick (s : State) : s.tick.lengths = s.lengths := foldl_lengths lengths_tickLane allLanes _

theorem lengths_laneCommand (s : State) (w : Word) (change : Lane → Option Lane) :
    (s.laneCommand w change).lengths = s.lengths := by
  unfold State.laneCommand
  split <;> simp

theorem lengths_openLane (s : State) (w : Word) : (s.openLane w).lengths = s.lengths := by
  unfold State.openLane
  split <;> simp

theorem lengths_closeLane (s : State) (w : Word) : (s.closeLane w).lengths = s.lengths := by
  unfold State.closeLane
  split <;> simp

theorem lengths_clearTrap (s : State) (w : Word) : (s.clearTrap w).lengths = s.lengths := lengths_endCommand ..

theorem lengths_ackIrq (s : State) (w : Word) : (s.ackIrq w).lengths = s.lengths := lengths_endCommand ..

theorem lengths_snapshot (s : State) (w : Word) : (s.snapshot w).lengths = s.lengths := by simp [State.snapshot]

theorem lengths_reloadGlobals (s : State) (w : Word) : (s.reloadGlobals w).lengths = s.lengths := by
  simp [State.reloadGlobals]

end Sys2Proof.Machine

/-! PROOFS. What joins a queue or list of the part finds room in it, so every step keeps their depths (R108, R109, R170,
R171, R174). -/

namespace Sys2Proof.Machine

/-! ### Settling and the engine queue (R171, R172) -/

/-- Giving out slots keeps the bounds, for the engine queue takes no request past its last slot (R171, R172). -/
theorem settle_bounded {x : State} (s0 : State) (k : QueuesBounded x) : QueuesBounded (s0.settle x) := by
  have placed := settle_placed s0 x
  have kept := placed.settled
  refine ⟨?_, placed.engQ_le k.engQ, ?_, fun r => ?_⟩
  · rw [kept.passQ]; exact k.passQ
  · rw [kept.inflight]; exact k.inflight
  · unfold State.uport; rw [kept.uports]; exact k.lists r

/-- An effect that keeps the lengths, settled. -/
theorem settle_bounded_of_lengths {s x : State} (s0 : State) (k : QueuesBounded s) (h : x.lengths = s.lengths) :
    QueuesBounded (s0.settle x) := settle_bounded s0 (k.of_lengths h)

theorem lt_of_anySlotFree {s : State} (h : s.anySlotFree = true) : s.engQ.length < 16 := of_decide_eq_true h

theorem lt_of_laneSlotFree {s : State} (h : s.laneSlotFree = true) : s.engQ.length < 16 :=
  Nat.lt_of_succ_lt (of_decide_eq_true h : s.engQ.length + 1 < 16)

theorem place_bounded {s : State} (k : QueuesBounded s) (q : EngineReq) (room : s.engQ.length < 16) :
    QueuesBounded (s.place q) where
  passQ := k.passQ
  engQ := by rw [place_engQ, List.length_append]; exact room
  inflight := k.inflight
  lists := k.lists

theorem placeClaim_bounded {s : State} (k : QueuesBounded s) (c : Claimant) (room : s.engQ.length < 16) :
    QueuesBounded (s.placeClaim c) := by
  have claimed {x : State} (h : x.lengths = s.lengths) (q : EngineReq) : QueuesBounded (x.place q) :=
    place_bounded (k.of_lengths h) q ((congrArg Lengths.engQ h).trans_lt room)
  cases c with
  | status => exact claimed (x := { s with writer := .writing .queued }) rfl _
  | fenced l r =>
    show QueuesBounded (s.placeFenced l r)
    unfold State.placeFenced
    split
    · exact k
    · exact claimed (lengths_updLane ..) _
  | prime l => exact claimed (lengths_updLane s l _) _
  | reclaim l =>
    show QueuesBounded (s.placeReclaim l)
    unfold State.placeReclaim
    dsimp only
    split
    · exact k
    · exact claimed (lengths_updLane ..) _
  | laneStatus l => exact claimed (lengths_updLane s l _) _

theorem placeCall_bounded {s : State} (k : QueuesBounded s) (c : CuCall) (room : s.engQ.length < 16) :
    QueuesBounded (s.placeCall c) := by
  cases c with
  | result w final => exact place_bounded k _ room
  | descRead l => exact place_bounded k _ room
  | globalRead => exact place_bounded k _ room
  | snapshot l => exact placeClaim_bounded k (.laneStatus l) room

theorem placeNow_bounded {s : State} (k : QueuesBounded s) (c : Claimant) : QueuesBounded (s.placeNow c) := by
  unfold State.placeNow
  split
  · next h => exact settle_bounded s (placeClaim_bounded k c (lt_of_laneSlotFree h.2))
  · exact k

theorem serveHead_bounded {s : State} (k : QueuesBounded s) : QueuesBounded s.serveHead := by
  unfold State.serveHead
  split
  · exact k
  · next c cs _ =>
    have taken : QueuesBounded { s with waiting := cs } := k.of_lengths rfl
    split
    · next h => exact placeClaim_bounded taken c (lt_of_laneSlotFree h.2)
    · exact k

theorem serveFirst_bounded {s : State} (k : QueuesBounded s) : QueuesBounded s.serveFirst := by
  unfold State.serveFirst
  split
  · exact serveHead_bounded k
  · next c cs _ =>
    have taken : QueuesBounded { s with cuCalls := cs } := k.of_lengths rfl
    split
    · next h => exact placeCall_bounded taken c (lt_of_anySlotFree h.1)
    · exact serveHead_bounded k

/-! ### The arbiter (R173, R174) -/

/-- The queue that is granted gives up its head, and the in-flight list had room for it. -/
theorem issued_bounded {s : State} (k : QueuesBounded s) {ps : List PassEntry} {qs : List EngineReq} {a : InFlight}
    {g : Source} (hp : ps.length ≤ s.passQ.length) (hq : qs.length ≤ s.engQ.length) (room : s.inflight.length < 32) :
    QueuesBounded { s with passQ := ps, engQ := qs, lastGrant := g, inflight := s.inflight ++ [a] } where
  passQ := hp.trans k.passQ
  engQ := hq.trans k.engQ
  inflight := by rw [List.length_append]; exact room
  lists := k.lists

theorem lengths_atIssue (s : State) (q : EngineReq) : (s.atIssue q).lengths = s.lengths := by
  cases q with
  | reclaimWrite l addr e =>
    show (s.reclaimIssue l).lengths = s.lengths
    unfold State.reclaimIssue
    split
    · rfl
    · simp
  | _ => rfl

theorem grant_bounded {s : State} (k : QueuesBounded s) (room : s.inflight.length < 32) : QueuesBounded s.grant := by
  have pass {e ps} (h : s.passQ = e :: ps) : QueuesBounded (s.grantPass e ps) :=
    issued_bounded k (by simp [h]) le_rfl room
  have engine {q qs} (h : s.engQ = q :: qs) : QueuesBounded (s.grantEngine q qs) :=
    (issued_bounded k le_rfl (by simp [h]) room).of_lengths (lengths_atIssue ..)
  unfold State.grant
  split
  · exact k
  · next h _ => exact pass h
  · next h => exact engine h
  · next hp hq =>
    split
    · exact pass hp
    · exact engine hq

/-! ### Arrivals (R108, R109) -/

section arrival
variable {s : State} {t : Txn} (k : QueuesBounded s) (room : (s.uport t.requester).list.length < 32)
include k room

/-- A transaction joins a list that holds fewer than 32 (R109). -/
theorem join_bounded (b : Standby) : QueuesBounded (s.join t b) where
  passQ := k.passQ
  engQ := k.engQ
  inflight := k.inflight
  lists r := by
    by_cases h : r = t.requester
    · subst h
      rw [join_uport_self, List.length_append]
      exact room
    · rw [join_uport_of_ne h]
      exact k.lists r

/-- A transaction enters a pass-through queue that holds fewer than 32 (R108). -/
theorem enterPass_bounded (e : PassEntry) (free : s.passFree = true) : QueuesBounded (s.enterPass e t) := by
  have joined := join_bounded k room (.waiting .pass)
  have queued : s.passQ.length < 32 := of_decide_eq_true free
  have awaits : QueuesBounded (({ s with passQ := s.passQ ++ [e] } : State).await t .pass) :=
    ⟨by show (s.passQ ++ [e]).length ≤ 32; rw [List.length_append]; exact queued, joined.engQ, joined.inflight, joined.lists⟩
  unfold State.enterPass
  dsimp only
  split
  · exact awaits
  · exact awaits.of_lengths (lengths_setUport rfl)

theorem refuse_bounded (f : FaultKind) (l : Option LaneId) : QueuesBounded (s.refuse f l t) :=
  (join_bounded k room _).of_lengths (lengths_report ..)

theorem portRetry_bounded (l : LaneId) : QueuesBounded (s.portRetry l t) :=
  (join_bounded k room _).of_lengths (lengths_updLane ..)

theorem passOn_bounded (l : Option LaneId) : QueuesBounded (s.passOn l t) := by
  unfold State.passOn
  split
  · next free => exact enterPass_bounded k room _ free
  · exact join_bounded k room _

theorem cmdWrite_bounded : QueuesBounded (s.cmdWrite t) := by
  unfold State.cmdWrite
  split
  · exact refuse_bounded k room ..
  · split
    · exact join_bounded k room _
    · split
      · next free => exact (enterPass_bounded k room _ free).of_lengths rfl
      · exact join_bounded k room _

theorem serveControl_bounded : QueuesBounded (s.serveControl t) := by
  unfold State.serveControl
  split
  · exact passOn_bounded k room _
  · split
    · exact refuse_bounded k room ..
    · split
      · exact cmdWrite_bounded k room
      · exact passOn_bounded k room _

theorem serveRing_bounded (l : LaneId) : QueuesBounded (s.serveRing l t) := by
  unfold State.serveRing
  split
  · exact passOn_bounded k room _
  · exact refuse_bounded k room ..

theorem serveFrame_bounded (l : LaneId) : QueuesBounded (s.serveFrame l t) := by
  have renewed (x : State) : (x.renewTouched l t).lengths = x.lengths := by
    unfold State.renewTouched
    split
    · exact foldl_lengths (fun s i => lengths_renewFrame s l t.requester i) ..
    · rfl
  unfold State.serveFrame
  split
  · split
    · exact (passOn_bounded k room _).of_lengths (renewed _)
    · exact join_bounded k room _
  · exact refuse_bounded k room ..

theorem serveAperture_bounded (l : LaneId) (offset : Nat) (binding : Option RecordId) :
    QueuesBounded (s.serveAperture l offset binding t) := by
  have renewed (x : State) (n : RecordId) : (x.renewBound l t.requester n).lengths = x.lengths := by
    unfold State.renewBound
    split
    · exact lengths_renewFrame ..
    · rfl
  unfold State.serveAperture
  split
  · exact refuse_bounded k room ..
  · split
    · exact refuse_bounded k room ..
    · dsimp only
      split
      · exact refuse_bounded k room ..
      · split
        · next free => exact (enterPass_bounded k room _ free).of_lengths (renewed ..)
        · exact join_bounded k room _

theorem readResources_bounded (l : LaneId) (op : ReadOp) : QueuesBounded (s.readResources l op t) := by
  unfold State.readResources
  split
  · exact portRetry_bounded k room l
  · split
    · exact portRetry_bounded k room l
    · next free =>
      split
      · exact (join_bounded k room _).of_lengths (lengths_updLane ..)
      · have claimed : QueuesBounded ((s.await t (.ring l op.ring)).updLane l
            fun ln => ln.setRing op.ring ((ln.ring op.ring).withAccess .reading)) :=
          (join_bounded k room _).of_lengths (lengths_updLane ..)
        exact place_bounded claimed _ (lt_of_laneSlotFree (s := s) (by simpa using free))

theorem limitedRead_bounded (l : LaneId) (op : ReadOp) : QueuesBounded (s.limitedRead l op t) := by
  unfold State.limitedRead
  split
  · exact join_bounded k room _
  · exact readResources_bounded k room l op

theorem servePost_bounded (l : LaneId) (w : Word) (urgent : Bool) : QueuesBounded (s.servePost l t w urgent) := by
  unfold State.servePost
  split
  · exact refuse_bounded k room ..
  · split
    · exact portRetry_bounded k room l
    · split
      · exact portRetry_bounded k room l
      · split
        · exact portRetry_bounded k room l
        · exact (join_bounded k room (.waiting (.ring l .work))).of_lengths rfl

theorem serveRelease_bounded (l : LaneId) (w : Word) : QueuesBounded (s.serveRelease l t w) := by
  unfold State.serveRelease
  split
  · exact refuse_bounded k room ..
  · split
    · exact portRetry_bounded k room l
    · split
      · exact portRetry_bounded k room l
      · exact (join_bounded k room (.waiting (.ring l .free))).of_lengths rfl

theorem servePortOp_bounded (l : LaneId) (op : PortOp) : QueuesBounded (s.servePortOp l t op) := by
  cases op with
  | acquire => exact limitedRead_bounded k room l .acquire
  | post w => exact servePost_bounded k room l w false
  | postUrgent w => exact servePost_bounded k room l w true
  | release w => exact serveRelease_bounded k room l w
  | take => exact limitedRead_bounded k room l .take
  | peek => exact readResources_bounded k room l .peek
  | count => exact join_bounded k room _

theorem servePortWord_bounded (l : LaneId) (offset : Nat) : QueuesBounded (s.servePortWord l offset t) := by
  unfold State.servePortWord
  split
  · exact refuse_bounded k room ..
  · split
    · exact portRetry_bounded k room l
    · exact refuse_bounded k room ..
    · split
      · exact servePortOp_bounded k room l _
      · exact refuse_bounded k room ..

theorem serveClass_bounded (c : Class) : QueuesBounded (s.serveClass t c) := by
  cases c with
  | plain => exact passOn_bounded k room none
  | control => exact serveControl_bounded k room
  | portWord l offset => exact servePortWord_bounded k room l offset
  | producer l offset => exact serveAperture_bounded k room l offset _
  | consumer l offset => exact serveAperture_bounded k room l offset _
  | frame l => exact serveFrame_bounded k room l
  | ring l _ => exact serveRing_bounded k room l
  | split l => exact refuse_bounded k room .split l

theorem meet_bounded : QueuesBounded (s.meet t) := by
  unfold State.meet
  split
  · exact k
  · exact join_bounded k room _
  · exact serveClass_bounded k room _
  · exact serveClass_bounded k room _
  · exact passOn_bounded k room _

end arrival

theorem arrive_bounded {s : State} (k : QueuesBounded s) (t : Txn) : QueuesBounded (s.arrive t) := by
  unfold State.arrive
  split
  · next h =>
    have room : (s.uport t.requester).list.length < 32 := of_decide_eq_true (Bool.and_eq_true_iff.1 h).2
    exact settle_bounded s (meet_bounded k room)
  · exact k

/-! ### FLUSHING, the clock and the Command Unit -/

/-- A lane that enters FLUSHING only takes requests out of the engine queue (R94). -/
theorem enterFlushing_bounded (s : State) (l : LaneId) (k : QueuesBounded s) : QueuesBounded (s.enterFlushing l) :=
  ⟨k.passQ, (List.length_filter_le ..).trans k.engQ, k.inflight, k.lists⟩

theorem flushLanes_bounded {s : State} (k : QueuesBounded s) (ls : List LaneId) : QueuesBounded (s.flushLanes ls) := by
  have drawn := k.of_lengths (lengths_drawOrder s ((s.toFlush ls).flatMap s.discards))
  have flushed := foldl_bounded enterFlushing_bounded (s.toFlush ls) drawn
  exact (flushed.of_lengths (foldl_lengths lengths_cutOff ..)).of_lengths (foldl_lengths lengths_arriveOff ..)

theorem forceClose_bounded {s : State} (k : QueuesBounded s) (w : Word) : QueuesBounded (s.forceClose w) := by
  unfold State.forceClose
  split
  · exact k.of_lengths (lengths_endCommand ..)
  · exact (flushLanes_bounded k _).of_lengths (lengths_endCommand ..)

theorem resetAll_bounded {s : State} (k : QueuesBounded s) (w : Word) : QueuesBounded (s.resetAll w) :=
  (flushLanes_bounded k allLanes).of_lengths (lengths_cmdPhase ..)

theorem carryOut_bounded {s : State} (k : QueuesBounded s) (op : Opcode) {act : State → Word → State}
    (h : ∀ w, QueuesBounded (act s w)) : QueuesBounded (s.carryOut op act) := by
  unfold State.carryOut
  split
  · exact k
  · split
    · refine settle_bounded s ?_
      split
      · exact k.of_lengths (lengths_endCommand ..)
      · exact h _
    · exact k

/-- An access that times out keeps its place on the in-flight list (R151). -/
theorem timeout_bounded {s : State} (k : QueuesBounded s) (place : Nat) : QueuesBounded (s.timeout place) := by
  unfold State.timeout
  split
  · exact k
  · next q a _ =>
    have late : ({ s with inflight := s.inflight.set place { a with timer := none, late := true } } : State).lengths =
        s.lengths := by simp [State.lengths]; rfl
    exact settle_bounded_of_lengths s k ((lengths_endWithError ..).trans late)

theorem tickStep_bounded {s : State} (k : QueuesBounded s) : QueuesBounded s.tickStep := by
  unfold State.tickStep
  split
  · exact settle_bounded_of_lengths s k (lengths_tick s)
  · exact k

theorem clockEvent_bounded (s : State) (e : ClockEvent) (k : QueuesBounded s) : QueuesBounded (s.clockEvent e) := by
  cases e with
  | tick => exact tickStep_bounded k
  | timeout place => exact timeout_bounded k place

/-- The events of a REFCLK period, each of which keeps the bounds (R126, R150). -/
theorem refclk_bounded {s : State} (k : QueuesBounded s) : QueuesBounded s.refclk := by
  have advanced : QueuesBounded { s with inflight := s.inflight.map InFlight.advance } :=
    ⟨k.passQ, k.engQ, by simpa using k.inflight, k.lists⟩
  have counted : ∀ x : State, x.countDivider.lengths = x.lengths := fun x => by
    unfold State.countDivider; split <;> rfl
  exact foldl_bounded clockEvent_bounded _ ((advanced.of_lengths (counted _)).of_lengths (lengths_drawOrder ..))

/-! ### Every command -/

/-- Where the outcome is a next state, its queues and lists are within their depths. -/
def OutcomeBounded (o : Host.Outcome State Fault Refusal) : Prop := ∀ t, o = .next t → QueuesBounded t

theorem next_bounded {t : State} (h : QueuesBounded t) : OutcomeBounded (.next t) := fun _ e => by cases e; exact h

/-- Every queue and list is empty in reset (R178). -/
theorem pinReset_bounded (s : State) : QueuesBounded s.pinReset := by
  refine ⟨Nat.zero_le _, Nat.zero_le _, Nat.zero_le _, fun r => ?_⟩
  have empty : s.pinReset.uport r = UPort.reset := by simp [State.uport, State.pinReset, State.reset]
  rw [empty]
  exact Nat.zero_le _

section command
variable {s : State} (k : QueuesBounded s)
include k

theorem arrival_bounded (t : Txn) : OutcomeBounded (s.arrival t) := by
  unfold State.arrival
  split
  · exact next_bounded (arrive_bounded k t)
  · exact fun _ e => by cases e

theorem writeArrival_bounded (t : Txn) : OutcomeBounded (s.writeArrival t) := by
  unfold State.writeArrival
  split
  · exact arrival_bounded k t
  · exact fun _ e => by cases e

/-- A delivered response leaves its list (R109). -/
theorem execResponseDelivery_bounded (r : Requester) : OutcomeBounded (execResponseDelivery r s) := by
  unfold execResponseDelivery
  split
  · exact next_bounded k
  · next u us h =>
    split
    · exact next_bounded k
    · refine next_bounded ⟨k.passQ, k.engQ, k.inflight, fun q => ?_⟩
      show ((s.setUport r { s.uport r with list := us }).uport q).list.length ≤ 32
      rw [uport_setUport]
      split
      · have := k.lists r
        rw [h] at this
        exact Nat.le_of_succ_le this
      · exact k.lists q

/-- The oldest access leaves the in-flight list (R174). -/
theorem popOldest_bounded : QueuesBounded s.popOldest :=
  ⟨k.passQ, k.engQ, List.length_tail.trans_le ((Nat.sub_le ..).trans k.inflight), k.lists⟩

/-- The end of the oldest access, from what it does once the access has left the in-flight list. -/
theorem popOldest_settle_bounded {x : State} (h : x.lengths = s.popOldest.lengths) :
    OutcomeBounded (.next (s.settle x)) :=
  next_bounded (settle_bounded_of_lengths s (popOldest_bounded k) h)

/-- An event that takes place where its condition holds. -/
theorem ifHolds_bounded {x : State} (p : Prop) [Decidable p] (h : p → QueuesBounded x) :
    OutcomeBounded (.next (if p then x else s)) := by
  split
  · next hp => exact next_bounded (h hp)
  · exact next_bounded k

theorem execArbiterGrant_bounded : OutcomeBounded (execArbiterGrant s) := ifHolds_bounded k _ fun free =>
  settle_bounded s (grant_bounded k (of_decide_eq_true (Bool.and_eq_true_iff.1 free).1))

theorem execLeaseExpiry_bounded (l : LaneId) (frame : Fin 1024) : OutcomeBounded (execLeaseExpiry l frame s) := by
  unfold execLeaseExpiry
  split
  · exact next_bounded (settle_bounded_of_lengths s k (lengths_expire ..))
  · exact next_bounded k

theorem execBadOpcodeCommand_bounded : OutcomeBounded (execBadOpcodeCommand s) := by
  unfold execBadOpcodeCommand
  split
  · exact next_bounded k
  · exact ifHolds_bounded k _ fun _ => settle_bounded_of_lengths s k (lengths_endCommand ..)

theorem execLateResponseDiscard_bounded : OutcomeBounded (execLateResponseDiscard s) := by
  unfold execLateResponseDiscard
  split
  · exact next_bounded k
  · exact ifHolds_bounded k _ fun _ => popOldest_bounded k

theorem execAcquireCommit_bounded (resp : DResp Word) : OutcomeBounded (execAcquireCommit resp s) := by
  unfold execAcquireCommit
  split
  · exact popOldest_settle_bounded k (lengths_endRead ..)
  · exact next_bounded k

theorem execTakeCommit_bounded (resp : DResp Word) : OutcomeBounded (execTakeCommit resp s) := by
  unfold execTakeCommit
  split
  · exact popOldest_settle_bounded k (lengths_endRead ..)
  · exact next_bounded k

theorem execPeekCompletion_bounded (resp : DResp Word) : OutcomeBounded (execPeekCompletion resp s) := by
  unfold execPeekCompletion
  split
  · exact popOldest_settle_bounded k (lengths_endRead ..)
  · exact next_bounded k

theorem execSlotWriteCompletion_bounded (resp : DResp Unit) : OutcomeBounded (execSlotWriteCompletion resp s) := by
  unfold execSlotWriteCompletion
  split
  · exact popOldest_settle_bounded k (lengths_endSlotWrite ..)
  · exact next_bounded k

theorem execReclaimWriteCompletion_bounded (resp : DResp Unit) :
    OutcomeBounded (execReclaimWriteCompletion resp s) := by
  unfold execReclaimWriteCompletion
  split
  · exact popOldest_settle_bounded k (lengths_endReclaim ..)
  · exact next_bounded k

theorem execPrimeWriteCompletion_bounded (resp : DResp Unit) : OutcomeBounded (execPrimeWriteCompletion resp s) := by
  unfold execPrimeWriteCompletion
  split
  · exact popOldest_settle_bounded k (lengths_endPrime ..)
  · exact next_bounded k

theorem execPassthroughCompletion_bounded (resp : DResp (List Word)) :
    OutcomeBounded (execPassthroughCompletion resp s) := by
  unfold execPassthroughCompletion
  split
  · exact next_bounded k
  · exact popOldest_settle_bounded k (lengths_endPass ..)

theorem execDescReadCompletion_bounded (resp : DResp (Vector Word 16)) :
    OutcomeBounded (execDescReadCompletion resp s) := by
  unfold execDescReadCompletion
  split
  · exact popOldest_settle_bounded k (lengths_endDesc ..)
  · exact next_bounded k

theorem execGlobalReadCompletion_bounded (resp : DResp (Vector Word 16)) :
    OutcomeBounded (execGlobalReadCompletion resp s) := by
  unfold execGlobalReadCompletion
  split
  · exact ifHolds_bounded k _ fun _ => settle_bounded_of_lengths s (popOldest_bounded k) (lengths_endStartUp ..)
  · exact next_bounded k

theorem execReloadGlobalsReadCompletion_bounded (resp : DResp (Vector Word 16)) :
    OutcomeBounded (execReloadGlobalsReadCompletion resp s) := by
  unfold execReloadGlobalsReadCompletion
  split
  · split
    · exact next_bounded k
    · exact popOldest_settle_bounded k (lengths_endReload ..)
  · exact next_bounded k

theorem execResultWriteCompletion_bounded (resp : DResp Unit) :
    OutcomeBounded (execResultWriteCompletion resp s) := by
  unfold execResultWriteCompletion
  split
  · exact popOldest_settle_bounded k (lengths_endResult ..)
  · exact next_bounded k

theorem execStatusWriteCompletion_bounded (resp : DResp Unit) :
    OutcomeBounded (execStatusWriteCompletion resp s) := by
  unfold execStatusWriteCompletion
  split
  · exact popOldest_settle_bounded k (lengths_endStatus ..)
  · exact next_bounded k

theorem execLaneStatusWriteCompletion_bounded (resp : DResp Unit) :
    OutcomeBounded (execLaneStatusWriteCompletion resp s) := by
  unfold execLaneStatusWriteCompletion
  split
  · exact popOldest_settle_bounded k (lengths_endLaneStatus ..)
  · exact next_bounded k

/-- A command of the Command Unit that keeps the lengths. -/
theorem carryOut_bounded_of_lengths (op : Opcode) {act : State → Word → State}
    (h : ∀ s w, (act s w).lengths = s.lengths) : OutcomeBounded (.next (s.carryOut op act)) :=
  next_bounded (carryOut_bounded k op fun w => k.of_lengths (h s w))

theorem exec_bounded (c : Instr) : OutcomeBounded (exec c s) := by
  have commands (op : Opcode) (change : Lane → Option Lane) :=
    carryOut_bounded_of_lengths k op fun s w => lengths_laneCommand s w change
  cases c with
  | pinReset => exact next_bounded (pinReset_bounded s)
  | resetReleaseLoading cbase => exact ifHolds_bounded k _ fun _ => settle_bounded_of_lengths s k rfl
  | resetReleaseBypass cbase => exact ifHolds_bounded k _ fun _ => k.of_lengths rfl
  | leaseTick => exact next_bounded (tickStep_bounded k)
  | leaseExpiry l frame => exact execLeaseExpiry_bounded k l frame
  | engineAccessTimeout place => exact next_bounded (timeout_bounded k place.val)
  | passthroughTransaction t => exact arrival_bounded k t
  | controlWrite t => exact writeArrival_bounded k t
  | ringRegionWrite t => exact writeArrival_bounded k t
  | frameAccess t => exact arrival_bounded k t
  | apertureAccess t => exact arrival_bounded k t
  | acquire r base => exact arrival_bounded k (portRead r base 0x1000)
  | post r base data => exact arrival_bounded k (portWrite r base 0x1004 data)
  | postUrgent r base data => exact arrival_bounded k (portWrite r base 0x1008 data)
  | release r base data => exact arrival_bounded k (portWrite r base 0x100C data)
  | take r base => exact arrival_bounded k (portRead r base 0x1010)
  | peek r base => exact arrival_bounded k (portRead r base 0x1014)
  | count r base => exact arrival_bounded k (portRead r base 0x1018)
  | portUndefinedAccess t => exact arrival_bounded k t
  | acquireCommit resp => exact execAcquireCommit_bounded k resp
  | takeCommit resp => exact execTakeCommit_bounded k resp
  | peekCompletion resp => exact execPeekCompletion_bounded k resp
  | slotWriteCompletion resp => exact execSlotWriteCompletion_bounded k resp
  | reclaimWriteCompletion resp => exact execReclaimWriteCompletion_bounded k resp
  | primeWriteCompletion resp => exact execPrimeWriteCompletion_bounded k resp
  | passthroughCompletion resp => exact execPassthroughCompletion_bounded k resp
  | descReadCompletion resp => exact execDescReadCompletion_bounded k resp
  | globalReadCompletion resp => exact execGlobalReadCompletion_bounded k resp
  | reloadGlobalsReadCompletion resp => exact execReloadGlobalsReadCompletion_bounded k resp
  | resultWriteCompletion resp => exact execResultWriteCompletion_bounded k resp
  | statusWriteCompletion resp => exact execStatusWriteCompletion_bounded k resp
  | laneStatusWriteCompletion resp => exact execLaneStatusWriteCompletion_bounded k resp
  | lateResponseDiscard => exact execLateResponseDiscard_bounded k
  | owedResponseDiscard => exact next_bounded (k.of_lengths rfl)
  | responseDelivery r => exact execResponseDelivery_bounded k r
  | arbiterGrant => exact execArbiterGrant_bounded k
  | slotClaimPlace => exact next_bounded (settle_bounded s (serveFirst_bounded k))
  | reclaimWriteStart l => exact next_bounded (placeNow_bounded k _)
  | primeWriteStart l => exact next_bounded (placeNow_bounded k _)
  | statusWritePlace => exact next_bounded (placeNow_bounded k _)
  | laneStatusWritePlace l => exact next_bounded (placeNow_bounded k _)
  | laneDrainComplete l => exact ifHolds_bounded k _ fun _ => settle_bounded_of_lengths s k (lengths_drainOff s l)
  | laneTeardown l => exact ifHolds_bounded k _ fun _ => settle_bounded_of_lengths s k (lengths_teardown s l)
  | resetAllClearing => exact ifHolds_bounded k _ fun _ => settle_bounded_of_lengths s k (lengths_clearing s)
  | openLane => exact carryOut_bounded_of_lengths k _ lengths_openLane
  | closeLane => exact carryOut_bounded_of_lengths k _ lengths_closeLane
  | forceClose => exact next_bounded (carryOut_bounded k _ (forceClose_bounded k))
  | pauseLane => exact commands .pauseLane Lane.pausedBy
  | resumeLane => exact commands .resumeLane Lane.resumed
  | stepLane => exact commands .stepLane Lane.stepped
  | haltLane => exact commands .haltLane Lane.haltedBy
  | clearTrap => exact carryOut_bounded_of_lengths k _ lengths_clearTrap
  | ackIrq => exact carryOut_bounded_of_lengths k _ lengths_ackIrq
  | snapshot => exact carryOut_bounded_of_lengths k _ lengths_snapshot
  | reloadGlobals => exact carryOut_bounded_of_lengths k _ lengths_reloadGlobals
  | resetAll => exact next_bounded (carryOut_bounded k _ (resetAll_bounded k))
  | badOpcodeCommand => exact execBadOpcodeCommand_bounded k

end command

/-- Settles O56: every command and every REFCLK period keeps the bounds, for what joins a queue or list finds room in
it. -/
theorem queuesStayBounded : Obligations.QueuesStayBounded := by
  intro s t k h
  unfold step at h
  split at h
  · cases h; exact refclk_bounded k
  · next c rest _ =>
    have taken : QueuesBounded { s with pending := rest } := k.of_lengths rfl
    exact exec_bounded taken c t h

end Sys2Proof.Machine

/-! PROOFS. The Window Map (chapter 5): the classification of a transaction, the answers of the classes that have no port
operation behind them, and the delivery of responses. -/

namespace Sys2Proof.Machine

/-! ### Classification (R100 to R103) -/

section classify
variable {s : State} {t : Txn}

/-- A last byte past the address space (R102). -/
theorem classify_past (h : 2 ^ 36 ≤ t.lastByte) : s.classify t = .split (s.splitLane t) := if_pos h

/-- A first byte in no region (R102). -/
theorem classify_outside (hl : t.lastByte < 2 ^ 36) (hf : s.regionAt t.firstByte = none) :
    s.classify t = if (s.regionAt t.lastByte).isNone then .plain else .split (s.splitLane t) := by
  unfold State.classify
  rw [if_neg (Nat.not_le.2 hl), hf]

variable {g : Region} (hl : t.lastByte < 2 ^ 36) (hf : s.regionAt t.firstByte = some g)
include hl hf

/-- A span that leaves the region of its first byte (R102). -/
theorem classify_leaves (h : ¬ Lies t.lastByte g) : s.classify t = .split (s.splitLane t) := by
  unfold State.classify
  rw [if_neg (Nat.not_le.2 hl), hf]
  exact if_neg (mt (holds_iff g _).1 h)

/-- A span within one region (R102). -/
theorem classify_within (h : Lies t.lastByte g) : s.classify t = s.classifyIn t g := by
  unfold State.classify
  rw [if_neg (Nat.not_le.2 hl), hf]
  exact if_pos ((holds_iff g _).2 h)

end classify

/-- A span within the frame region that the guard level lets pass, or that stays in one frame (R103). -/
theorem classifyFrame_frame {d : Descriptor} {t : Txn} (l : LaneId)
    (h : d.guard = .none ∨ d.frameAt t.firstByte = d.frameAt t.lastByte) : classifyFrame d l t = .frame l := by
  unfold classifyFrame
  rcases h with h | h
  · rw [h]
  · cases d.guard <;> simp [h]

/-- A span across frames under a guard (R103). -/
theorem classifyFrame_split {d : Descriptor} {t : Txn} (l : LaneId) (hg : d.guard ≠ .none)
    (h : d.frameAt t.firstByte ≠ d.frameAt t.lastByte) : classifyFrame d l t = .split (some l) := by
  unfold classifyFrame
  cases e : d.guard with
  | none => exact absurd e hg
  | write => exact if_neg h
  | full => exact if_neg h

/-- The producer aperture, the consumer aperture and the port words divide the port region (R47, R103). -/
theorem classifyPort_cases (l : LaneId) (a b : Nat) :
    (a < 0x800 → b < 0x800 → classifyPort l a b = .producer l a) ∧
    (0x800 ≤ a → a < 0x1000 → b < 0x1000 → classifyPort l a b = .consumer l (a - 0x800)) ∧
    (a < 0x800 → 0x800 ≤ b → classifyPort l a b = .split (some l)) ∧
    (0x800 ≤ a → a < 0x1000 → 0x1000 ≤ b → classifyPort l a b = .split (some l)) ∧
    (0x1000 ≤ a → classifyPort l a b = .portWord l a) := by
  unfold classifyPort
  refine ⟨fun ha hb => ?producer, fun ha h hb => ?consumer, fun ha hb => ?leavesProducer, fun ha h hb => ?leavesConsumer,
    fun ha => ?portWord⟩
  case producer => rw [if_pos ha, if_pos hb]
  case consumer => rw [if_neg (Nat.not_lt.2 ha), if_pos h, if_pos hb]
  case leavesProducer => rw [if_pos ha, if_neg (Nat.not_lt.2 hb)]
  case leavesConsumer => rw [if_neg (Nat.not_lt.2 ha), if_pos h, if_neg (Nat.not_lt.2 hb)]
  case portWord => rw [if_neg (by omega), if_neg (Nat.not_lt.2 ha)]

/-- A split is the first byte's lane's (R102). -/
theorem splitLane_first {s : State} {t : Txn} {g : Region} {l : LaneId} (hf : s.regionAt t.firstByte = some g)
    (h : g.kind.lane = some l) : s.splitLane t = some l := by
  unfold State.splitLane
  rw [hf, Option.bind_some, h]

/-- A split whose first byte lies in no lane's region is the last byte's lane's (R102). -/
theorem splitLane_last {s : State} {t : Txn} (h : ∀ g, s.regionAt t.firstByte = some g → g.kind.lane = none) :
    s.splitLane t = (s.regionAt t.lastByte).bind fun g => g.kind.lane := by
  have outside : ((s.regionAt t.firstByte).bind fun g => g.kind.lane) = none := Option.bind_eq_none_iff.2 h
  unfold State.splitLane
  rw [outside]

/-- Settles O5: the regions of the Window Map are those in force, and `classify` is read clause by clause. -/
theorem classificationFollowsTheRegions : Obligations.ClassificationFollowsTheRegions := by
  intro s t
  refine ⟨fun b g => regionAt_some, fun b => regionAt_none, classify_past, fun hl hf => ⟨fun hn => ?plain, fun hn => ?enters⟩,
    fun g hl hf => ⟨classify_leaves hl hf, fun within => ?within⟩, fun g l => splitLane_first, splitLane_last⟩
  case plain => rw [classify_outside hl hf, hn]; rfl
  case enters => rw [classify_outside hl hf, if_neg (by simpa using hn)]
  case within =>
    have class_eq := classify_within hl hf within
    unfold State.classifyIn at class_eq
    refine ⟨fun hk => ?control, fun l k hk => ?ring, fun l hk => ?frame, fun l a b hk ha hb => ?port⟩
    case control => rw [class_eq, hk]
    case ring => rw [class_eq, hk]
    case frame => rw [class_eq, hk]; exact ⟨classifyFrame_frame l, classifyFrame_split l⟩
    case port => rw [class_eq, hk, ha, hb]; exact classifyPort_cases l a b

/-! ### The answers (R101, R104 to R108, R110, R156) -/

/-- Settles O6: LOADING answers before any classification. -/
theorem loadingAnswersEveryTransactionRetry : Obligations.LoadingAnswersEveryTransactionRetry := by
  intro s c t arrives wf listens loading
  rw [arrives_exec arrives]
  refine retry_arrival listens wf ?_
  unfold State.meet
  rw [loading]

/-- A transaction with no check of its own meets pass-through admission (R104, R105, R107, R177). -/
theorem meet_unchecked {s : State} {t : Txn} {lane : Option LaneId}
    (h : (s.part = .bypass ∧ lane = none) ∨ (Classifies s ∧ s.classify t = .plain ∧ lane = none)
      ∨ (Classifies s ∧ s.classify t = .control ∧ t.dir = .read ∧ lane = none)
      ∨ (∃ l k, Classifies s ∧ s.classify t = .ring l k ∧ t.dir = .read ∧ lane = some l)) :
    s.meet t = s.passOn lane t := by
  rcases h with ⟨bypass, rfl⟩ | ⟨serves, plain, rfl⟩ | ⟨serves, control, read, rfl⟩ | ⟨l, k, serves, ring, read, rfl⟩
  · unfold State.meet; rw [bypass]
  · rw [meet_class serves, plain]; rfl
  · rw [meet_class serves, control]
    show s.serveControl t = _
    unfold State.serveControl; rw [read]
  · rw [meet_class serves, ring]
    show s.serveRing l t = _
    unfold State.serveRing; rw [read]

/-- Settles O7: each of the four meets pass-through admission, which the queue's room decides. -/
theorem uncheckedTransactionsAreAdmitted : Obligations.UncheckedTransactionsAreAdmitted := by
  intro s c t lane arrives wf listens unchecked
  rw [arrives_exec arrives]
  exact passOn_arrival listens wf (meet_unchecked unchecked)

/-- Settles O8: a SPLIT meets its refusal, whatever the lane. -/
theorem splitTransactionsAreRefused : Obligations.SplitTransactionsAreRefused := by
  intro s c t lane arrives wf listens serves split
  rw [arrives_exec arrives]
  refine refuse_arrival listens wf rfl ?_
  rw [meet_class serves, split]
  rfl

/-- Settles O11: a write into a ring region meets its refusal before the lane is looked at. -/
theorem ringRegionWritesAreRefused : Obligations.RingRegionWritesAreRefused := by
  intro s c t l k arrives wf listens serves ring write
  rw [arrives_exec arrives]
  refine refuse_arrival listens wf rfl ?_
  rw [meet_class serves, ring]
  show s.serveRing l t = _
  unfold State.serveRing
  rw [write]

/-- What a CONTROL write meets: the words it touches decide (R105). -/
theorem meet_controlWrite {s : State} {t : Txn} (serves : Classifies s) (control : s.classify t = .control)
    (write : t.dir = .write) :
    (TouchesOwned s t → s.meet t = s.refuse .guarded none t) ∧
    (¬ TouchesOwned s t → Touches s t 0x040 0x043 → s.meet t = s.cmdWrite t) ∧
    (¬ TouchesOwned s t → ¬ Touches s t 0x040 0x043 → s.meet t = s.passOn none t) := by
  have met : s.meet t = s.serveControl t := by rw [meet_class serves, control]; rfl
  rw [met]
  unfold State.serveControl
  rw [write, ← owned_iff, ← cmd_iff]
  exact ⟨fun owned => if_pos owned, fun owned cmd => (if_neg owned).trans (if_pos cmd),
    fun owned cmd => (if_neg owned).trans (if_neg cmd)⟩

/-- Settles O9: the three outcomes of a CONTROL write but the full write of CMD. -/
theorem controlWritesAreDecidedByTheWordsTouched : Obligations.ControlWritesAreDecidedByTheWordsTouched := by
  intro s c t arrives wf listens serves control write
  rw [arrives_exec arrives]
  obtain ⟨guarded, commands, passes⟩ := meet_controlWrite serves control write
  refine ⟨fun owned => refuse_arrival listens wf rfl (guarded owned), fun owned cmd notFull => ?_,
    fun owned cmd => passOn_arrival listens wf (passes owned cmd)⟩
  refine refuse_arrival listens wf rfl ((commands owned cmd).trans ?_)
  unfold State.cmdWrite
  rw [notFull]

/-- A full write of CMD while a command runs or the pass-through queue is full (R106). -/
theorem cmdWrite_retry {s : State} {t : Txn} {w : Word} (full : t.fullWord = some w)
    (h : s.cmd ≠ none ∨ 32 ≤ s.passQ.length) : s.cmdWrite t = s.answer t .retry := by
  unfold State.cmdWrite
  rw [full]
  dsimp only
  rcases h with runs | crowded
  · rw [if_pos (Option.isSome_iff_ne_none.2 runs)]
  · rw [pass_full crowded]
    exact ite_self _

/-- A full write of CMD that is accepted (R106, R156). -/
theorem cmdWrite_accepts {s : State} {t : Txn} {w : Word} (full : t.fullWord = some w) (idle : s.cmd = none)
    (room : s.passQ.length < 32) :
    s.cmdWrite t = (admitted t { txn := t, lane := none, cmd := true } s).acceptCommand w := by
  unfold State.cmdWrite
  rw [full, idle, pass_free room, enterPass_eq]
  rfl

/-- Settles O10: the command that runs and the queue's room decide a full write of CMD. -/
theorem commandWritesAreAcceptedWhileIdle : Obligations.CommandWritesAreAcceptedWhileIdle := by
  intro s c t w arrives wf listens serves control full owned cmd
  rw [arrives_exec arrives]
  have met : s.meet t = s.cmdWrite t := (meet_controlWrite serves control (fullWord_dir full)).2.1 owned cmd
  exact ⟨fun busy => retry_arrival listens wf (met.trans (cmdWrite_retry full busy)),
    fun idle room => arrival_of listens wf (met.trans (cmdWrite_accepts full idle room))⟩

/-! ### The delivery of responses (R109) -/

/-- Settles O35: the head of the requester's list decides what RESPONSE_DELIVERY does. -/
theorem responsesGoOutInArrivalOrder : Obligations.ResponsesGoOutInArrivalOrder := by
  intro s r
  have delivery : exec (.responseDelivery r) s = execResponseDelivery r s := rfl
  rw [delivery]
  unfold execResponseDelivery
  exact ⟨fun n resp us list => by rw [list], fun n a us list => by rw [list]⟩

end Sys2Proof.Machine

/-! PROOFS. Direct frame accesses and aperture accesses (chapter 6): one equation for each case of what an access meets,
and the renewal of leases by an access that is admitted (R121). -/

namespace Sys2Proof.Machine

/-! ### Direct frame accesses (R117, R118, R121) -/

section serveFrame

variable {s : State} {l : LaneId} {t : Txn}

theorem meet_frame (serves : Classifies s) (frame : s.classify t = .frame l) : s.meet t = s.serveFrame l t := by
  rw [meet_class serves, frame]
  rfl

theorem serveFrame_refuses (blocked : ¬ GuardAllows s l t) : s.serveFrame l t = s.refuse .guarded (some l) t :=
  if_neg (mt (guard_iff s l t).1 blocked)

theorem serveFrame_retries (allows : GuardAllows s l t) (full : 32 ≤ s.passQ.length) :
    s.serveFrame l t = s.answer t .retry := by
  unfold State.serveFrame
  rw [if_pos ((guard_iff s l t).2 allows), pass_full full]
  rfl

theorem serveFrame_admits (allows : GuardAllows s l t) (room : s.passQ.length < 32) :
    s.serveFrame l t = (admitted t { txn := t, lane := some l, cmd := false } s).renewTouched l t := by
  unfold State.serveFrame State.passOn
  rw [if_pos ((guard_iff s l t).2 allows), if_pos (pass_free room), if_pos (pass_free room), enterPass_eq]

end serveFrame

/-- Settles O12: the guard and then the queue's room decide which of the three equations applies. -/
theorem frameAccessesAreDecidedByTheGuard : Obligations.FrameAccessesAreDecidedByTheGuard := by
  intro s c t l arrives wf listens serves frame
  rw [arrives_exec arrives]
  have met : s.meet t = s.serveFrame l t := meet_frame serves frame
  refine ⟨fun blocked => ?_, fun allows full => ?_, fun allows room => ?_⟩
  · exact refuse_arrival listens wf rfl (met.trans (serveFrame_refuses blocked))
  · exact retry_arrival listens wf (met.trans (serveFrame_retries allows full))
  · obtain ⟨frames, renewal, renewed⟩ :=
      renewTouched_admitted s t t { txn := t, lane := some l, cmd := false } l
    obtain ⟨u, next, placed⟩ := arrival_of listens wf (met.trans ((serveFrame_admits allows room).trans renewal))
    exact ⟨frames, u, next, renewed, placed⟩

/-! ### Aperture accesses (R113 to R115, R121) -/

section serveAperture

variable {s : State} {l : LaneId} {offset : Nat} {binding : Option RecordId} {n : RecordId} {t : Txn}

/-- Either half of the aperture is served with the binding of its own role (R113). -/
theorem meet_aperture (serves : Classifies s)
    (half : (s.classify t = .producer l offset ∧ binding = (s.lane l).producerBinding t.requester) ∨
      (s.classify t = .consumer l offset ∧ binding = (s.lane l).consumerBinding t.requester)) :
    s.meet t = s.serveAperture l offset binding t := by
  rw [meet_class serves]
  rcases half with ⟨producer, rfl⟩ | ⟨consumer, rfl⟩
  · rw [producer]; rfl
  · rw [consumer]; rfl

theorem serveAperture_flushing (flushing : (s.lane l).state = .flushing) :
    s.serveAperture l offset binding t = s.refuse .laneClosing (some l) t := if_pos flushing

theorem serveAperture_unbound (steady : (s.lane l).state ≠ .flushing) :
    s.serveAperture l offset none t = s.refuse .noBinding (some l) t := if_neg steady

theorem serveAperture_past (steady : (s.lane l).state ≠ .flushing)
    (past : (s.descriptor l).frameSize < offset + 4 * t.length) :
    s.serveAperture l offset (some n) t = s.refuse .apertureRange (some l) t :=
  (if_neg steady).trans (if_pos past)

theorem serveAperture_retries (steady : (s.lane l).state ≠ .flushing)
    (fits : offset + 4 * t.length ≤ (s.descriptor l).frameSize) (full : 32 ≤ s.passQ.length) :
    s.serveAperture l offset (some n) t = s.answer t .retry := by
  unfold State.serveAperture
  rw [if_neg steady]
  dsimp only
  rw [if_neg (Nat.not_lt.2 fits), pass_full full]
  rfl

theorem serveAperture_admits (steady : (s.lane l).state ≠ .flushing)
    (fits : offset + 4 * t.length ≤ (s.descriptor l).frameSize) (room : s.passQ.length < 32) :
    s.serveAperture l offset (some n) t =
      (admitted t { txn := { t with addr := (s.descriptor l).rewrite n offset }, lane := some l, cmd := false }
        s).renewBound l t.requester n := by
  unfold State.serveAperture
  rw [if_neg steady]
  dsimp only
  rw [if_neg (Nat.not_lt.2 fits), if_pos (pass_free room), enterPass_eq]

end serveAperture

/-- Settles O13: lane state, binding, range and the queue's room, in this order, decide which equation applies. -/
theorem apertureAccessesReachTheBoundFrame : Obligations.ApertureAccessesReachTheBoundFrame := by
  intro s c t l offset binding arrives wf listens serves half
  rw [arrives_exec arrives]
  have met : s.meet t = s.serveAperture l offset binding t := meet_aperture serves half
  refine ⟨fun flushing => ?_, fun steady => ⟨?_, ?_⟩⟩
  · exact refuse_arrival listens wf rfl (met.trans (serveAperture_flushing flushing))
  · rintro rfl
    exact refuse_arrival listens wf rfl (met.trans (serveAperture_unbound steady))
  · rintro n rfl
    refine ⟨fun past => ?_, fun fits => ⟨fun full => ?_, fun room within => ?_⟩⟩
    · exact refuse_arrival listens wf rfl (met.trans (serveAperture_past steady past))
    · exact retry_arrival listens wf (met.trans (serveAperture_retries steady fits full))
    · obtain ⟨frames, renewal, renewed⟩ := renewBound_admitted s t
        { txn := { t with addr := (s.descriptor l).rewrite n offset }, lane := some l, cmd := false } l t.requester n
        within
      obtain ⟨u, next, placed⟩ :=
        arrival_of listens wf (met.trans ((serveAperture_admits steady fits room).trans renewal))
      exact ⟨frames, u, next, renewed, placed⟩

end Sys2Proof.Machine

/-! PROOFS. Leases and reclamation (chapter 7): the tick in every counting lane, the expiry of one frame, and the REFCLK
period of an empty queue. -/

namespace Sys2Proof.Machine

/-! ### Ticks (R126, R128, R131, R132) -/

theorem tickStep_of_ticks {s : State} (ticks : Ticks s) : s.tickStep = s.settle s.tick :=
  if_pos ((ticking_iff s).2 ticks)

theorem tickStep_of_not_ticks {s : State} (still : ¬ Ticks s) : s.tickStep = s := if_neg (mt (ticking_iff s).1 still)

/-- The lanes and records a tick reaches, read off the walk over all 16 lanes, which starts with the divider at 0. -/
theorem tick_ticked {s : State} (held : SlicesHeld s) : Ticked s s.tick := by
  have walked : TickedOn allLanes { s with divider := 0 } s.tick :=
    tick_lanes allLanes (List.nodup_finRange 16) { s with divider := 0 } (held.of_lanes rfl)
  exact {
    rest := walked.rest
    lanes := fun l counts => (walked.lanes l (mem_allLanes l) counts).congr rfl fun _ _ => rfl
    others := fun l idle => walked.others l fun _ => idle
    slices := fun l => walked.slices l (mem_allLanes l)
    records := fun n apart => walked.records n fun l _ => apart l }

/-- Settles O52: the walk over the lanes is the tick's own effect, and settling places what follows it. -/
theorem ticksReachEveryCountingLane : Obligations.TicksReachEveryCountingLane := by
  intro s
  have runs : exec .leaseTick s = .next s.tickStep := rfl
  rw [runs]
  refine ⟨fun still => by rw [tickStep_of_not_ticks still], fun held ticks => ?_⟩
  rw [tickStep_of_ticks ticks]
  exact ⟨s.tick, s.settle s.tick, rfl, tick_ticked held, settle_placed s s.tick⟩

/-! ### The expiry of one frame (R131) -/

/-- The conditions under which a tick's claim on a frame takes place (R126, R128). -/
structure ExpiryDue (s : State) (l : LaneId) (i : Fin 1024) : Prop where
  ticks : Ticks s
  counts : Counts (s.lane l).state
  frame : i.val < (s.descriptor l).frameCount
  lease : (s.record ((s.descriptor l).recordOf i.val)).standing.lease = some 1

/-- `ExpiryDue` is the condition that LEASE_EXPIRY tests. -/
theorem expiryDue_iff (s : State) (l : LaneId) (i : Fin 1024) :
    (s.ticking.isSome ∧ (s.lane l).state.counting ∧ i.val < (s.descriptor l).frameCount ∧ s.expires l i.val) ↔
      ExpiryDue s l i := by
  rw [ticking_iff, counting_iff, State.expires, decide_eq_true_iff]
  exact ⟨fun ⟨ticks, counts, frame, lease⟩ => ⟨ticks, counts, frame, lease⟩,
    fun due => ⟨due.ticks, due.counts, due.frame, due.lease⟩⟩

theorem leaseExpiry_due {s : State} {l : LaneId} {i : Fin 1024} (due : ExpiryDue s l i) :
    exec (.leaseExpiry l i) s = .next (s.settle (s.expire l i.val)) := if_pos ((expiryDue_iff s l i).2 due)

theorem leaseExpiry_not_due {s : State} {l : LaneId} {i : Fin 1024} (fails : ¬ ExpiryDue s l i) :
    exec (.leaseExpiry l i) s = .next s := if_neg (mt (expiryDue_iff s l i).1 fails)

theorem lease_of_due {st : Standing} {r : Requester} {held : Bool}
    (h : st = if held then .held r (some 1) else .taken r (some 1)) : st.lease = some 1 := by
  subst h
  cases held <;> rfl

/-- Settles O51: where the claim takes place `expire_eq` gives its effect. -/
theorem leasesExpire : Obligations.LeasesExpire := by
  intro s l i
  refine ⟨fun r held ticks counts frame standing => ?_, fun fails => leaseExpiry_not_due fun due => ?_⟩
  · rw [leaseExpiry_due ⟨ticks, counts, frame, lease_of_due standing⟩, expire_eq standing]
    exact ⟨_, rfl, settle_placed ..⟩
  · rcases fails with still | idle | outside | unexpired
    · exact still due.ticks
    · exact idle due.counts
    · exact absurd due.frame (Nat.not_lt.2 outside)
    · exact unexpired due.lease

/-! ### One REFCLK period (R126, R150; log 4) -/

section countDivider

variable {s : State}

theorem tickDue_of_le {p : Nat} (ticking : s.ticking = some p) (reached : p ≤ s.divider + 1) : s.tickDue = true := by
  unfold State.tickDue
  rw [ticking]
  exact decide_eq_true reached

theorem tickDue_of_ticking_none (still : s.ticking = none) : s.tickDue = false := by
  unfold State.tickDue
  rw [still]

theorem tickDue_of_lt {p : Nat} (ticking : s.ticking = some p) (early : s.divider + 1 < p) : s.tickDue = false := by
  unfold State.tickDue
  rw [ticking]
  exact decide_eq_false (Nat.not_le.2 early)

theorem countDivider_of_ticking_none (still : s.ticking = none) : s.countDivider = s :=
  if_neg fun counts => by rw [still] at counts; cases counts.1

theorem countDivider_of_due (due : s.tickDue = true) : s.countDivider = s := if_neg fun counts => counts.2 due

theorem countDivider_of_lt {p : Nat} (ticking : s.ticking = some p) (early : s.divider + 1 < p) :
    s.countDivider = { s with divider := s.divider + 1 } :=
  if_pos ⟨by rw [ticking]; rfl, by rw [tickDue_of_lt ticking early]; exact Bool.false_ne_true⟩

end countDivider

section period

variable {s c : State}

/-- A period in which at most one thing comes due is that event alone: there is no order to draw (log 6). -/
theorem step_of_events {es : List ClockEvent} (idle : s.pending = [])
    (counted : ({ s with inflight := counting s } : State).countDivider = c)
    (events : (if s.tickDue then [ClockEvent.tick] else []) ++ c.expiredPlaces.map ClockEvent.timeout = es)
    (few : es.length < 2) : step s = .next (es.foldl State.clockEvent c) := by
  rw [step_idle idle, refclk_of counted events few]

theorem step_counts (idle : s.pending = []) (counted : ({ s with inflight := counting s } : State).countDivider = c)
    (early : s.tickDue = false) (quiet : ∀ i, ¬ RunsOut c.inflight i) : step s = .next c :=
  step_of_events idle counted (es := []) (by rw [early, expiredPlaces_nil quiet]; rfl) Nat.two_pos

theorem step_ticks (idle : s.pending = []) (counted : ({ s with inflight := counting s } : State).countDivider = c)
    (due : s.tickDue = true) (quiet : ∀ i, ¬ RunsOut c.inflight i) : step s = exec .leaseTick c :=
  step_of_events idle counted (es := [.tick]) (by rw [due, expiredPlaces_nil quiet]; rfl) Nat.one_lt_two

theorem step_timesOut {place : Fin 32} (idle : s.pending = [])
    (counted : ({ s with inflight := counting s } : State).countDivider = c) (early : s.tickDue = false)
    (one : RunsOut c.inflight place.val) (alone : ∀ i, i ≠ place.val → ¬ RunsOut c.inflight i) :
    step s = exec (.engineAccessTimeout place) c :=
  step_of_events idle counted (es := [.timeout place.val]) (by rw [early, expiredPlaces_one one alone]; rfl)
    Nat.one_lt_two

end period

/-- Settles O2: what the divider does and what comes due decide which of the three periods it is. -/
theorem emptyQueueIsOneRefclkPeriod : Obligations.EmptyQueueIsOneRefclkPeriod := by
  intro s idle
  refine ⟨fun p ticking early quiet => ?_, fun still quiet => ?_, fun p ticking reached quiet => ?_,
    fun place still one alone => ?_, fun place p ticking early one alone => ?_⟩
  · exact step_counts idle (countDivider_of_lt ticking early) (tickDue_of_lt ticking early) quiet
  · exact step_counts idle (countDivider_of_ticking_none still) (tickDue_of_ticking_none still) quiet
  · have due : s.tickDue = true := tickDue_of_le ticking reached
    exact step_ticks idle (countDivider_of_due due) due quiet
  · exact step_timesOut idle (countDivider_of_ticking_none still) (tickDue_of_ticking_none still) one alone
  · exact step_timesOut idle (countDivider_of_lt ticking early) (tickDue_of_lt ticking early) one alone

end Sys2Proof.Machine

/-! PROOFS. Pass-through accesses and record writes that end, responses that complete nothing, and the two commands that
clear what the trap and the causes hold (chapters 8 and 9). -/

namespace Sys2Proof.Machine

/-! ### Responses that complete nothing (R151, R178) -/

theorem oldest_of {s : State} {a : InFlight} {rest : List InFlight} (owed : s.owed = 0) (h : s.inflight = a :: rest) :
    s.oldest = some a := by
  unfold State.oldest
  rw [if_pos owed, h]
  rfl

/-- The response of a timed-out access takes its placeholder off the in-flight list (R151). -/
theorem lateResponse_late {s : State} {a : InFlight} {rest : List InFlight} (owed : s.owed = 0)
    (h : s.inflight = a :: rest) (late : a.late = true) :
    exec .lateResponseDiscard s = .next { s with inflight := rest } := by
  have popped : s.popOldest = { s with inflight := rest } := by unfold State.popOldest; rw [h]; rfl
  show execLateResponseDiscard s = _
  unfold execLateResponseDiscard
  rw [oldest_of owed h]
  dsimp only
  rw [if_pos late, popped]

/-- No placeholder is at the head: the row is no event (log 1). -/
theorem lateResponse_none {s : State} (h : ∀ a, s.oldest = some a → a.late = false) :
    exec .lateResponseDiscard s = .next s := by
  show execLateResponseDiscard s = _
  unfold execLateResponseDiscard
  split
  · rfl
  · next a oldest => rw [if_neg (by rw [h a oldest]; exact Bool.false_ne_true)]

/-- An access that a response can complete is the head of the in-flight list. -/
theorem oldest_head {s : State} {a : InFlight} (h : s.oldest = some a) :
    s.owed = 0 ∧ ∃ rest, s.inflight = a :: rest := by
  unfold State.oldest at h
  split at h
  · next owed => exact ⟨owed, List.head?_eq_some_iff.1 h⟩
  · cases h

/-- With no access to complete, no response of any kind does anything (log 1). -/
theorem completion_of_none {s : State} {c : Instr} (hc : isCompletion c = true) (engine : s.completing = none)
    (pass : s.completingPass = none) : exec c s = .next s := by
  cases c with
  | passthroughCompletion resp => simp only [exec, execPassthroughCompletion, pass]
  | acquireCommit resp => simp only [exec, execAcquireCommit, engine]
  | takeCommit resp => simp only [exec, execTakeCommit, engine]
  | peekCompletion resp => simp only [exec, execPeekCompletion, engine]
  | slotWriteCompletion resp => simp only [exec, execSlotWriteCompletion, engine]
  | reclaimWriteCompletion resp => simp only [exec, execReclaimWriteCompletion, engine]
  | primeWriteCompletion resp => simp only [exec, execPrimeWriteCompletion, engine]
  | descReadCompletion resp => simp only [exec, execDescReadCompletion, engine]
  | globalReadCompletion resp => simp only [exec, execGlobalReadCompletion, engine]
  | reloadGlobalsReadCompletion resp => simp only [exec, execReloadGlobalsReadCompletion, engine]
  | resultWriteCompletion resp => simp only [exec, execResultWriteCompletion, engine]
  | statusWriteCompletion resp => simp only [exec, execStatusWriteCompletion, engine]
  | laneStatusWriteCompletion resp => simp only [exec, execLaneStatusWriteCompletion, engine]
  | _ => cases hc

/-- Settles O36: `oldest` decides what the two discarding rows do, and a completion needs an access to complete. -/
theorem lateAndOwedResponsesAreDiscarded : Obligations.LateAndOwedResponsesAreDiscarded := by
  intro s
  refine ⟨fun a rest owed head late => lateResponse_late owed head late, fun h => ?_, fun _ => rfl, fun owed => ?_,
    fun c hc h => ?_⟩
  · refine lateResponse_none fun a oldest => ?_
    obtain ⟨owed, rest, head⟩ := oldest_head oldest
    exact h.elim (fun some => absurd owed (Nat.ne_of_gt some)) fun timely => timely a rest head
  · show Host.Outcome.next { s with owed := s.owed - 1 } = .next s
    rw [owed, Nat.zero_sub, ← owed]
  · obtain ⟨engine, pass⟩ := completing_none h
    exact completion_of_none hc engine pass

/-! ### Pass-through accesses that complete (R148, R174) -/

theorem exec_pass {s : State} {e : PassEntry} {rest : List InFlight} (h : NextEndsPass s e rest)
    (resp : DResp (List Word)) : exec (.passthroughCompletion resp) s =
      .next (s.settle (({ s with inflight := rest } : State).endPass e resp)) := by
  obtain ⟨completes, popped⟩ := h.completing
  show execPassthroughCompletion resp s = _
  unfold execPassthroughCompletion
  rw [completes, popped]

/-- Settles O28: the end of the access is `endPass`, which `endPass_eq` says in the statement's words. -/
theorem passThroughAccessesComplete : Obligations.PassThroughAccessesComplete := by
  intro s e rest resp list h hd
  have run := exec_pass h resp
  rw [endPass_eq { s with inflight := rest } e resp hd] at run
  exact placed_of run

/-! ### Record writes that fail (R149, R150) -/

/-- A step that settles in a state said in the statements' words. -/
theorem placed_of_eq {s x y : State} {c : Instr} (h : exec c s = .next (s.settle y)) (e : y = x) :
    ∃ u, exec c s = .next u ∧ Placed s x u := placed_of (e ▸ h)

theorem endStatus_error (s : State) (first : Word) (more : List Word) : s.endStatus (first :: more) .error =
    ({ s with writer := writerDone s.writer, memoryPending := true } : State).trapReport
      (ownError none (blockAddr s 0x080) .write first) := by
  unfold State.endStatus
  rw [writerCompleted_eq, recordFailed_none]
  rfl

theorem endLaneStatus_error (s : State) (l : LaneId) (first : Word) (more : List Word) :
    s.endLaneStatus l (first :: more) .error =
      (({ s with memoryPending := true } : State).setLane l (counted (s.lane l))).trapReport
        (ownError (some l) (blockAddr s (0x100 + 64 * l.val)) .write first) := by
  unfold State.endLaneStatus
  rw [recordFailed_lane]
  rfl

theorem endResult_error (s : State) (word : Word) (final : Bool) : s.endResult word final .error =
    ({ s with memoryPending := true, cmd := if final then none else s.cmd } : State).trapReport
      (ownError none (blockAddr s 0x044) .write word) := by
  unfold State.endResult
  rw [recordFailed_none]
  cases final <;> rfl

/-- Settles O30: by error or by timeout the write ends as `endWithError` says, and each record's failure has its
equation. -/
theorem failedRecordWritesRaiseMemory : Obligations.FailedRecordWritesRaiseMemory := by
  intro s c first more after
  refine ⟨fun fails => ?_, fun l words fails => ?_, fun final words fails => ?_⟩
  · exact placed_of_eq (exec_fails fails) (endStatus_error { s with inflight := after } first more)
  · exact placed_of_eq (exec_fails fails) (endLaneStatus_error { s with inflight := after } l first more)
  · exact placed_of_eq (exec_fails fails) (endResult_error { s with inflight := after } first final)

/-! ### CLEAR_TRAP and ACK_IRQ (R144, R160) -/

/-- The argument is the CMD word's upper half (R169): its bits 0 to 5, 8 and 9 are the word's bits 16 to 21, 24 and
25. -/
theorem ackIrq_eq (s : State) (w : Word) : s.ackIrq w =
    ({ s.setLane (cmdLane w) { s.lane (cmdLane w) with
          causes := (s.lane (cmdLane w)).causes &&& ~~~(w.extractLsb' 16 6) } with
        trapPending := s.trapPending && !w.getLsbD 24
        memoryPending := s.memoryPending && !w.getLsbD 25 } : State).endCommand .none := by
  have named : (cmdArgument w).extractLsb' 0 6 = w.extractLsb' 16 6 := by
    ext i hi
    simp [cmdArgument]
    omega
  have trap : (cmdArgument w).getLsbD 8 = w.getLsbD 24 := by simp [cmdArgument]
  have memory : (cmdArgument w).getLsbD 9 = w.getLsbD 25 := by simp [cmdArgument]
  rw [← named, ← trap, ← memory]
  rfl

/-- Settles O45: both commands end in the step that carries them out. -/
theorem clearTrapAndAckIrqClearWhatTheyName : Obligations.ClearTrapAndAckIrqClearWhatTheyName := by
  intro s w active
  refine ⟨fun ready => ?clearTrap, fun ready => ?ackIrq⟩
  case clearTrap =>
    have run : exec .clearTrap s = .next (s.settle (s.clearTrap w)) := carryOut_step ready active rfl rfl
    exact ended_step (X := { s with trap := Trap.empty, trapPending := false }) run ready.cmd
  case ackIrq =>
    have run : exec .ackIrq s = .next (s.settle (s.ackIrq w)) := carryOut_step ready active rfl rfl
    exact ended_step (ackIrq_eq s w ▸ run) ready.cmd

end Sys2Proof.Machine

/-! PROOFS. What each operation of the part does to an occupied trap: its reports reach it, and nothing else (R143). -/

namespace Sys2Proof.Machine

/-! ### The relation -/

/-- From `s` to `t` reports alone have reached an occupied trap (R143), and no command has begun to wait for the
clearing of RESET_ALL. -/
structure TrapKept (s t : State) : Prop where
  held : ∀ f, s.trap.stored = some f → s.trap.overflow ≤ 255 → StillHeld f s t
  waits : ∀ w, t.cmd = some { word := w, phase := .resetting } → s.cmd = some { word := w, phase := .resetting }

/-- What leaves the trap alone, whatever it makes of the command but RESET_ALL waiting. -/
theorem TrapKept.of_trap {s t : State} (trap : t.trap = s.trap)
    (waits : ∀ w, t.cmd = some { word := w, phase := .resetting } → s.cmd = some { word := w, phase := .resetting }) :
    TrapKept s t := ⟨fun _ h bound => stillHeld_of_eq h bound trap, waits⟩

theorem TrapKept.of_eq {s t : State} (trap : t.trap = s.trap) (cmd : t.cmd = s.cmd) : TrapKept s t :=
  .of_trap trap fun _ h => cmd.symm.trans h

theorem TrapKept.refl (s : State) : TrapKept s s := .of_eq rfl rfl

theorem TrapKept.trans {s t u : State} (h : TrapKept s t) (k : TrapKept t u) : TrapKept s u where
  held f stored bound :=
    have first := h.held f stored bound
    first.trans (k.held f first.stored first.bound)
  waits w resetting := h.waits w (k.waits w resetting)

/-- What leaves trap and command alone may go ahead. -/
theorem TrapKept.after {s x t : State} (h : TrapKept x t) (trap : x.trap = s.trap) (cmd : x.cmd = s.cmd) :
    TrapKept s t := (TrapKept.of_eq trap cmd).trans h

theorem TrapKept.ite {p : Prop} [Decidable p] {s a b : State} (h : TrapKept s a) (k : TrapKept s b) :
    TrapKept s (if p then a else b) := by split <;> assumption

/-- A sequence of changes, each of which lets reports alone reach the trap. -/
theorem foldl_trapKept {α : Type} {f : State → α → State} (h : ∀ s x, TrapKept s (f s x)) (xs : List α) (s : State) :
    TrapKept s (xs.foldl f s) := by
  induction xs generalizing s with
  | nil => exact .refl s
  | cons x xs ih => exact (h s x).trans (ih _)

/-! ### Reports, the command, and lanes that reach OFF -/

theorem report_trapKept (s : State) (f : Report) : TrapKept s (s.report f) where
  held _ := report_stillHeld f
  waits _ h := (report_frame s f).cmd.symm.trans h

theorem refuse_trapKept (s : State) (k : FaultKind) (l : Option LaneId) (t : Txn) : TrapKept s (s.refuse k l t) :=
  (report_trapKept ..).after rfl rfl

/-- A command that ends waits for its RESULT (R158). -/
theorem endCommand_trapKept (s : State) (reason : Reason) : TrapKept s (s.endCommand reason) := by
  unfold State.endCommand
  split
  · exact .refl s
  · exact .of_trap rfl fun _ h => nomatch h

/-- A command that moves on to another phase than that in which RESET_ALL waits. -/
theorem cmdPhase_trapKept (s : State) {p : CmdPhase} (h : p ≠ .resetting) : TrapKept s (s.cmdPhase p) := by
  unfold State.cmdPhase
  split
  · exact .refl s
  · exact .of_trap rfl fun _ e => absurd (congrArg Running.phase (Option.some.inj e)) h

theorem updLane_trapKept (s : State) (l : LaneId) (f : Lane → Lane) : TrapKept s (s.updLane l f) := .of_eq rfl rfl

theorem drawOrder_trapKept {α : Type} (s : State) (xs : List α) : TrapKept s (s.drawOrder xs).2 := by
  rw [drawOrder_books]; exact .of_eq rfl rfl

theorem mapFrames_trapKept (s : State) (d : Descriptor) (f : FrameRec → FrameRec) (is : List Nat) :
    TrapKept s (s.mapFrames d f is) := by rw [mapFrames_rest]; exact .of_eq rfl rfl

theorem drainOff_trapKept (s : State) (l : LaneId) : TrapKept s (s.drainOff l) :=
  (mapFrames_trapKept ..).trans (.of_eq rfl rfl)

theorem teardown_trapKept (s : State) (l : LaneId) : TrapKept s (s.teardown l) :=
  (mapFrames_trapKept ..).trans (.of_eq rfl rfl)

theorem arriveOff_trapKept (s : State) (l : LaneId) : TrapKept s (s.arriveOff l) :=
  .ite (drainOff_trapKept s l) (.ite (teardown_trapKept s l) (.refl s))

/-- The operations that FORCE_CLOSE and RESET_ALL cut off are reported (R45). -/
theorem flushLanes_trapKept (s : State) (ls : List LaneId) : TrapKept s (s.flushLanes ls) := by
  have enter (x : State) (l : LaneId) : TrapKept x (x.enterFlushing l) := .of_eq rfl rfl
  have cut (x : State) (d : Discard) : TrapKept x (x.cutOff d) := (report_trapKept ..).after rfl rfl
  exact (((drawOrder_trapKept s _).trans (foldl_trapKept enter ..)).trans (foldl_trapKept cut ..)).trans
    (foldl_trapKept arriveOff_trapKept ..)

/-! ### Requests that are placed and issued -/

theorem placeClaim_trapKept (s : State) (c : Claimant) : TrapKept s (s.placeClaim c) := by
  cases c with
  | status => exact .of_eq rfl rfl
  | fenced l k =>
    show TrapKept s (s.placeFenced l k)
    unfold State.placeFenced
    split <;> exact .of_eq rfl rfl
  | prime l => exact .of_eq rfl rfl
  | reclaim l =>
    show TrapKept s (s.placeReclaim l)
    unfold State.placeReclaim
    dsimp only
    split <;> exact .of_eq rfl rfl
  | laneStatus l => exact .of_eq rfl rfl

theorem serveHead_trapKept (s : State) : TrapKept s s.serveHead := by
  unfold State.serveHead
  split
  · exact .refl s
  · exact .ite ((placeClaim_trapKept ..).after rfl rfl) (.refl s)

theorem serveFirst_trapKept (s : State) : TrapKept s s.serveFirst := by
  unfold State.serveFirst
  split
  · exact serveHead_trapKept s
  · next c cs _ =>
    have placed : TrapKept s (({ s with cuCalls := cs } : State).placeCall c) := by cases c <;> exact .of_eq rfl rfl
    exact .ite placed (serveHead_trapKept s)

theorem grantEngine_trapKept (s : State) (q : EngineReq) (rest : List EngineReq) :
    TrapKept s (s.grantEngine q rest) := by
  unfold State.grantEngine
  cases q with
  | reclaimWrite l addr e =>
    show TrapKept s (State.reclaimIssue _ l)
    unfold State.reclaimIssue
    split <;> exact .of_eq rfl rfl
  | _ => exact .of_eq rfl rfl

theorem grant_trapKept (s : State) : TrapKept s s.grant := by
  unfold State.grant
  split
  · exact .refl s
  · exact .of_eq rfl rfl
  · exact grantEngine_trapKept ..
  · split
    · exact .of_eq rfl rfl
    · exact grantEngine_trapKept ..

/-! ### Arrivals -/

section arrival
variable (s : State) (t : Txn)

theorem enterPass_trapKept (e : PassEntry) : TrapKept s (s.enterPass e t) := by
  rw [enterPass_eq]; exact .of_eq rfl rfl

theorem passOn_trapKept (l : Option LaneId) : TrapKept s (s.passOn l t) :=
  .ite (enterPass_trapKept ..) (.of_eq rfl rfl)

/-- A CMD write that is accepted starts a command, which waits for its write (R156). -/
theorem cmdWrite_trapKept : TrapKept s (s.cmdWrite t) := by
  unfold State.cmdWrite
  split
  · exact refuse_trapKept ..
  · have accepted (x : State) (w : Word) : TrapKept x (x.acceptCommand w) := .of_trap rfl fun _ h => nomatch h
    exact .ite (.of_eq rfl rfl) (.ite ((enterPass_trapKept ..).trans (accepted ..)) (.of_eq rfl rfl))

theorem serveControl_trapKept : TrapKept s (s.serveControl t) := by
  unfold State.serveControl
  split
  · exact passOn_trapKept ..
  · exact .ite (refuse_trapKept ..) (.ite (cmdWrite_trapKept s t) (passOn_trapKept ..))

theorem serveRing_trapKept (l : LaneId) : TrapKept s (s.serveRing l t) := by
  unfold State.serveRing
  split
  · exact passOn_trapKept ..
  · exact refuse_trapKept ..

theorem serveFrame_trapKept (l : LaneId) : TrapKept s (s.serveFrame l t) := by
  have renewed (x : State) : TrapKept x (x.renewTouched l t) := by
    refine .ite ?_ (.refl x)
    rw [renewFrames_frames]
    exact .of_eq rfl rfl
  exact .ite (.ite ((passOn_trapKept ..).trans (renewed _)) (.of_eq rfl rfl)) (refuse_trapKept ..)

theorem serveAperture_trapKept (l : LaneId) (offset : Nat) (binding : Option RecordId) :
    TrapKept s (s.serveAperture l offset binding t) := by
  have renewed (x : State) (n : RecordId) : TrapKept x (x.renewBound l t.requester n) := by
    refine .ite ?_ (.refl x)
    rw [renewFrame_frames]
    exact .of_eq rfl rfl
  refine .ite (refuse_trapKept ..) ?_
  split
  · exact refuse_trapKept ..
  · exact .ite (refuse_trapKept ..) (.ite ((enterPass_trapKept ..).trans (renewed ..)) (.of_eq rfl rfl))

theorem readResources_trapKept (l : LaneId) (op : ReadOp) : TrapKept s (s.readResources l op t) :=
  .ite (.of_eq rfl rfl) (.ite (.of_eq rfl rfl) (.ite (.of_eq rfl rfl) (.of_eq rfl rfl)))

theorem limitedRead_trapKept (l : LaneId) (op : ReadOp) : TrapKept s (s.limitedRead l op t) :=
  .ite (.of_eq rfl rfl) (readResources_trapKept ..)

theorem servePost_trapKept (l : LaneId) (w : Word) (urgent : Bool) : TrapKept s (s.servePost l t w urgent) := by
  unfold State.servePost
  split
  · exact refuse_trapKept ..
  · exact .ite (.of_eq rfl rfl) (.ite (.of_eq rfl rfl) (.ite (.of_eq rfl rfl) (.of_eq rfl rfl)))

theorem serveRelease_trapKept (l : LaneId) (w : Word) : TrapKept s (s.serveRelease l t w) := by
  unfold State.serveRelease
  split
  · exact refuse_trapKept ..
  · exact .ite (.of_eq rfl rfl) (.ite (.of_eq rfl rfl) (.of_eq rfl rfl))

theorem servePortOp_trapKept (l : LaneId) (op : PortOp) : TrapKept s (s.servePortOp l t op) := by
  cases op with
  | acquire => exact limitedRead_trapKept ..
  | post w => exact servePost_trapKept ..
  | postUrgent w => exact servePost_trapKept ..
  | release w => exact serveRelease_trapKept ..
  | take => exact limitedRead_trapKept ..
  | peek => exact readResources_trapKept ..
  | count => exact .of_eq rfl rfl

theorem servePortWord_trapKept (l : LaneId) (offset : Nat) : TrapKept s (s.servePortWord l offset t) := by
  unfold State.servePortWord
  split
  · exact refuse_trapKept ..
  · split
    · exact .of_eq rfl rfl
    · exact refuse_trapKept ..
    · exact .ite (servePortOp_trapKept ..) (refuse_trapKept ..)

theorem serveClass_trapKept (c : Class) : TrapKept s (s.serveClass t c) := by
  cases c with
  | plain => exact passOn_trapKept ..
  | control => exact serveControl_trapKept ..
  | portWord l offset => exact servePortWord_trapKept ..
  | producer l offset => exact serveAperture_trapKept ..
  | consumer l offset => exact serveAperture_trapKept ..
  | frame l => exact serveFrame_trapKept ..
  | ring l k => exact serveRing_trapKept ..
  | split l => exact refuse_trapKept ..

theorem meet_trapKept : TrapKept s (s.meet t) := by
  unfold State.meet
  split
  · exact .refl s
  · exact .of_eq rfl rfl
  · exact serveClass_trapKept ..
  · exact serveClass_trapKept ..
  · exact passOn_trapKept ..

end arrival

/-! ### The ends of accesses -/

theorem endRead_trapKept (s : State) (l : LaneId) (op : ReadOp) (r : Requester) (addr : Addr) (resp : DResp Word) :
    TrapKept s (s.endRead l op r addr resp) := by
  have fails (k : FaultKind) (data : Word) (reason : HaltReason) :
      TrapKept s (s.failRead l op r addr k data reason) := by
    refine TrapKept.trans (.trans ?_ (report_trapKept ..)) (updLane_trapKept ..)
    exact .of_eq rfl rfl
  have passes (w : Word) : TrapKept s (s.passedRead l op r w) := by
    cases op with
    | acquire => exact .ite (.of_eq rfl rfl) (.of_eq rfl rfl)
    | take => exact .ite (.of_eq rfl rfl) (.of_eq rfl rfl)
    | peek => exact .of_eq rfl rfl
  refine TrapKept.trans ?_ (arriveOff_trapKept ..)
  cases resp with
  | error => exact fails ..
  | okay w => exact .ite (passes w) (fails ..)

theorem failWrite_trapKept (s : State) (l : LaneId) (r : Option Requester) (addr : Addr) (entry : Word) :
    TrapKept s (s.failWrite l r addr entry) := (report_trapKept ..).trans (updLane_trapKept ..)

theorem endSlotWrite_trapKept (s : State) (l : LaneId) (k : RingKind) (w : SlotWrite) (resp : DResp Unit) :
    TrapKept s (s.endSlotWrite l k w resp) := by
  refine TrapKept.trans ?_ (arriveOff_trapKept ..)
  cases resp with
  | okay _ => exact .of_eq rfl rfl
  | error => exact (failWrite_trapKept ..).after rfl rfl

theorem endReclaim_trapKept (s : State) (l : LaneId) (addr : Addr) (entry : Word) (resp : DResp Unit) :
    TrapKept s (s.endReclaim l addr entry resp) := by
  cases resp with
  | okay _ => exact (arriveOff_trapKept ..).after rfl rfl
  | error => exact ((failWrite_trapKept ..).trans (arriveOff_trapKept ..)).after rfl rfl

theorem endPrime_trapKept (s : State) (l : LaneId) (addr : Addr) (entry : Word) (resp : DResp Unit) :
    TrapKept s (s.endPrime l addr entry resp) := by
  cases resp with
  | okay _ => exact (arriveOff_trapKept ..).after rfl rfl
  | error => exact ((failWrite_trapKept ..).trans (arriveOff_trapKept ..)).after rfl rfl

theorem reportReadError_trapKept {α : Type} (s : State) (l : Option LaneId) (addr : Addr) (resp : DResp α) :
    TrapKept s (s.reportReadError l addr resp) := by
  cases resp with
  | okay _ => exact .refl s
  | error => exact report_trapKept ..

theorem endDesc_trapKept (s : State) (l : LaneId) (resp : DResp (Vector Word 16)) :
    TrapKept s (s.endDesc l resp) := by
  refine (reportReadError_trapKept s (some l) (s.descAddr l) resp).trans ?_
  unfold State.endDesc
  dsimp only
  split
  · exact endCommand_trapKept ..
  · exact (endCommand_trapKept ..).after rfl rfl

theorem endStartUp_trapKept (s : State) (resp : DResp (Vector Word 16)) : TrapKept s (s.endStartUp resp) := by
  refine (reportReadError_trapKept s none (s.controlAddr 0) resp).trans ?_
  unfold State.endStartUp
  dsimp only
  split <;> exact .of_eq rfl rfl

theorem endReload_trapKept (s : State) (resp : DResp (Vector Word 16)) : TrapKept s (s.endReload resp) := by
  refine (reportReadError_trapKept s none (s.controlAddr 0) resp).trans ?_
  unfold State.endReload
  dsimp only
  split
  · exact (endCommand_trapKept ..).after rfl rfl
  · exact endCommand_trapKept ..

theorem recordFailed_trapKept (s : State) (l : Option LaneId) (addr : Addr) (data : Word) (resp : DResp Unit) :
    TrapKept s (s.recordFailed l addr data resp) := by
  cases resp with
  | okay _ => exact .refl s
  | error => exact (report_trapKept ..).trans (.of_eq rfl rfl)

theorem endStatus_trapKept (s : State) (words : List Word) (resp : DResp Unit) :
    TrapKept s (s.endStatus words resp) := (recordFailed_trapKept ..).after rfl rfl

theorem endLaneStatus_trapKept (s : State) (l : LaneId) (words : List Word) (resp : DResp Unit) :
    TrapKept s (s.endLaneStatus l words resp) := recordFailed_trapKept ..

/-- The final RESULT ends the command (R158). -/
theorem endResult_trapKept (s : State) (word : Word) (final : Bool) (resp : DResp Unit) :
    TrapKept s (s.endResult word final resp) := by
  have written := recordFailed_trapKept s none s.resultAddr word resp
  exact .ite (written.trans (.of_trap rfl fun _ h => nomatch h)) written

theorem endWithError_trapKept (s : State) (words : List Word) (q : EngineReq) :
    TrapKept s (s.endWithError words q) := by
  cases q with
  | ringRead l op r addr => exact endRead_trapKept ..
  | ringWrite l k w => exact endSlotWrite_trapKept ..
  | reclaimWrite l addr e => exact endReclaim_trapKept s l addr e .error
  | primeWrite l addr e => exact endPrime_trapKept s l addr e .error
  | descRead l => exact endDesc_trapKept s l .error
  | globalRead => exact .ite (endStartUp_trapKept ..) (endReload_trapKept ..)
  | statusWrite => exact endStatus_trapKept ..
  | laneStatusWrite l ws => exact endLaneStatus_trapKept s l ws .error
  | resultWrite w final => exact endResult_trapKept ..

theorem accessCompleted_trapKept (s : State) (r : Requester) (d : Dir) : TrapKept s (s.accessCompleted r d) := by
  cases d with
  | read => exact .refl s
  | write =>
    show TrapKept s (s.writeCompleted r)
    unfold State.writeCompleted
    dsimp only
    rw [eachLane_all]
    exact .of_eq rfl rfl

theorem passError_trapKept (s : State) (e : PassEntry) (resp : DResp (List Word)) :
    TrapKept s (s.passError e resp) := by
  cases resp with
  | okay _ => exact .refl s
  | error => exact .ite (.refl s) (report_trapKept ..)

/-- A command whose CMD write has completed is to be carried out (R156). -/
theorem cmdWritten_trapKept (s : State) : TrapKept s s.cmdWritten := by
  unfold State.cmdWritten
  split
  · exact .refl s
  · exact .ite (.of_trap rfl fun _ h => nomatch h) (.refl s)

theorem endPass_trapKept (s : State) (e : PassEntry) (resp : DResp (List Word)) : TrapKept s (s.endPass e resp) := by
  have completed := ((accessCompleted_trapKept _ e.txn.requester e.txn.dir).trans (passError_trapKept _ e resp)).after
    (s := s) (x := s.decideResponse e.txn.requester .pass (passResponse e.txn resp)) rfl rfl
  exact .ite (completed.trans (cmdWritten_trapKept _)) completed

/-! ### Leases and commands -/

theorem expire_trapKept (s : State) (l : LaneId) (i : Nat) : TrapKept s (s.expire l i) := by
  unfold State.expire
  dsimp only
  split <;> exact .of_eq rfl rfl

theorem tick_trapKept (s : State) : TrapKept s s.tick := by
  have lane (x : State) (l : LaneId) : TrapKept x (x.tickLane l) :=
    .ite ((mapFrames_trapKept ..).trans (foldl_trapKept (fun x i => expire_trapKept x l i) ..)) (.refl x)
  exact (foldl_trapKept lane ..).after rfl rfl

theorem laneCommand_trapKept (change : Lane → Option Lane) (s : State) (w : Word) :
    TrapKept s (s.laneCommand w change) := by
  unfold State.laneCommand
  split
  · exact endCommand_trapKept ..
  · exact (endCommand_trapKept ..).after rfl rfl

theorem openLane_trapKept (s : State) (w : Word) : TrapKept s (s.openLane w) :=
  .ite ((cmdPhase_trapKept s CmdPhase.noConfusion).trans (.of_eq rfl rfl)) (endCommand_trapKept ..)

theorem closeLane_trapKept (s : State) (w : Word) : TrapKept s (s.closeLane w) := by
  unfold State.closeLane
  split
  · exact endCommand_trapKept ..
  · exact ((endCommand_trapKept ..).trans (arriveOff_trapKept ..)).after rfl rfl

theorem forceClose_trapKept (s : State) (w : Word) : TrapKept s (s.forceClose w) :=
  .ite (endCommand_trapKept ..) ((flushLanes_trapKept ..).trans (endCommand_trapKept ..))

theorem ackIrq_trapKept (s : State) (w : Word) : TrapKept s (s.ackIrq w) := (endCommand_trapKept ..).after rfl rfl

theorem snapshot_trapKept (s : State) (w : Word) : TrapKept s (s.snapshot w) := (endCommand_trapKept ..).after rfl rfl

theorem reloadGlobals_trapKept (s : State) (w : Word) : TrapKept s (s.reloadGlobals w) :=
  (cmdPhase_trapKept s CmdPhase.noConfusion).trans (.of_eq rfl rfl)

end Sys2Proof.Machine

/-! PROOFS. Every step lets reports alone reach an occupied trap, or makes the clearing of RESET_ALL (R143, R163). -/

namespace Sys2Proof.Machine

/-! ### A settled step: reports alone, or the clearing (R143, R163) -/

/-- The clearing of RESET_ALL, the command with the word `w`, has been made between `s` and `t`. -/
structure ClearingMade (w : Word) (s t : State) : Prop where
  waited : s.cmd = some { word := w, phase := .resetting }
  done : t.cmd = some { word := w, phase := .finishing }
  off : ∀ l, (t.lane l).state = .off
  empty : t.trap = { stored := none, overflow := 0 }

/-- Reports alone have reached the trap, or the clearing has been made. -/
def KeptOrCleared (s t : State) : Prop := TrapKept s t ∨ ∃ w, ClearingMade w s t

/-- Giving out slots behind the clearing leaves lanes, trap and command as it left them. -/
theorem ClearingMade.of_served {w : Word} {s s0 v t : State} (waited : s.cmd = some { word := w, phase := .resetting })
    (h : Served (noted s0 (cleared v w)) t) : ClearingMade w s t where
  waited := waited
  done := h.cmd
  off l := by
    have off : ((noted s0 (cleared v w)).lane l).state = .off := by
      simp [State.lane, noted, cleared, ended, Lane.reset]
    exact (h.lanes l).state.trans off
  empty := h.trap

/-- Giving out slots leaves trap and command alone. -/
theorem Placed.keptOrCleared {s x t : State} (h : Placed s x t) : KeptOrCleared x t := by
  rcases h.cases with served | ⟨w, v, before, due, after⟩
  · exact .inl (.of_eq served.trap served.cmd)
  · exact .inr ⟨w, .of_served (before.cmd.symm.trans due.cmd) after⟩

theorem settle_keptOrCleared {s x : State} (s0 : State) (h : TrapKept s x) : KeptOrCleared s (s0.settle x) := by
  rcases (settle_placed s0 x).keptOrCleared with kept | ⟨w, made⟩
  · exact .inl (h.trans kept)
  · exact .inr ⟨w, h.waits w made.waited, made.done, made.off, made.empty⟩

theorem timeout_keptOrCleared (s : State) (place : Nat) : KeptOrCleared s (s.timeout place) := by
  unfold State.timeout
  split
  · exact .inl (.refl s)
  · exact settle_keptOrCleared s ((endWithError_trapKept ..).after rfl rfl)

/-- An event that takes place where its condition holds. -/
theorem ifHolds_keptOrCleared {s x : State} (p : Prop) [Decidable p] (h : TrapKept s x) :
    KeptOrCleared s (if p then s.settle x else s) := by
  split
  · exact settle_keptOrCleared s h
  · exact .inl (.refl s)

theorem placeNow_keptOrCleared (s : State) (c : Claimant) : KeptOrCleared s (s.placeNow c) :=
  ifHolds_keptOrCleared _ (placeClaim_trapKept s c)

theorem tickStep_keptOrCleared (s : State) : KeptOrCleared s s.tickStep := ifHolds_keptOrCleared _ (tick_trapKept s)

theorem carryOut_keptOrCleared {act : State → Word → State} (h : ∀ s w, TrapKept s (act s w)) (s : State)
    (op : Opcode) : KeptOrCleared s (s.carryOut op act) := by
  unfold State.carryOut
  split
  · exact .inl (.refl s)
  · exact ifHolds_keptOrCleared _ (.ite (endCommand_trapKept ..) (h ..))

/-- The clearing made by its own row: its command waits no longer, so the step makes it once (R163). -/
theorem clearing_keptOrCleared (s : State) :
    KeptOrCleared s (if s.clearingDue then s.settle s.clearing else s) := by
  split
  · next isDue =>
    obtain ⟨w, due⟩ := (clearingDue_iff s).1 isDue
    rw [clearing_of due.cmd]
    rcases (settle_placed s (cleared s w)).cases with served | ⟨w', v, before, again, -⟩
    · exact .inr ⟨w, .of_served due.cmd served⟩
    · exact nomatch before.cmd.symm.trans again.cmd
  · exact .inl (.refl s)

/-! ### Every command -/

/-- Where the outcome is a next state, reports alone have reached the trap, or the clearing has been made. -/
def OutcomeKeepsTrap (s : State) (o : Host.Outcome State Fault Refusal) : Prop := ∀ t, o = .next t → KeptOrCleared s t

section command
variable {s : State}

theorem next_keepsTrap {t : State} (h : KeptOrCleared s t) : OutcomeKeepsTrap s (.next t) := fun _ e => by
  cases e; exact h

theorem next_trapKept {t : State} (h : TrapKept s t) : OutcomeKeepsTrap s (.next t) := next_keepsTrap (.inl h)

theorem arrival_keepsTrap (t : Txn) : OutcomeKeepsTrap s (s.arrival t) := by
  unfold State.arrival
  split
  · exact next_keepsTrap (ifHolds_keptOrCleared _ (meet_trapKept s t))
  · exact fun _ e => nomatch e

theorem writeArrival_keepsTrap (t : Txn) : OutcomeKeepsTrap s (s.writeArrival t) := by
  unfold State.writeArrival
  split
  · exact arrival_keepsTrap t
  · exact fun _ e => nomatch e

theorem responseDelivery_keepsTrap (r : Requester) : OutcomeKeepsTrap s (execResponseDelivery r s) := by
  unfold execResponseDelivery
  split
  · exact next_trapKept (.refl s)
  · split
    · exact next_trapKept (.refl s)
    · exact next_trapKept (.of_eq rfl rfl)

theorem leaseExpiry_keepsTrap (l : LaneId) (frame : Fin 1024) : OutcomeKeepsTrap s (execLeaseExpiry l frame s) := by
  unfold execLeaseExpiry
  split
  · exact next_keepsTrap (settle_keptOrCleared s (expire_trapKept ..))
  · exact next_trapKept (.refl s)

theorem lateResponseDiscard_keepsTrap : OutcomeKeepsTrap s (execLateResponseDiscard s) := by
  unfold execLateResponseDiscard
  split
  · exact next_trapKept (.refl s)
  · exact next_trapKept (.ite (.of_eq rfl rfl) (.refl s))

theorem badOpcode_keepsTrap : OutcomeKeepsTrap s (execBadOpcodeCommand s) := by
  unfold execBadOpcodeCommand
  split
  · exact next_trapKept (.refl s)
  · exact next_keepsTrap (ifHolds_keptOrCleared _ (endCommand_trapKept ..))

/-- A completion ends the access it is for, or changes nothing (log 1). -/
theorem completion_keepsTrap {c : Instr} (hc : isCompletion c = true) : OutcomeKeepsTrap s (exec c s) := by
  have same : OutcomeKeepsTrap s (.next s) := next_trapKept (.refl s)
  have ends {x : State} (h : TrapKept s.popOldest x) : OutcomeKeepsTrap s (.next (s.settle x)) :=
    next_keepsTrap (settle_keptOrCleared s (h.after rfl rfl))
  cases c with
  | acquireCommit resp =>
    show OutcomeKeepsTrap s (execAcquireCommit resp s)
    unfold execAcquireCommit
    split
    · exact ends (endRead_trapKept ..)
    · exact same
  | takeCommit resp =>
    show OutcomeKeepsTrap s (execTakeCommit resp s)
    unfold execTakeCommit
    split
    · exact ends (endRead_trapKept ..)
    · exact same
  | peekCompletion resp =>
    show OutcomeKeepsTrap s (execPeekCompletion resp s)
    unfold execPeekCompletion
    split
    · exact ends (endRead_trapKept ..)
    · exact same
  | slotWriteCompletion resp =>
    show OutcomeKeepsTrap s (execSlotWriteCompletion resp s)
    unfold execSlotWriteCompletion
    split
    · exact ends (endSlotWrite_trapKept ..)
    · exact same
  | reclaimWriteCompletion resp =>
    show OutcomeKeepsTrap s (execReclaimWriteCompletion resp s)
    unfold execReclaimWriteCompletion
    split
    · exact ends (endReclaim_trapKept ..)
    · exact same
  | primeWriteCompletion resp =>
    show OutcomeKeepsTrap s (execPrimeWriteCompletion resp s)
    unfold execPrimeWriteCompletion
    split
    · exact ends (endPrime_trapKept ..)
    · exact same
  | descReadCompletion resp =>
    show OutcomeKeepsTrap s (execDescReadCompletion resp s)
    unfold execDescReadCompletion
    split
    · exact ends (endDesc_trapKept ..)
    · exact same
  | globalReadCompletion resp =>
    show OutcomeKeepsTrap s (execGlobalReadCompletion resp s)
    unfold execGlobalReadCompletion
    split
    · exact next_keepsTrap (ifHolds_keptOrCleared _ ((endStartUp_trapKept ..).after rfl rfl))
    · exact same
  | reloadGlobalsReadCompletion resp =>
    show OutcomeKeepsTrap s (execReloadGlobalsReadCompletion resp s)
    unfold execReloadGlobalsReadCompletion
    split
    · split
      · exact same
      · exact ends (endReload_trapKept ..)
    · exact same
  | statusWriteCompletion resp =>
    show OutcomeKeepsTrap s (execStatusWriteCompletion resp s)
    unfold execStatusWriteCompletion
    split
    · exact ends (endStatus_trapKept ..)
    · exact same
  | laneStatusWriteCompletion resp =>
    show OutcomeKeepsTrap s (execLaneStatusWriteCompletion resp s)
    unfold execLaneStatusWriteCompletion
    split
    · exact ends (endLaneStatus_trapKept ..)
    · exact same
  | resultWriteCompletion resp =>
    show OutcomeKeepsTrap s (execResultWriteCompletion resp s)
    unfold execResultWriteCompletion
    split
    · exact ends (endResult_trapKept ..)
    · exact same
  | passthroughCompletion resp =>
    show OutcomeKeepsTrap s (execPassthroughCompletion resp s)
    unfold execPassthroughCompletion
    split
    · exact same
    · exact ends (endPass_trapKept ..)
  | _ => cases hc

/-- Every command but the three that may empty the trap by what they do themselves. -/
theorem exec_keepsTrap (c : Instr) (clearTrap : c ≠ .clearTrap) (pinReset : c ≠ .pinReset) (resetAll : c ≠ .resetAll) :
    OutcomeKeepsTrap s (exec c s) := by
  have runs {act : State → Word → State} (h : ∀ s w, TrapKept s (act s w)) (op : Opcode) :
      OutcomeKeepsTrap s (.next (s.carryOut op act)) := next_keepsTrap (carryOut_keptOrCleared h s op)
  cases c with
  | clearTrap => exact absurd rfl clearTrap
  | pinReset => exact absurd rfl pinReset
  | resetAll => exact absurd rfl resetAll
  | resetReleaseLoading cbase => exact next_keepsTrap (ifHolds_keptOrCleared _ (.of_eq rfl rfl))
  | resetReleaseBypass cbase => exact next_trapKept (.ite (.of_eq rfl rfl) (.refl s))
  | leaseTick => exact next_keepsTrap (tickStep_keptOrCleared s)
  | leaseExpiry l frame => exact leaseExpiry_keepsTrap l frame
  | engineAccessTimeout place => exact next_keepsTrap (timeout_keptOrCleared s place.val)
  | passthroughTransaction t => exact arrival_keepsTrap t
  | controlWrite t => exact writeArrival_keepsTrap t
  | ringRegionWrite t => exact writeArrival_keepsTrap t
  | frameAccess t => exact arrival_keepsTrap t
  | apertureAccess t => exact arrival_keepsTrap t
  | portUndefinedAccess t => exact arrival_keepsTrap t
  | acquire r base => exact arrival_keepsTrap (portRead r base 0x1000)
  | post r base data => exact arrival_keepsTrap (portWrite r base 0x1004 data)
  | postUrgent r base data => exact arrival_keepsTrap (portWrite r base 0x1008 data)
  | release r base data => exact arrival_keepsTrap (portWrite r base 0x100C data)
  | take r base => exact arrival_keepsTrap (portRead r base 0x1010)
  | peek r base => exact arrival_keepsTrap (portRead r base 0x1014)
  | count r base => exact arrival_keepsTrap (portRead r base 0x1018)
  | lateResponseDiscard => exact lateResponseDiscard_keepsTrap
  | owedResponseDiscard => exact next_trapKept (.of_eq rfl rfl)
  | responseDelivery r => exact responseDelivery_keepsTrap r
  | arbiterGrant => exact next_keepsTrap (ifHolds_keptOrCleared _ (grant_trapKept s))
  | slotClaimPlace => exact next_keepsTrap (settle_keptOrCleared s (serveFirst_trapKept s))
  | reclaimWriteStart l => exact next_keepsTrap (placeNow_keptOrCleared s _)
  | primeWriteStart l => exact next_keepsTrap (placeNow_keptOrCleared s _)
  | statusWritePlace => exact next_keepsTrap (placeNow_keptOrCleared s _)
  | laneStatusWritePlace l => exact next_keepsTrap (placeNow_keptOrCleared s _)
  | laneDrainComplete l => exact next_keepsTrap (ifHolds_keptOrCleared _ (drainOff_trapKept s l))
  | laneTeardown l => exact next_keepsTrap (ifHolds_keptOrCleared _ (teardown_trapKept s l))
  | resetAllClearing => exact next_keepsTrap (clearing_keptOrCleared s)
  | openLane => exact runs openLane_trapKept .openLane
  | closeLane => exact runs closeLane_trapKept .closeLane
  | forceClose => exact runs forceClose_trapKept .forceClose
  | pauseLane => exact runs (laneCommand_trapKept Lane.pausedBy) .pauseLane
  | resumeLane => exact runs (laneCommand_trapKept Lane.resumed) .resumeLane
  | stepLane => exact runs (laneCommand_trapKept Lane.stepped) .stepLane
  | haltLane => exact runs (laneCommand_trapKept Lane.haltedBy) .haltLane
  | ackIrq => exact runs ackIrq_trapKept .ackIrq
  | snapshot => exact runs snapshot_trapKept .snapshot
  | reloadGlobals => exact runs reloadGlobals_trapKept .reloadGlobals
  | badOpcodeCommand => exact badOpcode_keepsTrap
  | _ => exact completion_keepsTrap rfl

end command

theorem KeptOrCleared.outcome {s t : State} {f : Report} (h : KeptOrCleared s t) (stored : s.trap.stored = some f)
    (bound : s.trap.overflow ≤ 255) : StillHeld f s t ∨ ClearedIn s t :=
  h.imp (fun kept => kept.held f stored bound)
    fun ⟨w, made⟩ => ⟨w, .inl made.waited, made.done, made.off, made.empty⟩

/-! ### RESET_ALL (R163) -/

theorem toCarryOut_some {s : State} {w : Word} (h : s.toCarryOut = some w) :
    s.cmd = some { word := w, phase := .ready } := by
  unfold State.toCarryOut at h
  split at h
  · cases h
  · next c cmd =>
    split at h
    · next ready => cases h; rw [cmd, ← ready]
    · cases h

theorem ofCode_resetAll {n : Nat} (h : Opcode.ofCode n = some .resetAll) : n = 12 := by
  unfold Opcode.ofCode at h
  split at h <;> cases h
  rfl

theorem foldl_cmd {α : Type} {f : State → α → State} (h : ∀ s x, (f s x).cmd = s.cmd) (xs : List α) (s : State) :
    (xs.foldl f s).cmd = s.cmd := by
  induction xs generalizing s with
  | nil => rfl
  | cons x xs ih => exact (ih _).trans (h s x)

theorem flushLanes_cmd (s : State) (ls : List LaneId) : (s.flushLanes ls).cmd = s.cmd := by
  have drawn {α : Type} (xs : List α) : (s.drawOrder xs).2.cmd = s.cmd := by rw [drawOrder_books]; rfl
  have entered (x : State) (l : LaneId) : (x.enterFlushing l).cmd = x.cmd := rfl
  calc (s.flushLanes ls).cmd
    _ = _ := foldl_cmd (fun x l => (arriveOff_cmd x l).1) ..
    _ = _ := (cutOffs_cmd ..).1
    _ = _ := foldl_cmd entered ..
    _ = s.cmd := drawn _

/-- RESET_ALL once carried out waits for its clearing. -/
theorem resetAll_eq {s : State} {w : Word} (ready : s.cmd = some { word := w, phase := .ready }) :
    s.resetAll w = { s.flushLanes allLanes with cmd := some { word := w, phase := .resetting } } := by
  unfold State.resetAll State.cmdPhase
  rw [flushLanes_cmd, ready]

/-- RESET_ALL reports what it cuts off; the clearing it waits for may be made in the same step. -/
theorem resetAll_placed {s t : State} {w : Word} {f : Report} (ready : Ready s w 12) (h : Placed s (s.resetAll w) t)
    (stored : s.trap.stored = some f) (bound : s.trap.overflow ≤ 255) : StillHeld f s t ∨ ClearedIn s t := by
  rw [resetAll_eq ready.cmd] at h
  have flushed : StillHeld f s (s.flushLanes allLanes) := (flushLanes_trapKept s allLanes).held f stored bound
  rcases h.keptOrCleared with kept | ⟨v, made⟩
  · have placed := kept.held f flushed.stored flushed.bound
    exact .inl ⟨placed.stored, flushed.rises.trans placed.rises, placed.bound⟩
  · have same : w = v := congrArg Running.word (Option.some.inj made.waited)
    subst same
    exact .inr ⟨w, .inr ⟨ready.cmd, ready.code⟩, made.done, made.off, made.empty⟩

theorem resetAll_outcome {s t : State} {f : Report} (h : exec .resetAll s = .next t) (stored : s.trap.stored = some f)
    (bound : s.trap.overflow ≤ 255) : StillHeld f s t ∨ ClearedIn s t := by
  have still : StillHeld f s s := stillHeld_of_eq stored bound rfl
  obtain rfl : s.carryOut .resetAll State.resetAll = t := Host.Outcome.next.inj h
  cases word : s.toCarryOut with
  | none =>
    unfold State.carryOut
    rw [word]
    exact .inl still
  | some w =>
    by_cases code : Opcode.ofCode (cmdOpcode w) = some .resetAll
    · have ready : Ready s w 12 := ⟨toCarryOut_some word, ofCode_resetAll code⟩
      rw [carryOut_of ready rfl State.resetAll (.inl rfl)]
      exact resetAll_placed ready (settle_placed ..) stored bound
    · unfold State.carryOut
      rw [word]
      dsimp only
      rw [if_neg code]
      exact .inl still

/-! ### A REFCLK period (R126, R150) -/

theorem resetting_iff (s : State) : s.resetting = true ↔ ∃ w, s.cmd = some { word := w, phase := .resetting } := by
  unfold State.resetting
  split
  · next none => simp [none]
  · next c cmd =>
    rw [decide_eq_true_iff, cmd]
    exact ⟨fun h => ⟨c.word, by rw [← h]⟩, fun ⟨w, h⟩ => by rw [Option.some.inj h]⟩

/-- Reports alone have reached the trap, or RESET_ALL waited for its clearing and waits no longer. -/
def KeptOrOver (s t : State) : Prop := TrapKept s t ∨ (s.resetting = true ∧ t.resetting = false)

theorem TrapKept.resetting {s t : State} (h : TrapKept s t) (waits : t.resetting = true) : s.resetting = true := by
  obtain ⟨w, cmd⟩ := (resetting_iff t).1 waits
  exact (resetting_iff s).2 ⟨w, h.waits w cmd⟩

theorem ClearingMade.over {w : Word} {s t : State} (h : ClearingMade w s t) :
    s.resetting = true ∧ t.resetting = false := by
  refine ⟨(resetting_iff s).2 ⟨w, h.waited⟩, ?_⟩
  unfold State.resetting
  rw [h.done]
  rfl

theorem KeptOrCleared.keptOrOver {s t : State} (h : KeptOrCleared s t) : KeptOrOver s t :=
  h.imp_right fun ⟨_, made⟩ => made.over

/-- No clock event has RESET_ALL wait again, so the period as a whole is like each of its events. -/
theorem KeptOrOver.trans {s t u : State} (h : KeptOrOver s t) (k : KeptOrOver t u) : KeptOrOver s u := by
  rcases h with h | ⟨waited, past⟩ <;> rcases k with k | ⟨waits, done⟩
  · exact .inl (h.trans k)
  · exact .inr ⟨h.resetting waits, done⟩
  · exact .inr ⟨waited, Bool.eq_false_iff.2 fun waits => Bool.eq_false_iff.1 past (k.resetting waits)⟩
  · exact absurd waits (Bool.eq_false_iff.1 past)

theorem clockEvents_keptOrOver (es : List ClockEvent) (s : State) : KeptOrOver s (es.foldl State.clockEvent s) := by
  induction es generalizing s with
  | nil => exact .inl (.refl s)
  | cons e es ih =>
    have event : KeptOrCleared s (s.clockEvent e) := by
      cases e with
      | tick => exact tickStep_keptOrCleared s
      | timeout place => exact timeout_keptOrCleared s place
    exact event.keptOrOver.trans (ih _)

theorem refclk_keptOrOver (s : State) : KeptOrOver s s.refclk := by
  have counted (x : State) : TrapKept x x.countDivider := .ite (.of_eq rfl rfl) (.refl x)
  have advanced := (counted { s with inflight := s.inflight.map InFlight.advance }).after (s := s) rfl rfl
  exact KeptOrOver.trans (.inl (advanced.trans (drawOrder_trapKept ..))) (clockEvents_keptOrOver ..)

/-! ### The trap's first report -/

theorem trapReport_empty {s : State} (h : s.trap.stored = none) (f : Report) :
    s.trapReport f = { s with trap := { stored := some f, overflow := 0 }, trapPending := true } := by
  unfold State.trapReport Trap.take
  rw [h, Option.isNone_none, Bool.or_true]

theorem trapReport_occupied {s : State} {g : Report} (h : s.trap.stored = some g) (f : Report) :
    s.trapReport f = { s with trap := { stored := some g, overflow := min (s.trap.overflow + 1) 255 } } := by
  unfold State.trapReport Trap.take
  rw [h, Option.isNone_some, Bool.or_false]

/-- Settles O55: every step lets reports alone reach the trap, but for the clearing of RESET_ALL. -/
theorem theTrapKeepsItsFirstReport : Obligations.TheTrapKeepsItsFirstReport := by
  refine ⟨fun s f => ⟨fun empty _ => trapReport_empty empty f, fun g occupied => trapReport_occupied occupied f⟩,
    fun s t f stored bound => ⟨fun c clearTrap pinReset h => ?command, fun idle h => ?period⟩⟩
  case command =>
    by_cases resetAll : c = .resetAll
    · subst resetAll
      exact resetAll_outcome h stored bound
    · exact (exec_keepsTrap c clearTrap pinReset resetAll t h).outcome stored bound
  case period =>
    obtain rfl : s.refclk = t := Host.Outcome.next.inj ((step_idle idle).symm.trans h)
    refine (refclk_keptOrOver s).imp (fun kept => kept.held f stored bound) fun ⟨waited, past⟩ => ?_
    refine ⟨waited, fun same => ?_⟩
    have waits : s.refclk.resetting = s.resetting := by unfold State.resetting; rw [same]
    exact Bool.eq_false_iff.1 past (waits.trans waited)

end Sys2Proof.Machine

/-! PROOFS. QIRQ (R168): a step settles, and QIRQ follows the causes then, or it leaves alone what QIRQ depends on. -/

namespace Sys2Proof.Machine

/-! ### What a pending and enabled cause is (R168) -/

theorem and_ne_zero_iff (a b : BitVec 6) :
    a &&& b ≠ 0#6 ↔ ∃ i < 6, a.getLsbD i = true ∧ b.getLsbD i = true := by
  rw [Ne, BitVec.zero_iff_eq_false, not_forall]
  simp only [BitVec.getLsbD_and, Bool.not_eq_false, Bool.and_eq_true]
  exact exists_congr fun i => ⟨fun h => ⟨BitVec.lt_of_getLsbD h.1, h⟩, And.right⟩

theorem laneCauseEnabled_iff (s : State) : s.lanes.toList.any (fun ln => decide (ln.causes &&& ln.enables ≠ 0#6)) = true ↔
    ∃ l, ∃ i < 6, (s.lane l).causes.getLsbD i = true ∧ (s.lane l).enables.getLsbD i = true := by
  simp only [List.any_eq_true, decide_eq_true_eq, and_ne_zero_iff, Vector.mem_toList_iff]
  constructor
  · rintro ⟨ln, member, enabled⟩
    obtain ⟨i, bound, rfl⟩ := Vector.getElem_of_mem member
    exact ⟨⟨i, bound⟩, enabled⟩
  · rintro ⟨l, enabled⟩
    exact ⟨s.lane l, Vector.getElem_mem l.isLt, enabled⟩

/-- The machine's test for an enabled cause, in the statement's words. -/
theorem causeEnabled_iff (s : State) : s.causeEnabled = true ↔ CauseEnabled s := by
  unfold State.causeEnabled CauseEnabled
  rw [Bool.or_eq_true, laneCauseEnabled_iff]
  refine or_congr Iff.rfl ?_
  cases s.globals with
  | none => simp
  | some g => simp

theorem qirqFollows_iff (s : State) : QirqFollows s ↔ (s.qirq = true ↔ CauseEnabled s) := by
  rw [← causeEnabled_iff, ← Bool.eq_iff_iff]
  rfl

/-! ### How a command ends (log 1, log 2, log 10) -/

/-- The outcome of a command run in `s`: its effect is settled, it does nothing, or it is refused. -/
inductive Concludes (s : State) : Host.Outcome State Fault Refusal → Prop
  | settled (x : State) : Concludes s (.next (s.settle x))
  | same : Concludes s (.next s)
  | refused (r : Refusal) : Concludes s (.refused r)

/-- The commands whose effect is not settled: pin reset, the release into BYPASS, and the responses that leave the
part or are discarded (R109, R151, R177, R178). -/
def isUnsettled : Instr → Bool
  | .pinReset => true
  | .resetReleaseBypass _ => true
  | .lateResponseDiscard => true
  | .owedResponseDiscard => true
  | .responseDelivery _ => true
  | _ => false

section command
variable {s : State}

/-- An event that takes place where its condition holds. -/
theorem ifHolds_concludes (p : Prop) [Decidable p] (x : State) :
    Concludes s (.next (if p then s.settle x else s)) := by
  split
  · exact .settled x
  · exact .same

theorem arrival_concludes (t : Txn) : Concludes s (s.arrival t) := by
  unfold State.arrival
  split
  · exact ifHolds_concludes _ (s.meet t)
  · exact .refused _

theorem writeArrival_concludes (t : Txn) : Concludes s (s.writeArrival t) := by
  unfold State.writeArrival
  split
  · exact arrival_concludes t
  · exact .refused _

theorem carryOut_concludes (op : Opcode) (act : State → Word → State) : Concludes s (.next (s.carryOut op act)) := by
  unfold State.carryOut
  split
  · exact .same
  · exact ifHolds_concludes _ _

theorem badOpcode_concludes : Concludes s (execBadOpcodeCommand s) := by
  unfold execBadOpcodeCommand
  split
  · exact .same
  · exact ifHolds_concludes _ _

theorem leaseExpiry_concludes (l : LaneId) (frame : Fin 1024) : Concludes s (execLeaseExpiry l frame s) := by
  unfold execLeaseExpiry
  split
  · exact .settled _
  · exact .same

theorem timeout_concludes (place : Nat) : Concludes s (.next (s.timeout place)) := by
  unfold State.timeout
  split
  · exact .same
  · exact .settled _

theorem clockEvent_concludes (e : ClockEvent) : Concludes s (.next (s.clockEvent e)) := by
  cases e with
  | tick => exact ifHolds_concludes _ s.tick
  | timeout place => exact timeout_concludes place

/-- A response ends the access it is for, or changes nothing. -/
theorem completion_concludes {c : Instr} (hc : isCompletion c = true) : Concludes s (exec c s) := by
  cases c with
  | passthroughCompletion resp =>
    simp only [exec, execPassthroughCompletion]
    split
    · exact .same
    · exact .settled _
  | globalReadCompletion resp =>
    simp only [exec, execGlobalReadCompletion]
    split
    · exact ifHolds_concludes _ _
    · exact .same
  | reloadGlobalsReadCompletion resp =>
    simp only [exec, execReloadGlobalsReadCompletion]
    split
    · split
      · exact .same
      · exact .settled _
    · exact .same
  | acquireCommit resp | takeCommit resp | peekCompletion resp | slotWriteCompletion resp
  | reclaimWriteCompletion resp | primeWriteCompletion resp | descReadCompletion resp | resultWriteCompletion resp
  | statusWriteCompletion resp | laneStatusWriteCompletion resp =>
    simp only [exec, execAcquireCommit, execTakeCommit, execPeekCompletion, execSlotWriteCompletion,
      execReclaimWriteCompletion, execPrimeWriteCompletion, execDescReadCompletion, execResultWriteCompletion,
      execStatusWriteCompletion, execLaneStatusWriteCompletion]
    split
    · exact .settled _
    · exact .same
  | _ => cases hc

theorem exec_concludes (c : Instr) (h : isUnsettled c = false) : Concludes s (exec c s) := by
  cases c with
  | pinReset | resetReleaseBypass | lateResponseDiscard | owedResponseDiscard | responseDelivery => cases h
  | resetReleaseLoading cbase => exact ifHolds_concludes _ _
  | leaseTick => exact ifHolds_concludes _ s.tick
  | leaseExpiry l frame => exact leaseExpiry_concludes l frame
  | engineAccessTimeout place => exact timeout_concludes place.val
  | passthroughTransaction t | frameAccess t | apertureAccess t | portUndefinedAccess t => exact arrival_concludes t
  | controlWrite t | ringRegionWrite t => exact writeArrival_concludes t
  | acquire r base => exact arrival_concludes (portRead r base 0x1000)
  | post r base data => exact arrival_concludes (portWrite r base 0x1004 data)
  | postUrgent r base data => exact arrival_concludes (portWrite r base 0x1008 data)
  | release r base data => exact arrival_concludes (portWrite r base 0x100C data)
  | take r base => exact arrival_concludes (portRead r base 0x1010)
  | peek r base => exact arrival_concludes (portRead r base 0x1014)
  | count r base => exact arrival_concludes (portRead r base 0x1018)
  | slotClaimPlace => exact .settled s.serveFirst
  | arbiterGrant => exact ifHolds_concludes _ s.grant
  | reclaimWriteStart | primeWriteStart | statusWritePlace | laneStatusWritePlace =>
    exact ifHolds_concludes _ (s.placeClaim _)
  | laneDrainComplete l => exact ifHolds_concludes _ (s.drainOff l)
  | laneTeardown l => exact ifHolds_concludes _ (s.teardown l)
  | resetAllClearing => exact ifHolds_concludes _ s.clearing
  | openLane | closeLane | forceClose | pauseLane | resumeLane | stepLane | haltLane | clearTrap | ackIrq | snapshot
  | reloadGlobals | resetAll => exact carryOut_concludes ..
  | badOpcodeCommand => exact badOpcode_concludes
  | _ => exact completion_concludes rfl

end command

/-! ### QIRQ after a step (R168) -/

theorem Concludes.qirq {s t : State} (h : Concludes s (.next t)) (k : QirqFollows s) : QirqFollows t := by
  cases h with
  | settled x => exact (settle_placed s x).qirq
  | same => exact k

/-- What QIRQ depends on: itself, the causes and enables of the lanes, the settings and the global causes. -/
theorem QirqFollows.of_eq {s t : State} (k : QirqFollows s) (qirq : t.qirq = s.qirq) (lanes : t.lanes = s.lanes)
    (globals : t.globals = s.globals) (trap : t.trapPending = s.trapPending)
    (memory : t.memoryPending = s.memoryPending) : QirqFollows t := by
  unfold QirqFollows State.causeEnabled
  rw [qirq, lanes, globals, trap, memory]
  exact k

/-- In reset no cause is pending and QIRQ is low (R178). -/
theorem pinReset_qirq (s : State) : QirqFollows s.pinReset := by
  simp [QirqFollows, State.causeEnabled, State.pinReset, State.reset, Lane.reset]

theorem responseDelivery_qirq {s t : State} {r : Requester} (k : QirqFollows s)
    (h : execResponseDelivery r s = .next t) : QirqFollows t := by
  unfold execResponseDelivery at h
  split at h
  · cases h; exact k
  · split at h
    · cases h; exact k
    · cases h; exact k.of_eq rfl rfl rfl rfl rfl

theorem lateResponseDiscard_qirq {s t : State} (k : QirqFollows s) (h : execLateResponseDiscard s = .next t) :
    QirqFollows t := by
  unfold execLateResponseDiscard at h
  split at h
  · cases h; exact k
  · cases h
    split
    · exact k.of_eq rfl rfl rfl rfl rfl
    · exact k

theorem exec_qirq {s t : State} {c : Instr} (k : QirqFollows s) (h : exec c s = .next t) : QirqFollows t := by
  cases c with
  | pinReset => cases h; exact pinReset_qirq s
  | resetReleaseBypass cbase =>
    cases h
    split
    · exact k.of_eq rfl rfl rfl rfl rfl
    · exact k
  | lateResponseDiscard => exact lateResponseDiscard_qirq k h
  | owedResponseDiscard => cases h; exact k.of_eq rfl rfl rfl rfl rfl
  | responseDelivery r => exact responseDelivery_qirq k h
  | _ => exact (h ▸ exec_concludes (s := s) _ rfl : Concludes s (.next t)).qirq k

theorem drawOrder_qirq {α : Type} {s : State} (k : QirqFollows s) (xs : List α) : QirqFollows (s.drawOrder xs).2 := by
  rw [drawOrder_books]
  exact k.of_eq rfl rfl rfl rfl rfl

theorem clockEvents_qirq (es : List ClockEvent) {s : State} (k : QirqFollows s) :
    QirqFollows (es.foldl State.clockEvent s) := by
  induction es generalizing s with
  | nil => exact k
  | cons e es ih => exact ih ((clockEvent_concludes e).qirq k)

/-- The counts of a period and the draw of its order leave the causes alone; its events settle (R126, R150). -/
theorem refclk_qirq {s : State} (k : QirqFollows s) : QirqFollows s.refclk := by
  have counted : QirqFollows ({ s with inflight := s.inflight.map InFlight.advance } : State).countDivider := by
    unfold State.countDivider
    split <;> exact k.of_eq rfl rfl rfl rfl rfl
  exact clockEvents_qirq _ (drawOrder_qirq counted _)

/-- Settles O57: a step that settles has QIRQ follow the causes, and any other leaves both alone or is pin reset. -/
theorem qirqIsHighWhenAnEnabledCauseIsPending : Obligations.QirqIsHighWhenAnEnabledCauseIsPending := by
  intro s t k h
  rw [← qirqFollows_iff] at k ⊢
  unfold step at h
  split at h
  · cases h; exact refclk_qirq k
  · next c rest _ =>
    have taken : QirqFollows { s with pending := rest } := k.of_eq rfl rfl rfl rfl rfl
    exact exec_qirq taken h

end Sys2Proof.Machine

/-! PROOFS. The Command Unit (chapter 9): commands refused by their opcode or the part state, SNAPSHOT, RELOAD_GLOBALS,
RESET_ALL with its clearing, and the record writes that complete. -/

namespace Sys2Proof.Machine

/-! ### Record writes that complete (R158, R164, R166) -/

section completes
variable {s : State} {words : List Word} {rest : List InFlight}

theorem exec_statusWrite (ends : NextEnds s .statusWrite words rest) (resp : DResp Unit) :
    exec (.statusWriteCompletion resp) s =
      .next (s.settle (({ s with inflight := rest } : State).endStatus words resp)) := by
  obtain ⟨completing, popped, carried⟩ := ends.completing
  simp only [exec, execStatusWriteCompletion, completing, popped, carried]

theorem exec_laneStatusWrite {l : LaneId} {ws : List Word} (ends : NextEnds s (.laneStatusWrite l ws) words rest)
    (resp : DResp Unit) : exec (.laneStatusWriteCompletion resp) s =
      .next (s.settle (({ s with inflight := rest } : State).endLaneStatus l ws resp)) := by
  obtain ⟨completing, popped, -⟩ := ends.completing
  simp only [exec, execLaneStatusWriteCompletion, completing, popped]

theorem exec_resultWrite {w : Word} {final : Bool} (ends : NextEnds s (.resultWrite w final) words rest)
    (resp : DResp Unit) : exec (.resultWriteCompletion resp) s =
      .next (s.settle (({ s with inflight := rest } : State).endResult w final resp)) := by
  obtain ⟨completing, popped, -⟩ := ends.completing
  simp only [exec, execResultWriteCompletion, completing, popped]

theorem exec_reloadRead (ends : NextEnds s .globalRead words rest) (part : s.part ≠ .loading)
    (resp : DResp (Vector Word 16)) : exec (.reloadGlobalsReadCompletion resp) s =
      .next (s.settle (({ s with inflight := rest } : State).endReload resp)) := by
  obtain ⟨completing, popped, -⟩ := ends.completing
  simp only [exec, execReloadGlobalsReadCompletion, completing, popped, if_neg part]

end completes

theorem endStatus_okay (s : State) (words : List Word) :
    s.endStatus words (.okay ()) = { s with writer := writerDone s.writer } := by
  unfold State.endStatus
  rw [writerCompleted_eq]
  rfl

theorem endResult_okay (s : State) (w : Word) (final : Bool) :
    s.endResult w final (.okay ()) = { s with cmd := if final then none else s.cmd } := by cases final <;> rfl

/-- Settles O29: each write's completion is its command's, and each end without error has its equation. -/
theorem recordWritesComplete : Obligations.RecordWritesComplete := by
  intro s words rest
  refine ⟨fun ends => ?status, fun l ws ends => ?laneStatus, fun w final ends => ?result⟩
  case status => exact placed_of_eq (exec_statusWrite ends _) (endStatus_okay ..)
  case laneStatus => exact placed_of (exec_laneStatusWrite ends (.okay ()))
  case result => exact placed_of_eq (exec_resultWrite ends _) (endResult_okay ..)

/-! ### The read of RELOAD_GLOBALS (R127, R162) -/

theorem endReload_valid (s : State) {ws : Vector Word 16} (signed : ws[0] = 0x514C3136#32) : s.endReload (.okay ws) =
    ({ s with part := .active, globals := some (settingsOf ws), divider := 0 } : State).endCommand .none := by
  unfold State.endReload
  rw [validGlobals_ok signed]
  rfl

theorem endReload_invalid (s : State) {ws : Vector Word 16} (unsigned : ws[0] ≠ 0x514C3136#32) :
    s.endReload (.okay ws) = s.endCommand .badGlobals := by
  unfold State.endReload
  rw [validGlobals_bad unsigned]
  rfl

/-- A GLOBAL_READ that fails is reported for no lane and refuses the command (R149, R162). -/
theorem endReload_error (s : State) : s.endReload .error =
    (s.trapReport (ownError none (blockAddr s 0) .read 0xFFFFFFFF#32)).endCommand .badGlobals := rfl

/-- Settles O32: the read's word 0 decides between the two ends of a read that completes, and a read that fails, by
error or by timeout, ends as `endReload_error` says. -/
theorem reloadReadsBringSettingsIntoForce : Obligations.ReloadReadsBringSettingsIntoForce := by
  intro s w words reading part
  refine ⟨fun rest ws ends => ⟨fun signed => ?valid, fun unsigned => ?invalid⟩, fun c after fails => ?failed⟩
  case valid => exact ended_step ((exec_reloadRead ends part _).trans (by rw [endReload_valid _ signed])) reading
  case invalid => exact ended_step ((exec_reloadRead ends part _).trans (by rw [endReload_invalid _ unsigned])) reading
  case failed =>
    have reload : ({ s with inflight := after } : State).endWithError words .globalRead =
        ({ s with inflight := after } : State).endReload .error := if_neg part
    have step := exec_fails fails
    rw [reload, endReload_error] at step
    exact ended_step step reading

/-! ### Commands that are refused (R157) -/

/-- The commands of opcodes 1 to 10 are carried out by the Command Unit, and none of them runs in PASS (R157). -/
theorem exec_commandFor {opcode : Nat} (least : 1 ≤ opcode) (most : opcode ≤ 10) :
    ∃ op act, Opcode.ofCode opcode = some op ∧ op.runsInPass = false ∧
      ∀ s, exec (commandFor opcode) s = .next (s.carryOut op act) := by
  interval_cases opcode
  · exact ⟨.openLane, State.openLane, rfl, rfl, fun _ => rfl⟩
  · exact ⟨.closeLane, State.closeLane, rfl, rfl, fun _ => rfl⟩
  · exact ⟨.forceClose, State.forceClose, rfl, rfl, fun _ => rfl⟩
  · exact ⟨.pauseLane, fun s w => s.laneCommand w Lane.pausedBy, rfl, rfl, fun _ => rfl⟩
  · exact ⟨.resumeLane, fun s w => s.laneCommand w Lane.resumed, rfl, rfl, fun _ => rfl⟩
  · exact ⟨.stepLane, fun s w => s.laneCommand w Lane.stepped, rfl, rfl, fun _ => rfl⟩
  · exact ⟨.haltLane, fun s w => s.laneCommand w Lane.haltedBy, rfl, rfl, fun _ => rfl⟩
  · exact ⟨.clearTrap, State.clearTrap, rfl, rfl, fun _ => rfl⟩
  · exact ⟨.ackIrq, State.ackIrq, rfl, rfl, fun _ => rfl⟩
  · exact ⟨.snapshot, State.snapshot, rfl, rfl, fun _ => rfl⟩

/-- Opcodes 0 and 13 to 15 name no command (R169). -/
theorem ofCode_none {opcode : Nat} (h : opcode = 0 ∨ 13 ≤ opcode) : Opcode.ofCode opcode = none := by
  unfold Opcode.ofCode
  split
  case h_13 => rfl
  all_goals omega

theorem toCarryOut_ready {s : State} {w : Word} {opcode : Nat} (ready : Ready s w opcode) : s.toCarryOut = some w := by
  unfold State.toCarryOut
  rw [ready.cmd]
  rfl

theorem exec_badOpcode {s : State} {w : Word} {opcode : Nat} (ready : Ready s w opcode)
    (unnamed : Opcode.ofCode opcode = none) :
    exec .badOpcodeCommand s = .next (s.settle (s.endCommand .badOpcode)) := by
  simp only [exec, execBadOpcodeCommand, toCarryOut_ready ready, ready.code, if_pos unnamed]

/-- Settles O40: none of the ten commands runs in PASS, and the opcodes beside the twelve have no command. -/
theorem commandsAreRefusedOutsideTheirPartState : Obligations.CommandsAreRefusedOutsideTheirPartState := by
  intro s w opcode ready
  refine ⟨fun pass least most => ?notActive, fun unnamed => ?badOpcode⟩
  case notActive =>
    obtain ⟨op, act, code, stays, run⟩ := exec_commandFor least most
    exact ended_step ((run s).trans (by rw [carryOut_pass ready code act pass stays])) ready.cmd
  case badOpcode => exact ended_step (exec_badOpcode ready (ofCode_none unnamed)) ready.cmd

/-! ### SNAPSHOT and RELOAD_GLOBALS (R161, R162) -/

theorem reloadGlobals_eq {s : State} {w : Word} {opcode : Nat} (ready : Ready s w opcode) : s.reloadGlobals w =
    { s with cmd := some { word := w, phase := .readingGlobals }, cuCalls := s.cuCalls ++ [.globalRead] } := by
  unfold State.reloadGlobals State.cmdPhase
  rw [ready.cmd]
  rfl

/-- Settles O46: SNAPSHOT ends in the step that carries it out, its RESULT called for behind its write; RELOAD_GLOBALS,
which runs in PASS too, waits for its read. -/
theorem snapshotAndReloadCallForTheirAccess : Obligations.SnapshotAndReloadCallForTheirAccess := by
  intro s w
  refine ⟨fun ready active => ?snapshot, fun ready => ?reload⟩
  case snapshot =>
    have run : exec .snapshot s = .next (s.settle (s.snapshot w)) := carryOut_step ready active rfl rfl
    exact ended_step (X := s.call (.snapshot (cmdLane w))) run ready.cmd
  case reload =>
    have run : exec .reloadGlobals s = .next (s.settle (s.reloadGlobals w)) :=
      congrArg Host.Outcome.next (carryOut_of ready rfl State.reloadGlobals (.inl rfl))
    exact placed_of_eq run (reloadGlobals_eq ready)

/-! ### RESET_ALL (R45, R94, R96, R163) -/

/-- A lane in FLUSHING takes the report of a cut-off without leaving FLUSHING: no fault halts it (R146). -/
theorem takeFault_flushing {ln : Lane} (h : ln.state = .flushing) (k : FaultKind) :
    (ln.takeFault k).state = .flushing := by
  unfold Lane.takeFault Lane.policyHalts
  simp [h, LaneState.counting, Lane.countFault]

theorem cutOff_flushing {s : State} {l : LaneId} (h : (s.lane l).state = .flushing) (x : Discard) :
    ((s.cutOff x).lane l).state = .flushing := by
  unfold State.cutOff State.report
  split
  · exact h
  · next m _ =>
    rw [lane_updLane]
    split
    · next same => subst same; exact takeFault_flushing h _
    · exact h

theorem cutOffs_flushing {l : LaneId} (xs : List Discard) {s : State} (h : (s.lane l).state = .flushing) :
    ((xs.foldl State.cutOff s).lane l).state = .flushing := by
  induction xs generalizing s with
  | nil => exact h
  | cons x xs ih => exact ih (cutOff_flushing h x)

/-- The counter of draws has no part in the arrivals at OFF. -/
theorem FlushedOff.redraw {ls : List LaneId} {x y : State} {d : Nat}
    (h : FlushedOff ls (x.redraw x.cmd x.cuCalls d) y) : FlushedOff ls x (y.redraw y.cmd y.cuCalls x.draws) where
  rest := by rw [h.rest]; rfl
  off l member torn := h.off l member (torn.congr rfl rfl rfl)
  stays l standing := h.stays l fun member torn => standing member (torn.congr rfl rfl rfl)
  torn l member torn := h.torn l member (torn.congr rfl rfl rfl)
  records n outside := h.records n fun l member torn => outside l member (torn.congr rfl rfl rfl)

/-- The lanes that enter FLUSHING and the operations that are cut off, said of RESET_ALL as a whole. -/
theorem flushLanes_flushedOff (s : State) (ls : List LaneId) (once : ls.Nodup) :
    ∃ order : List Discard, order.Perm ((toFlush s ls).flatMap s.discards) ∧ ∃ d y,
      FlushedOff (toFlush s ls) (order.foldl State.cutOff (flushing s (toFlush s ls))) y ∧
        s.flushLanes ls = y.redraw y.cmd y.cuCalls d := by
  obtain ⟨order, d, perm, flushed⟩ := flushLanes_eq s ls once
  refine ⟨order, perm, d, ?_⟩
  have entered : ∀ l ∈ toFlush s ls, ((order.foldl State.cutOff (flushing s (toFlush s ls))).lane l).state = .flushing :=
    fun l member => cutOffs_flushing order (by rw [flushing_lane, if_pos member])
  obtain ⟨cmd, calls⟩ := cutOffs_cmd order (flushing s (toFlush s ls))
  generalize order.foldl State.cutOff (flushing s (toFlush s ls)) = x at flushed entered cmd calls ⊢
  rw [show s.cmd = x.cmd from cmd.symm, show s.cuCalls = x.cuCalls from calls.symm] at flushed
  have off := flushedOff_all (toFlush s ls) (once.filter _) (x.redraw x.cmd x.cuCalls d) entered
  rw [← flushed] at off
  refine ⟨_, off.redraw, ?_⟩
  rw [off.rest]
  rfl

/-- Settles O47: RESET_ALL runs in every part state that carries commands out, flushes as `flushLanes_flushedOff` says,
and the draw of the order leaves no trace but its count. -/
theorem resetAllFlushesEveryLane : Obligations.ResetAllFlushesEveryLane := by
  intro s w ready
  obtain ⟨order, perm, d, y, off, flushed⟩ := flushLanes_flushedOff s allLanes (by decide)
  have run : exec .resetAll s = .next (s.settle (s.resetAll w)) :=
    congrArg Host.Outcome.next (carryOut_of ready rfl State.resetAll (.inl rfl))
  rw [resetAll_eq ready.cmd, flushed] at run
  obtain ⟨u, next, placed⟩ := placed_of run
  exact ⟨order, y, u, perm, off, next, Placed.ofDraws (d := d) placed⟩

/-- Settles O48: where the clearing is due the row makes it. -/
theorem theClearingReturnsThePartToItsStartUpState : Obligations.TheClearingReturnsThePartToItsStartUpState := by
  intro s w due
  have run : exec .resetAllClearing s = .next (s.settle s.clearing) :=
    congrArg Host.Outcome.next (if_pos ((clearingDue_iff s).2 ⟨w, due⟩))
  exact placed_of_eq run (clearing_of due.cmd)

end Sys2Proof.Machine

/-! PROOFS. The formats (R169): the fields of each word that the part writes, at their bits, and the codes in them. -/

namespace Sys2Proof.Machine

/-! ### Numbers in fields -/

theorem toNat_ofNat_of_lt {w n : Nat} (h : n < 2 ^ w) : (BitVec.ofNat w n).toNat = n := by
  rw [BitVec.toNat_ofNat, Nat.mod_eq_of_lt h]

theorem getD_replicate_same {α : Type} (n i : Nat) (x : α) : (List.replicate n x).getD i x = x := by
  by_cases inside : i < n
  · exact List.getD_replicate _ inside
  · exact List.getD_eq_default _ _ (by simpa using inside)

/-! ### Handle, entry, COUNT and RESULT words -/

theorem handleWord_fields (index : BitVec 10) (gen : BitVec 4) : (handleWord index gen).extractLsb' 0 10 = index ∧
    (handleWord index gen).extractLsb' 10 4 = gen ∧ (handleWord index gen).extractLsb' 14 18 = 0#18 := by
  unfold handleWord
  simp (disch := decide) only [BitVec.extractLsb'_append_eq_of_le, BitVec.extractLsb'_append_eq_of_add_le,
    BitVec.extractLsb'_eq_self, Nat.reduceSub, and_self]

theorem entryWord_fields (e : Entry) : e.word.extractLsb' 0 10 = e.index ∧ e.word.extractLsb' 10 4 = e.gen ∧
    e.word.extractLsb' 14 10 = e.length ∧ e.word.extractLsb' 24 3 = e.origin ∧ e.word.extractLsb' 27 2 = e.kind.code ∧
    e.word.getLsbD 29 = e.urgent ∧ e.word.getLsbD 31 = false := by
  have fields := ofWord_word e
  have kind : e.word.extractLsb' 27 2 = e.kind.code := by
    rw [extract_word e (by decide), Entry.body]
    simp (disch := decide) only [BitVec.extractLsb'_append_eq_of_le, BitVec.extractLsb'_append_eq_of_add_le,
      BitVec.extractLsb'_eq_self, Nat.reduceSub]
  exact ⟨congrArg Entry.index fields, congrArg Entry.gen fields, congrArg Entry.length fields,
    congrArg Entry.origin fields, kind, congrArg Entry.urgent fields, word_top_bit e⟩

/-- Ring counts of 11 bits and a checkout count of 4 read back from the COUNT word (R67). -/
theorem countWord_fields {free work checkout : Nat} (st : LaneState) (hf : free < 2048) (hw : work < 2048)
    (hc : checkout < 16) :
    let w := countWord free work st checkout
    (w.extractLsb' 0 11).toNat = free ∧ (w.extractLsb' 12 11).toNat = work ∧ w.extractLsb' 24 3 = st.code ∧
      (w.extractLsb' 27 4).toNat = checkout ∧ w.getLsbD 11 = false ∧ w.getLsbD 23 = false ∧ w.getLsbD 31 = false := by
  unfold countWord
  simp (disch := decide) only [BitVec.extractLsb'_append_eq_of_le, BitVec.extractLsb'_append_eq_of_add_le,
    BitVec.extractLsb'_eq_self, BitVec.getLsbD_append, Nat.reduceSub, Nat.reduceLT, if_true, if_false]
  simp [Nat.mod_eq_of_lt, hf, hw, hc]

theorem resultWord_fields (cmd : Word) (reason : Reason) (busy : Bool) :
    let w := resultWord cmd reason busy
    w.extractLsb' 0 8 = cmd.extractLsb' 8 8 ∧ w.getLsbD 8 = decide (reason ≠ .none) ∧ w.getLsbD 9 = busy ∧
      w.extractLsb' 10 2 = 0#2 ∧ w.extractLsb' 12 4 = cmd.extractLsb' 0 4 ∧ w.extractLsb' 16 8 = reason.code ∧
      w.extractLsb' 24 8 = 0#8 := by
  unfold resultWord cmdTag
  simp (disch := decide) only [BitVec.extractLsb'_append_eq_of_le, BitVec.extractLsb'_append_eq_of_add_le,
    BitVec.extractLsb'_eq_self, BitVec.getLsbD_append, Nat.reduceSub, Nat.reduceLT, if_true, if_false]
  simp

/-! ### The Status Record -/

theorem statusHead_fields (part : PartState) (trap memory : Bool) :
    let w := statusHead part trap memory
    w.extractLsb' 0 2 = part.code ∧ w.extractLsb' 2 6 = 0#6 ∧ w.getLsbD 8 = trap ∧ w.getLsbD 9 = memory ∧
      w.extractLsb' 10 22 = 0#22 := by
  unfold statusHead
  simp (disch := decide) only [BitVec.extractLsb'_append_eq_of_le, BitVec.extractLsb'_append_eq_of_add_le,
    BitVec.extractLsb'_eq_self, BitVec.getLsbD_append, Nat.reduceSub, Nat.reduceLT, if_true, if_false]
  simp

theorem summaryWord_fields (st : LaneState) (reason : HaltReason) (causes : BitVec 6) :
    let w := summaryWord st reason causes
    w.extractLsb' 0 6 = causes ∧ w.extractLsb' 6 2 = 0#2 ∧ w.extractLsb' 8 3 = st.code ∧ w.getLsbD 11 = false ∧
      w.extractLsb' 12 3 = reason.code ∧ w.extractLsb' 15 17 = 0#17 := by
  unfold summaryWord
  simp (disch := decide) only [BitVec.extractLsb'_append_eq_of_le, BitVec.extractLsb'_append_eq_of_add_le,
    BitVec.extractLsb'_eq_self, BitVec.getLsbD_append, Nat.reduceSub, Nat.reduceLT, if_true, if_false]
  simp

/-- The first of the trap's words, where the trap is occupied (R165). -/
def trapHead (overflow : Nat) (f : Report) : Word :=
  BitVec.ofNat 8 overflow ++ 0#4 ++ BitVec.ofNat 4 (requesterNumber f.requester) ++ 0#3
    ++ BitVec.ofNat 5 (laneNumber f.lane) ++ 0#2 ++ BitVec.ofBool (decide (f.dir = .write))
    ++ BitVec.ofNat 4 f.kind.code ++ 1#1

theorem trapWords_empty {t : Trap} (h : t.stored = none) :
    trapWords t = [BitVec.ofNat 8 t.overflow ++ 0#24, 0#32, 0#32, 0#32] := by
  unfold trapWords
  rw [h]

theorem trapWords_occupied {t : Trap} {f : Report} (h : t.stored = some f) : trapWords t =
    [trapHead t.overflow f, f.addr.extractLsb' 0 32, 0#28 ++ (f.addr.extractLsb' 32 4 : BitVec 4), f.data] := by
  obtain ⟨kind, lane, requester, addr, dir, data⟩ := f
  unfold trapWords
  rw [h]
  cases lane <;> cases requester <;> rfl

theorem kind_code_lt (k : FaultKind) : k.code < 16 := by cases k <;> decide

theorem laneNumber_lt (l : Option LaneId) : laneNumber l < 32 := by
  cases l with
  | none => decide
  | some l => exact l.isLt.trans (by decide)

theorem requesterNumber_lt (r : Option Requester) : requesterNumber r < 16 := by
  cases r with
  | none => decide
  | some r => exact r.isLt.trans (by decide)

theorem trapHead_fields (overflow : Nat) (f : Report) :
    let w := trapHead overflow f
    (w.getLsbD 0 = true ∧ (w.extractLsb' 1 4).toNat = f.kind.code ∧ w.getLsbD 5 = decide (f.dir = .write) ∧
        w.extractLsb' 6 2 = 0#2) ∧
      ((w.extractLsb' 8 5).toNat = laneNumber f.lane ∧ w.extractLsb' 13 3 = 0#3) ∧
      ((w.extractLsb' 16 4).toNat = requesterNumber f.requester ∧ w.extractLsb' 20 4 = 0#4) ∧
      w.extractLsb' 24 8 = BitVec.ofNat 8 overflow := by
  unfold trapHead
  simp (disch := decide) only [BitVec.extractLsb'_append_eq_of_le, BitVec.extractLsb'_append_eq_of_add_le,
    BitVec.extractLsb'_eq_self, BitVec.getLsbD_append, Nat.reduceSub, Nat.reduceLT, if_true, if_false]
  simp [Nat.mod_eq_of_lt, kind_code_lt, laneNumber_lt, requesterNumber_lt]

theorem trapWords_length (t : Trap) : (trapWords t).length = 4 := by
  unfold trapWords
  cases t.stored <;> rfl

theorem trapWords_overflow (t : Trap) :
    ((trapWords t).getD 0 0#32).extractLsb' 24 8 = BitVec.ofNat 8 t.overflow := by
  cases h : t.stored with
  | none =>
    rw [trapWords_empty h]
    exact BitVec.extractLsb'_append_eq_left
  | some f =>
    obtain ⟨-, -, -, overflow⟩ := trapHead_fields t.overflow f
    rw [trapWords_occupied h]
    exact overflow

section statusRecord
variable (c : StatusContents)

theorem statusRecord_length : c.words.length = 16 + c.lanes.length := by
  simp only [StatusContents.words, List.cons_append, List.length_cons, List.length_append, List.length_map,
    List.length_replicate, trapWords_length]
  omega

/-- Words 1 to 4 are the trap's. -/
theorem statusRecord_trap {i : Nat} (h : i < 4) : c.words.getD (i + 1) 0#32 = (trapWords c.trap).getD i 0#32 := by
  have short : i < (trapWords c.trap).length := h.trans_eq (trapWords_length _).symm
  simp only [StatusContents.words, List.cons_append, List.getD_cons_succ, List.append_assoc]
  exact List.getD_append _ _ _ _ short

/-- Past the trap's words come eleven words of 0, and the summaries behind them. -/
theorem statusRecord_past (i : Nat) : c.words.getD (5 + i) 0#32 =
    (List.replicate 11 0#32 ++ c.lanes.map fun x => summaryWord x.1 x.2.1 x.2.2).getD i 0#32 := by
  have long : (trapWords c.trap).length ≤ 4 + i := (trapWords_length _).trans_le (Nat.le_add_right ..)
  simp only [StatusContents.words, List.cons_append, List.append_assoc]
  rw [show 5 + i = 4 + i + 1 by omega, List.getD_cons_succ, List.getD_append_right _ _ _ _ long, trapWords_length,
    Nat.add_sub_cancel_left]

theorem statusRecord_zero {i : Nat} (least : 5 ≤ i) (most : i ≤ 15) : c.words.getD i 0#32 = 0#32 := by
  obtain ⟨j, rfl⟩ := Nat.exists_eq_add_of_le least
  have inside : j < (List.replicate 11 0#32).length := by rw [List.length_replicate]; omega
  rw [statusRecord_past, List.getD_append _ _ _ _ inside, getD_replicate_same]

end statusRecord

/-- Words 16 to 31 are the lanes' summaries. -/
theorem statusRecord_summary (s : State) (l : LaneId) : s.statusContents.words.getD (16 + l.val) 0#32 =
    summaryWord (s.lane l).state (s.lane l).haltReason (s.lane l).causes := by
  have past : (List.replicate 11 0#32).length ≤ 11 + l.val := by rw [List.length_replicate]; omega
  have named : l.val < (s.statusContents.lanes.map fun x => summaryWord x.1 x.2.1 x.2.2).length := by
    simp [State.statusContents]
  rw [show 16 + l.val = 5 + (11 + l.val) by omega, statusRecord_past, List.getD_append_right _ _ _ _ past,
    List.length_replicate, Nat.add_sub_cancel_left, List.getD_eq_getElem _ _ named]
  simp [State.statusContents, State.lane]

theorem statusRecord_fields (s : State) : StatusWords s s.statusContents.words := by
  obtain ⟨part, unused, trap, memory, above⟩ := statusHead_fields s.part s.trapPending s.memoryPending
  have first : s.statusContents.words.getD 1 0#32 = (trapWords s.trap).getD 0 0#32 := statusRecord_trap _ (by decide)
  have second : s.statusContents.words.getD 2 0#32 = (trapWords s.trap).getD 1 0#32 := statusRecord_trap _ (by decide)
  have third : s.statusContents.words.getD 3 0#32 = (trapWords s.trap).getD 2 0#32 := statusRecord_trap _ (by decide)
  have fourth : s.statusContents.words.getD 4 0#32 = (trapWords s.trap).getD 3 0#32 := statusRecord_trap _ (by decide)
  refine {
    length := ?length, part := ⟨part, unused⟩, causes := ⟨trap, memory, above⟩, overflow := ?overflow, empty := ?empty,
    kind := ?kind, lane := ?lane, requester := ?requester, address := ?address,
    zero := fun i => statusRecord_zero _, summary := ?summary }
  case length =>
    rw [statusRecord_length]
    simp [State.statusContents]
  case overflow =>
    intro fits
    rw [first, trapWords_overflow, toNat_ofNat_of_lt (Nat.lt_succ_of_le fits)]
  case empty =>
    intro empty
    rw [first, second, third, fourth, trapWords_empty empty]
    exact ⟨BitVec.extractLsb'_append_eq_right, rfl, rfl, rfl⟩
  case kind =>
    intro f occupied
    obtain ⟨kind, -⟩ := trapHead_fields s.trap.overflow f
    rw [first, trapWords_occupied occupied]
    exact kind
  case lane =>
    intro f occupied
    obtain ⟨-, lane, -⟩ := trapHead_fields s.trap.overflow f
    rw [first, trapWords_occupied occupied]
    exact lane
  case requester =>
    intro f occupied
    obtain ⟨-, -, requester, -⟩ := trapHead_fields s.trap.overflow f
    rw [first, trapWords_occupied occupied]
    exact requester
  case address =>
    intro f occupied
    rw [second, third, fourth, trapWords_occupied occupied]
    exact ⟨rfl, BitVec.extractLsb'_append_eq_right, BitVec.extractLsb'_append_eq_left, rfl⟩
  case summary =>
    intro l
    rw [statusRecord_summary]
    exact summaryWord_fields ..

/-! ### A Lane Status Record -/

/-- Two numbers of 11 bits in the halves of a word. -/
theorem ringCounts_fields (work free : Nat) :
    let w : Word := 0#5 ++ BitVec.ofNat 11 work ++ 0#5 ++ BitVec.ofNat 11 free
    w.extractLsb' 0 11 = BitVec.ofNat 11 free ∧ w.extractLsb' 11 5 = 0#5 ∧ w.extractLsb' 16 11 = BitVec.ofNat 11 work ∧
      w.extractLsb' 27 5 = 0#5 := by
  simp (disch := decide) only [BitVec.extractLsb'_append_eq_of_le, BitVec.extractLsb'_append_eq_of_add_le,
    BitVec.extractLsb'_eq_self, Nat.reduceSub, and_self]

theorem reclaimWord_fields (reason : HaltReason) (n : Nat) :
    let w : Word := 0#13 ++ reason.code ++ 0#5 ++ BitVec.ofNat 11 n
    w.extractLsb' 0 11 = BitVec.ofNat 11 n ∧ w.extractLsb' 11 5 = 0#5 ∧ w.extractLsb' 16 3 = reason.code ∧
      w.extractLsb' 19 13 = 0#13 := by
  simp (disch := decide) only [BitVec.extractLsb'_append_eq_of_le, BitVec.extractLsb'_append_eq_of_add_le,
    BitVec.extractLsb'_eq_self, Nat.reduceSub, and_self]

theorem laneStatusRecord_fields (ln : Lane) : LaneStatusWords ln ln.statusRecord := by
  obtain ⟨free, lowGap, work, highGap⟩ := ringCounts_fields ln.workRing.count ln.freeRing.count
  obtain ⟨reclaim, low, reason, high⟩ := reclaimWord_fields ln.haltReason ln.reclaim.length
  exact {
    length := rfl
    acquires := toNat_ofNat_of_lt, posts := toNat_ofNat_of_lt, takes := toNat_ofNat_of_lt
    releases := toNat_ofNat_of_lt, retries := toNat_ofNat_of_lt, empties := toNat_ofNat_of_lt
    faults := toNat_ofNat_of_lt, expiries := toNat_ofNat_of_lt
    free := fun fits => (congrArg BitVec.toNat free).trans (toNat_ofNat_of_lt fits)
    work := fun fits => (congrArg BitVec.toNat work).trans (toNat_ofNat_of_lt fits)
    reclaim := fun fits => (congrArg BitVec.toNat reclaim).trans (toNat_ofNat_of_lt fits)
    reason := reason
    between := ⟨lowGap, highGap, low, high⟩
    zero := fun i past => (List.getD_append_right _ _ _ _ past).trans (getD_replicate_same ..) }

theorem codesOfTheFormats : CodesOfTheFormats where
  states := rfl
  reasons := rfl
  parts := rfl
  kinds := rfl
  faults := rfl
  refusals := rfl
  command w := ⟨rfl, Nat.mod_eq_of_lt (BitVec.isLt (w.extractLsb' 4 4))⟩

/-- Settles O54: each word's fields, read off the appended bits; the numbers in them fit. -/
theorem wordsCarryTheirFields : Obligations.WordsCarryTheirFields :=
  ⟨handleWord_fields, entryWord_fields, fun _ _ st _ => countWord_fields st, resultWord_fields, statusRecord_fields,
    laneStatusRecord_fields, codesOfTheFormats⟩

end Sys2Proof.Machine

/-! PROOFS. The Memory Arbiter's grants and the Command Unit's call for a slot (R75, R172, R173, R174). -/

namespace Sys2Proof.Machine

/-! ### The arbiter's choice (R173) -/

section grant
variable {s : State}

/-- While 32 accesses are in flight the D-port takes no other (R174). -/
theorem not_canGrant_of_full (full : 32 ≤ s.inflight.length) : ¬ s.canGrant = true := fun free =>
  absurd (of_decide_eq_true (Bool.and_eq_true_iff.1 free).1) (Nat.not_lt.2 full)

theorem grant_passThrough {e : PassEntry} {ps : List PassEntry} (head : s.passQ = e :: ps)
    (turn : s.engQ = [] ∨ s.lastGrant = .engine) : s.grant = s.grantPass e ps := by
  unfold State.grant
  rw [head]
  cases engine : s.engQ with
  | nil => rfl
  | cons q qs =>
    rw [engine] at turn
    rw [turn.resolve_left (List.cons_ne_nil q qs)]

theorem grant_engine {q : EngineReq} {qs : List EngineReq} (head : s.engQ = q :: qs)
    (turn : s.passQ = [] ∨ s.lastGrant = .passThrough) : s.grant = s.grantEngine q qs := by
  unfold State.grant
  rw [head]
  cases pass : s.passQ with
  | nil => rfl
  | cons e ps =>
    rw [pass] at turn
    rw [turn.resolve_left (List.cons_ne_nil e ps)]

/-! ### What falls at the issue of an engine request (R12, R43, R150, R164) -/

/-- The state with the engine queue's head on the in-flight list, its words and its timer those of this moment. -/
def State.issued (s : State) (q : EngineReq) (qs : List EngineReq) : State :=
  { s with engQ := qs, lastGrant := .engine,
           inflight := s.inflight ++
             [{ access := .engine q, words := wordsNow s q, timer := timerNow s, late := false }] }

theorem grantEngine_eq (s : State) (q : EngineReq) (qs : List EngineReq) :
    s.grantEngine q qs = (s.issued q qs).atIssue q := by
  unfold State.grantEngine State.issued
  rw [issueWords_eq, newTimer_eq]

/-- Only a Status Record write and a reclaim write bring a change at their issue. -/
theorem atIssue_plain {q : EngineReq} (status : q ≠ .statusWrite)
    (reclaim : ∀ l addr entry, q ≠ .reclaimWrite l addr entry) (x : State) : x.atIssue q = x := by
  cases q with
  | statusWrite => exact absurd rfl status
  | reclaimWrite l addr entry => exact absurd rfl (reclaim l addr entry)
  | _ => rfl

theorem append_of {g : Ring} {geom : RingGeom} (hg : g.geom = some geom) :
    g.append = { g with tail := (g.tail + 1) % geom.size, count := g.count + 1 } := by
  have size : g.size = geom.size := by unfold Ring.size; rw [hg]; rfl
  unfold Ring.append
  rw [size]

/-- The issue of a reclaim write frees the frame at the head of the list and advances tail and count (R12, R43). -/
theorem reclaimIssue_eq {l : LaneId} {e : ReclaimEntry} {es : List ReclaimEntry} {geom : RingGeom}
    (head : (s.lane l).reclaim = e :: es) (hg : (s.lane l).freeRing.geom = some geom) :
    s.reclaimIssue l =
      (s.setRecord ((s.descriptor l).recordOf e.frame)
        { standing := .free, gen := (s.record ((s.descriptor l).recordOf e.frame)).gen }).setLane l
        { s.lane l with
            reclaim := es
            freeRing := { (s.lane l).freeRing with
              tail := ((s.lane l).freeRing.tail + 1) % geom.size, count := (s.lane l).freeRing.count + 1 } } := by
  unfold State.reclaimIssue
  rw [head]
  dsimp only
  rw [State.updLane, lane_setRecord, append_of hg]

/-- A grant that takes place, settled. -/
theorem exec_grant (up : s.part ≠ .heldInReset) (room : s.inflight.length < 32) :
    exec .arbiterGrant s = .next (s.settle s.grant) :=
  congrArg Host.Outcome.next (if_pos (canGrant_of room up))

/-- The engine head is granted, and what falls at its issue has fallen. -/
theorem exec_grant_engine (up : s.part ≠ .heldInReset) (room : s.inflight.length < 32) {q : EngineReq}
    {qs : List EngineReq} (head : s.engQ = q :: qs) (turn : s.passQ = [] ∨ s.lastGrant = .passThrough) :
    exec .arbiterGrant s = .next (s.settle ((s.issued q qs).atIssue q)) := by
  rw [exec_grant up room, grant_engine head turn, grantEngine_eq]

end grant

/-- Settles O34: the choice falls by `grant_passThrough` and `grant_engine`, and what else changes at an engine
request's issue is said by kind of request. -/
theorem theArbiterAlternates : Obligations.TheArbiterAlternates := by
  intro s up
  refine ⟨fun full => ?full, fun e ps room head turn => ?pass, fun q qs room head turn => ?engine⟩
  case full => exact congrArg Host.Outcome.next (if_neg (not_canGrant_of_full full))
  case pass => exact placed_of_eq (exec_grant up room) (grant_passThrough head turn)
  case engine =>
    have run := exec_grant_engine up room head turn
    refine ⟨?status, fun status reclaim => ?plain, ?reclaim⟩
    case status =>
      rintro rfl
      exact placed_of run
    case plain => exact placed_of_eq run (atIssue_plain status reclaim _)
    case reclaim =>
      rintro l addr entry e es geom rfl listed hg
      exact placed_of_eq run (reclaimIssue_eq (s := s.issued (.reclaimWrite l addr entry) qs) listed hg)

/-! ### The Command Unit's call (R75, R156, R172) -/

/-- The Command Unit's first call takes a free slot, the reserved one included, unless it is held. -/
theorem exec_slotClaimPlace_call {s : State} {c : CuCall} {cs : List CuCall} (room : s.engQ.length < 16)
    (calls : s.cuCalls = c :: cs) (free : s.callHeld c = false) :
    exec .slotClaimPlace s = .next (s.settle (({ s with cuCalls := cs } : State).placeCall c)) := by
  have first : s.serveFirst = ({ s with cuCalls := cs } : State).placeCall c := by
    unfold State.serveFirst
    rw [calls]
    exact if_pos ⟨decide_eq_true room, by rw [free]; exact Bool.false_ne_true⟩
  rw [← first]
  rfl

/-- Settles O38: only a DESC_READ can be held, and a SNAPSHOT's placing is that of its lane's Lane Status Record
write. -/
theorem theCommandUnitIsServedFirst : Obligations.TheCommandUnitIsServedFirst := by
  intro s cs room
  refine ⟨fun w final calls => ?result, fun calls => ?globalRead, fun l calls none => ?descRead,
    fun l calls => ?snapshot⟩
  case result => exact placed_of_eq (exec_slotClaimPlace_call room calls rfl) rfl
  case globalRead => exact placed_of_eq (exec_slotClaimPlace_call room calls rfl) rfl
  case descRead => exact placed_of_eq (exec_slotClaimPlace_call room calls none) rfl
  case snapshot => exact placed_of_eq (exec_slotClaimPlace_call room calls rfl) rfl

end Sys2Proof.Machine

/-! PROOFS. Pin reset, the release of RST_N and the start-up read (R155, R175 to R178). -/

namespace Sys2Proof.Machine

/-! ### The part held in reset (R178) -/

/-- Settles O49: pin reset writes the reset state but for the four values it keeps or raises. -/
theorem pinResetDropsAllWork : Obligations.PinResetDropsAllWork := fun _ => rfl

theorem pinReset_reset : State.reset.pinReset = State.reset := rfl

theorem lane_reset (l : LaneId) : State.reset.lane l = Lane.reset := Vector.getElem_replicate l.isLt

theorem reset_desc (l : LaneId) : (State.reset.lane l).desc = none := by rw [lane_reset]; rfl

/-- In reset no lane has a copy (R178). -/
theorem reset_slicesHeld : SlicesHeld State.reset where
  off l _ := reset_desc l
  fits l _ copy := nomatch (reset_desc l).symm.trans copy
  apart l _ _ _ _ copy := nomatch (reset_desc l).symm.trans copy

/-- In reset no claimant wants a slot (R178). -/
theorem reset_wants (c : Claimant) : wants State.reset c = false := by
  cases c with
  | status => rfl
  | fenced l k => unfold wants; dsimp only; rw [lane_reset]; cases k <;> rfl
  | _ l => unfold wants; dsimp only; rw [lane_reset]; rfl

theorem reset_noneKeptWaiting : NoneKeptWaiting State.reset where
  once := List.nodup_nil
  list c := by rw [reset_wants]; exact ⟨nofun, nofun⟩
  claims h := absurd rfl h
  calls _ _ h := nomatch h

/-- Settles O60: pin reset leaves the reset state as it is, so what holds after every pin reset holds of it. -/
theorem resetMeetsTheInvariants : Obligations.ResetMeetsTheInvariants := by
  have bounded := pinReset_bounded State.reset
  have qirq := pinReset_qirq State.reset
  rw [pinReset_reset] at bounded qirq
  exact ⟨bounded, (qirqFollows_iff _).1 qirq, reset_slicesHeld, reset_noneKeptWaiting⟩

/-! ### The release of RST_N (R176, R177) -/

/-- Settles O50: the release into LOADING is settled, that into BYPASS is not. -/
theorem releaseOfResetLoadsOrBypasses : Obligations.ReleaseOfResetLoadsOrBypasses := by
  intro s base held
  have loading : exec (.resetReleaseLoading base) s =
      .next (s.settle (({ s with part := .loading, cbase := base } : State).call .globalRead)) :=
    congrArg Host.Outcome.next (if_pos held)
  exact ⟨placed_of loading, congrArg Host.Outcome.next (if_pos held)⟩

/-! ### The start-up read (R149, R155, R176) -/

theorem exec_startUpRead {s : State} {words : List Word} {rest : List InFlight}
    (ends : NextEnds s .globalRead words rest) (loading : s.part = .loading) (resp : DResp (Vector Word 16)) :
    exec (.globalReadCompletion resp) s = .next (s.settle (({ s with inflight := rest } : State).endStartUp resp)) := by
  obtain ⟨completing, popped, -⟩ := ends.completing
  simp only [exec, execGlobalReadCompletion, completing, popped, if_pos loading]

theorem endStartUp_valid (s : State) {ws : Vector Word 16} (signed : ws[0] = 0x514C3136#32) : s.endStartUp (.okay ws) =
    { s with part := .active, globals := some (settingsOf ws), divider := 0 } := by
  unfold State.endStartUp
  rw [validGlobals_ok signed]
  rfl

theorem endStartUp_invalid (s : State) {ws : Vector Word 16} (unsigned : ws[0] ≠ 0x514C3136#32) :
    s.endStartUp (.okay ws) = { s with part := .pass } := by
  unfold State.endStartUp
  rw [validGlobals_bad unsigned]
  rfl

/-- A start-up read that fails is reported for no lane (R149). -/
theorem endStartUp_error (s : State) : s.endStartUp .error =
    ({ s with part := .pass } : State).trapReport (ownError none (blockAddr s 0) .read 0xFFFFFFFF#32) := rfl

/-- Settles O31: the read's word 0 decides between ACTIVE and PASS, and a read that fails, by error or by timeout, ends
as `endStartUp_error` says. -/
theorem startUpReadDecidesThePartState : Obligations.StartUpReadDecidesThePartState := by
  intro s words loading
  refine ⟨fun rest ws ends => ⟨fun signed => ?valid, fun unsigned => ?invalid⟩, fun c after fails => ?failed⟩
  case valid => exact placed_of_eq (exec_startUpRead ends loading _) (endStartUp_valid _ signed)
  case invalid => exact placed_of_eq (exec_startUpRead ends loading _) (endStartUp_invalid _ unsigned)
  case failed =>
    have startUp : ({ s with inflight := after } : State).endWithError words .globalRead =
        ({ s with inflight := after } : State).endStartUp .error := if_pos loading
    exact placed_of_eq (exec_fails fails) (startUp.trans (endStartUp_error _))

end Sys2Proof.Machine

/-! PROOFS. What the effects of events leave alone: the list of waiting claimants, which settling brings up to date
(R172), and the queue of commands (log 1). -/

namespace Sys2Proof.Machine

/-! ### The two lists -/

/-- The list of waiting claimants and the queue of commands. -/
def State.listed (s : State) : List Claimant × List Instr := (s.waiting, s.pending)

/-- A sequence of changes, each of which keeps the lists. -/
theorem foldl_listed {α : Type} {f : State → α → State} (h : ∀ s x, (f s x).listed = s.listed) (xs : List α)
    (s : State) : (xs.foldl f s).listed = s.listed := by
  induction xs generalizing s with
  | nil => rfl
  | cons x xs ih => exact (ih _).trans (h s x)

theorem ite_listed {x y s : State} {p : Prop} [Decidable p] (hx : x.listed = s.listed) (hy : y.listed = s.listed) :
    (if p then x else y).listed = s.listed := by
  split
  · exact hx
  · exact hy

/-! ### Updates of the state -/

section updates
variable (s : State)

@[simp] theorem listed_setLane (l : LaneId) (ln : Lane) : (s.setLane l ln).listed = s.listed := rfl

@[simp] theorem listed_updLane (l : LaneId) (f : Lane → Lane) : (s.updLane l f).listed = s.listed := rfl

@[simp] theorem listed_setUport (r : Requester) (u : UPort) : (s.setUport r u).listed = s.listed := rfl

@[simp] theorem listed_decideResponse (r : Requester) (a : Await) (mk : Nat → Response) :
    (s.decideResponse r a mk).listed = s.listed := rfl

@[simp] theorem listed_releaseRing (l : LaneId) (k : RingKind) : (s.releaseRing l k).listed = s.listed := rfl

@[simp] theorem listed_report (f : Report) : (s.report f).listed = s.listed := by
  unfold State.report; split <;> rfl

theorem listed_refuse (k : FaultKind) (l : Option LaneId) (t : Txn) : (s.refuse k l t).listed = s.listed :=
  listed_report ..

@[simp] theorem listed_endCommand (reason : Reason) : (s.endCommand reason).listed = s.listed := by
  unfold State.endCommand; split <;> rfl

@[simp] theorem listed_cmdPhase (p : CmdPhase) : (s.cmdPhase p).listed = s.listed := by
  unfold State.cmdPhase; split <;> rfl

@[simp] theorem listed_drawOrder {α : Type} (xs : List α) : (s.drawOrder xs).2.listed = s.listed := by
  rw [drawOrder_books]; rfl

@[simp] theorem listed_mapFrames (d : Descriptor) (f : FrameRec → FrameRec) (is : List Nat) :
    (s.mapFrames d f is).listed = s.listed := by rw [mapFrames_rest]; rfl

@[simp] theorem listed_drainOff (l : LaneId) : (s.drainOff l).listed = s.listed := listed_mapFrames ..

@[simp] theorem listed_teardown (l : LaneId) : (s.teardown l).listed = s.listed := listed_mapFrames ..

@[simp] theorem listed_arriveOff (l : LaneId) : (s.arriveOff l).listed = s.listed :=
  ite_listed (listed_drainOff s l) (ite_listed (listed_teardown s l) rfl)

theorem listed_clearing : s.clearing.listed = s.listed := listed_endCommand ..

end updates

/-! ### Requests that are placed and issued (R172, R173) -/

section requests
variable (s : State)

theorem listed_placeReclaim (l : LaneId) : (s.placeReclaim l).listed = s.listed := by
  unfold State.placeReclaim
  dsimp only
  split <;> rfl

theorem listed_placeFenced (l : LaneId) (k : RingKind) : (s.placeFenced l k).listed = s.listed := by
  unfold State.placeFenced
  split <;> rfl

theorem listed_placeClaim (c : Claimant) : (s.placeClaim c).listed = s.listed := by
  cases c with
  | status | prime | laneStatus => rfl
  | fenced l k => exact listed_placeFenced s l k
  | reclaim l => exact listed_placeReclaim s l

theorem listed_placeCall (c : CuCall) : (s.placeCall c).listed = s.listed := by cases c <;> rfl

theorem listed_atIssue (q : EngineReq) : (s.atIssue q).listed = s.listed := by
  cases q with
  | reclaimWrite l addr e =>
    show (s.reclaimIssue l).listed = s.listed
    unfold State.reclaimIssue
    split <;> rfl
  | _ => rfl

theorem listed_grantEngine (q : EngineReq) (qs : List EngineReq) : (s.grantEngine q qs).listed = s.listed :=
  listed_atIssue ..

theorem listed_grant : s.grant.listed = s.listed := by
  unfold State.grant
  split
  · rfl
  · rfl
  · exact listed_grantEngine ..
  · split
    · rfl
    · exact listed_grantEngine ..

end requests

/-! ### Arrivals (R101, R104) -/

section arrival
variable (s : State) (t : Txn)

theorem listed_enterPass (e : PassEntry) : (s.enterPass e t).listed = s.listed := by
  unfold State.enterPass
  dsimp only
  split <;> rfl

theorem listed_passOn (l : Option LaneId) : (s.passOn l t).listed = s.listed :=
  ite_listed (listed_enterPass ..) rfl

theorem listed_cmdWrite : (s.cmdWrite t).listed = s.listed := by
  unfold State.cmdWrite
  split
  · exact listed_refuse ..
  · exact ite_listed rfl (ite_listed (listed_enterPass s t _) rfl)

theorem listed_serveControl : (s.serveControl t).listed = s.listed := by
  unfold State.serveControl
  split
  · exact listed_passOn ..
  · exact ite_listed (listed_refuse ..) (ite_listed (listed_cmdWrite ..) (listed_passOn ..))

theorem listed_serveRing (l : LaneId) : (s.serveRing l t).listed = s.listed := by
  unfold State.serveRing
  split
  · exact listed_passOn ..
  · exact listed_refuse ..

theorem listed_renewFrame (l : LaneId) (r : Requester) (i : Nat) : (s.renewFrame l r i).listed = s.listed :=
  ite_listed rfl rfl

theorem listed_renewTouched (l : LaneId) : (s.renewTouched l t).listed = s.listed :=
  ite_listed (foldl_listed (fun s i => listed_renewFrame s l t.requester i) _ s) rfl

theorem listed_renewBound (l : LaneId) (r : Requester) (n : RecordId) : (s.renewBound l r n).listed = s.listed :=
  ite_listed (listed_renewFrame ..) rfl

theorem listed_serveFrame (l : LaneId) : (s.serveFrame l t).listed = s.listed :=
  ite_listed (ite_listed ((listed_renewTouched ..).trans (listed_passOn ..)) rfl) (listed_refuse ..)

theorem listed_serveAperture (l : LaneId) (offset : Nat) (binding : Option RecordId) :
    (s.serveAperture l offset binding t).listed = s.listed := by
  refine ite_listed (listed_refuse ..) ?_
  cases binding with
  | none => exact listed_refuse ..
  | some n =>
    exact ite_listed (listed_refuse ..) (ite_listed ((listed_renewBound ..).trans (listed_enterPass ..)) rfl)

theorem listed_readResources (l : LaneId) (op : ReadOp) : (s.readResources l op t).listed = s.listed :=
  ite_listed rfl (ite_listed rfl (ite_listed rfl rfl))

theorem listed_limitedRead (l : LaneId) (op : ReadOp) : (s.limitedRead l op t).listed = s.listed :=
  ite_listed rfl (listed_readResources ..)

theorem listed_servePost (l : LaneId) (w : Word) (urgent : Bool) : (s.servePost l t w urgent).listed = s.listed := by
  unfold State.servePost
  split
  · exact listed_refuse ..
  · exact ite_listed rfl (ite_listed rfl (ite_listed rfl rfl))

theorem listed_serveRelease (l : LaneId) (w : Word) : (s.serveRelease l t w).listed = s.listed := by
  unfold State.serveRelease
  split
  · exact listed_refuse ..
  · exact ite_listed rfl (ite_listed rfl rfl)

theorem listed_servePortOp (l : LaneId) (op : PortOp) : (s.servePortOp l t op).listed = s.listed := by
  cases op with
  | acquire | take => exact listed_limitedRead ..
  | post | postUrgent => exact listed_servePost ..
  | release => exact listed_serveRelease ..
  | peek => exact listed_readResources ..
  | count => rfl

theorem listed_servePortWord (l : LaneId) (offset : Nat) : (s.servePortWord l offset t).listed = s.listed := by
  unfold State.servePortWord
  split
  · exact listed_refuse ..
  · split
    · rfl
    · exact listed_refuse ..
    · exact ite_listed (listed_servePortOp ..) (listed_refuse ..)

theorem listed_serveClass (c : Class) : (s.serveClass t c).listed = s.listed := by
  cases c with
  | plain => exact listed_passOn ..
  | control => exact listed_serveControl ..
  | portWord => exact listed_servePortWord ..
  | producer | consumer => exact listed_serveAperture ..
  | frame => exact listed_serveFrame ..
  | ring => exact listed_serveRing ..
  | split => exact listed_refuse ..

theorem listed_meet : (s.meet t).listed = s.listed := by
  unfold State.meet
  split
  · rfl
  · rfl
  · exact listed_serveClass ..
  · exact listed_serveClass ..
  · exact listed_passOn ..

end arrival

/-! ### The ends of accesses (R58 to R66, R84, R148, R149, R174) -/

section ends
variable (s : State)

theorem listed_passedRead (l : LaneId) (op : ReadOp) (r : Requester) (w : Word) :
    (s.passedRead l op r w).listed = s.listed := by
  cases op with
  | acquire | take => exact ite_listed rfl rfl
  | peek => rfl

theorem listed_failRead (l : LaneId) (op : ReadOp) (r : Requester) (addr : Addr) (k : FaultKind) (data : Word)
    (reason : HaltReason) : (s.failRead l op r addr k data reason).listed = s.listed := by simp [State.failRead]

@[simp] theorem listed_endRead (l : LaneId) (op : ReadOp) (r : Requester) (addr : Addr) (resp : DResp Word) :
    (s.endRead l op r addr resp).listed = s.listed := by
  refine (listed_arriveOff ..).trans ?_
  cases resp with
  | error => exact listed_failRead ..
  | okay w => exact ite_listed (listed_passedRead ..) (listed_failRead ..)

theorem listed_failWrite (l : LaneId) (r : Option Requester) (addr : Addr) (entry : Word) :
    (s.failWrite l r addr entry).listed = s.listed := listed_report ..

@[simp] theorem listed_endSlotWrite (l : LaneId) (k : RingKind) (w : SlotWrite) (resp : DResp Unit) :
    (s.endSlotWrite l k w resp).listed = s.listed := by
  refine (listed_arriveOff ..).trans ?_
  cases resp with
  | okay _ => rfl
  | error => exact listed_failWrite ..

@[simp] theorem listed_endReclaim (l : LaneId) (addr : Addr) (entry : Word) (resp : DResp Unit) :
    (s.endReclaim l addr entry resp).listed = s.listed := by
  cases resp with
  | okay _ => exact listed_arriveOff ..
  | error => exact (listed_arriveOff ..).trans (listed_failWrite ..)

@[simp] theorem listed_endPrime (l : LaneId) (addr : Addr) (entry : Word) (resp : DResp Unit) :
    (s.endPrime l addr entry resp).listed = s.listed := by
  cases resp with
  | okay _ => exact listed_arriveOff ..
  | error => exact (listed_arriveOff ..).trans (listed_failWrite ..)

@[simp] theorem listed_reportReadError {α : Type} (l : Option LaneId) (addr : Addr) (resp : DResp α) :
    (s.reportReadError l addr resp).listed = s.listed := by
  cases resp with
  | okay _ => rfl
  | error => exact listed_report ..

@[simp] theorem listed_endDesc (l : LaneId) (resp : DResp (Vector Word 16)) : (s.endDesc l resp).listed = s.listed := by
  unfold State.endDesc
  dsimp only
  split <;> simp

theorem listed_endStartUp (resp : DResp (Vector Word 16)) : (s.endStartUp resp).listed = s.listed := by
  have read := listed_reportReadError s none (s.controlAddr 0) resp
  unfold State.endStartUp
  dsimp only
  split <;> exact read

theorem listed_endReload (resp : DResp (Vector Word 16)) : (s.endReload resp).listed = s.listed := by
  have read := listed_reportReadError s none (s.controlAddr 0) resp
  unfold State.endReload
  dsimp only
  split <;> exact (listed_endCommand ..).trans read

theorem listed_recordFailed (l : Option LaneId) (addr : Addr) (data : Word) (resp : DResp Unit) :
    (s.recordFailed l addr data resp).listed = s.listed := by
  cases resp with
  | okay _ => rfl
  | error => exact listed_report ..

@[simp] theorem listed_endStatus (words : List Word) (resp : DResp Unit) : (s.endStatus words resp).listed = s.listed :=
  listed_recordFailed ..

@[simp] theorem listed_endLaneStatus (l : LaneId) (words : List Word) (resp : DResp Unit) :
    (s.endLaneStatus l words resp).listed = s.listed := listed_recordFailed ..

@[simp] theorem listed_endResult (word : Word) (final : Bool) (resp : DResp Unit) :
    (s.endResult word final resp).listed = s.listed := by
  have write := listed_recordFailed s none s.resultAddr word resp
  exact ite_listed write write

theorem listed_endWithError (words : List Word) (q : EngineReq) : (s.endWithError words q).listed = s.listed := by
  cases q with
  | ringRead l op r addr => exact listed_endRead ..
  | ringWrite l k w => exact listed_endSlotWrite ..
  | reclaimWrite l addr e => exact listed_endReclaim ..
  | primeWrite l addr e => exact listed_endPrime ..
  | descRead l => exact listed_endDesc ..
  | globalRead => exact ite_listed (listed_endStartUp ..) (listed_endReload ..)
  | statusWrite => exact listed_endStatus ..
  | laneStatusWrite l ws => exact listed_endLaneStatus ..
  | resultWrite w final => exact listed_endResult ..

theorem listed_accessCompleted (r : Requester) (d : Dir) : (s.accessCompleted r d).listed = s.listed := by
  cases d with
  | read => rfl
  | write =>
    unfold State.accessCompleted State.writeCompleted
    dsimp only
    rw [foldl_listed fun _ _ => listed_updLane ..]
    exact listed_setUport ..

theorem listed_passError (e : PassEntry) (resp : DResp (List Word)) : (s.passError e resp).listed = s.listed := by
  cases resp with
  | okay _ => rfl
  | error => exact ite_listed rfl (listed_report ..)

theorem listed_cmdWritten : s.cmdWritten.listed = s.listed := by
  unfold State.cmdWritten
  split
  · rfl
  · exact ite_listed rfl rfl

theorem listed_endPass (e : PassEntry) (resp : DResp (List Word)) : (s.endPass e resp).listed = s.listed := by
  have decided := listed_decideResponse s e.txn.requester .pass (passResponse e.txn resp)
  unfold State.endPass
  dsimp only
  split
  · rw [listed_cmdWritten, listed_passError, listed_accessCompleted, decided]
  · rw [listed_passError, listed_accessCompleted, decided]

end ends

/-! ### Leases and commands (R81, R91, R94, R128, R131, R157 to R163) -/

section commands
variable (s : State)

theorem listed_expire (l : LaneId) (i : Nat) : (s.expire l i).listed = s.listed := by
  unfold State.expire
  dsimp only
  split <;> rfl

theorem listed_tickLane (l : LaneId) : (s.tickLane l).listed = s.listed :=
  ite_listed ((foldl_listed (fun s i => listed_expire s l i) _ _).trans (listed_mapFrames ..)) rfl

theorem listed_tick : s.tick.listed = s.listed := foldl_listed listed_tickLane allLanes _

theorem listed_enterFlushing (l : LaneId) : (s.enterFlushing l).listed = s.listed := rfl

theorem listed_cutOff (x : Discard) : (s.cutOff x).listed = s.listed := listed_report ..

theorem listed_flushLanes (ls : List LaneId) : (s.flushLanes ls).listed = s.listed := by
  unfold State.flushLanes
  dsimp only
  rw [foldl_listed listed_arriveOff, foldl_listed listed_cutOff, foldl_listed listed_enterFlushing, listed_drawOrder]

theorem listed_laneCommand (w : Word) (change : Lane → Option Lane) : (s.laneCommand w change).listed = s.listed := by
  unfold State.laneCommand
  split <;> simp

theorem listed_openLane (w : Word) : (s.openLane w).listed = s.listed :=
  ite_listed (listed_cmdPhase s .readingDescriptor) (listed_endCommand ..)

theorem listed_closeLane (w : Word) : (s.closeLane w).listed = s.listed := by
  unfold State.closeLane
  split <;> simp

theorem listed_forceClose (w : Word) : (s.forceClose w).listed = s.listed :=
  ite_listed (listed_endCommand ..) ((listed_endCommand ..).trans (listed_flushLanes ..))

theorem listed_clearTrap (w : Word) : (s.clearTrap w).listed = s.listed := listed_endCommand ..

theorem listed_ackIrq (w : Word) : (s.ackIrq w).listed = s.listed := listed_endCommand ..

theorem listed_snapshot (w : Word) : (s.snapshot w).listed = s.listed := listed_endCommand ..

theorem listed_reloadGlobals (w : Word) : (s.reloadGlobals w).listed = s.listed := listed_cmdPhase s .readingGlobals

theorem listed_resetAll (w : Word) : (s.resetAll w).listed = s.listed :=
  (listed_cmdPhase ..).trans (listed_flushLanes ..)

end commands

end Sys2Proof.Machine

/-! PROOFS. The slots of the engine queue go to what waits in every step (R172), for a step settles behind an effect
that leaves the list of waiting claimants alone. -/

namespace Sys2Proof.Machine

/-! ### What waiting depends on (R172) -/

/-- Whether a claimant wants a slot is a matter of the lanes and the writer. -/
theorem wants_congr {s t : State} (lanes : t.lanes = s.lanes) (writer : t.writer = s.writer) (c : Claimant) :
    wants t c = wants s c := by
  have lane (l : LaneId) : t.lane l = s.lane l := by unfold State.lane; rw [lanes]
  have descriptor (l : LaneId) : t.descriptor l = s.descriptor l := by unfold State.descriptor; rw [lane]
  cases c with
  | status => unfold wants; rw [writer]
  | prime l => simp only [wants, lane, descriptor]
  | fenced | reclaim | laneStatus => simp only [wants, lane]

theorem NoneKeptWaiting.of_eq {s t : State} (k : NoneKeptWaiting s) (waiting : t.waiting = s.waiting)
    (engQ : t.engQ = s.engQ) (cuCalls : t.cuCalls = s.cuCalls) (lanes : t.lanes = s.lanes)
    (writer : t.writer = s.writer) : NoneKeptWaiting t where
  once := waiting ▸ k.once
  list c := by rw [waiting, wants_congr lanes writer]; exact k.list c
  claims := by rw [waiting, engQ]; exact k.claims
  calls := by
    unfold State.lane
    rw [cuCalls, engQ, lanes]
    exact k.calls

/-! ### The effect a command settles behind (log 1, log 2, log 10) -/

/-- The effect leaves the queue of commands alone, and of the list of waiting claimants it takes at most the first. -/
structure Behind (s x : State) : Prop where
  waiting : x.waiting <:+ s.waiting
  pending : x.pending = s.pending

theorem Behind.of_listed {s x : State} (h : x.listed = s.listed) : Behind s x where
  waiting := by rw [show x.waiting = s.waiting from congrArg Prod.fst h]
  pending := congrArg Prod.snd h

/-- `Concludes` with what the effect leaves alone: the outcome of a command run in `s` is settled behind such an effect,
is `s`, or is a refusal. -/
inductive SettlesBehind (s : State) : Host.Outcome State Fault Refusal → Prop
  | settled {x : State} (effect : Behind s x) : SettlesBehind s (.next (s.settle x))
  | same : SettlesBehind s (.next s)
  | refused (r : Refusal) : SettlesBehind s (.refused r)

section effects
variable {s : State}

theorem settles_listed {x : State} (h : x.listed = s.listed) : SettlesBehind s (.next (s.settle x)) :=
  .settled (.of_listed h)

/-- An event that takes place where its condition holds. -/
theorem settles_if (p : Prop) [Decidable p] {x : State} (h : x.listed = s.listed) :
    SettlesBehind s (.next (if p then s.settle x else s)) := by
  split
  · exact settles_listed h
  · exact .same

/-- The claimant that is placed leaves the front of the list. -/
theorem serveHead_behind : Behind s s.serveHead := by
  unfold State.serveHead
  split
  · exact .of_listed rfl
  · next c cs waiting =>
    split
    · have placed := listed_placeClaim { s with waiting := cs } c
      exact ⟨by rw [waiting, show State.waiting _ = cs from congrArg Prod.fst placed]; exact List.suffix_cons c cs,
        congrArg Prod.snd placed⟩
    · exact .of_listed rfl

theorem serveFirst_behind : Behind s s.serveFirst := by
  unfold State.serveFirst
  split
  · exact serveHead_behind
  · next c cs _ =>
    split
    · exact .of_listed (listed_placeCall { s with cuCalls := cs } c)
    · exact serveHead_behind

theorem arrival_settles (t : Txn) : SettlesBehind s (s.arrival t) := by
  unfold State.arrival
  split
  · exact settles_if _ (listed_meet s t)
  · exact .refused _

theorem writeArrival_settles (t : Txn) : SettlesBehind s (s.writeArrival t) := by
  unfold State.writeArrival
  split
  · exact arrival_settles t
  · exact .refused _

theorem carryOut_settles (op : Opcode) {act : State → Word → State} (h : ∀ s w, (act s w).listed = s.listed) :
    SettlesBehind s (.next (s.carryOut op act)) := by
  unfold State.carryOut
  split
  · exact .same
  · exact settles_if _ (ite_listed (listed_endCommand ..) (h s _))

theorem badOpcode_settles : SettlesBehind s (execBadOpcodeCommand s) := by
  unfold execBadOpcodeCommand
  split
  · exact .same
  · exact settles_if _ (listed_endCommand ..)

theorem leaseExpiry_settles (l : LaneId) (frame : Fin 1024) : SettlesBehind s (execLeaseExpiry l frame s) := by
  unfold execLeaseExpiry
  split
  · exact settles_listed (listed_expire ..)
  · exact .same

theorem timeout_settles (place : Nat) : SettlesBehind s (.next (s.timeout place)) := by
  unfold State.timeout
  split
  · exact .same
  · next q a _ => exact settles_listed (listed_endWithError _ a.words q)

theorem clockEvent_settles (e : ClockEvent) : SettlesBehind s (.next (s.clockEvent e)) := by
  cases e with
  | tick => exact settles_if _ (listed_tick s)
  | timeout place => exact timeout_settles place

/-- The oldest access has left the in-flight list, and its end follows (R174). -/
theorem settles_ended {x : State} (h : x.listed = s.popOldest.listed) : SettlesBehind s (.next (s.settle x)) :=
  settles_listed h

theorem completion_settles {c : Instr} (hc : isCompletion c = true) : SettlesBehind s (exec c s) := by
  cases c with
  | globalReadCompletion resp =>
    simp only [exec, execGlobalReadCompletion]
    split
    · exact settles_if _ (listed_endStartUp s.popOldest resp)
    · exact .same
  | reloadGlobalsReadCompletion resp =>
    simp only [exec, execReloadGlobalsReadCompletion]
    split
    · split
      · exact .same
      · exact settles_ended (listed_endReload ..)
    · exact .same
  | passthroughCompletion resp =>
    simp only [exec, execPassthroughCompletion]
    split
    · exact .same
    · exact settles_ended (listed_endPass ..)
  | acquireCommit resp | takeCommit resp | peekCompletion resp | slotWriteCompletion resp
  | reclaimWriteCompletion resp | primeWriteCompletion resp | descReadCompletion resp | resultWriteCompletion resp
  | statusWriteCompletion resp | laneStatusWriteCompletion resp =>
    simp only [exec, execAcquireCommit, execTakeCommit, execPeekCompletion, execSlotWriteCompletion,
      execReclaimWriteCompletion, execPrimeWriteCompletion, execDescReadCompletion, execResultWriteCompletion,
      execStatusWriteCompletion, execLaneStatusWriteCompletion]
    split
    · exact settles_ended (by simp)
    · exact .same
  | _ => cases hc

/-- Every command but the five whose effect is not settled (R109, R151, R177, R178). -/
theorem exec_settles (c : Instr) (h : isUnsettled c = false) : SettlesBehind s (exec c s) := by
  cases c with
  | pinReset | resetReleaseBypass | lateResponseDiscard | owedResponseDiscard | responseDelivery => cases h
  | resetReleaseLoading cbase => exact settles_if _ rfl
  | leaseTick => exact settles_if _ (listed_tick s)
  | leaseExpiry l frame => exact leaseExpiry_settles l frame
  | engineAccessTimeout place => exact timeout_settles place.val
  | passthroughTransaction t | frameAccess t | apertureAccess t | portUndefinedAccess t => exact arrival_settles t
  | controlWrite t | ringRegionWrite t => exact writeArrival_settles t
  | acquire r base => exact arrival_settles (portRead r base 0x1000)
  | post r base data => exact arrival_settles (portWrite r base 0x1004 data)
  | postUrgent r base data => exact arrival_settles (portWrite r base 0x1008 data)
  | release r base data => exact arrival_settles (portWrite r base 0x100C data)
  | take r base => exact arrival_settles (portRead r base 0x1010)
  | peek r base => exact arrival_settles (portRead r base 0x1014)
  | count r base => exact arrival_settles (portRead r base 0x1018)
  | slotClaimPlace => exact .settled serveFirst_behind
  | arbiterGrant => exact settles_if _ (listed_grant s)
  | reclaimWriteStart | primeWriteStart | statusWritePlace | laneStatusWritePlace =>
    exact settles_if _ (listed_placeClaim s _)
  | laneDrainComplete l => exact settles_if _ (listed_drainOff s l)
  | laneTeardown l => exact settles_if _ (listed_teardown s l)
  | resetAllClearing => exact settles_if _ (listed_clearing s)
  | openLane => exact carryOut_settles _ listed_openLane
  | closeLane => exact carryOut_settles _ listed_closeLane
  | forceClose => exact carryOut_settles _ listed_forceClose
  | pauseLane => exact carryOut_settles _ fun s w => listed_laneCommand s w Lane.pausedBy
  | resumeLane => exact carryOut_settles _ fun s w => listed_laneCommand s w Lane.resumed
  | stepLane => exact carryOut_settles _ fun s w => listed_laneCommand s w Lane.stepped
  | haltLane => exact carryOut_settles _ fun s w => listed_laneCommand s w Lane.haltedBy
  | clearTrap => exact carryOut_settles _ listed_clearTrap
  | ackIrq => exact carryOut_settles _ listed_ackIrq
  | snapshot => exact carryOut_settles _ listed_snapshot
  | reloadGlobals => exact carryOut_settles _ listed_reloadGlobals
  | resetAll => exact carryOut_settles _ listed_resetAll
  | badOpcodeCommand => exact badOpcode_settles
  | _ => exact completion_settles rfl

end effects

/-- Settling leaves the queue of commands alone too (log 1). -/
theorem SettlesBehind.pending {s t : State} (h : SettlesBehind s (.next t)) : t.pending = s.pending := by
  cases h with
  | settled effect => exact (settle_placed s _).settled.pending.trans effect.pending
  | same => rfl

/-! ### Nothing waits that could be placed (R172) -/

section step
variable {s t : State} (k : NoneKeptWaiting s)
include k

/-- Settling gives the free slots out, and the claimants that waited were listed once. -/
theorem SettlesBehind.noneKeptWaiting (h : SettlesBehind s (.next t)) : NoneKeptWaiting t := by
  cases h with
  | settled effect => exact (settle_placed s _).none (k.once.sublist effect.waiting.sublist)
  | same => exact k

theorem responseDelivery_noneKeptWaiting {r : Requester} (h : execResponseDelivery r s = .next t) :
    NoneKeptWaiting t := by
  unfold execResponseDelivery at h
  split at h
  · cases h; exact k
  · split at h
    · cases h; exact k
    · cases h; exact k.of_eq rfl rfl rfl rfl rfl

theorem lateResponseDiscard_noneKeptWaiting (h : execLateResponseDiscard s = .next t) : NoneKeptWaiting t := by
  unfold execLateResponseDiscard at h
  split at h
  · cases h; exact k
  · cases h
    split
    · exact k.of_eq rfl rfl rfl rfl rfl
    · exact k

theorem exec_noneKeptWaiting {c : Instr} (h : exec c s = .next t) : NoneKeptWaiting t := by
  cases c with
  | pinReset => cases h; exact reset_noneKeptWaiting.of_eq rfl rfl rfl rfl rfl
  | resetReleaseBypass cbase =>
    cases h
    split
    · exact k.of_eq rfl rfl rfl rfl rfl
    · exact k
  | lateResponseDiscard => exact lateResponseDiscard_noneKeptWaiting k h
  | owedResponseDiscard => cases h; exact k.of_eq rfl rfl rfl rfl rfl
  | responseDelivery r => exact responseDelivery_noneKeptWaiting k h
  | _ => exact (h ▸ exec_settles (s := s) _ rfl : SettlesBehind s (.next t)).noneKeptWaiting k

end step

theorem drawOrder_noneKeptWaiting {α : Type} {s : State} (k : NoneKeptWaiting s) (xs : List α) :
    NoneKeptWaiting (s.drawOrder xs).2 := by
  rw [drawOrder_books]
  exact k.of_eq rfl rfl rfl rfl rfl

theorem clockEvents_noneKeptWaiting (es : List ClockEvent) {s : State} (k : NoneKeptWaiting s) :
    NoneKeptWaiting (es.foldl State.clockEvent s) := by
  induction es generalizing s with
  | nil => exact k
  | cons e es ih => exact ih ((clockEvent_settles e).noneKeptWaiting k)

/-- The counts of a period and the draw of its order touch nothing that waits; its events settle (R126, R150). -/
theorem refclk_noneKeptWaiting {s : State} (k : NoneKeptWaiting s) : NoneKeptWaiting s.refclk := by
  have counted : NoneKeptWaiting ({ s with inflight := s.inflight.map InFlight.advance } : State).countDivider := by
    unfold State.countDivider
    split <;> exact k.of_eq rfl rfl rfl rfl rfl
  exact clockEvents_noneKeptWaiting _ (drawOrder_noneKeptWaiting counted _)

/-- Settles O59: a step that settles gives the free slots out behind its effect, and any other leaves alone what waits
or is pin reset, with which nothing waits. -/
theorem nothingWaitsWhileItCouldBePlaced : Obligations.NothingWaitsWhileItCouldBePlaced := by
  intro s t k h
  unfold step at h
  split at h
  · cases h; exact refclk_noneKeptWaiting k
  · next c rest _ =>
    have taken : NoneKeptWaiting { s with pending := rest } := k.of_eq rfl rfl rfl rfl rfl
    exact exec_noneKeptWaiting taken h

end Sys2Proof.Machine

/-! PROOFS. What `exec` answers: the queue of commands stays as it was in every next state, and a well-formed command
has one (log 1, log 10). -/

namespace Sys2Proof.Machine

/-! ### The front of the queue (log 1) -/

/-- Settles O1: taking the front command is the second arm of `step`. -/
theorem stepRunsTheFrontCommand : Obligations.StepRunsTheFrontCommand := fun _ _ _ => rfl

/-! ### The queue behind a command (log 1) -/

section queue
variable {s t : State}

theorem responseDelivery_pending {r : Requester} (h : execResponseDelivery r s = .next t) : t.pending = s.pending := by
  unfold execResponseDelivery at h
  split at h
  · cases h; rfl
  · split at h
    · cases h; rfl
    · cases h; rfl

theorem lateResponseDiscard_pending (h : execLateResponseDiscard s = .next t) : t.pending = s.pending := by
  unfold execLateResponseDiscard at h
  split at h
  · cases h; rfl
  · cases h
    split
    · rfl
    · rfl

/-- A command that settles leaves the queue to `SettlesBehind`; pin reset keeps it by name (R178), and the other
unsettled rows write other fields. -/
theorem exec_pending {c : Instr} (h : exec c s = .next t) : t.pending = s.pending := by
  cases c with
  | pinReset => cases h; rfl
  | resetReleaseBypass cbase =>
    cases h
    split
    · rfl
    · rfl
  | lateResponseDiscard => exact lateResponseDiscard_pending h
  | owedResponseDiscard => cases h; rfl
  | responseDelivery r => exact responseDelivery_pending h
  | _ => exact (h ▸ exec_settles (s := s) _ rfl : SettlesBehind s (.next t)).pending

end queue

/-- Settles O3, command by command. -/
theorem commandsKeepTheQueue : Obligations.CommandsKeepTheQueue := fun _ _ _ h => exec_pending h

/-! ### Which outcomes well-formedness allows (log 10) -/

/-- The outcome of a command that is well-formed or not as `wf` says: a next state, or the one refusal, which only an
ill-formed command meets. -/
inductive Answers (wf : Bool) : Host.Outcome State Fault Refusal → Prop
  | next (t : State) : Answers wf (.next t)
  | refused (ill : wf = false) : Answers wf (.refused .notATransaction)

section answers
variable {wf wf' : Bool} {o : Host.Outcome State Fault Refusal}

/-- A stricter test refuses no more of the commands that pass it. -/
theorem Answers.mono (h : Answers wf o) (stricter : wf' = true → wf = true) : Answers wf' o := by
  cases h with
  | next t => exact .next t
  | refused ill =>
    exact .refused (Bool.eq_false_iff.2 fun passes => Bool.false_ne_true (ill.symm.trans (stricter passes)))

theorem Answers.next_of_wf (h : Answers wf o) (passes : wf = true) : ∃ t, o = .next t := by
  cases h with
  | next t => exact ⟨t, rfl⟩
  | refused ill => exact absurd (ill.symm.trans passes) Bool.false_ne_true

theorem Answers.refusal {x : Refusal} (h : Answers wf (.refused x)) : x = .notATransaction ∧ wf = false := by
  cases h with
  | refused ill => exact ⟨rfl, ill⟩

end answers

/-! ### The transactions of the port commands (R47) -/

/-- The port region's base is aligned to 8 KiB and the address space is a multiple of 4 bytes, so a port word is
aligned even where its address wraps around. -/
theorem portWord_aligned {base : Addr} {offset : Nat} (hb : portBaseOk base = true) (ho : offset % 4 = 0) :
    (base + BitVec.ofNat 36 offset).toNat % 4 = 0 := by
  have aligned : base.toNat % 8192 = 0 := of_decide_eq_true hb
  rw [BitVec.toNat_add, BitVec.toNat_ofNat]
  omega

theorem txn_wf_of {t : Txn} (least : 1 ≤ t.length) (most : t.length ≤ 16) (aligned : t.addr.toNat % 4 = 0) :
    t.wf = true := by
  simp [Txn.wf, least, most, aligned]

theorem portRead_wf (r : Requester) {base : Addr} {offset : Nat} (hb : portBaseOk base = true) (ho : offset % 4 = 0) :
    (portRead r base offset).wf = true :=
  txn_wf_of (Nat.le_refl 1) (by decide : 1 ≤ 16) (portWord_aligned hb ho)

theorem portWrite_wf (r : Requester) {base : Addr} {offset : Nat} (w : Word) (hb : portBaseOk base = true)
    (ho : offset % 4 = 0) : (portWrite r base offset w).wf = true :=
  txn_wf_of (Nat.le_refl 1) (by decide : 1 ≤ 16) (portWord_aligned hb ho)

/-! ### What each command answers (log 10) -/

section command
variable {s : State}

theorem arrival_answers (t : Txn) : Answers t.wf (s.arrival t) := by
  unfold State.arrival
  split
  · exact .next _
  · next ill => exact .refused (Bool.eq_false_iff.2 ill)

theorem writeArrival_answers (t : Txn) : Answers (t.wf && t.isWrite) (s.writeArrival t) := by
  unfold State.writeArrival
  split
  · exact (arrival_answers t).mono fun passes => (Bool.and_eq_true_iff.1 passes).1
  · next read => exact .refused (Bool.and_eq_false_iff.2 (.inr (Bool.eq_false_iff.2 read)))

theorem portRead_answers (s : State) (r : Requester) (base : Addr) (offset : Nat) (ho : offset % 4 = 0) :
    Answers (portBaseOk base) (s.arrival (portRead r base offset)) :=
  (arrival_answers _).mono fun hb => portRead_wf r hb ho

theorem portWrite_answers (s : State) (r : Requester) (base : Addr) (offset : Nat) (w : Word)
    (ho : offset % 4 = 0) : Answers (portBaseOk base) (s.arrival (portWrite r base offset w)) :=
  (arrival_answers _).mono fun hb => portWrite_wf r w hb ho

theorem leaseExpiry_answers (l : LaneId) (frame : Fin 1024) : Answers true (execLeaseExpiry l frame s) := by
  unfold execLeaseExpiry
  split
  · exact .next _
  · exact .next _

theorem badOpcode_answers : Answers true (execBadOpcodeCommand s) := by
  unfold execBadOpcodeCommand
  split
  · exact .next _
  · exact .next _

theorem lateResponseDiscard_answers : Answers true (execLateResponseDiscard s) := by
  unfold execLateResponseDiscard
  split
  · exact .next _
  · exact .next _

theorem responseDelivery_answers (r : Requester) : Answers true (execResponseDelivery r s) := by
  unfold execResponseDelivery
  split
  · exact .next _
  · split
    · exact .next _
    · exact .next _

/-- A response completes the access it is for or changes nothing; neither is a refusal. -/
theorem completion_answers {c : Instr} (hc : isCompletion c = true) : Answers true (exec c s) := by
  cases c with
  | acquireCommit resp | takeCommit resp | peekCompletion resp | slotWriteCompletion resp
  | reclaimWriteCompletion resp | primeWriteCompletion resp | passthroughCompletion resp | descReadCompletion resp
  | globalReadCompletion resp | reloadGlobalsReadCompletion resp | resultWriteCompletion resp
  | statusWriteCompletion resp | laneStatusWriteCompletion resp =>
    simp only [exec, execAcquireCommit, execTakeCommit, execPeekCompletion, execSlotWriteCompletion,
      execReclaimWriteCompletion, execPrimeWriteCompletion, execPassthroughCompletion, execDescReadCompletion,
      execGlobalReadCompletion, execReloadGlobalsReadCompletion, execResultWriteCompletion,
      execStatusWriteCompletion, execLaneStatusWriteCompletion]
    split
    · exact .next _
    · exact .next _
  | _ => cases hc

/-- Only an arrival tests its operand; every other row is well-formed and answers a next state. -/
theorem exec_answers (c : Instr) : Answers c.wf (exec c s) := by
  cases c with
  | passthroughTransaction t | frameAccess t | apertureAccess t | portUndefinedAccess t => exact arrival_answers t
  | controlWrite t | ringRegionWrite t => exact writeArrival_answers t
  | acquire r base => exact portRead_answers s r base 0x1000 rfl
  | take r base => exact portRead_answers s r base 0x1010 rfl
  | peek r base => exact portRead_answers s r base 0x1014 rfl
  | count r base => exact portRead_answers s r base 0x1018 rfl
  | post r base data => exact portWrite_answers s r base 0x1004 data rfl
  | postUrgent r base data => exact portWrite_answers s r base 0x1008 data rfl
  | release r base data => exact portWrite_answers s r base 0x100C data rfl
  | leaseExpiry l frame => exact leaseExpiry_answers l frame
  | badOpcodeCommand => exact badOpcode_answers
  | lateResponseDiscard => exact lateResponseDiscard_answers
  | responseDelivery r => exact responseDelivery_answers r
  | pinReset | resetReleaseLoading | resetReleaseBypass | leaseTick | engineAccessTimeout | slotClaimPlace
  | arbiterGrant | owedResponseDiscard | reclaimWriteStart | primeWriteStart | statusWritePlace
  | laneStatusWritePlace | laneDrainComplete | laneTeardown | resetAllClearing | openLane | closeLane | forceClose
  | pauseLane | resumeLane | stepLane | haltLane | clearTrap | ackIrq | snapshot | reloadGlobals | resetAll =>
    exact .next _
  | _ => exact completion_answers rfl

end command

/-- Settles O4: both halves are read off the outcome that `exec_answers` gives. -/
theorem wellFormedCommandsComplete : Obligations.WellFormedCommandsComplete := fun c s =>
  ⟨(exec_answers c).next_of_wf, fun x h =>
    Answers.refusal (h ▸ exec_answers (s := s) c : Answers c.wf (.refused x))⟩

end Sys2Proof.Machine
